-- ==== Sys2Proof/Word.lean ====
section
/-! DEFINITION. The word types of GF256-CORE: a byte, a 16-bit packet field, and their plainest arithmetic
(spec/00_scope.md R9 to R12). -/

namespace Sys2Proof

/-- "A byte is an unsigned integer 0..255"; a codeword, a coefficient, a field element (R9). -/
abbrev Byte := BitVec 8

/-- A two-byte packet field, `u16` or `s16` (spec/30_encoding.md R92). -/
abbrev Word16 := BitVec 16

/-- A four-byte packet field, `u32` (spec/30_encoding.md R92). -/
abbrev Word32 := BitVec 32

/-- A polynomial over GF(256): its coefficients, most significant first (R12). -/
abbrev Poly := List Byte

end Sys2Proof
end

