-- ==== Sys2Proof/Config.lean ====
section
/-! DEFINITION. The implementation parameters of spec/00_scope.md section 4: LMAX, the types of the
configuration data, and the two functions the spec leaves uninterpreted, TRANSCODE and DETECT, as
constants without a body. The parameters that are finite tables are plain data (`Params`), held in State
so that a statement about every state holds for every configuration (log entry 1). -/

namespace Sys2Proof.Config

/-- "longest vector a packet field can carry", 65535 (spec/30_encoding.md R97). -/
def lmax : Nat := 65535

/-- The canonical charset names of spec/45_segment_decoder.md R262, and room for the names by which a
decoder "MAY accept others and expose them". -/
inductive Charset where
  | cp437
  /-- ISO-8859-`part`. -/
  | iso8859 (part : Nat)
  | shiftJis
  /-- Windows-`page`. -/
  | windows (page : Nat)
  | utf8
  | usAscii
  | big5
  | gb18030
  | eucKr
  | other (name : String)
  deriving DecidableEq, Repr

/-- The range of DETECT: "one of ISO-8859-1, Shift_JIS, UTF-8" (R264). -/
inductive Detected where
  | iso8859_1
  | shiftJis
  | utf8
  deriving DecidableEq, Repr, Inhabited

/-- `TRANSCODE(name, bytes)`, total and uninterpreted (R263). No body: log entry 2. -/
opaque transcode : Charset → List Byte → List Byte

/-- `DETECT(bytes)`, total with the stated range and otherwise uninterpreted (R264). No body: log entry 2. -/
opaque detect : List Byte → Detected

/-- What a `u16` length or count field holds when the number does not fit it; the spec states no value.
No body: log entry 12. -/
opaque wideCount16 : Nat → Word16

/-- What a `u32` length field holds when the number does not fit it; the spec states no value.
No body: log entry 12. -/
opaque wideCount32 : Nat → Word32

/-- One group of equal blocks (spec/43_deinterleave.md R210). The numbers are integers, as R211 tests them (log entry
26). -/
structure Group where
  blockCount : Int
  dataCodewords : Int
  deriving DecidableEq, Repr

/-- A block layout: "a list of (block-count, data-codewords-per-block) groups plus a shared
ecc-codewords-per-block value" (R210). -/
structure Layout where
  ec : Int
  groups : List Group
  deriving DecidableEq, Repr

/-- TOTAL and the four LAYOUTs of one version, ecl 0..3 in the order L, M, Q, H (R210, R216). -/
structure VersionRow where
  total : Int
  l : Layout
  m : Layout
  q : Layout
  h : Layout
  deriving DecidableEq, Repr

/-- KANJI_MAP, "total function" from 0..8191 to byte pairs (spec/00_scope.md R8): its two named instances (R254,
R255), and any other as the table of its 8192 values. -/
inductive KanjiMap where
  | iso
  | doc
  | table (pairs : Vector (Byte × Byte) 8192)
  deriving DecidableEq, Repr

/-- The configuration that is finite data. `versions` has version 1 first; there are 40 rows by type, so that TOTAL
and LAYOUT are total (spec/00_scope.md R8). -/
structure Params where
  versions : Vector VersionRow 40
  eciNames : List (Nat × Charset)
  kanjiMap : KanjiMap
  deriving DecidableEq, Repr

end Sys2Proof.Config
end

