-- ==== Sys2Proof/Machine/Charsets.lean ====
section
/-! DEFINITION. ECI_NAME and KANJI_MAP: the default table of spec/45_segment_decoder.md R262, its lookup, and the two
Kanji maps of R254 and R255. -/

namespace Sys2Proof.Machine

open Sys2Proof.Config

/-- The default ECI table (R262): ids 4 to 13 are ISO-8859-(id - 2); every id not listed has the name null. -/
def defaultEciNames : List (Nat × Charset) :=
  [(0, .cp437), (2, .cp437), (1, .iso8859 1), (3, .iso8859 1),
   (4, .iso8859 2), (5, .iso8859 3), (6, .iso8859 4), (7, .iso8859 5), (8, .iso8859 6),
   (9, .iso8859 7), (10, .iso8859 8), (11, .iso8859 9), (12, .iso8859 10), (13, .iso8859 11),
   (15, .iso8859 13), (20, .shiftJis), (21, .windows 1250),
   (22, .windows 1251), (23, .windows 1252), (24, .windows 1253), (25, .windows 1254),
   (26, .utf8), (27, .usAscii), (170, .usAscii), (28, .big5), (29, .gb18030), (30, .eucKr)]

/-- `ECI_NAME(id)`: a charset name or null (R261, R262). -/
def eciName (cfg : Params) (id : Nat) : Option Charset := cfg.eciNames.lookup id

/-- The name of what DETECT found (R259, R264). -/
def detectedName : Detected → Charset
  | .iso8859_1 => .iso8859 1
  | .shiftJis => .shiftJis
  | .utf8 => .utf8

/-- `KANJI_MAP_ISO(u)` (R254). -/
def kanjiMapIso (u : Nat) : Byte × Byte :=
  let hi := u / 0xC0
  let lo := u % 0xC0
  (BitVec.ofNat 8 (hi + if hi < 0x1F then 0x81 else 0xC1), BitVec.ofNat 8 (lo + 0x40))

/-- `KANJI_MAP_DOC(u)` (R255). -/
def kanjiMapDoc (u : Nat) : Byte × Byte :=
  if u < 0x1F00 then (BitVec.ofNat 8 (u / 0xC0 + 0x81), BitVec.ofNat 8 (u % 0xC0 + 0x40))
  else (BitVec.ofNat 8 ((u - 0x1F00) / 0xC0 + 0xE0), BitVec.ofNat 8 ((u - 0x1F00) % 0xC0 + 0x40))

/-- `KANJI_MAP(u)`, as configured (R254, R255; spec/00_scope.md R8). A unit of 13 bits is below 8192. -/
def kanjiMap (cfg : Params) (u : Nat) : Byte × Byte :=
  match cfg.kanjiMap with
  | .iso => kanjiMapIso u
  | .doc => kanjiMapDoc u
  | .table pairs => pairs.get (Fin.ofNat 8192 u)

end Sys2Proof.Machine
end

