-- ==== Sys2Proof/Machine/Layouts.lean ====
section
/-! DEFINITION. The candidate block layout of spec/43_deinterleave.md R216, the value of the open parameters LAYOUT
and TOTAL that State.reset holds (log entry 1: PRESUMED, from outside the source; the engine is defined over any
layout), and the reading of both parameters from the configuration. -/

namespace Sys2Proof.Machine

open Sys2Proof.Config

/-- A layout in the notation of R216: `ec; blockCount×data + blockCount×data`. -/
def lay (ec : Int) (groups : List (Int × Int)) : Layout :=
  ⟨ec, groups.map fun (n, d) => ⟨n, d⟩⟩

/-- R216, versions 1 to 10: TOTAL, then ecl 0 to 3. -/
def candidateRows1 : List VersionRow :=
  [ ⟨26, lay 7 [(1, 19)], lay 10 [(1, 16)], lay 13 [(1, 13)], lay 17 [(1, 9)]⟩,
    ⟨44, lay 10 [(1, 34)], lay 16 [(1, 28)], lay 22 [(1, 22)], lay 28 [(1, 16)]⟩,
    ⟨70, lay 15 [(1, 55)], lay 26 [(1, 44)], lay 18 [(2, 17)], lay 22 [(2, 13)]⟩,
    ⟨100, lay 20 [(1, 80)], lay 18 [(2, 32)], lay 26 [(2, 24)], lay 16 [(4, 9)]⟩,
    ⟨134, lay 26 [(1, 108)], lay 24 [(2, 43)], lay 18 [(2, 15), (2, 16)], lay 22 [(2, 11), (2, 12)]⟩,
    ⟨172, lay 18 [(2, 68)], lay 16 [(4, 27)], lay 24 [(4, 19)], lay 28 [(4, 15)]⟩,
    ⟨196, lay 20 [(2, 78)], lay 18 [(4, 31)], lay 18 [(2, 14), (4, 15)], lay 26 [(4, 13), (1, 14)]⟩,
    ⟨242, lay 24 [(2, 97)], lay 22 [(2, 38), (2, 39)], lay 22 [(4, 18), (2, 19)], lay 26 [(4, 14), (2, 15)]⟩,
    ⟨292, lay 30 [(2, 116)], lay 22 [(3, 36), (2, 37)], lay 20 [(4, 16), (4, 17)], lay 24 [(4, 12), (4, 13)]⟩,
    ⟨346, lay 18 [(2, 68), (2, 69)], lay 26 [(4, 43), (1, 44)], lay 24 [(6, 19), (2, 20)], lay 28 [(6, 15), (2, 16)]⟩ ]

/-- R216, versions 11 to 20: TOTAL, then ecl 0 to 3. -/
def candidateRows2 : List VersionRow :=
  [ ⟨404, lay 20 [(4, 81)], lay 30 [(1, 50), (4, 51)], lay 28 [(4, 22), (4, 23)], lay 24 [(3, 12), (8, 13)]⟩,
    ⟨466, lay 24 [(2, 92), (2, 93)], lay 22 [(6, 36), (2, 37)], lay 26 [(4, 20), (6, 21)], lay 28 [(7, 14), (4, 15)]⟩,
    ⟨532, lay 26 [(4, 107)], lay 22 [(8, 37), (1, 38)], lay 24 [(8, 20), (4, 21)], lay 22 [(12, 11), (4, 12)]⟩,
    ⟨581, lay 30 [(3, 115), (1, 116)], lay 24 [(4, 40), (5, 41)], lay 20 [(11, 16), (5, 17)], lay 24 [(11, 12), (5, 13)]⟩,
    ⟨655, lay 22 [(5, 87), (1, 88)], lay 24 [(5, 41), (5, 42)], lay 30 [(5, 24), (7, 25)], lay 24 [(11, 12), (7, 13)]⟩,
    ⟨733, lay 24 [(5, 98), (1, 99)], lay 28 [(7, 45), (3, 46)], lay 24 [(15, 19), (2, 20)], lay 30 [(3, 15), (13, 16)]⟩,
    ⟨815, lay 28 [(1, 107), (5, 108)], lay 28 [(10, 46), (1, 47)], lay 28 [(1, 22), (15, 23)], lay 28 [(2, 14), (17, 15)]⟩,
    ⟨901, lay 30 [(5, 120), (1, 121)], lay 26 [(9, 43), (4, 44)], lay 28 [(17, 22), (1, 23)], lay 28 [(2, 14), (19, 15)]⟩,
    ⟨991, lay 28 [(3, 113), (4, 114)], lay 26 [(3, 44), (11, 45)], lay 26 [(17, 21), (4, 22)], lay 26 [(9, 13), (16, 14)]⟩,
    ⟨1085, lay 28 [(3, 107), (5, 108)], lay 26 [(3, 41), (13, 42)], lay 30 [(15, 24), (5, 25)], lay 28 [(15, 15), (10, 16)]⟩ ]

/-- R216, versions 21 to 30: TOTAL, then ecl 0 to 3. -/
def candidateRows3 : List VersionRow :=
  [ ⟨1156, lay 28 [(4, 116), (4, 117)], lay 26 [(17, 42)], lay 28 [(17, 22), (6, 23)], lay 30 [(19, 16), (6, 17)]⟩,
    ⟨1258, lay 28 [(2, 111), (7, 112)], lay 28 [(17, 46)], lay 30 [(7, 24), (16, 25)], lay 24 [(34, 13)]⟩,
    ⟨1364, lay 30 [(4, 121), (5, 122)], lay 28 [(4, 47), (14, 48)], lay 30 [(11, 24), (14, 25)], lay 30 [(16, 15), (14, 16)]⟩,
    ⟨1474, lay 30 [(6, 117), (4, 118)], lay 28 [(6, 45), (14, 46)], lay 30 [(11, 24), (16, 25)], lay 30 [(30, 16), (2, 17)]⟩,
    ⟨1588, lay 26 [(8, 106), (4, 107)], lay 28 [(8, 47), (13, 48)], lay 30 [(7, 24), (22, 25)], lay 30 [(22, 15), (13, 16)]⟩,
    ⟨1706, lay 28 [(10, 114), (2, 115)], lay 28 [(19, 46), (4, 47)], lay 28 [(28, 22), (6, 23)], lay 30 [(33, 16), (4, 17)]⟩,
    ⟨1828, lay 30 [(8, 122), (4, 123)], lay 28 [(22, 45), (3, 46)], lay 30 [(8, 23), (26, 24)], lay 30 [(12, 15), (28, 16)]⟩,
    ⟨1921, lay 30 [(3, 117), (10, 118)], lay 28 [(3, 45), (23, 46)], lay 30 [(4, 24), (31, 25)], lay 30 [(11, 15), (31, 16)]⟩,
    ⟨2051, lay 30 [(7, 116), (7, 117)], lay 28 [(21, 45), (7, 46)], lay 30 [(1, 23), (37, 24)], lay 30 [(19, 15), (26, 16)]⟩,
    ⟨2185, lay 30 [(5, 115), (10, 116)], lay 28 [(19, 47), (10, 48)], lay 30 [(15, 24), (25, 25)], lay 30 [(23, 15), (25, 16)]⟩ ]

/-- R216, versions 31 to 40: TOTAL, then ecl 0 to 3. -/
def candidateRows4 : List VersionRow :=
  [ ⟨2323, lay 30 [(13, 115), (3, 116)], lay 28 [(2, 46), (29, 47)], lay 30 [(42, 24), (1, 25)], lay 30 [(23, 15), (28, 16)]⟩,
    ⟨2465, lay 30 [(17, 115)], lay 28 [(10, 46), (23, 47)], lay 30 [(10, 24), (35, 25)], lay 30 [(19, 15), (35, 16)]⟩,
    ⟨2611, lay 30 [(17, 115), (1, 116)], lay 28 [(14, 46), (21, 47)], lay 30 [(29, 24), (19, 25)], lay 30 [(11, 15), (46, 16)]⟩,
    ⟨2761, lay 30 [(13, 115), (6, 116)], lay 28 [(14, 46), (23, 47)], lay 30 [(44, 24), (7, 25)], lay 30 [(59, 16), (1, 17)]⟩,
    ⟨2876, lay 30 [(12, 121), (7, 122)], lay 28 [(12, 47), (26, 48)], lay 30 [(39, 24), (14, 25)], lay 30 [(22, 15), (41, 16)]⟩,
    ⟨3034, lay 30 [(6, 121), (14, 122)], lay 28 [(6, 47), (34, 48)], lay 30 [(46, 24), (10, 25)], lay 30 [(2, 15), (64, 16)]⟩,
    ⟨3196, lay 30 [(17, 122), (4, 123)], lay 28 [(29, 46), (14, 47)], lay 30 [(49, 24), (10, 25)], lay 30 [(24, 15), (46, 16)]⟩,
    ⟨3362, lay 30 [(4, 122), (18, 123)], lay 28 [(13, 46), (32, 47)], lay 30 [(48, 24), (14, 25)], lay 30 [(42, 15), (32, 16)]⟩,
    ⟨3532, lay 30 [(20, 117), (4, 118)], lay 28 [(40, 47), (7, 48)], lay 30 [(43, 24), (22, 25)], lay 30 [(10, 15), (67, 16)]⟩,
    ⟨3706, lay 30 [(19, 118), (6, 119)], lay 28 [(18, 47), (31, 48)], lay 30 [(34, 24), (34, 25)], lay 30 [(20, 15), (61, 16)]⟩ ]

/-- The whole candidate table, version 1 first. -/
def candidateVersions : Vector VersionRow 40 :=
  ⟨(candidateRows1 ++ candidateRows2 ++ candidateRows3 ++ candidateRows4).toArray, rfl⟩

/-- The row of a version 1..40, 1 first. -/
def versionRow (cfg : Params) (ver : Nat) : VersionRow := cfg.versions.get (Fin.ofNat 40 (ver - 1))

/-- `TOTAL(ver)` (R210). -/
def totalOf (cfg : Params) (ver : Nat) : Int := (versionRow cfg ver).total

/-- `LAYOUT(ver, ecl)`, ecl in the coding L = 0, M = 1, Q = 2, H = 3 (spec/30_encoding.md R98, R210). -/
def layoutOf (cfg : Params) (ver ecl : Nat) : Layout :=
  match ecl with
  | 0 => (versionRow cfg ver).l
  | 1 => (versionRow cfg ver).m
  | 2 => (versionRow cfg ver).q
  | _ => (versionRow cfg ver).h

end Sys2Proof.Machine
end

