-- ==== Sys2Proof/Machine/State.lean ====
section
/-! DEFINITION. The state of GF256-CORE, everything spec/10_state.md names and the parameters of the step, as plain
data; the causes of the engine's faults; the model's own stops; the state after reset (spec/10_state.md R41). -/

namespace Sys2Proof.Machine

open Sys2Proof.Config

/-- The cause codes of spec/60_exceptions.md R303, by name. Their numbers and kinds are in Machine/Flags.lean. -/
inductive Cause where
  | gfInvZero
  | gfLogZero
  | polyEmpty
  | negDegree
  | divByZeroPoly
  | rawLen
  | cursor
  | badVersion
  | badEcl
  | badOpcode
  | badPacket
  | lenOverflow
  | euclidArg
  | bbUnderrun
  | bbNeg
  | bbWidth
  | badMode
  | badEciHeader
  | saTruncated
  | numValue
  | alnumValue
  | eciRange
  | sigma0Zero
  | rootCount
  | zeroDenom
  | posRange
  deriving DecidableEq, Repr

/-- The status register (R37): "a pair (kind, cause) of two bytes". -/
structure Status where
  kind : Byte
  cause : Byte
  deriving DecidableEq, Repr

/-- The bit buffer and its cursor, the program counter of the segment level (R30, R31). -/
structure BitBuffer where
  bbuf : List Byte
  bpos : Nat
  boff : Nat
  deriving DecidableEq, Repr

/-- The reset state of the bit buffer (R41). -/
def BitBuffer.reset : BitBuffer := ⟨[], 0, 0⟩

/-- The ECI record: "identifier in 0..999999 plus a nullable canonical charset name" (R35). -/
structure EciRecord where
  id : Nat
  name : Option Charset
  deriving DecidableEq, Repr

/-- The segment registers (R33 to R36). The sentinel -1 of SASEQ and SAPAR is `none`. -/
structure SegRegs where
  ver : Nat
  text : List Byte
  eci : Option EciRecord
  saseq : Option Byte
  sapar : Option Byte
  deriving DecidableEq, Repr

/-- The segment registers outside a command, where the spec gives them no value (R41; log entry 3). -/
def SegRegs.reset : SegRegs := ⟨1, [], none, none, none⟩

/-- The polynomial temporaries of the Euclid stage (R27; spec/42_reed_solomon.md R183). -/
structure EuclidRegs where
  rLast : Poly
  r : Poly
  tLast : Poly
  t : Poly
  q : Poly
  deriving DecidableEq, Repr

/-- One block of the de-interleaver: "a pair (ndata, buf)" (R28). -/
structure Block where
  ndata : Nat
  buf : List Byte
  deriving DecidableEq, Repr

/-- The working registers of the RS.*, DEINT and DECODE commands (R27, R28, R29). -/
structure Work where
  rx : List Byte
  twos : Nat
  syn : List Byte
  spoly : Poly
  sigma : Poly
  omega : Poly
  xloc : List Byte
  emag : List Byte
  epos : List Int
  euclid : EuclidRegs
  raw : List Byte
  blk : List Block
  cur : Nat
  agg : List Byte
  deriving DecidableEq, Repr

/-- The working registers outside a command, where the spec gives them no value (R41; log entry 4). -/
def Work.reset : Work :=
  ⟨[], 0, [], [0], [0], [0], [], [], [], ⟨[0], [0], [0], [0], [0]⟩, [], [], 0, []⟩

/-- Which instruction level the next step executes (spec/30_encoding.md R90): the model's own field. -/
inductive Activity where
  /-- Between commands: the next step takes what the host sends. -/
  | idle
  /-- Inside SEG.DECODE: the next step executes a segment. -/
  | segRun
  /-- Inside DECODE: the next step executes a segment; the operand `ecl` is echoed at the end
  (spec/46_decode_pipeline.md R281). -/
  | decodeRun (ecl : Byte)
  deriving DecidableEq, Repr

/-- What the host can do between commands (spec/60_exceptions.md R324, spec/70_reset_and_hazards.md R340). -/
inductive HostAction where
  | packet (bytes : List Byte)
  | reset
  deriving DecidableEq, Repr

/-- The machine. `cfg`, `script` and `responses` are the parameters of the step and its answers, which
spec/00_scope.md R17 says are not the engine's state (log entries 1 and 5). -/
structure State where
  /-- STATUS. -/
  status : Status
  /-- BBUF, BPOS, BOFF. -/
  bb : BitBuffer
  /-- VER, TEXT, ECI, SASEQ, SAPAR. -/
  seg : SegRegs
  /-- RX to EPOS, RAW, BLK, CUR, AGG. -/
  work : Work
  activity : Activity
  /-- LAYOUT, TOTAL, ECI_NAME, KANJI_MAP. -/
  cfg : Params
  /-- What the host does next. -/
  script : List HostAction
  /-- The response packets, oldest first. -/
  responses : List (List Byte)
  deriving DecidableEq, Repr

/-- Why the model stops. No step of a run raises one (Safety.lean); `exec` applied outside a run does. -/
inductive Fault where
  /-- Raised by every command's meaning when a segment stream is running: "the engine has no queue, no busy flag and
  no defined reaction to overlapping packets, and a model does not offer that transition" (R357). Safe. -/
  | commandDuringRun
  /-- Raised by every segment's meaning when no stream is running: a segment is an instruction only "inside the data
  stream that SEG.DECODE and DECODE interpret" (R90). Safe. -/
  | segmentOutsideRun
  deriving DecidableEq, Repr

/-- Why the model refuses. Every instruction has its meaning, so nothing raises one. -/
inductive Refusal where
  /-- An instruction whose arm has no meaning yet. Safe. -/
  | notModelled (mnemonic : String)
  deriving DecidableEq, Repr

/-- The configuration after reset: the candidate layout and the spec's defaults (log entry 1). -/
def defaultParams : Params := ⟨candidateVersions, defaultEciNames, .iso⟩

/-- The machine right after reset (R41). -/
def State.reset : State where
  status := ⟨0x00, 0x00⟩
  bb := BitBuffer.reset
  seg := SegRegs.reset
  work := Work.reset
  activity := .idle
  cfg := defaultParams
  script := []
  responses := []

end Sys2Proof.Machine
end

