-- ==== Sys2Proof/Machine/Flags.lean ====
section
/-! DEFINITION. The engine has "no status flags, condition codes or predicates" (spec/10_state.md R38). Its one status
is the pair (kind, cause) that every command writes (R37); here are the numbers of spec/60_exceptions.md R301 and
R303. -/

namespace Sys2Proof.Machine

/-- The status of a command that completes: kind OK, cause 0x00 (R301, R303). -/
def okStatus : Status := ⟨0x00, 0x00⟩

/-- The cause code (R303). -/
def causeCode : Cause → Byte
  | .gfInvZero => 0x01
  | .gfLogZero => 0x02
  | .polyEmpty => 0x03
  | .negDegree => 0x04
  | .divByZeroPoly => 0x05
  | .rawLen => 0x06
  | .cursor => 0x07
  | .badVersion => 0x08
  | .badEcl => 0x09
  | .badOpcode => 0x0A
  | .badPacket => 0x0B
  | .lenOverflow => 0x0C
  | .euclidArg => 0x0D
  | .bbUnderrun => 0x20
  | .bbNeg => 0x21
  | .bbWidth => 0x22
  | .badMode => 0x30
  | .badEciHeader => 0x31
  | .saTruncated => 0x32
  | .numValue => 0x33
  | .alnumValue => 0x34
  | .eciRange => 0x35
  | .sigma0Zero => 0x40
  | .rootCount => 0x41
  | .zeroDenom => 0x42
  | .posRange => 0x43

/-- The kind a cause belongs to (R303): IllegalArgument 0x01, OutOfRange 0x02, FormatError 0x03,
ReedSolomonError 0x04 (R301). ChecksumError 0x05 and DetectorError 0x06 are never raised. -/
def causeKind : Cause → Byte
  | .gfInvZero => 0x01
  | .gfLogZero => 0x01
  | .polyEmpty => 0x01
  | .negDegree => 0x01
  | .divByZeroPoly => 0x01
  | .rawLen => 0x01
  | .cursor => 0x01
  | .badVersion => 0x01
  | .badEcl => 0x01
  | .badOpcode => 0x01
  | .badPacket => 0x01
  | .lenOverflow => 0x01
  | .euclidArg => 0x01
  | .bbUnderrun => 0x02
  | .bbNeg => 0x02
  | .bbWidth => 0x02
  | .badMode => 0x03
  | .badEciHeader => 0x03
  | .saTruncated => 0x03
  | .numValue => 0x03
  | .alnumValue => 0x03
  | .eciRange => 0x03
  | .sigma0Zero => 0x04
  | .rootCount => 0x04
  | .zeroDenom => 0x04
  | .posRange => 0x04

/-- What `raise K(c)` writes to STATUS (R302). -/
def causeStatus (c : Cause) : Status := ⟨causeKind c, causeCode c⟩

end Sys2Proof.Machine
end

