-- ==== Sys2Proof/Machine/Polynomial.lean ====
section
/-! DEFINITION. The polynomial unit: the named functions of spec/41_gfpoly.md. A polynomial is its coefficients, most
significant first. `raise` is `Except.error`. The functions without an argument fault are total; the length limit of
spec/30_encoding.md R97 is a limit on a command's result and stands in the checked forms only (log entry 11). -/

namespace Sys2Proof.Machine

open Sys2Proof.Config

/-- The constructor on a vector that is not empty and not too long, degree 0: leading zeros stripped, an all-zero
vector the zero polynomial [0] (R151). -/
def strip (c : List Byte) : Poly :=
  match c.dropWhile (· == 0) with
  | [] => [0]
  | p => p

/-- `norm(c, degree)`, the constructor (R151), its tests in the order of the rule. -/
def norm (c : List Byte) (degree : Int) : Except Cause Poly :=
  if c = [] then .error .polyEmpty
  else if degree < 0 then .error .negDegree
  else
    match c.dropWhile (· == 0) with
    | [] => .ok [0]
    | p =>
      if p.length + degree.toNat > lmax then .error .lenOverflow
      else .ok (p ++ List.replicate degree.toNat 0)

/-- A canonical polynomial: not empty, and its first coefficient not zero unless it is [0]
(spec/00_scope.md R12, R164). -/
abbrev Canonical (p : Poly) : Prop := p ≠ [] ∧ (p.headD 0 = 0 → p = [0])

/-- `pdeg(p)` (R152). -/
def pdeg (p : Poly) : Nat := p.length - 1

/-- `pcoef(p, deg)` (R153): out of range returns 0, a negative degree too. -/
def pcoef (p : Poly) (deg : Int) : Byte :=
  if deg < 0 ∨ (pdeg p : Int) < deg then 0 else p.getD (p.length - 1 - deg.toNat) 0

/-- `pzero(p)` (R154): p[0] = 0. -/
def pzero (p : Poly) : Bool := p.headD 0 == 0

/-- Horner's rule from the accumulator `r` (R155). -/
def horner (x : Byte) (r : Byte) (p : List Byte) : Byte := p.foldl (fun r c => gmul x r ^^^ c) r

/-- `peval(p, x)` (R155), with the two fast paths as the rule has them. -/
def peval (p : Poly) (x : Byte) : Byte :=
  if x = 0 then p.getLastD 0
  else if x = 1 then p.foldl (fun r c => r ^^^ c) 0
  else horner x (p.headD 0) p.tail

/-- XOR of the tail of the longer vector with the shorter one, aligned at the constant term (R156). -/
def xorAligned (l s : List Byte) : List Byte :=
  l.take (l.length - s.length) ++ List.zipWith (· ^^^ ·) (l.drop (l.length - s.length)) s

/-- `padd(p, q)` (R156). -/
def padd (p q : Poly) : Poly :=
  if pzero p then q
  else if pzero q then p
  else if p.length > q.length then strip (xorAligned p q)
  else strip (xorAligned q p)

/-- The convolution of R157 before the constructor: the row of each coefficient of p, at its place, XORed
together; len(p) + len(q) - 1 bytes. -/
def convolve : Poly → Poly → List Byte
  | [], q => List.replicate (q.length - 1) 0
  | a :: p, q => List.zipWith (· ^^^ ·) (q.map (gmul a) ++ List.replicate p.length 0) (0 :: convolve p q)

/-- `pmul(p, q)` without the length test (R157). -/
def pmul (p q : Poly) : Poly :=
  if pzero p || pzero q then [0] else strip (convolve p q)

/-- `pmul(p, q)` with the length test of R157, "only when both operands are non-zero". -/
def pmulChecked (p q : Poly) : Except Cause Poly :=
  if pzero p || pzero q then .ok [0]
  else if p.length + q.length - 1 > lmax then .error .lenOverflow
  else .ok (pmul p q)

/-- `pmuli(p, s)` (R158). -/
def pmuli (p : Poly) (s : Byte) : Poly :=
  if s = 0 then [0] else if s = 1 then p else strip (p.map (gmul · s))

/-- `pmulm(p, degree, coefficient)` for a degree that is not negative, without the length test (R159). -/
def pmulm (p : Poly) (degree : Nat) (coefficient : Byte) : Poly :=
  if coefficient = 0 || pzero p then [0]
  else strip (p.map (gmul · coefficient) ++ List.replicate degree 0)

/-- `pmulm(p, degree, coefficient)` with the tests of R159 in its order. -/
def pmulmChecked (p : Poly) (degree : Int) (coefficient : Byte) : Except Cause Poly :=
  if degree < 0 then .error .negDegree
  else if coefficient = 0 || pzero p then .ok [0]
  else if p.length + degree.toNat > lmax then .error .lenOverflow
  else .ok (pmulm p degree.toNat coefficient)

/-- The while loop of R160, at most `fuel` passes: cancel the leading term of `rem` with the scaled, shifted
divisor. -/
def divLoop (q : Poly) (dinv : Byte) : (fuel : Nat) → (quo rem : Poly) → Poly × Poly
  | 0, quo, rem => (quo, rem)
  | fuel + 1, quo, rem =>
    if pdeg q ≤ pdeg rem ∧ pzero rem = false then
      let dd := pdeg rem - pdeg q
      let sc := gmul (rem.headD 0) dinv
      divLoop q dinv fuel (padd quo (monomial dd sc)) (padd rem (pmulm q dd sc))
    else (quo, rem)

/-- `pdiv(p, q)` (R160). The loop runs at most pdeg(p) - pdeg(q) + 1 times, so len(p) passes are enough
(spec/70_reset_and_hazards.md R361; log entry 15). -/
def pdiv (p q : Poly) : Except Cause (Poly × Poly) :=
  if pzero q then .error .divByZeroPoly
  else
    match ginv (q.headD 0) with
    | .error c => .error c
    | .ok dinv => .ok (divLoop q dinv p.length [0] p)

/-- `pmod(p, q)` (R161): the remainder of `pdiv`. -/
def pmod (p q : Poly) : Except Cause Poly := (pdiv p q).map Prod.snd

end Sys2Proof.Machine
end

