-- ==== Sys2Proof/Machine/Operands.lean ====
section
/-! DEFINITION. Operand forms: how a command takes a `poly`, a signed field, a version and an ecl from its packet
(spec/30_encoding.md R92, R96, R98), the count widths and the character table of the segments (R102, R109), and the
result fields of a response (R92, R93). -/

namespace Sys2Proof.Machine

open Sys2Proof.Config

/-- A `poly` operand: "passed through the constructor `norm(c, 0)`" (R96). -/
def polyOperand (c : List Byte) : Except Cause Poly := norm c 0

/-- An `s8` field, "`sext` of the byte" (R92). -/
def s8Operand (b : Byte) : Int := b.toInt

/-- An `s16` field, two's complement (R92). -/
def s16Operand (w : Word16) : Int := w.toInt

/-- `version`: "values outside 1..40 raise IllegalArgument(BAD_VERSION)" (R98). -/
def versionOperand (version : Byte) : Except Cause Nat :=
  if version.toNat < 1 ∨ 40 < version.toNat then .error .badVersion else .ok version.toNat

/-- `ecl`: L = 0, M = 1, Q = 2, H = 3; "other values raise IllegalArgument(BAD_ECL)" (R98). -/
def eclOperand (ecl : Byte) : Except Cause Nat :=
  if 3 < ecl.toNat then .error .badEcl else .ok ecl.toNat

/-! ## Segment operands -/

/-- The width that a version selects of three (R102). -/
def byVersion (ver narrow middle wide : Nat) : Nat :=
  if ver ≤ 9 then narrow else if ver ≤ 26 then middle else wide

/-- `w_NUMERIC` (spec/45_segment_decoder.md R253). -/
def numericWidth (ver : Nat) : Nat := byVersion ver 10 12 14

/-- `w_ALPHANUMERIC` (R253). -/
def alphanumericWidth (ver : Nat) : Nat := byVersion ver 9 11 13

/-- `w_BYTE` (R253). -/
def byteWidth (ver : Nat) : Nat := byVersion ver 8 16 16

/-- `w_KANJI` (R253). -/
def kanjiWidth (ver : Nat) : Nat := byVersion ver 8 10 12

/-- The alphanumeric character table as ASCII bytes, index 0..44 (R109). -/
def alnumTable : List Byte :=
  [0x30, 0x31, 0x32, 0x33, 0x34, 0x35, 0x36, 0x37, 0x38, 0x39,
   0x41, 0x42, 0x43, 0x44, 0x45, 0x46, 0x47, 0x48, 0x49, 0x4A, 0x4B, 0x4C, 0x4D,
   0x4E, 0x4F, 0x50, 0x51, 0x52, 0x53, 0x54, 0x55, 0x56, 0x57, 0x58, 0x59, 0x5A,
   0x20, 0x24, 0x25, 0x2A, 0x2B, 0x2D, 0x2E, 0x2F, 0x3A]

/-- `A[i]`, i in 0..44. -/
def alnumChar (i : Nat) : Byte := alnumTable.getD i 0

/-- The ASCII digit of a value 0..9. -/
def digit (v : Nat) : Byte := BitVec.ofNat 8 (0x30 + v)

/-! ## Result fields -/

/-- A `u16` result. A number that does not fit has no stated value (log entry 12). -/
def u16Field (n : Nat) : List Byte :=
  let w : Word16 := if n < 2 ^ 16 then BitVec.ofNat 16 n else wideCount16 n
  [w.extractLsb' 8 8, w.extractLsb' 0 8]

/-- A `u32` result. A number that does not fit has no stated value (log entry 12). -/
def u32Field (n : Nat) : List Byte :=
  let w : Word32 := if n < 2 ^ 32 then BitVec.ofNat 32 n else wideCount32 n
  [w.extractLsb' 24 8, w.extractLsb' 16 8, w.extractLsb' 8 8, w.extractLsb' 0 8]

/-- An `s16` result that is a byte or the sentinel -1, sent as 0xFFFF (R98). -/
def sentinelField : Option Byte → List Byte
  | none => [0xFF, 0xFF]
  | some b => [0x00, b]

/-- A `vec` or `poly` result: a `u16` length, then the bytes. -/
def vecField (v : List Byte) : List Byte := u16Field v.length ++ v

/-- A `vec32` result: a `u32` length, then the bytes. -/
def vec32Field (v : List Byte) : List Byte := u32Field v.length ++ v

end Sys2Proof.Machine
end

