-- ==== Sys2Proof/Machine/Ops.lean ====
section
/-! DEFINITION. The named operations over the state: the bit buffer (spec/44_bitbuffer.md), a command's success,
taking a fault (spec/60_exceptions.md R302, R312), the start and the end of a segment run, and the two frames in which
a meaning executes. There is no return from a fault: "no return instruction and nothing to restore" (R313). -/

namespace Sys2Proof.Machine

/-- What `exec` and `step` answer. -/
abbrev Result := Host.Outcome State Fault Refusal

/-! ## The bit buffer -/

/-- `BBavail()` (R233): the remaining bits. -/
def BitBuffer.avail (b : BitBuffer) : Nat := 8 * (b.bbuf.length - b.bpos) - b.boff

/-- The next unread bit: bit (7 - BOFF) of BBUF[BPOS] (spec/10_state.md R31). -/
def BitBuffer.bit (b : BitBuffer) : Bool := (b.bbuf.getD b.bpos 0).getLsbD (7 - b.boff)

/-- The cursor one bit on (R234). -/
def BitBuffer.next (b : BitBuffer) : BitBuffer :=
  if b.boff + 1 = 8 then { b with bpos := b.bpos + 1, boff := 0 } else { b with boff := b.boff + 1 }

/-- The loop of R234: takes `n` bits, first-read bit most significant, after the bits already in `v`. -/
def BitBuffer.take : (n v : Nat) → BitBuffer → Nat × BitBuffer
  | 0, v, b => (v, b)
  | n + 1, v, b => BitBuffer.take n (2 * v + b.bit.toNat) b.next

/-- `BBread(n)` (R234). All three tests come before the first bit is taken. -/
def BitBuffer.read (n : Int) (b : BitBuffer) : Except Cause (Nat × BitBuffer) :=
  if n < 0 then .error .bbNeg
  else if n = 0 ∨ 32 < n then .error .bbWidth
  else if (b.avail : Int) < n then .error .bbUnderrun
  else .ok (BitBuffer.take n.toNat 0 b)

/-- The next `n` bits, or as many as remain, the cursor where it was: what the fetch of a segment looks at. -/
def BitBuffer.window : (n : Nat) → BitBuffer → List Bool
  | 0, _ => []
  | n + 1, b => if b.avail = 0 then [] else b.bit :: BitBuffer.window n b.next

/-- The cursor `n` bits on. -/
def BitBuffer.skip (n : Nat) (b : BitBuffer) : BitBuffer := (BitBuffer.take n 0 b).2

/-- R231, "true after reset and kept by every rule". -/
abbrev BitBuffer.Wf (b : BitBuffer) : Prop :=
  b.bpos ≤ b.bbuf.length ∧ b.boff ≤ 7 ∧ (b.bpos = b.bbuf.length → b.boff = 0)

/-- BBUF, BPOS, BOFF in the reset state (spec/10_state.md R40). -/
def clearBitBuffer (s : State) : State := { s with bb := BitBuffer.reset }

/-! ## The end of a command -/

/-- The engine between commands: every working register is dropped (spec/10_state.md R40, R312; log entry 13). -/
def dropRegisters (s : State) : State :=
  { s with seg := SegRegs.reset, work := Work.reset, activity := .idle }

/-- A command completes: STATUS is OK and the response is the two status bytes and the result fields
(spec/30_encoding.md R93). -/
def complete (fields : List Byte) (s : State) : State :=
  { dropRegisters s with
    status := okStatus
    responses := s.responses ++ [[okStatus.kind, okStatus.cause] ++ fields] }

/-- Taking a fault, `raise K(c)` (R302, R312): STATUS holds (kind, cause), the response is these two bytes and
nothing else, the working registers are dropped; the bit buffer is what it was, unless a segment run is in progress:
then it ends in the reset state. Nothing is saved and control goes nowhere. -/
def takeFault (c : Cause) (s : State) : State :=
  { dropRegisters s with
    status := causeStatus c
    bb := if s.activity = .idle then s.bb else BitBuffer.reset
    responses := s.responses ++ [[causeKind c, causeCode c]] }

/-! ## A segment run -/

/-- The start of `seg_decode` (spec/45_segment_decoder.md R240): VER, the bit buffer over the data, and the registers
at their initial values. -/
def startRun (activity : Activity) (ver : Nat) (data : List Byte) (s : State) : State :=
  { s with bb := ⟨data, 0, 0⟩, seg := ⟨ver, [], none, none, none⟩, activity := activity }

/-- The result fields of a run that ends without a fault: those of SEG.DECODE (R240) or of DECODE
(spec/46_decode_pipeline.md R280). -/
def runFields (s : State) : List Byte :=
  match s.activity with
  | .decodeRun ecl =>
    [BitVec.ofNat 8 s.seg.ver, ecl] ++ sentinelField s.seg.saseq ++ sentinelField s.seg.sapar
      ++ vecField s.work.agg ++ vec32Field s.seg.text
  | _ => sentinelField s.seg.saseq ++ sentinelField s.seg.sapar ++ vec32Field s.seg.text

/-- The exit of the loop of R241: the bit buffer is reset and the result returned (R240, R256). -/
def endRun (s : State) : State := complete (runFields s) (clearBitBuffer s)

/-! ## The frames of a meaning -/

/-- A level 1 meaning: its body runs on the operands and answers the state after it, or the cause it raises. -/
def command (s : State) (body : State → Except Cause State) : Result :=
  if s.activity = .idle then
    .next (match body s with
      | .ok t => t
      | .error c => takeFault c s)
  else .fault .commandDuringRun

/-- A level 2 meaning: the same, inside a segment run. -/
def segment (s : State) (body : State → Except Cause State) : Result :=
  if s.activity = .idle then .fault .segmentOutsideRun
  else
    .next (match body s with
      | .ok t => t
      | .error c => takeFault c s)

/-- A command that answers result fields and changes nothing but STATUS. -/
def answer (s : State) (fields : Except Cause (List Byte)) : Result :=
  command s fun s => fields.map fun f => complete f s

end Sys2Proof.Machine
end

