-- ==== Sys2Proof/Machine/Bb.lean ====
section
/-! DEFINITION. The meanings of the BB.* commands (spec/44_bitbuffer.md R232 to R234). -/

namespace Sys2Proof.Machine

/-- BB.LOAD (R232). -/
def execBbLoad (bytes : List Byte) (s : State) : Result :=
  command s fun s => .ok (complete [] { s with bb := ⟨bytes, 0, 0⟩ })

/-- BB.AVAIL (R233). -/
def execBbAvail (s : State) : Result := answer s (.ok (u32Field s.bb.avail))

/-- BB.READ (R234). A read that faults consumes nothing. -/
def execBbRead (n : Byte) (s : State) : Result :=
  command s fun s => do
    let (v, b) ← s.bb.read (s8Operand n)
    return complete (u32Field v) { s with bb := b }

end Sys2Proof.Machine
end

