-- ==== Sys2Proof/Machine/Deinterleave.lean ====
section
/-! DEFINITION. The block de-interleaver of spec/43_deinterleave.md over the working registers RAW, BLK and CUR
(spec/10_state.md R28). -/

namespace Sys2Proof.Machine

open Sys2Proof.Config

/-- d_0, d_1, ...: the data-codeword counts of the blocks in order (R211). -/
def blockSizes (groups : List Group) : List Int :=
  groups.flatMap fun g => List.replicate g.blockCount.toNat g.dataCodewords

/-- WF(ec, groups) (R211). -/
def wellFormedLayout (layout : Layout) : Bool :=
  let d := blockSizes layout.groups
  !layout.groups.isEmpty
    && layout.groups.all (fun g => 1 ≤ g.blockCount)
    && 0 ≤ layout.ec
    && layout.groups.all (fun g => 0 ≤ g.dataCodewords)
    && (d.zip d.tail).all (fun (a, b) => a ≤ b)
    && d.all (fun x => x = d.headD 0 || x = d.headD 0 + 1)

/-- Step 2: the blocks, each buffer of length d + ec, neither of them negative in a well-formed layout. Nothing reads
a byte of a buffer before step 4 or 5 has written it (R214), so the zeros they are allocated with are never seen (log
entry 14). -/
def allocateBlocks (layout : Layout) : List Block :=
  (blockSizes layout.groups).map fun d => ⟨d.toNat, List.replicate (d + layout.ec).toNat 0⟩

/-- The (block, offset) pairs that steps 4 and 5 write, in their order: the data phase, the extra data codewords of
the longer blocks, the ECC phase (R212). -/
def writeOrder (nb shorterDataLen longerStart ec : Nat) : List (Nat × Nat) :=
  ((List.range shorterDataLen).flatMap fun i => (List.range nb).map fun j => (j, i))
    ++ (List.range' longerStart (nb - longerStart)).map (fun j => (j, shorterDataLen))
    ++ (List.range' shorterDataLen ec).flatMap fun i =>
        (List.range nb).map fun j => (j, if j < longerStart then i else i + 1)

/-- `BLK[j].buf[i] <- RAW[CUR];  CUR <- CUR + 1`. -/
def writeNext (raw : List Byte) (at' : List Block × Nat) (target : Nat × Nat) : List Block × Nat :=
  (at'.1.modify target.1 fun b => { b with buf := b.buf.set target.2 (raw.getD at'.2 0) }, at'.2 + 1)

/-- Steps 3 to 5: the filled blocks and the final cursor. -/
def fillBlocks (ec : Nat) (raw : List Byte) (blk : List Block) : List Block × Nat :=
  let shorterLen := (blk.map fun b => b.buf.length).headD 0
  let longerStart := blk.findIdx fun b => shorterLen < b.buf.length
  (writeOrder blk.length (shorterLen - ec) longerStart ec).foldl (writeNext raw) (blk, 0)

/-- `deint(version, ecl, raw)` (R212), its tests in the order of the rule. Step 6 is tested before the first read. -/
def deinterleave (cfg : Params) (version ecl : Byte) (raw : List Byte) (w : Work) : Except Cause Work :=
  match versionOperand version with
  | .error c => .error c
  | .ok ver =>
    match eclOperand ecl with
    | .error c => .error c
    | .ok level =>
      let layout := layoutOf cfg ver level
      if (raw.length : Int) ≠ totalOf cfg ver then .error .rawLen
      else if wellFormedLayout layout = false then .error .cursor
      else if ((allocateBlocks layout).map fun b => b.buf.length).sum ≠ raw.length then .error .cursor
      else
        let filled := fillBlocks layout.ec.toNat raw (allocateBlocks layout)
        .ok { w with raw := raw, blk := filled.1, cur := filled.2 }

end Sys2Proof.Machine
end

