-- ==== Sys2Proof/Machine/Deint.lean ====
section
/-! DEFINITION. The meaning of DEINT (spec/43_deinterleave.md R212). -/

namespace Sys2Proof.Machine

/-- "nb:`u16`, then for each block in order ndata:`u16` and buf:`vec`". -/
def blocksField (blk : List Block) : List Byte :=
  u16Field blk.length ++ blk.flatMap fun b => u16Field b.ndata ++ vecField b.buf

/-- DEINT (R212). -/
def execDeint (version ecl : Byte) (raw : List Byte) (s : State) : Result :=
  command s fun s => do
    let w ← deinterleave s.cfg version ecl raw s.work
    return complete (blocksField w.blk) { s with work := w }

end Sys2Proof.Machine
end

