-- ==== Sys2Proof/Machine/Gf.lean ====
section
/-! DEFINITION. The meanings of the GF.* commands (spec/40_gf256.md R132 to R137). -/

namespace Sys2Proof.Machine

/-- GF.ADD (R132). -/
def execGfAdd (a b : Byte) (s : State) : Result := answer s (.ok [a ^^^ b])

/-- GF.MUL (R133). -/
def execGfMul (a b : Byte) (s : State) : Result := answer s (.ok [gmul a b])

/-- GF.INV (R134). -/
def execGfInv (a : Byte) (s : State) : Result := answer s ((ginv a).map fun r => [r])

/-- GF.EXP (R135). -/
def execGfExp (i : Word16) (s : State) : Result := answer s (.ok [gexp i.toNat])

/-- GF.LOG (R136). -/
def execGfLog (a : Byte) (s : State) : Result := answer s ((glog a).map fun l => [BitVec.ofNat 8 l])

/-- GF.MONO (R137). -/
def execGfMono (degree : Word16) (coefficient : Byte) (s : State) : Result :=
  answer s ((mono (s16Operand degree) coefficient).map vecField)

end Sys2Proof.Machine
end

