-- ==== Sys2Proof/Machine/ReedSolomon.lean ====
section
/-! DEFINITION. The Reed–Solomon decoder of spec/42_reed_solomon.md: its stages as functions, and each stage as a
transfer between the working registers of spec/10_state.md R27. -/

namespace Sys2Proof.Machine

/-! ## The stages as functions -/

/-- `rs_syn(received, twoS)` (R181): SYN and SPOLY. "An empty `received` is the zero polynomial"; S_i is the
coefficient of x^i (R182). -/
def rsSyn (received : List Byte) (twoS : Nat) : List Byte × Poly :=
  let p := if received = [] then [0] else strip received
  let syn := (List.range twoS).map fun i => peval p (gexp i)
  (syn, if twoS = 0 then [0] else strip syn.reverse)

/-- One pass of the loop of R183. -/
def euclidPass (e : EuclidRegs) : Except Cause EuclidRegs :=
  match pdiv e.rLast e.r with
  | .error c => .error c
  | .ok (q, r) => .ok ⟨e.r, r, e.t, padd (pmul q e.t) e.tLast, q⟩

/-- The while loop of R183, at most `fuel` passes: continue while 2·deg(r) ≥ twoS. -/
def euclidLoop (twoS : Nat) : (fuel : Nat) → EuclidRegs → Except Cause EuclidRegs
  | 0, e => .ok e
  | fuel + 1, e =>
    if twoS ≤ 2 * pdeg e.r then
      match euclidPass e with
      | .error c => .error c
      | .ok e' => euclidLoop twoS fuel e'
    else .ok e

/-- The initial temporaries of R183: x^twoS and S, the co-factors 0 and 1. R183 assigns q inside the loop only and
gives it no value before the first pass; the model holds [0] there, over an earlier block's q too (DESIGN CHOICE, log
entry 25). No pass reads it. -/
def euclidStart (spoly : Poly) (twoS : Nat) : EuclidRegs :=
  ⟨monomial twoS 1, spoly, [0], [1], [0]⟩

/-- `rs_euclid(S, R)` (R183): the final temporaries, SIGMA and OMEGA. The loop runs at most pdeg(S) + 1 times
(R184), so len(S) passes are enough. -/
def rsEuclid (spoly : Poly) (twoS : Nat) : Except Cause (EuclidRegs × Poly × Poly) :=
  if twoS = 0 ∨ twoS ≤ pdeg spoly then .error .euclidArg
  else
    match euclidLoop twoS spoly.length (euclidStart spoly twoS) with
    | .error c => .error c
    | .ok e =>
      let s0 := pcoef e.t 0
      if s0 = 0 then .error .sigma0Zero
      else
        match ginv s0 with
        | .error c => .error c
        | .ok inv => .ok (e, pmuli e.t inv, pmuli e.r inv)

/-- The locators of the roots of sigma in the order of the loop of R185: α^i for each i in 1..255 with
σ(α^(-i)) = 0. -/
def chienLocators (sigma : Poly) : List Byte :=
  ((List.range' 1 255).filter fun i => peval sigma (gexp (255 - i)) == 0).map gexp

/-- `rs_chien(sigma)` (R185). -/
def rsChien (sigma : Poly) : Except Cause (List Byte) :=
  if (chienLocators sigma).length ≠ pdeg sigma then .error .rootCount else .ok (chienLocators sigma)

/-- `pderiv(sigma)` (R186): the coefficient of x^k is σ_(k+1) for even k and 0 for odd k. -/
def pderiv (sigma : Poly) : Poly :=
  if pdeg sigma = 0 then [0]
  else strip ((List.range (pdeg sigma)).reverse.map fun k => if k % 2 = 0 then pcoef sigma (k + 1) else 0)

/-- `rs_forney(sigma, omega, xloc)` (R187), from the derivative D. -/
def forneyFrom (d omega : Poly) : List Byte → Except Cause (List Byte)
  | [] => .ok []
  | x :: xs =>
    match ginv x with
    | .error c => .error c
    | .ok xi =>
      let den := peval d xi
      if den = 0 then .error .zeroDenom
      else
        match ginv den with
        | .error c => .error c
        | .ok dinv =>
          match forneyFrom d omega xs with
          | .error c => .error c
          | .ok es => .ok (gmul x (gmul (peval omega xi) dinv) :: es)

/-- `rs_forney(sigma, omega, xloc)` (R187). -/
def rsForney (sigma omega : Poly) (xloc : List Byte) : Except Cause (List Byte) :=
  forneyFrom (pderiv sigma) omega xloc

/-- The positions of R188 and R189, p = N - 1 - LOG[X], each tested before the next. -/
def rsPositions (n : Nat) : List Byte → Except Cause (List Int)
  | [] => .ok []
  | x :: xs =>
    match glog x with
    | .error c => .error c
    | .ok l =>
      let p : Int := (n : Int) - 1 - l
      if p < 0 then .error .posRange
      else
        match rsPositions n xs with
        | .error c => .error c
        | .ok ps => .ok (p :: ps)

/-- The last loop of R189: OUT[EPOS[k]] <- OUT[EPOS[k]] ^ EMAG[k]. -/
def applyErrors (out : List Byte) (errors : List (Int × Byte)) : List Byte :=
  errors.foldl (fun out e => out.modify e.1.toNat (· ^^^ e.2)) out

/-! ## The stages over the working registers (spec/10_state.md R27) -/

/-- RX and TWOS, SYN and SPOLY. -/
def stageSyn (received : List Byte) (twoS : Nat) (w : Work) : Work :=
  { w with rx := received, twos := twoS, syn := (rsSyn received twoS).1, spoly := (rsSyn received twoS).2 }

/-- SIGMA, OMEGA and the Euclid temporaries from SPOLY and TWOS. -/
def stageEuclid (w : Work) : Except Cause Work :=
  match rsEuclid w.spoly w.twos with
  | .error c => .error c
  | .ok (e, sigma, omega) => .ok { w with euclid := e, sigma := sigma, omega := omega }

/-- XLOC from SIGMA. -/
def stageChien (w : Work) : Except Cause Work :=
  match rsChien w.sigma with
  | .error c => .error c
  | .ok xloc => .ok { w with xloc := xloc }

/-- EMAG from SIGMA, OMEGA and XLOC. -/
def stageForney (w : Work) : Except Cause Work :=
  match rsForney w.sigma w.omega w.xloc with
  | .error c => .error c
  | .ok emag => .ok { w with emag := emag }

/-- EPOS from RX and XLOC. -/
def stagePositions (w : Work) : Except Cause Work :=
  match rsPositions w.rx.length w.xloc with
  | .error c => .error c
  | .ok epos => .ok { w with epos := epos }

/-- The corrected vector from RX, EPOS and EMAG. -/
def correctedOf (w : Work) : List Byte := applyErrors w.rx (w.epos.zip w.emag)

/-- Steps 2 to 5 of R189. -/
def correctStages (w : Work) : Except Cause Work :=
  (((stageEuclid w).bind stageChien).bind stageForney).bind stagePositions

/-- `rs_decode(received, twoS)` (R189): the registers it leaves and the corrected vector. "If all syndromes are zero,
return `received` unchanged." Every position is checked before the first XOR. -/
def rsDecode (received : List Byte) (twoS : Nat) (w : Work) : Except Cause (Work × List Byte) :=
  let w := stageSyn received twoS w
  if w.syn.all (· == 0) then .ok (w, w.rx)
  else
    match correctStages w with
    | .error c => .error c
    | .ok w => .ok (w, correctedOf w)

end Sys2Proof.Machine
end

