-- ==== Sys2Proof/Machine/Pipeline.lean ====
section
/-! DEFINITION. The meaning of DECODE (spec/46_decode_pipeline.md R280 to R283). -/

namespace Sys2Proof.Machine

/-- The loop of R281 over the blocks still to correct: BLK[j].buf is replaced by its corrected vector and its data
bytes go to the end of AGG. The first block that faults ends it (R283). -/
def correctBlocks : List Block → Work → Except Cause Work
  | [], w => .ok w
  | b :: rest, w =>
    match rsDecode b.buf (b.buf.length - b.ndata) w with
    | .error c => .error c
    | .ok (w, buf) =>
      correctBlocks rest { w with blk := w.blk ++ [{ b with buf := buf }], agg := w.agg ++ buf.take b.ndata }

/-- The stages of R281 before the segment decoder: BLK corrected and AGG complete. -/
def pipelineStages (cfg : Config.Params) (version ecl : Byte) (raw : List Byte) (w : Work) : Except Cause Work :=
  match deinterleave cfg version ecl raw w with
  | .error c => .error c
  | .ok w => correctBlocks w.blk { w with blk := [], agg := [] }

/-- DECODE (R281): de-interleaves, corrects, and starts the run of the segment stream AGG. -/
def execDecode (version ecl : Byte) (raw : List Byte) (s : State) : Result :=
  command (clearBitBuffer s) fun s =>
    (pipelineStages s.cfg version ecl raw s.work).map fun w =>
      startRun (.decodeRun ecl) version.toNat w.agg { s with work := w }

end Sys2Proof.Machine
end

