-- ==== Sys2Proof/Machine/Poly.lean ====
section
/-! DEFINITION. The meanings of the POLY.* commands (spec/41_gfpoly.md R151 to R161). Every `poly` operand is made
canonical first, in field order (spec/30_encoding.md R96; spec/60_exceptions.md R310); POLY.NEW takes its vector raw.
-/

namespace Sys2Proof.Machine

/-- The body of a command of one polynomial. -/
def withPoly (p : Poly) (f : Poly → Except Cause (List Byte)) : Except Cause (List Byte) :=
  match polyOperand p with
  | .error c => .error c
  | .ok p => f p

/-- The body of a command of two polynomials. -/
def withPolys (p q : Poly) (f : Poly → Poly → Except Cause (List Byte)) : Except Cause (List Byte) :=
  withPoly p fun p => withPoly q fun q => f p q

/-- POLY.NEW (R151). -/
def execPolyNew (c : Poly) (degree : Word16) (s : State) : Result :=
  answer s ((norm c (s16Operand degree)).map vecField)

/-- POLY.DEG (R152). -/
def execPolyDeg (p : Poly) (s : State) : Result :=
  answer s (withPoly p fun p => .ok (u16Field (pdeg p)))

/-- POLY.COEF (R153). -/
def execPolyCoef (p : Poly) (deg : Word16) (s : State) : Result :=
  answer s (withPoly p fun p => .ok [pcoef p (s16Operand deg)])

/-- POLY.ISZERO (R154). -/
def execPolyIsZero (p : Poly) (s : State) : Result :=
  answer s (withPoly p fun p => .ok [if pzero p then 1 else 0])

/-- POLY.EVAL (R155). -/
def execPolyEval (p : Poly) (x : Byte) (s : State) : Result :=
  answer s (withPoly p fun p => .ok [peval p x])

/-- POLY.ADD (R156). -/
def execPolyAdd (p q : Poly) (s : State) : Result :=
  answer s (withPolys p q fun p q => .ok (vecField (padd p q)))

/-- POLY.MUL (R157). -/
def execPolyMul (p q : Poly) (s : State) : Result :=
  answer s (withPolys p q fun p q => (pmulChecked p q).map vecField)

/-- POLY.MULI (R158). -/
def execPolyMulI (p : Poly) (scalar : Byte) (s : State) : Result :=
  answer s (withPoly p fun p => .ok (vecField (pmuli p scalar)))

/-- POLY.MULM (R159). -/
def execPolyMulM (p : Poly) (degree : Word16) (coefficient : Byte) (s : State) : Result :=
  answer s (withPoly p fun p => (pmulmChecked p (s16Operand degree) coefficient).map vecField)

/-- POLY.DIV (R160): quo, then rem. -/
def execPolyDiv (p q : Poly) (s : State) : Result :=
  answer s (withPolys p q fun p q => (pdiv p q).map fun r => vecField r.1 ++ vecField r.2)

/-- POLY.MOD (R161). -/
def execPolyMod (p q : Poly) (s : State) : Result :=
  answer s (withPolys p q fun p q => (pmod p q).map vecField)

end Sys2Proof.Machine
end

