-- ==== Sys2Proof/Machine/Rs.lean ====
section
/-! DEFINITION. The meanings of the RS.* commands (spec/42_reed_solomon.md R181 to R189): each loads its operands into
the working registers, runs its stages and answers from the registers. -/

namespace Sys2Proof.Machine

/-- RS.SYN (R181): syn, then spoly. -/
def execRsSyn (received : List Byte) (twoS : Word16) (s : State) : Result :=
  command s fun s =>
    let w := stageSyn received twoS.toNat s.work
    .ok (complete (vecField w.syn ++ vecField w.spoly) { s with work := w })

/-- RS.EUCLID (R183): sigma, then omega. -/
def execRsEuclid (spoly : Poly) (twoS : Word16) (s : State) : Result :=
  command s fun s => do
    let p ← polyOperand spoly
    let w ← stageEuclid { s.work with spoly := p, twos := twoS.toNat }
    return complete (vecField w.sigma ++ vecField w.omega) { s with work := w }

/-- RS.CHIEN (R185). -/
def execRsChien (sigma : Poly) (s : State) : Result :=
  command s fun s => do
    let p ← polyOperand sigma
    let w ← stageChien { s.work with sigma := p }
    return complete (vecField w.xloc) { s with work := w }

/-- RS.FORNEY (R187). -/
def execRsForney (sigma omega : Poly) (xloc : List Byte) (s : State) : Result :=
  command s fun s => do
    let p ← polyOperand sigma
    let q ← polyOperand omega
    let w ← stageForney { s.work with sigma := p, omega := q, xloc := xloc }
    return complete (vecField w.emag) { s with work := w }

/-- RS.DECODE (R189). -/
def execRsDecode (received : List Byte) (twoS : Word16) (s : State) : Result :=
  command s fun s => do
    let (w, corrected) ← rsDecode received twoS.toNat s.work
    return complete (vecField corrected) { s with work := w }

end Sys2Proof.Machine
end

