-- ==== Sys2Proof/Machine/SegmentBody.lean ====
section
/-! DEFINITION. What the segments read from the bit buffer (spec/45_segment_decoder.md R243 to R250): each function
starts after the mode indicator and answers what it read and the cursor after it, or the cause it raises. -/

namespace Sys2Proof.Machine

open Sys2Proof.Config

/-- A group of `n` bits whose value must be below `bound` (R243, R244). -/
def readBelow (n bound : Nat) (cause : Cause) (b : BitBuffer) : Except Cause (Nat × BitBuffer) :=
  match b.read n with
  | .error c => .error c
  | .ok (v, b) => if bound ≤ v then .error cause else .ok (v, b)

/-- The 10-bit groups of R243, three digits each. -/
def readTriples : (groups : Nat) → BitBuffer → Except Cause (List Byte × BitBuffer)
  | 0, b => .ok ([], b)
  | n + 1, b => do
    let (v, b) ← readBelow 10 1000 .numValue b
    let (s, b) ← readTriples n b
    return ([digit (v / 100), digit (v / 10 % 10), digit (v % 10)] ++ s, b)

/-- The last group of R243: 7 bits for two digits, 4 bits for one, nothing for none. -/
def readDigitTail (n : Nat) (b : BitBuffer) : Except Cause (List Byte × BitBuffer) :=
  match n with
  | 2 => do
    let (v, b) ← readBelow 7 100 .numValue b
    return ([digit (v / 10), digit (v % 10)], b)
  | 1 => do
    let (v, b) ← readBelow 4 10 .numValue b
    return ([digit v], b)
  | _ => .ok ([], b)

/-- The digits of a NUMERIC segment (R243). -/
def readNumeric (ver : Nat) (b : BitBuffer) : Except Cause (List Byte × BitBuffer) := do
  let (count, b) ← b.read (numericWidth ver)
  let (s, b) ← readTriples (count / 3) b
  let (t, b) ← readDigitTail (count % 3) b
  return (s ++ t, b)

/-- The 11-bit groups of R244, two characters each. -/
def readPairs : (groups : Nat) → BitBuffer → Except Cause (List Byte × BitBuffer)
  | 0, b => .ok ([], b)
  | n + 1, b => do
    let (v, b) ← readBelow 11 2025 .alnumValue b
    let (s, b) ← readPairs n b
    return ([alnumChar (v / 45), alnumChar (v % 45)] ++ s, b)

/-- The final 6-bit character of R244. -/
def readCharTail (n : Nat) (b : BitBuffer) : Except Cause (List Byte × BitBuffer) :=
  match n with
  | 1 => do
    let (v, b) ← readBelow 6 45 .alnumValue b
    return ([alnumChar v], b)
  | _ => .ok ([], b)

/-- The characters of an ALPHANUMERIC segment (R244). -/
def readAlphanumeric (ver : Nat) (b : BitBuffer) : Except Cause (List Byte × BitBuffer) := do
  let (count, b) ← b.read (alphanumericWidth ver)
  let (s, b) ← readPairs (count / 2) b
  let (t, b) ← readCharTail (count % 2) b
  return (s ++ t, b)

/-- `count` bytes of 8 bits (R247). -/
def readBytes : (count : Nat) → BitBuffer → Except Cause (List Byte × BitBuffer)
  | 0, b => .ok ([], b)
  | n + 1, b => do
    let (v, b) ← b.read 8
    let (s, b) ← readBytes n b
    return (BitVec.ofNat 8 v :: s, b)

/-- The bytes of a BYTE segment (R247). -/
def readByteSegment (ver : Nat) (b : BitBuffer) : Except Cause (List Byte × BitBuffer) := do
  let (count, b) ← b.read (byteWidth ver)
  readBytes count b

/-- `count` units of 13 bits, two bytes each (R250). -/
def readUnits (cfg : Params) : (count : Nat) → BitBuffer → Except Cause (List Byte × BitBuffer)
  | 0, b => .ok ([], b)
  | n + 1, b => do
    let (u, b) ← b.read 13
    let (s, b) ← readUnits cfg n b
    return ([(kanjiMap cfg u).1, (kanjiMap cfg u).2] ++ s, b)

/-- The bytes of a KANJI segment (R250). -/
def readKanji (cfg : Params) (ver : Nat) (b : BitBuffer) : Except Cause (List Byte × BitBuffer) := do
  let (count, b) ← b.read (kanjiWidth ver)
  readUnits cfg count b

/-- The sequence and parity bytes of R246, "require ≥16 bits remaining". -/
def readAppendPair (b : BitBuffer) : Except Cause ((Byte × Byte) × BitBuffer) :=
  if b.avail < 16 then .error .saTruncated
  else do
    let (sequence, b) ← b.read 8
    let (parity, b) ← b.read 8
    return ((BitVec.ofNat 8 sequence, BitVec.ofNat 8 parity), b)

/-- The designator of R249: the id it carries, in whichever of the three forms. -/
def readDesignator (b : BitBuffer) : Except Cause (Nat × BitBuffer) := do
  let (v, b) ← b.read 8
  if v &&& 0x80 = 0x00 then return (v, b)
  else if v &&& 0xC0 = 0x80 then
    let (w, b) ← b.read 8
    return ((v &&& 0x3F) <<< 8 ||| w, b)
  else if v &&& 0xE0 = 0xC0 then
    let (w, b) ← b.read 16
    return ((v &&& 0x1F) <<< 16 ||| w, b)
  else throw .badEciHeader

/-- The ECI record of an id: "if id > 999999: raise FormatError(ECI_RANGE)" (R249). -/
def eciRecord (cfg : Params) (id : Nat) : Except Cause EciRecord :=
  if 999999 < id then .error .eciRange else .ok ⟨id, eciName cfg id⟩

/-- The charset name of a BYTE segment: the ECI's if it has one, else what DETECT finds (R247, R259). -/
def byteCharset (eci : Option EciRecord) (b : List Byte) : Charset :=
  match eci with
  | some ⟨_, some name⟩ => name
  | _ => detectedName (detect b)

end Sys2Proof.Machine
end

