-- ==== Sys2Proof/Machine/Segments.lean ====
section
/-! DEFINITION. The meanings of SEG.DECODE and of the segment instructions (spec/45_segment_decoder.md R240 to R252).
A segment's meaning starts after its row of the table has been fetched. -/

namespace Sys2Proof.Machine

/-- SEG.DECODE (R240): starts the run of the segment stream `data`; the segments are its instructions, and the run
ends with `endRun` or with a fault. The bit buffer is taken over even when the version is refused (R312). -/
def execSegDecode (version : Byte) (data : List Byte) (s : State) : Result :=
  command (clearBitBuffer s) fun s =>
    (versionOperand version).map fun ver => startRun .segRun ver data s

/-- `TEXT <- TEXT ++ t`, the cursor at `b`. -/
def appendText (t : List Byte) (b : BitBuffer) (s : State) : State :=
  { s with bb := b, seg := { s.seg with text := s.seg.text ++ t } }

/-- `ECI <- (id, ECI_NAME(id))`, the cursor at `b` (R249). -/
def setEci (id : Nat) (b : BitBuffer) (s : State) : Except Cause State :=
  (eciRecord s.cfg id).map fun r => { s with bb := b, seg := { s.seg with eci := some r } }

/-- An illegal mode indicator (R252). -/
def illegalMode (s : State) : Result := segment s fun _ => .error .badMode

/-- An indicator that is a no-op: "No state is written" (R248, R251, R265). -/
def inertMode (s : State) : Result := segment s fun s => .ok s

/-- TERMINATOR (R242): exits the loop of R241. -/
def execTerminator (s : State) : Result := segment s fun s => .ok (endRun s)

/-- NUMERIC (R243). -/
def execNumeric (s : State) : Result :=
  segment s fun s => do
    let (t, b) ← readNumeric s.seg.ver s.bb
    return appendText t b s

/-- ALPHANUMERIC (R244). -/
def execAlphanumeric (s : State) : Result :=
  segment s fun s => do
    let (t, b) ← readAlphanumeric s.seg.ver s.bb
    return appendText t b s

/-- STRUCTURED_APPEND (R246). -/
def execStructuredAppend (s : State) : Result :=
  segment s fun s => do
    let (pair, b) ← readAppendPair s.bb
    return { s with bb := b, seg := { s.seg with saseq := some pair.1, sapar := some pair.2 } }

/-- BYTE (R247): then clears ECI. -/
def execByte (s : State) : Result :=
  segment s fun s => do
    let (bytes, b) ← readByteSegment s.seg.ver s.bb
    let s := appendText (Config.transcode (byteCharset s.seg.eci bytes) bytes) b s
    return { s with seg := { s.seg with eci := none } }

/-- FNC1_FIRST (R248). -/
def execFnc1First (s : State) : Result := inertMode s

/-- ECI (R249), the designator read from the stream. -/
def execEci (s : State) : Result :=
  segment s fun s => do
    let (id, b) ← readDesignator s.bb
    setEci id b s

/-- ECI.1 (R107, R249): the designator was fetched with the row. -/
def execEci1 (id : BitVec 7) (s : State) : Result := segment s fun s => setEci id.toNat s.bb s

/-- ECI.2 (R107, R249). -/
def execEci2 (id : BitVec 14) (s : State) : Result := segment s fun s => setEci id.toNat s.bb s

/-- ECI.3 (R107, R249). -/
def execEci3 (id : BitVec 21) (s : State) : Result := segment s fun s => setEci id.toNat s.bb s

/-- ECI.BAD (R107, R249): whatever its low five bits. -/
def execEciBad (_x : BitVec 5) (s : State) : Result := segment s fun _ => .error .badEciHeader

/-- KANJI (R250). -/
def execKanji (s : State) : Result :=
  segment s fun s => do
    let (bytes, b) ← readKanji s.cfg s.seg.ver s.bb
    return appendText (Config.transcode .shiftJis bytes) b s

/-- FNC1_SECOND (R251): no application indicator is consumed. -/
def execFnc1Second (s : State) : Result := inertMode s

/-- The illegal indicator 0b0110 (R252). -/
def execIllegal0110 (s : State) : Result := illegalMode s

/-- The illegal indicator 0b1010 (R252). -/
def execIllegal1010 (s : State) : Result := illegalMode s

/-- The illegal indicator 0b1011 (R252). -/
def execIllegal1011 (s : State) : Result := illegalMode s

/-- The illegal indicator 0b1100 (R252). -/
def execIllegal1100 (s : State) : Result := illegalMode s

/-- The illegal indicator 0b1101, Hanzi (R252, R266). -/
def execIllegal1101 (s : State) : Result := illegalMode s

/-- The illegal indicator 0b1110 (R252). -/
def execIllegal1110 (s : State) : Result := illegalMode s

/-- The illegal indicator 0b1111 (R252). -/
def execIllegal1111 (s : State) : Result := illegalMode s

end Sys2Proof.Machine
end

