-- ==== Sys2Proof/Syntax.lean ====
section
/-! DEFINITION. The instructions of GF256-CORE at both levels: one constructor for each row of
spec/opcode_table.json. Level 1 constructors carry the operand fields of their packet format
(spec/30_encoding.md R94, R95), taken raw; level 2 constructors are the mode indicators (R101) and
the four forms of the ECI designator (R107). -/

namespace Sys2Proof

inductive Instr where
  -- 40_gf256.md
  | gfAdd (a b : Byte)
  | gfMul (a b : Byte)
  | gfInv (a : Byte)
  | gfExp (i : Word16)
  | gfLog (a : Byte)
  | gfMono (degree : Word16) (coefficient : Byte)
  -- 41_gfpoly.md
  | polyNew (c : Poly) (degree : Word16)
  | polyDeg (p : Poly)
  | polyCoef (p : Poly) (deg : Word16)
  | polyIsZero (p : Poly)
  | polyEval (p : Poly) (x : Byte)
  | polyAdd (p q : Poly)
  | polyMul (p q : Poly)
  | polyMulI (p : Poly) (scalar : Byte)
  | polyMulM (p : Poly) (degree : Word16) (coefficient : Byte)
  | polyDiv (p q : Poly)
  | polyMod (p q : Poly)
  -- 42_reed_solomon.md
  | rsSyn (received : List Byte) (twoS : Word16)
  | rsEuclid (spoly : Poly) (twoS : Word16)
  | rsChien (sigma : Poly)
  | rsForney (sigma omega : Poly) (xloc : List Byte)
  | rsDecode (received : List Byte) (twoS : Word16)
  -- 43_deinterleave.md
  | deint (version ecl : Byte) (raw : List Byte)
  -- 44_bitbuffer.md
  | bbLoad (bytes : List Byte)
  | bbAvail
  | bbRead (n : Byte)
  -- 45_segment_decoder.md, 46_decode_pipeline.md
  | segDecode (version : Byte) (data : List Byte)
  | decode (version ecl : Byte) (raw : List Byte)
  -- level 2: the segment stream
  | terminator
  | numeric
  | alphanumeric
  | structuredAppend
  | byte
  | fnc1First
  | illegal0110
  /-- The row ECI alone: an indicator 0111 whose designator the stream cuts short (log entry 10). -/
  | eci
  | kanji
  | fnc1Second
  | illegal1010
  | illegal1011
  | illegal1100
  | illegal1101
  | illegal1110
  | illegal1111
  /-- `0bbbbbbb`: the id in 7 bits. -/
  | eci1 (id : BitVec 7)
  /-- `10bbbbbb bbbbbbbb`: the id in 14 bits. -/
  | eci2 (id : BitVec 14)
  /-- `110bbbbb` and 16 bits more: the id in 21 bits. -/
  | eci3 (id : BitVec 21)
  /-- `111xxxxx`: the illegal designator. -/
  | eciBad (x : BitVec 5)
  deriving DecidableEq, Repr

end Sys2Proof
end

