-- ==== Sys2Proof/Machine/Dispatch.lean ====
section
/-! DEFINITION. One arm for each instruction of both levels: a direct call of its meaning. -/

namespace Sys2Proof.Machine

def exec (i : Instr) (s : State) : Host.Outcome State Fault Refusal :=
  match i with
  | .gfAdd a b => Sys2Proof.Machine.execGfAdd a b s
  | .gfMul a b => Sys2Proof.Machine.execGfMul a b s
  | .gfInv a => Sys2Proof.Machine.execGfInv a s
  | .gfExp index => Sys2Proof.Machine.execGfExp index s
  | .gfLog a => Sys2Proof.Machine.execGfLog a s
  | .gfMono degree coefficient => Sys2Proof.Machine.execGfMono degree coefficient s
  | .polyNew c degree => Sys2Proof.Machine.execPolyNew c degree s
  | .polyDeg p => Sys2Proof.Machine.execPolyDeg p s
  | .polyCoef p deg => Sys2Proof.Machine.execPolyCoef p deg s
  | .polyIsZero p => Sys2Proof.Machine.execPolyIsZero p s
  | .polyEval p x => Sys2Proof.Machine.execPolyEval p x s
  | .polyAdd p q => Sys2Proof.Machine.execPolyAdd p q s
  | .polyMul p q => Sys2Proof.Machine.execPolyMul p q s
  | .polyMulI p scalar => Sys2Proof.Machine.execPolyMulI p scalar s
  | .polyMulM p degree coefficient => Sys2Proof.Machine.execPolyMulM p degree coefficient s
  | .polyDiv p q => Sys2Proof.Machine.execPolyDiv p q s
  | .polyMod p q => Sys2Proof.Machine.execPolyMod p q s
  | .rsSyn received twoS => Sys2Proof.Machine.execRsSyn received twoS s
  | .rsEuclid spoly twoS => Sys2Proof.Machine.execRsEuclid spoly twoS s
  | .rsChien sigma => Sys2Proof.Machine.execRsChien sigma s
  | .rsForney sigma omega xloc => Sys2Proof.Machine.execRsForney sigma omega xloc s
  | .rsDecode received twoS => Sys2Proof.Machine.execRsDecode received twoS s
  | .deint version ecl raw => Sys2Proof.Machine.execDeint version ecl raw s
  | .bbLoad bytes => Sys2Proof.Machine.execBbLoad bytes s
  | .bbAvail => Sys2Proof.Machine.execBbAvail s
  | .bbRead n => Sys2Proof.Machine.execBbRead n s
  | .segDecode version data => Sys2Proof.Machine.execSegDecode version data s
  | .decode version ecl raw => Sys2Proof.Machine.execDecode version ecl raw s
  | .terminator => Sys2Proof.Machine.execTerminator s
  | .numeric => Sys2Proof.Machine.execNumeric s
  | .alphanumeric => Sys2Proof.Machine.execAlphanumeric s
  | .structuredAppend => Sys2Proof.Machine.execStructuredAppend s
  | .byte => Sys2Proof.Machine.execByte s
  | .fnc1First => Sys2Proof.Machine.execFnc1First s
  | .illegal0110 => Sys2Proof.Machine.execIllegal0110 s
  | .eci => Sys2Proof.Machine.execEci s
  | .kanji => Sys2Proof.Machine.execKanji s
  | .fnc1Second => Sys2Proof.Machine.execFnc1Second s
  | .illegal1010 => Sys2Proof.Machine.execIllegal1010 s
  | .illegal1011 => Sys2Proof.Machine.execIllegal1011 s
  | .illegal1100 => Sys2Proof.Machine.execIllegal1100 s
  | .illegal1101 => Sys2Proof.Machine.execIllegal1101 s
  | .illegal1110 => Sys2Proof.Machine.execIllegal1110 s
  | .illegal1111 => Sys2Proof.Machine.execIllegal1111 s
  | .eci1 id => Sys2Proof.Machine.execEci1 id s
  | .eci2 id => Sys2Proof.Machine.execEci2 id s
  | .eci3 id => Sys2Proof.Machine.execEci3 id s
  | .eciBad x => Sys2Proof.Machine.execEciBad x s

end Sys2Proof.Machine
end

