-- ==== Sys2Proof/Decode.lean ====
section
/-! DEFINITION. Decoding at both levels, total, rejecting by name, and the encoder written from the same
tables (spec/30_encoding.md). Level 1: a packet is a byte sequence (R91), its fields those of R92 in one of the 17
formats of R94, its opcode that of R95. Level 2: the bits at the segment cursor, first-read bit first (R101, R107).
Then the numbering of spec/opcode_table.json, in which the host asks (log entry 24). -/

namespace Sys2Proof

/-- Why the decoder refuses a packet: it is empty, short or long (R100), or its opcode byte is not in the
map (R99). -/
inductive Reject where
  | badPacket
  | badOpcode
  deriving DecidableEq, Repr

/-- Why the decoder finds no segment: the stream has fewer than four bits left, which is no fault but the
end of the run (spec/45_segment_decoder.md R241). Every indicator has a row, the illegal ones too. -/
inductive StreamEnd where
  | fewerThanFourBits
  deriving DecidableEq, Repr

/-! ## Level 1: field types (R92) -/

/-- The two bytes of a `u16` or `s16` field, big-endian. -/
def bytesOfWord16 (w : Word16) : List Byte := [w.extractLsb' 8 8, w.extractLsb' 0 8]

/-- The `u16` or `s16` field of two bytes, big-endian. -/
def word16OfBytes (hi lo : Byte) : Word16 := hi ++ lo

/-- A `vec` or `poly` field: a `u16` length, then the bytes, element 0 first. -/
def bytesOfVec (v : List Byte) : List Byte := bytesOfWord16 (BitVec.ofNat 16 v.length) ++ v

/-- Takes a `u8` or `s8` field off the packet. -/
def takeByte : List Byte → Option (Byte × List Byte)
  | b :: rest => some (b, rest)
  | [] => none

/-- Takes a `u16` or `s16` field off the packet. -/
def takeWord16 : List Byte → Option (Word16 × List Byte)
  | hi :: lo :: rest => some (word16OfBytes hi lo, rest)
  | _ => none

/-- Takes a `vec` or `poly` field off the packet: its length, then that many bytes. -/
def takeVec (bytes : List Byte) : Option (List Byte × List Byte) :=
  match takeWord16 bytes with
  | none => none
  | some (len, rest) =>
    if len.toNat ≤ rest.length then some (rest.take len.toNat, rest.drop len.toNat) else none

/-! ## Level 1: the 17 formats (R94) -/

/-- Format F0. -/
def formatF0 (k : Instr) (bytes : List Byte) : Option (Instr × List Byte) := some (k, bytes)

/-- Formats FS and FN. -/
def formatFS (k : Byte → Instr) (bytes : List Byte) : Option (Instr × List Byte) :=
  (takeByte bytes).map fun (a, rest) => (k a, rest)

/-- Format FSS. -/
def formatFSS (k : Byte → Byte → Instr) (bytes : List Byte) : Option (Instr × List Byte) :=
  (takeByte bytes).bind fun (a, rest) => formatFS (k a) rest

/-- Format FW. -/
def formatFW (k : Word16 → Instr) (bytes : List Byte) : Option (Instr × List Byte) :=
  (takeWord16 bytes).map fun (i, rest) => (k i, rest)

/-- Format FDS. -/
def formatFDS (k : Word16 → Byte → Instr) (bytes : List Byte) : Option (Instr × List Byte) :=
  (takeWord16 bytes).bind fun (d, rest) => formatFS (k d) rest

/-- Formats FP and FV. -/
def formatFP (k : List Byte → Instr) (bytes : List Byte) : Option (Instr × List Byte) :=
  (takeVec bytes).map fun (p, rest) => (k p, rest)

/-- Formats FPD, FPW and FVW. -/
def formatFPW (k : List Byte → Word16 → Instr) (bytes : List Byte) : Option (Instr × List Byte) :=
  (takeVec bytes).bind fun (p, rest) => formatFW (k p) rest

/-- Format FPS. -/
def formatFPS (k : List Byte → Byte → Instr) (bytes : List Byte) : Option (Instr × List Byte) :=
  (takeVec bytes).bind fun (p, rest) => formatFS (k p) rest

/-- Format FPDS. -/
def formatFPDS (k : List Byte → Word16 → Byte → Instr) (bytes : List Byte) : Option (Instr × List Byte) :=
  (takeVec bytes).bind fun (p, rest) => formatFDS (k p) rest

/-- Format FPP. -/
def formatFPP (k : List Byte → List Byte → Instr) (bytes : List Byte) : Option (Instr × List Byte) :=
  (takeVec bytes).bind fun (p, rest) => formatFP (k p) rest

/-- Format FPPV. -/
def formatFPPV (k : List Byte → List Byte → List Byte → Instr) (bytes : List Byte) : Option (Instr × List Byte) :=
  (takeVec bytes).bind fun (p, rest) => formatFPP (k p) rest

/-- Format FSV. -/
def formatFSV (k : Byte → List Byte → Instr) (bytes : List Byte) : Option (Instr × List Byte) :=
  (takeByte bytes).bind fun (a, rest) => formatFP (k a) rest

/-- Format FSSV. -/
def formatFSSV (k : Byte → Byte → List Byte → Instr) (bytes : List Byte) : Option (Instr × List Byte) :=
  (takeByte bytes).bind fun (a, rest) => formatFSV (k a) rest

/-- The opcode map (R95): the operand parser of an opcode byte, `none` for the illegal ones (R99). -/
def operandParser (opcode : Byte) : Option (List Byte → Option (Instr × List Byte)) :=
  match opcode.toNat with
  | 0x10 => some (formatFSS .gfAdd)
  | 0x11 => some (formatFSS .gfMul)
  | 0x12 => some (formatFS .gfInv)
  | 0x13 => some (formatFW .gfExp)
  | 0x14 => some (formatFS .gfLog)
  | 0x15 => some (formatFDS .gfMono)
  | 0x20 => some (formatFPW .polyNew)
  | 0x21 => some (formatFP .polyDeg)
  | 0x22 => some (formatFPW .polyCoef)
  | 0x23 => some (formatFP .polyIsZero)
  | 0x24 => some (formatFPS .polyEval)
  | 0x25 => some (formatFPP .polyAdd)
  | 0x26 => some (formatFPP .polyMul)
  | 0x27 => some (formatFPS .polyMulI)
  | 0x28 => some (formatFPDS .polyMulM)
  | 0x29 => some (formatFPP .polyDiv)
  | 0x2A => some (formatFPP .polyMod)
  | 0x30 => some (formatFPW .rsSyn)
  | 0x31 => some (formatFPW .rsEuclid)
  | 0x32 => some (formatFP .rsChien)
  | 0x33 => some (formatFPPV .rsForney)
  | 0x34 => some (formatFPW .rsDecode)
  | 0x40 => some (formatFSSV .deint)
  | 0x50 => some (formatFP .bbLoad)
  | 0x51 => some (formatF0 .bbAvail)
  | 0x52 => some (formatFS .bbRead)
  | 0x60 => some (formatFSV .segDecode)
  | 0x70 => some (formatFSSV .decode)
  | _ => none

/-- Decodes a command packet. The order of the checks is that of spec/60_exceptions.md R310: an empty
packet, the opcode, the framing of the whole packet. -/
def decodePacket : List Byte → Except Reject Instr
  | [] => .error .badPacket
  | opcode :: operands =>
    match operandParser opcode with
    | none => .error .badOpcode
    | some parse =>
      match parse operands with
      | some (i, []) => .ok i
      | _ => .error .badPacket

/-! ## Level 2: the segment stream -/

/-- The number whose binary digits are `bits`, first-read bit most significant (spec/00_scope.md R10). -/
def natOfBits (bits : List Bool) : Nat := bits.foldl (fun v b => 2 * v + b.toNat) 0

/-- The `n` bits of `v`, most significant first. -/
def bitsOfNat : (n v : Nat) → List Bool
  | 0, _ => []
  | n + 1, v => v.testBit n :: bitsOfNat n v

/-- The bits that decide a fetch: the longest row of the table is ECI.3, 28 bits. -/
def longestRow : Nat := 28

/-- The form of an ECI segment, from the bits after its indicator, and the width of its row (R107, R249).
A designator that the stream cuts short is the row ECI, of which only the indicator is fetched. -/
def decodeDesignator (bits : List Bool) : Instr × Nat :=
  if bits.length < 8 then (.eci, 4)
  else
    let v := natOfBits (bits.take 8)
    if v < 0x80 then (.eci1 (BitVec.ofNat 7 v), 12)
    else if v < 0xC0 then
      if bits.length < 16 then (.eci, 4) else (.eci2 (BitVec.ofNat 14 (natOfBits (bits.take 16))), 20)
    else if v < 0xE0 then
      if bits.length < 24 then (.eci, 4) else (.eci3 (BitVec.ofNat 21 (natOfBits (bits.take 24))), 28)
    else (.eciBad (BitVec.ofNat 5 v), 12)

/-- Decodes the segment at the cursor from the bits that follow it (R101): the instruction and how many bits
its row of the table has. Sixteen indicators, none of them without a row. -/
def decodeSegment : List Bool → Except StreamEnd (Instr × Nat)
  | m3 :: m2 :: m1 :: m0 :: rest =>
    match m3, m2, m1, m0 with
    | false, false, false, false => .ok (.terminator, 4)
    | false, false, false, true => .ok (.numeric, 4)
    | false, false, true, false => .ok (.alphanumeric, 4)
    | false, false, true, true => .ok (.structuredAppend, 4)
    | false, true, false, false => .ok (.byte, 4)
    | false, true, false, true => .ok (.fnc1First, 4)
    | false, true, true, false => .ok (.illegal0110, 4)
    | false, true, true, true => .ok (decodeDesignator rest)
    | true, false, false, false => .ok (.kanji, 4)
    | true, false, false, true => .ok (.fnc1Second, 4)
    | true, false, true, false => .ok (.illegal1010, 4)
    | true, false, true, true => .ok (.illegal1011, 4)
    | true, true, false, false => .ok (.illegal1100, 4)
    | true, true, false, true => .ok (.illegal1101, 4)
    | true, true, true, false => .ok (.illegal1110, 4)
    | true, true, true, true => .ok (.illegal1111, 4)
  | _ => .error .fewerThanFourBits

/-! ## The encoder -/

/-- An encoded instruction: a command packet (level 1) or the bits of a row of the segment table (level 2). -/
inductive Words where
  | packet (bytes : List Byte)
  | bits (bs : List Bool)
  deriving DecidableEq, Repr

/-- Decodes either form, each by its own decoder; `none` where that one refuses. -/
def decodeWords : Words → Option Instr
  | .packet bytes => (decodePacket bytes).toOption
  | .bits bs => ((decodeSegment bs).map Prod.fst).toOption

/-- The words of a well-formed instruction (R94, R95, R101, R107). -/
def encode : Instr → Words
  | .gfAdd a b => .packet [0x10, a, b]
  | .gfMul a b => .packet [0x11, a, b]
  | .gfInv a => .packet [0x12, a]
  | .gfExp i => .packet (0x13 :: bytesOfWord16 i)
  | .gfLog a => .packet [0x14, a]
  | .gfMono d c => .packet (0x15 :: bytesOfWord16 d ++ [c])
  | .polyNew c d => .packet (0x20 :: bytesOfVec c ++ bytesOfWord16 d)
  | .polyDeg p => .packet (0x21 :: bytesOfVec p)
  | .polyCoef p d => .packet (0x22 :: bytesOfVec p ++ bytesOfWord16 d)
  | .polyIsZero p => .packet (0x23 :: bytesOfVec p)
  | .polyEval p x => .packet (0x24 :: bytesOfVec p ++ [x])
  | .polyAdd p q => .packet (0x25 :: bytesOfVec p ++ bytesOfVec q)
  | .polyMul p q => .packet (0x26 :: bytesOfVec p ++ bytesOfVec q)
  | .polyMulI p s => .packet (0x27 :: bytesOfVec p ++ [s])
  | .polyMulM p d c => .packet (0x28 :: bytesOfVec p ++ bytesOfWord16 d ++ [c])
  | .polyDiv p q => .packet (0x29 :: bytesOfVec p ++ bytesOfVec q)
  | .polyMod p q => .packet (0x2A :: bytesOfVec p ++ bytesOfVec q)
  | .rsSyn v w => .packet (0x30 :: bytesOfVec v ++ bytesOfWord16 w)
  | .rsEuclid p w => .packet (0x31 :: bytesOfVec p ++ bytesOfWord16 w)
  | .rsChien p => .packet (0x32 :: bytesOfVec p)
  | .rsForney p q v => .packet (0x33 :: bytesOfVec p ++ bytesOfVec q ++ bytesOfVec v)
  | .rsDecode v w => .packet (0x34 :: bytesOfVec v ++ bytesOfWord16 w)
  | .deint ver ecl raw => .packet (0x40 :: ver :: ecl :: bytesOfVec raw)
  | .bbLoad v => .packet (0x50 :: bytesOfVec v)
  | .bbAvail => .packet [0x51]
  | .bbRead n => .packet [0x52, n]
  | .segDecode ver data => .packet (0x60 :: ver :: bytesOfVec data)
  | .decode ver ecl raw => .packet (0x70 :: ver :: ecl :: bytesOfVec raw)
  | .terminator => .bits (bitsOfNat 4 0b0000)
  | .numeric => .bits (bitsOfNat 4 0b0001)
  | .alphanumeric => .bits (bitsOfNat 4 0b0010)
  | .structuredAppend => .bits (bitsOfNat 4 0b0011)
  | .byte => .bits (bitsOfNat 4 0b0100)
  | .fnc1First => .bits (bitsOfNat 4 0b0101)
  | .illegal0110 => .bits (bitsOfNat 4 0b0110)
  | .eci => .bits (bitsOfNat 4 0b0111)
  | .kanji => .bits (bitsOfNat 4 0b1000)
  | .fnc1Second => .bits (bitsOfNat 4 0b1001)
  | .illegal1010 => .bits (bitsOfNat 4 0b1010)
  | .illegal1011 => .bits (bitsOfNat 4 0b1011)
  | .illegal1100 => .bits (bitsOfNat 4 0b1100)
  | .illegal1101 => .bits (bitsOfNat 4 0b1101)
  | .illegal1110 => .bits (bitsOfNat 4 0b1110)
  | .illegal1111 => .bits (bitsOfNat 4 0b1111)
  | .eci1 id => .bits (bitsOfNat 5 0b01110 ++ bitsOfNat 7 id.toNat)
  | .eci2 id => .bits (bitsOfNat 6 0b011110 ++ bitsOfNat 14 id.toNat)
  | .eci3 id => .bits (bitsOfNat 7 0b0111110 ++ bitsOfNat 21 id.toNat)
  | .eciBad x => .bits (bitsOfNat 7 0b0111111 ++ bitsOfNat 5 x.toNat)

/-! ## The numbering of spec/opcode_table.json -/

/-- Whether a word of the table is a row of level 1. A level 2 row of up to eight bits is a mode indicator, below
0x10, and no opcode byte is below 0x10 (R99); the wider rows are the ECI forms. -/
def isCommandWord (nbits w : Nat) : Bool := nbits ≤ 8 && 0x10 ≤ w

/-- The shortest operand bytes of an opcode, all of them zero: a `vec` or `poly` of zeros is its length 0. -/
def zeroOperands (opcode : Nat) : Nat :=
  match opcode with
  | 0x51 => 0
  | 0x12 | 0x14 | 0x52 => 1
  | 0x10 | 0x11 | 0x13 | 0x21 | 0x23 | 0x32 | 0x50 => 2
  | 0x15 | 0x24 | 0x27 | 0x60 => 3
  | 0x20 | 0x22 | 0x25 | 0x26 | 0x29 | 0x2A | 0x30 | 0x31 | 0x34 | 0x40 | 0x70 => 4
  | 0x28 => 5
  | 0x33 => 6
  | _ => 0

/-- The packet of a level 1 row: its opcode byte and operand bytes of zeros. -/
def tablePacket (w : Nat) : List Byte := BitVec.ofNat 8 w :: List.replicate (zeroOperands w) 0

/-- How many bits the level 2 row has, given its width in whole bytes: 4, 12, 20 or 28. -/
def rowBits (nbits : Nat) : Nat := 8 * ((nbits - 4) / 8) + 4

/-- The bits of a level 2 row, whose number has its first-read bit most significant, and after them zero bits.
The row ECI is the indicator alone, with no designator after it: with zeros for a designator the same bits are
the row ECI.1 (log entry 10). -/
def tableBits (nbits w : Nat) : List Bool :=
  bitsOfNat (rowBits nbits) w ++ List.replicate (if rowBits nbits = 4 ∧ w = 7 then 4 else 28) false

/-- What the decoder reads from the word `w` of a row of `nbits` bits. -/
def decodeTableWord (nbits w : Nat) : Option Instr :=
  decodeWords (if isCommandWord nbits w then .packet (tablePacket w) else .bits (tableBits nbits w))

/-- Packs bits MSB-first into bytes, the last one filled with zero bits (spec/20_memory.md R65). -/
def packBits : List Bool → List Byte
  | b7 :: b6 :: b5 :: b4 :: b3 :: b2 :: b1 :: b0 :: rest =>
    BitVec.ofNat 8 (natOfBits [b7, b6, b5, b4, b3, b2, b1, b0]) :: packBits rest
  | [] => []
  | few => [BitVec.ofNat 8 (natOfBits few * 2 ^ (8 - few.length))]

end Sys2Proof
end

