-- ==== Sys2Proof/Machine/Fetch.lean ====
section
/-! DEFINITION. What a step fetches. Between commands: the host's next action (spec/60_exceptions.md R324), a packet
decoded with its faults (spec/30_encoding.md R99, R100) or reset (spec/70_reset_and_hazards.md R340). Inside a run:
the segment at the cursor, or the end of the stream (spec/45_segment_decoder.md R241). And where the host places a
word of the opcode table so that the next step fetches it. -/

namespace Sys2Proof.Machine

/-- What a fetch found: an instruction to execute, the state it executes in, or a step that is over without one. -/
inductive Fetched where
  | run (i : Instr) (s : State)
  | over (s : State)
  deriving DecidableEq, Repr

/-- The fault of a packet that does not decode (R99, R100). -/
def rejectCause : Reject → Cause
  | .badPacket => .badPacket
  | .badOpcode => .badOpcode

/-- Reset: every register of the engine as in spec/10_state.md R41, no response. The configuration is "constant for
the life of the engine" (R344); the host keeps its script and the responses it has (log entry 19). -/
def resetEngine (s : State) : State :=
  { State.reset with cfg := s.cfg, script := s.script, responses := s.responses }

/-- What the engine does with a packet: the framing checks of spec/60_exceptions.md R310, then the command. -/
def fetchPacket (bytes : List Byte) (s : State) : Fetched :=
  match decodePacket bytes with
  | .error r => .over (takeFault (rejectCause r) s)
  | .ok i => .run i s

/-- The fetch between commands. With nothing sent, nothing happens (R324; log entry 6). -/
def fetchCommand (s : State) : Fetched :=
  match s.script with
  | [] => .over s
  | .reset :: rest => .over (resetEngine { s with script := rest })
  | .packet bytes :: rest => fetchPacket bytes { s with script := rest }

/-- The fetch inside a run: fewer than 4 bits end the loop; else the row of the table at the cursor, the cursor moved
past it (R241). -/
def fetchSegment (s : State) : Fetched :=
  match decodeSegment (s.bb.window longestRow) with
  | .error _ => .over (endRun s)
  | .ok (i, width) => .run i { s with bb := s.bb.skip width }

/-- The fetch of a step. -/
def fetch (s : State) : Fetched :=
  match s.activity with
  | .idle => fetchCommand s
  | .segRun => fetchSegment s
  | .decodeRun _ => fetchSegment s

/-- The word of a table row placed where the next step fetches: a packet of the host's, or the stream of a run with
the cursor at its first bit. -/
def placeTableWord (nbits w : Nat) (s : State) : State :=
  if isCommandWord nbits w then
    { s with activity := .idle, script := .packet (tablePacket w) :: s.script }
  else { s with activity := .segRun, bb := ⟨packBits (tableBits nbits w), 0, 0⟩ }

end Sys2Proof.Machine
end

