-- ==== Sys2Proof/Machine/Step.lean ====
section
/-! DEFINITION. One step of the engine: a fetch, and the instruction it found. -/

namespace Sys2Proof.Machine

/-- One step: one command, one segment of a running stream, a reset, or nothing when the host sends nothing. -/
def step (s : State) : Host.Outcome State Fault Refusal :=
  match fetch s with
  | .run i t => exec i t
  | .over t => .next t

/-- The state in which the next step runs the word `w` of a table row of `nbits` bits (log entry 18). -/
def State.withFetchWord (s : State) (nbits w : Nat) : State := placeTableWord nbits w s

end Sys2Proof.Machine
end

