-- ==== Sys2Proof/WellFormed.lean ====
section
/-! DEFINITION. Which terms of `Instr` an encoding exists for: a `vec` or `poly` field "carries at most
LMAX = 65535 bytes" (spec/30_encoding.md R97). Every other operand is bounded by its type. -/

namespace Sys2Proof

/-- A vector that a packet field can carry (R97). -/
abbrev FitsField (v : List Byte) : Prop := v.length ≤ Config.lmax

/-- The well-formed instructions (R97). -/
def WellFormed : Instr → Prop
  | .gfAdd _ _ => True
  | .gfMul _ _ => True
  | .gfInv _ => True
  | .gfExp _ => True
  | .gfLog _ => True
  | .gfMono _ _ => True
  | .polyNew c _ => FitsField c
  | .polyDeg p => FitsField p
  | .polyCoef p _ => FitsField p
  | .polyIsZero p => FitsField p
  | .polyEval p _ => FitsField p
  | .polyAdd p q => FitsField p ∧ FitsField q
  | .polyMul p q => FitsField p ∧ FitsField q
  | .polyMulI p _ => FitsField p
  | .polyMulM p _ _ => FitsField p
  | .polyDiv p q => FitsField p ∧ FitsField q
  | .polyMod p q => FitsField p ∧ FitsField q
  | .rsSyn v _ => FitsField v
  | .rsEuclid p _ => FitsField p
  | .rsChien p => FitsField p
  | .rsForney p q v => FitsField p ∧ FitsField q ∧ FitsField v
  | .rsDecode v _ => FitsField v
  | .deint _ _ v => FitsField v
  | .bbLoad v => FitsField v
  | .bbAvail => True
  | .bbRead _ => True
  | .segDecode _ v => FitsField v
  | .decode _ _ v => FitsField v
  | .terminator => True
  | .numeric => True
  | .alphanumeric => True
  | .structuredAppend => True
  | .byte => True
  | .fnc1First => True
  | .illegal0110 => True
  | .eci => True
  | .kanji => True
  | .fnc1Second => True
  | .illegal1010 => True
  | .illegal1011 => True
  | .illegal1100 => True
  | .illegal1101 => True
  | .illegal1110 => True
  | .illegal1111 => True
  | .eci1 _ => True
  | .eci2 _ => True
  | .eci3 _ => True
  | .eciBad _ => True

end Sys2Proof
end

