-- ==== Sys2Proof/Safety.lean ====
section
/-! DEFINITION. What counts as a good state and a safe run, and the reference forms in which the claims speak of the
spec: the segment layouts of spec/30_encoding.md R102 to R108 written as bits, the product of the field computed
without its tables, the Euclid loop of R183 without a bound on its passes, and the magnitude of R187. Nothing
in the machine uses these. -/

namespace Sys2Proof.Machine

/-! ## Good states -/

/-- What every step keeps: the cursor invariant (spec/44_bitbuffer.md R231) and the length of BBUF (spec/10_state.md
R30), the ranges of VER and of the ECI id (R33, R35), and between commands no working value (R40). -/
structure Inv (s : State) : Prop where
  cursor : s.bb.Wf
  fits : s.bb.bbuf.length ≤ Config.lmax
  version : 1 ≤ s.seg.ver ∧ s.seg.ver ≤ 40
  eciId : ∀ r : EciRecord, s.seg.eci = some r → r.id ≤ 999999
  dropped : s.activity = .idle → s.seg = SegRegs.reset ∧ s.work = Work.reset

/-- A step that stops at no fault and no refusal of the model. -/
def StepSafe (s : State) : Prop := ∃ t, step s = .next t

/-- Whether an instruction is of level 2 (spec/30_encoding.md R90). -/
def isSegment (i : Instr) : Bool :=
  match encode i with
  | .packet _ => false
  | .bits _ => true

/-- The commands that touch the bit buffer (spec/70_reset_and_hazards.md R358). -/
def touchesBitBuffer : Instr → Bool
  | .bbLoad _ => true
  | .bbRead _ => true
  | .segDecode _ _ => true
  | .decode _ _ _ => true
  | _ => false

/-- The state in which a command leaves the engine, in the spec's own numbers: STATUS is (kind, cause), the response
is these two bytes and the fields (spec/30_encoding.md R93), the bit buffer is `b`, every working register is dropped
(spec/60_exceptions.md R312), and nothing else changes. -/
def ended (kind cause : Byte) (fields : List Byte) (b : BitBuffer) (s : State) : State :=
  { s with
    status := ⟨kind, cause⟩
    bb := b
    seg := SegRegs.reset
    work := Work.reset
    activity := .idle
    responses := s.responses ++ [kind :: cause :: fields] }

/-- The bytes are a whole SEG.DECODE or DECODE packet: "the opcode and framing checks have passed"
(spec/60_exceptions.md R312). -/
def TakesBitBuffer (bytes : List Byte) : Prop :=
  (∃ ver data, FitsField data ∧ encode (.segDecode ver data) = .packet bytes) ∨
    ∃ ver ecl raw, FitsField raw ∧ encode (.decode ver ecl raw) = .packet bytes

/-- The segments that append to TEXT (spec/10_state.md R34). -/
def writesText : Instr → Bool
  | .numeric => true
  | .alphanumeric => true
  | .byte => true
  | .kanji => true
  | _ => false

/-- The rows of the ECI segment (spec/30_encoding.md R107). -/
def isEci : Instr → Bool
  | .eci => true
  | .eci1 _ => true
  | .eci2 _ => true
  | .eci3 _ => true
  | .eciBad _ => true
  | _ => false

/-- The faults that the table of spec/60_exceptions.md R304 lists for a command, and for a segment those its rule
names and, where it reads bits, BB_UNDERRUN. SEG.DECODE and DECODE raise the rest of their rows in their segments. -/
def listedFaults : Instr → List Cause
  | .gfAdd _ _ => []
  | .gfMul _ _ => []
  | .gfInv _ => [.gfInvZero]
  | .gfExp _ => []
  | .gfLog _ => [.gfLogZero]
  | .gfMono _ _ => [.negDegree]
  | .polyNew _ _ => [.polyEmpty, .negDegree, .lenOverflow]
  | .polyDeg _ => [.polyEmpty]
  | .polyCoef _ _ => [.polyEmpty]
  | .polyIsZero _ => [.polyEmpty]
  | .polyEval _ _ => [.polyEmpty]
  | .polyAdd _ _ => [.polyEmpty]
  | .polyMul _ _ => [.polyEmpty, .lenOverflow]
  | .polyMulI _ _ => [.polyEmpty]
  | .polyMulM _ _ _ => [.polyEmpty, .negDegree, .lenOverflow]
  | .polyDiv _ _ => [.polyEmpty, .divByZeroPoly]
  | .polyMod _ _ => [.polyEmpty, .divByZeroPoly]
  | .rsSyn _ _ => []
  | .rsEuclid _ _ => [.polyEmpty, .euclidArg, .sigma0Zero]
  | .rsChien _ => [.polyEmpty, .rootCount]
  | .rsForney _ _ _ => [.polyEmpty, .gfInvZero, .zeroDenom]
  | .rsDecode _ _ => [.sigma0Zero, .rootCount, .posRange]
  | .deint _ _ _ => [.badVersion, .badEcl, .rawLen, .cursor]
  | .bbLoad _ => []
  | .bbAvail => []
  | .bbRead _ => [.bbNeg, .bbWidth, .bbUnderrun]
  | .segDecode _ _ => [.badVersion]
  | .decode _ _ _ => [.badVersion, .badEcl, .rawLen, .cursor, .sigma0Zero, .rootCount, .posRange]
  | .terminator => []
  | .numeric => [.bbUnderrun, .numValue]
  | .alphanumeric => [.bbUnderrun, .alnumValue]
  | .structuredAppend => [.saTruncated]
  | .byte => [.bbUnderrun]
  | .fnc1First => []
  | .illegal0110 => [.badMode]
  | .eci => [.bbUnderrun, .badEciHeader, .eciRange]
  | .kanji => [.bbUnderrun]
  | .fnc1Second => []
  | .illegal1010 => [.badMode]
  | .illegal1011 => [.badMode]
  | .illegal1100 => [.badMode]
  | .illegal1101 => [.badMode]
  | .illegal1110 => [.badMode]
  | .illegal1111 => [.badMode]
  | .eci1 _ => []
  | .eci2 _ => []
  | .eci3 _ => [.eciRange]
  | .eciBad _ => [.badEciHeader]

/-- The `poly` operands of a command, in field order (spec/30_encoding.md R95, R96). -/
def polyOperands : Instr → List Poly
  | .polyNew c _ => [c]
  | .polyDeg p => [p]
  | .polyCoef p _ => [p]
  | .polyIsZero p => [p]
  | .polyEval p _ => [p]
  | .polyAdd p q => [p, q]
  | .polyMul p q => [p, q]
  | .polyMulI p _ => [p]
  | .polyMulM p _ _ => [p]
  | .polyDiv p q => [p, q]
  | .polyMod p q => [p, q]
  | .rsEuclid p _ => [p]
  | .rsChien p => [p]
  | .rsForney p q _ => [p, q]
  | _ => []

/-- The same command, each `poly` operand replaced by `f` of it. -/
def mapPolyOperands (f : Poly → Poly) : Instr → Instr
  | .polyNew c d => .polyNew (f c) d
  | .polyDeg p => .polyDeg (f p)
  | .polyCoef p d => .polyCoef (f p) d
  | .polyIsZero p => .polyIsZero (f p)
  | .polyEval p x => .polyEval (f p) x
  | .polyAdd p q => .polyAdd (f p) (f q)
  | .polyMul p q => .polyMul (f p) (f q)
  | .polyMulI p k => .polyMulI (f p) k
  | .polyMulM p d k => .polyMulM (f p) d k
  | .polyDiv p q => .polyDiv (f p) (f q)
  | .polyMod p q => .polyMod (f p) (f q)
  | .rsEuclid p w => .rsEuclid (f p) w
  | .rsChien p => .rsChien (f p)
  | .rsForney p q v => .rsForney (f p) (f q) v
  | i => i

/-! ## Segment layouts -/

/-- The next bits of the stream at the cursor are `bits`. -/
abbrev StreamAt (b : BitBuffer) (bits : List Bool) : Prop := b.window bits.length = bits

/-- The bits after an indicator 0111 do not hold a whole designator (R107). -/
def CutDesignator (bits : List Bool) : Prop :=
  bits.length < 8 ∨ (bits.length < 16 ∧ ∃ more, bits = true :: false :: more) ∨
    (bits.length < 24 ∧ ∃ more, bits = true :: true :: false :: more)

/-- The digit groups of R103: three digits in 10 bits, then two in 7 or one in 4. -/
def digitGroups : List Nat → List Bool
  | a :: b :: c :: rest => bitsOfNat 10 (100 * a + 10 * b + c) ++ digitGroups rest
  | [a, b] => bitsOfNat 7 (10 * a + b)
  | [a] => bitsOfNat 4 a
  | [] => []

/-- The character groups of R104: v = 45·i1 + i2 in 11 bits, then one index in 6. -/
def charGroups : List Nat → List Bool
  | a :: b :: rest => bitsOfNat 11 (45 * a + b) ++ charGroups rest
  | [a] => bitsOfNat 6 a
  | [] => []

/-- The bytes of R105, 8 bits each. -/
def byteBits (bytes : List Byte) : List Bool := bytes.flatMap fun b => bitsOfNat 8 b.toNat

/-- The units of R106, 13 bits each. -/
def unitBits (units : List Nat) : List Bool := units.flatMap fun u => bitsOfNat 13 u

/-- A segment as the assembler syntax of R114 writes it. -/
inductive Seg where
  | num (digits : List Nat)
  | alnum (indices : List Nat)
  | append (sequence parity : Byte)
  | bytes (bytes : List Byte)
  | fnc1First
  | eci1 (id : BitVec 7)
  | eci2 (id : BitVec 14)
  | eci3 (id : BitVec 21)
  | kanji (units : List Nat)
  | fnc1Second

/-- What an encoder can write: digits, indices and units in range, counts that their field can hold, ECI ids up to
999999. -/
def Seg.Valid (ver : Nat) : Seg → Prop
  | .num ds => (∀ d ∈ ds, d < 10) ∧ ds.length < 2 ^ numericWidth ver
  | .alnum is => (∀ i ∈ is, i < 45) ∧ is.length < 2 ^ alphanumericWidth ver
  | .append _ _ => True
  | .bytes bs => bs.length < 2 ^ byteWidth ver
  | .fnc1First => True
  | .eci1 _ => True
  | .eci2 _ => True
  | .eci3 id => id.toNat ≤ 999999
  | .kanji us => (∀ u ∈ us, u < 2 ^ 13) ∧ us.length < 2 ^ kanjiWidth ver
  | .fnc1Second => True

/-- The bits of a segment after its row of the opcode table. -/
def Seg.body (ver : Nat) : Seg → List Bool
  | .num ds => bitsOfNat (numericWidth ver) ds.length ++ digitGroups ds
  | .alnum is => bitsOfNat (alphanumericWidth ver) is.length ++ charGroups is
  | .append a b => bitsOfNat 8 a.toNat ++ bitsOfNat 8 b.toNat
  | .bytes bs => bitsOfNat (byteWidth ver) bs.length ++ byteBits bs
  | .fnc1First => []
  | .eci1 _ => []
  | .eci2 _ => []
  | .eci3 _ => []
  | .kanji us => bitsOfNat (kanjiWidth ver) us.length ++ unitBits us
  | .fnc1Second => []

/-- The instruction of a segment. -/
def Seg.instr : Seg → Instr
  | .num _ => .numeric
  | .alnum _ => .alphanumeric
  | .append _ _ => .structuredAppend
  | .bytes _ => .byte
  | .fnc1First => .fnc1First
  | .eci1 id => .eci1 id
  | .eci2 id => .eci2 id
  | .eci3 id => .eci3 id
  | .kanji _ => .kanji
  | .fnc1Second => .fnc1Second

/-- The bits of an instruction's row. -/
def rowOf (i : Instr) : List Bool :=
  match encode i with
  | .packet _ => []
  | .bits bs => bs

/-- All the bits of a segment (R103 to R108). -/
def Seg.bits (ver : Nat) (g : Seg) : List Bool := rowOf g.instr ++ g.body ver

/-- What a segment does to the segment registers (spec/45_segment_decoder.md R243 to R251, R258, R259). -/
def Seg.effect (cfg : Config.Params) (g : Seg) (r : SegRegs) : SegRegs :=
  match g with
  | .num ds => { r with text := r.text ++ ds.map digit }
  | .alnum is => { r with text := r.text ++ is.map alnumChar }
  | .append a b => { r with saseq := some a, sapar := some b }
  | .bytes bs => { r with text := r.text ++ Config.transcode (byteCharset r.eci bs) bs, eci := none }
  | .fnc1First => r
  | .eci1 id => { r with eci := some ⟨id.toNat, eciName cfg id.toNat⟩ }
  | .eci2 id => { r with eci := some ⟨id.toNat, eciName cfg id.toNat⟩ }
  | .eci3 id => { r with eci := some ⟨id.toNat, eciName cfg id.toNat⟩ }
  | .kanji us =>
    { r with text := r.text ++ Config.transcode .shiftJis (us.flatMap fun u => [(kanjiMap cfg u).1, (kanjiMap cfg u).2]) }
  | .fnc1Second => r

/-! ## Layouts of blocks -/

/-- WF(ec, groups), clause by clause as spec/43_deinterleave.md R211 has it. -/
def LayoutWf (layout : Config.Layout) : Prop :=
  layout.groups ≠ [] ∧ (∀ g ∈ layout.groups, 1 ≤ g.blockCount) ∧
    0 ≤ layout.ec ∧ (∀ d ∈ blockSizes layout.groups, 0 ≤ d) ∧
    (∀ j, j + 1 < (blockSizes layout.groups).length →
      (blockSizes layout.groups).getD j 0 ≤ (blockSizes layout.groups).getD (j + 1) 0) ∧
    ∀ d ∈ blockSizes layout.groups,
      d = (blockSizes layout.groups).headD 0 ∨ d = (blockSizes layout.groups).headD 0 + 1

/-! ## The field, the polynomials and the Reed–Solomon stages -/

/-- The carry-less product of two bytes modulo 0x011D, by shift and add: no table (spec/40_gf256.md R139). -/
def reducedProduct (a b : Byte) : Byte :=
  (List.range 8).foldr
    (fun k r => (r <<< 1) ^^^ (if r.getLsbD 7 then 0x1D else 0) ^^^ (if a.getLsbD k then b else 0)) 0

/-- The coefficient of x^k of the polynomial whose coefficients are `p`, most significant first; 0 above its degree.
-/
def coef (p : List Byte) (k : Nat) : Byte := p.reverse.getD k 0

/-- The XOR of `v 0`, ..., `v (n - 1)`. -/
def xorSum (n : Nat) (v : Nat → Byte) : Byte := ((List.range n).map v).foldl (· ^^^ ·) 0

/-- The value at `x` of the polynomial whose coefficients are `p`, most significant first, by Horner's rule from 0. -/
def valueAt (p : List Byte) (x : Byte) : Byte := horner x 0 p

/-- The while loop of R183 as the rule has it, with no bound on its passes: `e'` is where it exits from `e`. -/
inductive EuclidExit (twoS : Nat) : EuclidRegs → EuclidRegs → Prop where
  | stop (e : EuclidRegs) (h : 2 * pdeg e.r < twoS) : EuclidExit twoS e e
  | pass (e e' : EuclidRegs) (q r : Poly) (h : twoS ≤ 2 * pdeg e.r) (hdiv : pdiv e.rLast e.r = .ok (q, r))
      (hrest : EuclidExit twoS ⟨e.r, r, e.t, padd (pmul q e.t) e.tLast, q⟩ e') : EuclidExit twoS e e'

/-- The error magnitude of the locator `x`: X · Ω(X^(-1)) / σ'(X^(-1)) (R187). -/
def ForneyMagnitude (sigma omega : Poly) (x e : Byte) : Prop :=
  ∃ xi dinv : Byte, gmul x xi = 1 ∧ gmul (peval (pderiv sigma) xi) dinv = 1 ∧
    e = gmul x (gmul (peval omega xi) dinv)

/-- `rs_decode` as a function of its operands (R189): the corrected vector or the cause raised. -/
def corrected (received : List Byte) (twoS : Nat) : Except Cause (List Byte) :=
  (rsDecode received twoS Work.reset).map Prod.snd

/-- A vector of the code of `twoS` check symbols: every syndrome is zero (R191). -/
def IsCodeword (twoS : Nat) (c : List Byte) : Prop := ∀ i < twoS, valueAt c (gexp i) = 0

/-- How many indices two vectors of one length differ at. -/
def differences (a b : List Byte) : Nat := ((a.zip b).filter fun p => p.1 != p.2).length

end Sys2Proof.Machine
end

