-- ==== Sys2Proof/Certificates/Slice0/Obligations.lean ====
section
/-! DEFINITION. The statements about the model, for the provers. A command's statement ends in the state `ended kind
cause fields bb s` of Safety.lean: the status, the whole response, the bit buffer, and every other field unchanged or
dropped; so each is its frame too. -/

open Sys2Proof Sys2Proof.Machine

/-! ## Encoding -/

/-- Decoding gives back every well-formed instruction, at both levels, with every operand at every value (R91 to R95,
R101, R107). For the row ECI alone the stream ends after the indicator (log entry 10). -/
def Obligations.DecodeInvertsEncode : Prop :=
  ∀ i : Instr, WellFormed i → decodeWords (encode i) = some i

/-- A packet decodes to an instruction exactly if it is that instruction's encoding: no packet is read two ways, no
bit dropped, nothing left over (R91, R100). -/
def Obligations.EachPacketHasOneEncoding : Prop :=
  ∀ (bytes : List Byte) (i : Instr), decodePacket bytes = .ok i ↔ WellFormed i ∧ encode i = .packet bytes

/-- A segment's row decodes whatever bits come after it; what is decoded is the encoding of a beginning of the stream;
a designator cut short is the row ECI (log entry 10); and only a stream of fewer than four bits has no row (R101,
R107, R241). -/
def Obligations.SegmentRowEndsWhereItsBitsEnd : Prop :=
  (∀ (i : Instr) (bits rest : List Bool), i ≠ .eci → encode i = .bits bits →
    decodeSegment (bits ++ rest) = .ok (i, bits.length)) ∧
  (∀ rest : List Bool, CutDesignator rest → decodeSegment (bitsOfNat 4 0b0111 ++ rest) = .ok (.eci, 4)) ∧
  (∀ (bits : List Bool) (i : Instr) (n : Nat), decodeSegment bits = .ok (i, n) →
    n ≤ bits.length ∧ encode i = .bits (bits.take n)) ∧
  (∀ bits : List Bool, decodeSegment bits = .error .fewerThanFourBits ↔ bits.length < 4)

/-- Packets and rows written out from the tables of R94, R95, R101 and R107 (most of the packets are examples of their
rules), one for each family, and what each decodes to. -/
def Obligations.SampleWordsDecode : Prop :=
  decodePacket [0x11, 0x02, 0x80] = .ok (.gfMul 0x02 0x80) ∧
  decodePacket [0x15, 0xFF, 0xFE, 0x05] = .ok (.gfMono (-2) 0x05) ∧
  decodePacket [0x28, 0x00, 0x03, 0x01, 0x02, 0x03, 0x00, 0x02, 0x03] = .ok (.polyMulM [0x01, 0x02, 0x03] 2 0x03) ∧
  decodePacket [0x29, 0x00, 0x04, 0x12, 0x34, 0x56, 0x78, 0x00, 0x02, 0x02, 0x03] =
    .ok (.polyDiv [0x12, 0x34, 0x56, 0x78] [0x02, 0x03]) ∧
  decodePacket [0x33, 0x00, 0x02, 0x04, 0x01, 0x00, 0x01, 0x40, 0x00, 0x01, 0x04] =
    .ok (.rsForney [0x04, 0x01] [0x40] [0x04]) ∧
  decodePacket [0x40, 0x03, 0x02, 0x00, 0x02, 0xAA, 0xBB] = .ok (.deint 3 2 [0xAA, 0xBB]) ∧
  decodePacket [0x52, 0xFF] = .ok (.bbRead 0xFF) ∧
  decodePacket [0x60, 0x01, 0x00, 0x06, 0x31, 0x3A, 0xB1, 0x00, 0x95, 0x00] =
    .ok (.segDecode 1 [0x31, 0x3A, 0xB1, 0x00, 0x95, 0x00]) ∧
  decodePacket [0x70, 0x05, 0x02, 0x00, 0x01, 0x10] = .ok (.decode 5 2 [0x10]) ∧
  decodeSegment (bitsOfNat 8 0b00011010) = .ok (.numeric, 4) ∧
  decodeSegment (bitsOfNat 8 0b11010000) = .ok (.illegal1101, 4) ∧
  decodeSegment (bitsOfNat 12 0b011100011010) = .ok (.eci1 26, 12) ∧
  decodeSegment (bitsOfNat 20 0b01111000001110000011) = .ok (.eci2 899, 20) ∧
  decodeSegment (bitsOfNat 28 0b0111110011110100001000111111) = .ok (.eci3 999999, 28) ∧
  decodeSegment (bitsOfNat 12 0b011111100000) = .ok (.eciBad 0, 12)

/-- Every opcode byte outside the map raises IllegalArgument(BAD_OPCODE), whatever follows it; of an engine between
commands only STATUS changes (R99). -/
def Obligations.IllegalOpcodesRaiseBadOpcode : Prop :=
  ∀ (s : State) (op : Byte) (operands : List Byte) (rest : List HostAction), Inv s → s.activity = .idle →
    s.script = .packet (op :: operands) :: rest →
    (op.toNat ≤ 0x0F ∨ (0x16 ≤ op.toNat ∧ op.toNat ≤ 0x1F) ∨ (0x2B ≤ op.toNat ∧ op.toNat ≤ 0x2F) ∨
      (0x35 ≤ op.toNat ∧ op.toNat ≤ 0x3F) ∨ (0x41 ≤ op.toNat ∧ op.toNat ≤ 0x4F) ∨
      (0x53 ≤ op.toNat ∧ op.toNat ≤ 0x5F) ∨ (0x61 ≤ op.toNat ∧ op.toNat ≤ 0x6F) ∨ 0x71 ≤ op.toNat) →
    step s = .next { s with
      status := ⟨0x01, 0x0A⟩
      script := rest
      responses := s.responses ++ [[0x01, 0x0A]] }

/-- A packet that is empty, or that starts with an opcode of the map and is no instruction's whole encoding, raises
IllegalArgument(BAD_PACKET) (R100). -/
def Obligations.MalformedPacketsRaiseBadPacket : Prop :=
  ∀ (s : State) (bytes : List Byte) (rest : List HostAction), s.activity = .idle → s.script = .packet bytes :: rest →
    (bytes = [] ∨ ∃ (op : Byte) (operands good : List Byte) (i : Instr), bytes = op :: operands ∧
      encode i = .packet (op :: good) ∧ ¬ ∃ j, WellFormed j ∧ encode j = .packet bytes) →
    step s = .next (ended 0x01 0x0B [] s.bb { s with script := rest })

/-! ## Steps -/

/-- A step runs what it decodes: between commands the host's packet, which leaves the script; inside a run the row at
the cursor, which moves past it (R90, R241, R324). -/
def Obligations.StepRunsDecodedInstruction : Prop :=
  (∀ (s : State) (bytes : List Byte) (rest : List HostAction) (i : Instr), s.activity = .idle →
    s.script = .packet bytes :: rest → decodePacket bytes = .ok i → step s = exec i { s with script := rest }) ∧
  (∀ (s : State) (i : Instr) (width : Nat), s.activity ≠ .idle →
    decodeSegment (s.bb.window longestRow) = .ok (i, width) → step s = exec i { s with bb := s.bb.skip width })

/-- Inside a run, the segment whose row stands at the cursor is run, from the first bit after its row; an indicator
0111 whose designator the stream cuts short is run from the bit after the indicator (log entry 10). -/
def Obligations.RowAtTheCursorRuns : Prop :=
  ∀ s : State, s.activity ≠ .idle → s.bb.Wf →
    (∀ (i : Instr) (bits : List Bool), i ≠ .eci → encode i = .bits bits → StreamAt s.bb bits →
      step s = exec i { s with bb := s.bb.skip bits.length }) ∧
    (StreamAt s.bb (bitsOfNat 4 0b0111) → CutDesignator ((s.bb.skip 4).window 24) →
      step s = exec .eci { s with bb := s.bb.skip 4 })

/-- After reset STATUS is (0x00, 0x00), the bit buffer is empty, no command runs, BB.AVAIL answers 0 and BB.READ of a
legal width faults with BB_UNDERRUN (R41, R343); the reset action puts the engine there and is not answered (R340),
the configuration as it was (R344); with nothing sent nothing happens (R324). That `Inv` holds includes the model's
choice of working registers (log entries 3 and 4). -/
def Obligations.ResetLeavesAnEmptyEngine : Prop :=
  (Inv State.reset ∧ State.reset.status = ⟨0x00, 0x00⟩ ∧ State.reset.bb = ⟨[], 0, 0⟩ ∧ State.reset.activity = .idle) ∧
  exec .bbAvail State.reset = .next (ended 0x00 0x00 [0, 0, 0, 0] ⟨[], 0, 0⟩ State.reset) ∧
  (∀ n : Byte, 1 ≤ n.toNat → n.toNat ≤ 32 →
    exec (.bbRead n) State.reset = .next (ended 0x02 0x20 [] ⟨[], 0, 0⟩ State.reset)) ∧
  (∀ (s : State) (rest : List HostAction), s.activity = .idle → s.script = .reset :: rest →
    step s = .next { State.reset with cfg := s.cfg, script := rest, responses := s.responses }) ∧
  (∀ s : State, s.activity = .idle → s.script = [] → step s = .next s)

/-- The cursor invariant of R231, the length of BBUF, the ranges of VER and of the ECI id, and the dropped working
registers between commands (log entries 3, 4 and 13) are kept by every step, from every state that has them. -/
def Obligations.EveryStepKeepsInv : Prop :=
  ∀ s t : State, Inv s → step s = .next t → Inv t

/-- No step of the machine stops, from any state; the configuration never changes; a command is answered by exactly
one response, at its end; the host's script is read one action at a time, and not at all while a segment stream runs
(R93, R324, R344, R357). -/
def Obligations.EveryStepGoesOnAndAnswersOnce : Prop :=
  ∀ s : State, ∃ t, step s = .next t ∧ t.cfg = s.cfg ∧
    (s.activity ≠ .idle → t.script = s.script ∧
      ((t.activity = s.activity ∧ t.responses = s.responses) ∨
        (t.activity = .idle ∧ ∃ r, t.responses = s.responses ++ [r]))) ∧
    (∀ bytes rest, s.activity = .idle → s.script = .packet bytes :: rest → t.script = rest ∧
      ((t.activity ≠ .idle ∧ t.responses = s.responses) ∨
        (t.activity = .idle ∧ ∃ r, t.responses = s.responses ++ [r]))) ∧
    (∀ rest, s.activity = .idle → s.script = .reset :: rest →
      t.script = rest ∧ t.activity = .idle ∧ t.responses = s.responses)

/-- A run of a segment stream ends, with one response, after at most one step for each four bits of the stream and one
more (R241, R361). -/
def Obligations.EveryRunEnds : Prop :=
  ∀ s : State, s.bb.Wf → s.activity ≠ .idle →
    ∃ (k : Nat) (t : State) (r : List Byte), k ≤ s.bb.avail / 4 + 1 ∧ Host.Core.run Sys2Proof.core k s = .next t ∧
      t.activity = .idle ∧ t.responses = s.responses ++ [r]

/-- A step that answers puts the new STATUS at the head of the response; a fault has nothing after it; kind OK has
cause 0x00 (R93, R302, R303). -/
def Obligations.StatusHeadsEveryResponse : Prop :=
  ∀ s t : State, step s = .next t → t.responses = s.responses ∨
    ∃ fields, t.responses = s.responses ++ [t.status.kind :: t.status.cause :: fields] ∧
      (t.status.kind ≠ 0x00 → fields = []) ∧ (t.status.kind = 0x00 → t.status.cause = 0x00)

/-- Two engines between commands that agree on the bit buffer, the configuration and what the host sends answer alike
and stay so, whatever their status and working registers hold: nothing but BBUF, BPOS and BOFF carries over (R40,
R356). -/
def Obligations.ResponsesIgnoreWorkingRegisters : Prop :=
  ∀ (k : Nat) (s s' : State), s.activity = .idle → s'.activity = .idle → s.bb = s'.bb → s.cfg = s'.cfg →
    s.script = s'.script →
    ∃ (t t' : State) (rs : List (List Byte)), Host.Core.run Sys2Proof.core k s = .next t ∧
      Host.Core.run Sys2Proof.core k s' = .next t' ∧ t.responses = s.responses ++ rs ∧
      t'.responses = s'.responses ++ rs ∧ t.activity = t'.activity ∧ t.bb = t'.bb ∧ t.script = t'.script

/-- The state after a fault (R312): STATUS and the two bytes of the response, the working registers dropped; the bit
buffer as it was before, but reset if the packet was a whole SEG.DECODE or DECODE packet; and a run, whether it faults
or not, ends with the bit buffer reset. -/
def Obligations.FaultsLeaveTheStatedState : Prop :=
  (∀ (s t : State) (bytes : List Byte) (rest : List HostAction), s.activity = .idle →
    s.script = .packet bytes :: rest → step s = .next t → t.activity = .idle → t.status.kind ≠ 0x00 →
    (TakesBitBuffer bytes → t = ended t.status.kind t.status.cause [] ⟨[], 0, 0⟩ { s with script := rest }) ∧
    (¬ TakesBitBuffer bytes → t = ended t.status.kind t.status.cause [] s.bb { s with script := rest })) ∧
  (∀ s t : State, s.activity ≠ .idle → step s = .next t → t.activity = .idle →
    ∃ fields, t = ended t.status.kind t.status.cause fields ⟨[], 0, 0⟩ s ∧ (t.status.kind ≠ 0x00 → fields = []))

/-- The frame of the commands: those of GF, POLY, RS, DEINT and BB.AVAIL change nothing but STATUS and the response
(R131, R150, R180, R358), BB.LOAD and BB.READ the bit buffer besides, BB.READ only its cursor (R30); and between
commands there is no working register to drop. -/
def Obligations.CommandsChangeOnlyStatus : Prop :=
  (∀ (i : Instr) (s t : State), isSegment i = false → touchesBitBuffer i = false → exec i s = .next t →
    ∃ kind cause fields, t = ended kind cause fields s.bb s ∧ (kind ≠ 0x00 → fields = [])) ∧
  (∀ (v : List Byte) (s t : State), exec (.bbLoad v) s = .next t → t = ended 0x00 0x00 [] t.bb s) ∧
  (∀ (n : Byte) (s t : State), exec (.bbRead n) s = .next t → t.bb.bbuf = s.bb.bbuf ∧
    ∃ kind cause fields, t = ended kind cause fields t.bb s ∧ (kind ≠ 0x00 → fields = [] ∧ t.bb = s.bb)) ∧
  (∀ (kind cause : Byte) (fields : List Byte) (b : BitBuffer) (s : State), Inv s → s.activity = .idle →
    ended kind cause fields b s = { s with
      status := ⟨kind, cause⟩
      bb := b
      responses := s.responses ++ [kind :: cause :: fields] })

/-- The frame of the segments: a segment that does not end the run changes nothing but the cursor, which does not go
back over the same bytes, and TEXT, ECI, SASEQ and SAPAR (R30, R32, R33, R77). -/
def Obligations.SegmentsChangeOnlyTheirRegisters : Prop :=
  ∀ (i : Instr) (s t : State), isSegment i = true → s.bb.Wf → exec i s = .next t → t.activity ≠ .idle →
    t.status = s.status ∧ t.work = s.work ∧ t.activity = s.activity ∧ t.cfg = s.cfg ∧ t.script = s.script ∧
    t.responses = s.responses ∧ t.seg.ver = s.seg.ver ∧ t.bb.Wf ∧ t.bb.bbuf = s.bb.bbuf ∧
    8 * s.bb.bpos + s.bb.boff ≤ 8 * t.bb.bpos + t.bb.boff

/-- TEXT is only appended to, by the four segments that carry characters (R34); the ECI register is set by an ECI
segment, cleared by the next BYTE segment, and left by every other (R258); SASEQ and SAPAR are written by
STRUCTURED_APPEND only (R36). -/
def Obligations.SegmentRegisterLifetimes : Prop :=
  ∀ (i : Instr) (s t : State), isSegment i = true → exec i s = .next t → t.activity ≠ .idle →
    (∃ more, t.seg.text = s.seg.text ++ more ∧ (writesText i = false → more = [])) ∧
    (i = .byte → t.seg.eci = none) ∧
    (isEci i = true → ∃ r, t.seg.eci = some r) ∧
    (i ≠ .byte → isEci i = false → t.seg.eci = s.seg.eci) ∧
    (i ≠ .structuredAppend → t.seg.saseq = s.seg.saseq ∧ t.seg.sapar = s.seg.sapar) ∧
    (i = .structuredAppend → t.seg.saseq ≠ none ∧ t.seg.sapar ≠ none)

/-! ## Faults and fields -/

/-- The cause alone identifies the fault: no two causes share a code, and a code's range gives its kind (R301, R303).
-/
def Obligations.CauseCodesIdentifyFaults : Prop :=
  (∀ c d : Cause, causeCode c = causeCode d → c = d) ∧
  (∀ c : Cause, causeKind c ≠ 0x00 ∧ causeCode c ≠ 0x00) ∧
  (∀ c : Cause, causeKind c = 0x01 ↔ (causeCode c).toNat ≤ 0x0D) ∧
  (∀ c : Cause, causeKind c = 0x02 ↔ 0x20 ≤ (causeCode c).toNat ∧ (causeCode c).toNat ≤ 0x22) ∧
  (∀ c : Cause, causeKind c = 0x03 ↔ 0x30 ≤ (causeCode c).toNat ∧ (causeCode c).toNat ≤ 0x35) ∧
  (∀ c : Cause, causeKind c = 0x04 ↔ 0x40 ≤ (causeCode c).toNat ∧ (causeCode c).toNat ≤ 0x43)

/-- Every command but RS.DECODE and DECODE, and every segment, raises no fault that R304 does not list for it. -/
def Obligations.OnlyListedFaultsAreRaised : Prop :=
  ∀ (i : Instr) (s t : State), WellFormed i → (∀ v w, i ≠ .rsDecode v w) →
    (∀ ver ecl raw, i ≠ .decode ver ecl raw) → exec i s = .next t → t.activity = .idle → t.status.kind ≠ 0x00 →
    ∃ c ∈ listedFaults i, t.status = ⟨causeKind c, causeCode c⟩

/-- RS.DECODE raises SIGMA0_ZERO, ROOT_COUNT or POS_RANGE and nothing else, each of them for some word, and DECODE
those and the faults of DEINT before its stream starts: EUCLID_ARG, DIV_BY_ZERO_POLY, GF_INV_ZERO and ZERO_DENOM are
unreachable there (R184, R189, R193, R304). -/
def Obligations.UncorrectableWordsRaiseListedFaults : Prop :=
  (∀ (i : Instr) (s t : State), ((∃ v w, i = .rsDecode v w) ∨ ∃ ver ecl raw, i = .decode ver ecl raw) →
    exec i s = .next t → t.activity = .idle → t.status.kind ≠ 0x00 →
    ∃ c ∈ listedFaults i, t.status = ⟨causeKind c, causeCode c⟩) ∧
  (∀ s : State, s.activity = .idle → ∀ cause : Byte, cause = 0x40 ∨ cause = 0x41 ∨ cause = 0x43 →
    ∃ v w, exec (.rsDecode v w) s = .next (ended 0x04 cause [] s.bb s))

/-- The result fields of a response: big-endian numbers, vectors after their length, the sentinel -1 as 0xFFFF (R92,
R98). -/
def Obligations.ResultFieldLayouts : Prop :=
  (∀ n : Nat, n < 2 ^ 16 → ∃ hi lo : Byte, u16Field n = [hi, lo] ∧ n = 256 * hi.toNat + lo.toNat) ∧
  (∀ n : Nat, n < 2 ^ 32 → ∃ a b c d : Byte, u32Field n = [a, b, c, d] ∧
    n = 2 ^ 24 * a.toNat + 2 ^ 16 * b.toNat + 2 ^ 8 * c.toNat + d.toNat) ∧
  (∀ v : List Byte, FitsField v → vecField v = u16Field v.length ++ v ∧ vecField v = bytesOfVec v) ∧
  (∀ v : List Byte, vec32Field v = u32Field v.length ++ v) ∧
  sentinelField none = [0xFF, 0xFF] ∧ (∀ b : Byte, sentinelField (some b) = [0x00, b])

/-! ## The field -/

/-- GF.ADD and GF.MUL (R132, R133). -/
def Obligations.GfSumAndProduct : Prop :=
  ∀ (a b : Byte) (s : State), s.activity = .idle →
    encode (.gfAdd a b) = .packet [0x10, a, b] ∧
    exec (.gfAdd a b) s = .next (ended 0x00 0x00 [a ^^^ b] s.bb s) ∧
    encode (.gfMul a b) = .packet [0x11, a, b] ∧
    (a = 0 ∨ b = 0 → exec (.gfMul a b) s = .next (ended 0x00 0x00 [0] s.bb s)) ∧
    (∀ i j : Nat, LOG a = some i → LOG b = some j →
      exec (.gfMul a b) s = .next (ended 0x00 0x00 [EXP ((i + j) % 255)] s.bb s)) ∧
    (a ≠ 0 → b ≠ 0 → ∃ i j : Nat, LOG a = some i ∧ LOG b = some j)

/-- GF.INV, GF.EXP and GF.LOG (R134 to R136). -/
def Obligations.GfInverseExpAndLog : Prop :=
  (∀ (a : Byte) (s : State), s.activity = .idle →
    encode (.gfInv a) = .packet [0x12, a] ∧
    (a = 0 → exec (.gfInv a) s = .next (ended 0x01 0x01 [] s.bb s)) ∧
    (∀ l : Nat, LOG a = some l → exec (.gfInv a) s = .next (ended 0x00 0x00 [EXP (255 - l)] s.bb s)) ∧
    encode (.gfLog a) = .packet [0x14, a] ∧
    (a = 0 → exec (.gfLog a) s = .next (ended 0x01 0x02 [] s.bb s)) ∧
    (∀ l : Nat, LOG a = some l → l ≤ 254 ∧
      exec (.gfLog a) s = .next (ended 0x00 0x00 [BitVec.ofNat 8 l] s.bb s)) ∧
    (a ≠ 0 → ∃ l : Nat, LOG a = some l)) ∧
  (∀ (i : Word16) (s : State), s.activity = .idle →
    encode (.gfExp i) = .packet (0x13 :: bytesOfWord16 i) ∧
    exec (.gfExp i) s = .next (ended 0x00 0x00 [EXP (i.toNat % 255)] s.bb s))

/-- GF.MONO (R137). -/
def Obligations.GfMonomials : Prop :=
  ∀ (degree : Word16) (coefficient : Byte) (s : State), s.activity = .idle →
    encode (.gfMono degree coefficient) = .packet (0x15 :: bytesOfWord16 degree ++ [coefficient]) ∧
    (degree.toInt < 0 → exec (.gfMono degree coefficient) s = .next (ended 0x01 0x04 [] s.bb s)) ∧
    (0 ≤ degree.toInt → coefficient = 0 →
      exec (.gfMono degree coefficient) s = .next (ended 0x00 0x00 (vecField [0]) s.bb s)) ∧
    (0 ≤ degree.toInt → coefficient ≠ 0 →
      exec (.gfMono degree coefficient) s =
        .next (ended 0x00 0x00 (vecField (coefficient :: List.replicate degree.toInt.toNat 0)) s.bb s))

/-- The printed tables are those of the initialisation algorithm (R130). -/
def Obligations.TablesFollowTheAlgorithm : Prop :=
  EXP 0 = 1 ∧
  (∀ i : Nat, i < 255 → (EXP (i + 1)).toNat =
    (if 0x100 ≤ 2 * (EXP i).toNat then 2 * (EXP i).toNat ^^^ 0x011D else 2 * (EXP i).toNat) % 0x100) ∧
  (∀ i : Nat, i < 255 → LOG (EXP i) = some i) ∧ LOG 0 = none

/-- The properties of R138, and the further facts that the spec derives ("each checked by enumeration and not stated
by D00", 40_gf256.md section 3): the bytes with XOR and `gmul` are a field, `gmul` is the product modulo 0x011D, α = 2
has order 255. -/
def Obligations.GfIsAField : Prop :=
  (∀ a b : Byte, gmul a b = gmul b a ∧ gmul a 0 = 0 ∧ gmul a 1 = a) ∧
  (∀ a b c : Byte, gmul (gmul a b) c = gmul a (gmul b c)) ∧
  (∀ a b c : Byte, gmul a (b ^^^ c) = gmul a b ^^^ gmul a c) ∧
  (∀ a b : Byte, gmul a b = reducedProduct a b) ∧
  (∀ a : Byte, a ≠ 0 → ∃ (b : Byte) (l : Nat), ginv a = .ok b ∧ gmul a b = 1 ∧ ginv b = .ok a ∧
    glog a = .ok l ∧ l ≤ 254 ∧ gexp l = a) ∧
  (∀ i : Nat, gexp i ≠ 0 ∧ glog (gexp i) = .ok (i % 255) ∧ ginv (gexp i) = .ok (gexp (255 - i % 255))) ∧
  (∀ i j : Nat, gexp i = gexp j ↔ i % 255 = j % 255)

/-! ## Polynomials -/

/-- POLY.NEW: the vector is any zeros and then nothing, or a coefficient that is not zero; the faults in the order of
the rule (R151). -/
def Obligations.PolyNewNormalises : Prop :=
  ∀ (c : List Byte) (degree : Word16) (s : State), s.activity = .idle →
    encode (.polyNew c degree) = .packet (0x20 :: bytesOfVec c ++ bytesOfWord16 degree) ∧
    (c = [] → exec (.polyNew c degree) s = .next (ended 0x01 0x03 [] s.bb s)) ∧
    (c ≠ [] → degree.toInt < 0 → exec (.polyNew c degree) s = .next (ended 0x01 0x04 [] s.bb s)) ∧
    (∀ k : Nat, 0 ≤ degree.toInt → c = List.replicate (k + 1) 0 →
      exec (.polyNew c degree) s = .next (ended 0x00 0x00 (vecField [0]) s.bb s)) ∧
    (∀ (k : Nat) (a : Byte) (rest : List Byte), 0 ≤ degree.toInt → a ≠ 0 →
      c = List.replicate k 0 ++ a :: rest →
      (65535 < (rest.length + 1 : Int) + degree.toInt →
        exec (.polyNew c degree) s = .next (ended 0x01 0x0C [] s.bb s)) ∧
      ((rest.length + 1 : Int) + degree.toInt ≤ 65535 → exec (.polyNew c degree) s =
        .next (ended 0x00 0x00 (vecField (a :: rest ++ List.replicate degree.toInt.toNat 0)) s.bb s)))

/-- POLY.DEG, POLY.COEF and POLY.ISZERO of a polynomial, its leading zeros stripped (R96, R152 to R154). -/
def Obligations.PolyReadsCoefficients : Prop :=
  ∀ (p : Poly) (deg : Word16) (s : State), s.activity = .idle → p ≠ [] → FitsField p →
    encode (.polyDeg p) = .packet (0x21 :: bytesOfVec p) ∧
    exec (.polyDeg p) s = .next (ended 0x00 0x00 (u16Field ((strip p).length - 1)) s.bb s) ∧
    encode (.polyCoef p deg) = .packet (0x22 :: bytesOfVec p ++ bytesOfWord16 deg) ∧
    (deg.toInt < 0 → exec (.polyCoef p deg) s = .next (ended 0x00 0x00 [0] s.bb s)) ∧
    (0 ≤ deg.toInt →
      exec (.polyCoef p deg) s = .next (ended 0x00 0x00 [coef p deg.toInt.toNat] s.bb s)) ∧
    encode (.polyIsZero p) = .packet (0x23 :: bytesOfVec p) ∧
    ((∀ c ∈ p, c = 0) → exec (.polyIsZero p) s = .next (ended 0x00 0x00 [1] s.bb s)) ∧
    ((∃ c ∈ p, c ≠ 0) → exec (.polyIsZero p) s = .next (ended 0x00 0x00 [0] s.bb s))

/-- POLY.EVAL answers the value of Horner's rule, at 0 and at 1 too (R155). -/
def Obligations.PolyEvalIsHorner : Prop :=
  ∀ (p : Poly) (x : Byte) (s : State), s.activity = .idle → p ≠ [] → FitsField p →
    encode (.polyEval p x) = .packet (0x24 :: bytesOfVec p ++ [x]) ∧
    exec (.polyEval p x) s = .next (ended 0x00 0x00 [valueAt p x] s.bb s) ∧
    valueAt p 0 = p.getLastD 0 ∧ valueAt p 1 = p.foldl (· ^^^ ·) 0

/-- POLY.ADD answers the canonical polynomial whose coefficients are the XORs of the operands' (R156). -/
def Obligations.PolyAddXorsCoefficients : Prop :=
  ∀ (p q : Poly) (s : State), s.activity = .idle → p ≠ [] → q ≠ [] →
    FitsField p → FitsField q →
    encode (.polyAdd p q) = .packet (0x25 :: bytesOfVec p ++ bytesOfVec q) ∧
    ∃ r, exec (.polyAdd p q) s = .next (ended 0x00 0x00 (vecField r) s.bb s) ∧ Canonical r ∧
      ∀ k, coef r k = coef p k ^^^ coef q k

/-- POLY.MUL answers the canonical polynomial whose coefficients are the convolution of the operands', or faults if
both are not zero and it would be too long (R157). -/
def Obligations.PolyMulConvolves : Prop :=
  ∀ (p q : Poly) (s : State), s.activity = .idle → p ≠ [] → q ≠ [] →
    FitsField p → FitsField q →
    encode (.polyMul p q) = .packet (0x26 :: bytesOfVec p ++ bytesOfVec q) ∧
    (strip p ≠ [0] → strip q ≠ [0] → 65535 < (strip p).length + (strip q).length - 1 →
      exec (.polyMul p q) s = .next (ended 0x01 0x0C [] s.bb s)) ∧
    (strip p = [0] ∨ strip q = [0] ∨ (strip p).length + (strip q).length - 1 ≤ 65535 →
      ∃ r, exec (.polyMul p q) s = .next (ended 0x00 0x00 (vecField r) s.bb s) ∧ Canonical r ∧
        ∀ k, coef r k = xorSum (k + 1) fun i => gmul (coef p i) (coef q (k - i)))

/-- POLY.MULI and POLY.MULM answer the canonical polynomial whose coefficients are scaled and, for MULM, shifted up;
MULM's faults in the order of the rule (R158, R159). -/
def Obligations.PolyScalesAndShifts : Prop :=
  ∀ (p : Poly) (degree : Word16) (scalar : Byte) (s : State), s.activity = .idle → p ≠ [] → FitsField p →
    encode (.polyMulI p scalar) = .packet (0x27 :: bytesOfVec p ++ [scalar]) ∧
    (∃ r, exec (.polyMulI p scalar) s = .next (ended 0x00 0x00 (vecField r) s.bb s) ∧ Canonical r ∧
      ∀ k, coef r k = gmul (coef p k) scalar) ∧
    encode (.polyMulM p degree scalar) = .packet (0x28 :: bytesOfVec p ++ bytesOfWord16 degree ++ [scalar]) ∧
    (degree.toInt < 0 → exec (.polyMulM p degree scalar) s = .next (ended 0x01 0x04 [] s.bb s)) ∧
    (0 ≤ degree.toInt → scalar ≠ 0 → strip p ≠ [0] → 65535 < ((strip p).length : Int) + degree.toInt →
      exec (.polyMulM p degree scalar) s = .next (ended 0x01 0x0C [] s.bb s)) ∧
    (0 ≤ degree.toInt → scalar = 0 ∨ strip p = [0] ∨ ((strip p).length : Int) + degree.toInt ≤ 65535 →
      ∃ r, exec (.polyMulM p degree scalar) s = .next (ended 0x00 0x00 (vecField r) s.bb s) ∧ Canonical r ∧
        ∀ k, coef r k = if k < degree.toInt.toNat then 0 else gmul (coef p (k - degree.toInt.toNat)) scalar)

/-- POLY.DIV and POLY.MOD: a zero divisor faults; else the dividend is quotient times divisor plus remainder, and the
remainder is zero or of lower degree than the divisor (R160, R161). -/
def Obligations.PolyDivisionWithRemainder : Prop :=
  ∀ (p q : Poly) (s : State), s.activity = .idle → p ≠ [] → q ≠ [] →
    FitsField p → FitsField q →
    encode (.polyDiv p q) = .packet (0x29 :: bytesOfVec p ++ bytesOfVec q) ∧
    encode (.polyMod p q) = .packet (0x2A :: bytesOfVec p ++ bytesOfVec q) ∧
    (strip q = [0] → exec (.polyDiv p q) s = .next (ended 0x01 0x05 [] s.bb s) ∧
      exec (.polyMod p q) s = .next (ended 0x01 0x05 [] s.bb s)) ∧
    (strip q ≠ [0] → ∃ quo rem,
      exec (.polyDiv p q) s = .next (ended 0x00 0x00 (vecField quo ++ vecField rem) s.bb s) ∧
      exec (.polyMod p q) s = .next (ended 0x00 0x00 (vecField rem) s.bb s) ∧
      Canonical quo ∧ Canonical rem ∧ strip p = padd (pmul quo (strip q)) rem ∧
      (pdeg rem < pdeg (strip q) ∨ rem = [0]))

/-- Evaluation at a point takes sums to XORs, products to products, and multiples by scalars and monomials to products
with their values (R155 to R159). -/
def Obligations.EvaluationIsAHomomorphism : Prop :=
  ∀ (p q : Poly) (x : Byte), Canonical p → Canonical q →
    peval (padd p q) x = peval p x ^^^ peval q x ∧
    peval (pmul p q) x = gmul (peval p x) (peval q x) ∧
    (∀ k : Byte, peval (pmuli p k) x = gmul (peval p x) k) ∧
    (∀ (d : Nat) (k : Byte), pmulm p d k = pmul p (monomial d k) ∧
      peval (monomial d k) x = (List.replicate d x).foldl gmul k)

/-- Every `poly` operand of every command goes through the constructor: an empty one faults, and leading zeros do not
matter (R96). The first clause is over all the operands because POLY_EMPTY comes before every other check of the
command (R310). -/
def Obligations.PolyOperandsAreNormalised : Prop :=
  (∀ (i : Instr) (s : State), WellFormed i → s.activity = .idle → [] ∈ polyOperands i →
    exec i s = .next (ended 0x01 0x03 [] s.bb s)) ∧
  (∀ (i : Instr) (s : State), WellFormed i → [] ∉ polyOperands i → exec i s = exec (mapPolyOperands strip i) s) ∧
  (∀ (k : Nat) (a : Byte) (rest : List Byte), a ≠ 0 →
    strip (List.replicate k 0 ++ a :: rest) = a :: rest ∧ strip (List.replicate (k + 1) 0) = [0])

/-! ## Reed–Solomon -/

/-- RS.SYN: S_i is the value of the received vector at α^i, and the coefficient of x^i of the syndrome polynomial
(R181). -/
def Obligations.SyndromesAreValues : Prop :=
  ∀ (received : List Byte) (twoS : Word16) (s : State), s.activity = .idle →
    encode (.rsSyn received twoS) = .packet (0x30 :: bytesOfVec received ++ bytesOfWord16 twoS) ∧
    ∃ spoly, exec (.rsSyn received twoS) s = .next (ended 0x00 0x00
        (vecField ((List.range twoS.toNat).map fun i => valueAt received (gexp i)) ++ vecField spoly) s.bb s) ∧
      Canonical spoly ∧ ∀ k, coef spoly k = if k < twoS.toNat then valueAt received (gexp k) else 0

/-- RS.EUCLID: the loop of R183, without a bound on its passes, exits; sigma and omega are its last co-factor and
remainder divided by σ(0) (R183), whatever q holds before the first pass, which R183 leaves open (log entry 25). -/
def Obligations.EuclidRunsTheLoop : Prop :=
  ∀ (spoly : Poly) (twoS : Word16) (s : State), s.activity = .idle → spoly ≠ [] → FitsField spoly →
    encode (.rsEuclid spoly twoS) = .packet (0x31 :: bytesOfVec spoly ++ bytesOfWord16 twoS) ∧
    (twoS = 0 ∨ twoS.toNat ≤ pdeg (strip spoly) →
      exec (.rsEuclid spoly twoS) s = .next (ended 0x01 0x0D [] s.bb s)) ∧
    (twoS ≠ 0 → pdeg (strip spoly) < twoS.toNat →
      ∀ q : Poly, ∃ e, EuclidExit twoS.toNat ⟨1 :: List.replicate twoS.toNat 0, strip spoly, [0], [1], q⟩ e ∧
        (coef e.t 0 = 0 → exec (.rsEuclid spoly twoS) s = .next (ended 0x04 0x40 [] s.bb s)) ∧
        (∀ inv : Byte, gmul (coef e.t 0) inv = 1 → exec (.rsEuclid spoly twoS) s =
          .next (ended 0x00 0x00 (vecField (pmuli e.t inv) ++ vecField (pmuli e.r inv)) s.bb s)))

/-- What the Euclid stage finds solves the key equation σ·S ≡ Ω modulo x^twoS, with σ(0) = 1, deg σ ≤ twoS/2 and deg Ω
< twoS/2: the spec's own inference ("Only this assignment satisfies the key equation", R182; "Facts about the loop",
R184). -/
def Obligations.EuclidSolvesTheKeyEquation : Prop :=
  ∀ (spoly : Poly) (twoS : Nat) (e : EuclidRegs) (sigma omega : Poly), Canonical spoly →
    rsEuclid spoly twoS = .ok (e, sigma, omega) →
    Canonical sigma ∧ Canonical omega ∧ coef sigma 0 = 1 ∧ 2 * pdeg sigma ≤ twoS ∧ 2 * pdeg omega < twoS ∧
    ∀ k, k < twoS → coef (pmul sigma spoly) k = coef omega k

/-- RS.CHIEN: the locators are the inverses of the roots, in the order α^1, α^2, ..., α^255; the command faults if
there are not as many as the degree (R185). -/
def Obligations.ChienFindsEveryRoot : Prop :=
  ∀ (sigma : Poly) (s : State), s.activity = .idle → sigma ≠ [] → FitsField sigma →
    encode (.rsChien sigma) = .packet (0x32 :: bytesOfVec sigma) ∧
    ∃ powers : List Nat, powers.Pairwise (· < ·) ∧
      (∀ i, i ∈ powers ↔ 1 ≤ i ∧ i ≤ 255 ∧ valueAt sigma (gexp (255 - i)) = 0) ∧
      (powers.length = pdeg (strip sigma) →
        exec (.rsChien sigma) s = .next (ended 0x00 0x00 (vecField (powers.map gexp)) s.bb s)) ∧
      (powers.length ≠ pdeg (strip sigma) →
        exec (.rsChien sigma) s = .next (ended 0x04 0x41 [] s.bb s))

/-- RS.FORNEY: each magnitude is X·Ω(X^(-1))/σ'(X^(-1)), in the order of the locators, σ' the formal derivative; the
first locator that is 0 faults, and so does the first whose denominator is zero (R186, R187). -/
def Obligations.ForneyComputesMagnitudes : Prop :=
  (∀ (sigma omega : Poly) (xloc : List Byte) (s : State), s.activity = .idle → sigma ≠ [] → omega ≠ [] →
    FitsField sigma → FitsField omega →
    encode (.rsForney sigma omega xloc) =
      .packet (0x33 :: bytesOfVec sigma ++ bytesOfVec omega ++ bytesOfVec xloc) ∧
    (∀ emag, List.Forall₂ (ForneyMagnitude (strip sigma) (strip omega)) xloc emag →
      exec (.rsForney sigma omega xloc) s = .next (ended 0x00 0x00 (vecField emag) s.bb s)) ∧
    (∀ (good emag : List Byte) (x : Byte) (rest : List Byte), xloc = good ++ x :: rest →
      List.Forall₂ (ForneyMagnitude (strip sigma) (strip omega)) good emag →
      (x = 0 → exec (.rsForney sigma omega xloc) s = .next (ended 0x01 0x01 [] s.bb s)) ∧
      (∀ xi : Byte, gmul x xi = 1 → valueAt (pderiv (strip sigma)) xi = 0 →
        exec (.rsForney sigma omega xloc) s = .next (ended 0x04 0x42 [] s.bb s)))) ∧
  (∀ (sigma : Poly) (k : Nat), Canonical (pderiv sigma) ∧
    coef (pderiv sigma) k = if k % 2 = 0 then coef sigma (k + 1) else 0)

/-- RS.DECODE: the stages in order, the first fault of one ending the command; each magnitude is XORed at N - 1 -
LOG[X], after every position has been found inside the vector; with all syndromes zero, and in the low-degree corner,
the vector comes back unchanged (R188, R189; the corner is R190's). -/
def Obligations.RsDecodeAppliesTheStages : Prop :=
  ∀ (received : List Byte) (twoS : Word16) (s : State), s.activity = .idle →
    encode (.rsDecode received twoS) = .packet (0x34 :: bytesOfVec received ++ bytesOfWord16 twoS) ∧
    ((∀ i, i < twoS.toNat → valueAt received (gexp i) = 0) →
      exec (.rsDecode received twoS) s = .next (ended 0x00 0x00 (vecField received) s.bb s)) ∧
    ((∀ i, i < twoS.toNat → twoS.toNat ≤ 2 * i → valueAt received (gexp i) = 0) →
      exec (.rsDecode received twoS) s = .next (ended 0x00 0x00 (vecField received) s.bb s)) ∧
    ((∃ i, i < twoS.toNat ∧ valueAt received (gexp i) ≠ 0) →
      (∀ c, rsEuclid (rsSyn received twoS.toNat).2 twoS.toNat = .error c →
        exec (.rsDecode received twoS) s = .next (ended (causeKind c) (causeCode c) [] s.bb s)) ∧
      (∀ e sigma omega, rsEuclid (rsSyn received twoS.toNat).2 twoS.toNat = .ok (e, sigma, omega) →
        (∀ c, rsChien sigma = .error c →
          exec (.rsDecode received twoS) s = .next (ended (causeKind c) (causeCode c) [] s.bb s)) ∧
        (∀ xloc emag, rsChien sigma = .ok xloc → rsForney sigma omega xloc = .ok emag →
          ((∃ x ∈ xloc, ∃ l, LOG x = some l ∧ received.length ≤ l) →
            exec (.rsDecode received twoS) s = .next (ended 0x04 0x43 [] s.bb s)) ∧
          ((∀ x ∈ xloc, ∀ l, LOG x = some l → l < received.length) →
            ∃ out, exec (.rsDecode received twoS) s = .next (ended 0x00 0x00 (vecField out) s.bb s) ∧
              out.length = received.length ∧
              ∀ p, p < received.length →
                (∀ x m l, (x, m) ∈ xloc.zip emag → LOG x = some l → p = received.length - 1 - l →
                  out.getD p 0 = received.getD p 0 ^^^ m) ∧
                ((∀ x ∈ xloc, ∀ l, LOG x = some l → p ≠ received.length - 1 - l) →
                  out.getD p 0 = received.getD p 0)))))

/-- One wrong codeword of a vector of the code is found and corrected, wherever it stands and whatever its value: the
case of one error of what the spec says the decoder guarantees ("The spec has checked this by execution only", R191).
-/
def Obligations.OneErrorIsCorrected : Prop :=
  ∀ (c : List Byte) (p : Nat) (wrong : Byte) (twoS : Word16) (s : State), s.activity = .idle → c.length ≤ 255 →
    p < c.length → 2 ≤ twoS.toNat → IsCodeword twoS.toNat c →
    exec (.rsDecode (c.set p wrong) twoS) s = .next (ended 0x00 0x00 (vecField c) s.bb s)

/-- What the decoder guarantees: up to floor(twoS/2) wrong codewords of a vector of the code are corrected. The spec
states this and says it "has checked this by execution only" (R191). -/
def Obligations.ErrorsWithinCapacityAreCorrected : Prop :=
  ∀ (c received : List Byte) (twoS : Word16) (s : State), s.activity = .idle → c.length ≤ 255 →
    received.length = c.length → IsCodeword twoS.toNat c → differences received c ≤ twoS.toNat / 2 →
    exec (.rsDecode received twoS) s = .next (ended 0x00 0x00 (vecField c) s.bb s)

/-! ## The de-interleaver and the pipeline -/

/-- DEINT tests the version, the ecl, the length of the vector, the layout and the sum of its blocks, in this order,
for every configuration (R98, R211, R212). -/
def Obligations.DeintFaultsInOrder : Prop :=
  ∀ (ver ecl : Byte) (raw : List Byte) (s : State), s.activity = .idle →
    encode (.deint ver ecl raw) = .packet (0x40 :: ver :: ecl :: bytesOfVec raw) ∧
    (ver.toNat < 1 ∨ 40 < ver.toNat → exec (.deint ver ecl raw) s = .next (ended 0x01 0x08 [] s.bb s)) ∧
    (1 ≤ ver.toNat → ver.toNat ≤ 40 →
      (3 < ecl.toNat → exec (.deint ver ecl raw) s = .next (ended 0x01 0x09 [] s.bb s)) ∧
      (ecl.toNat ≤ 3 →
        (raw.length ≠ totalOf s.cfg ver.toNat →
          exec (.deint ver ecl raw) s = .next (ended 0x01 0x06 [] s.bb s)) ∧
        (raw.length = totalOf s.cfg ver.toNat →
          (¬ LayoutWf (layoutOf s.cfg ver.toNat ecl.toNat) ∨
            ((blockSizes (layoutOf s.cfg ver.toNat ecl.toNat).groups).map
              (· + (layoutOf s.cfg ver.toNat ecl.toNat).ec)).sum ≠ raw.length →
            exec (.deint ver ecl raw) s = .next (ended 0x01 0x07 [] s.bb s)))))

/-- DEINT in closed form: which raw codeword each byte of each block is, for every well-formed layout. It is the
spec's own derivation from the loops of R212 ("by counting the increments of CUR", R214). `d` are the data counts of
the blocks, not negative in a well-formed layout, `L` how many of them are short. -/
def Obligations.DeintInClosedForm : Prop :=
  ∀ (ver ecl : Byte) (raw : List Byte) (s : State) (ec : Nat) (d : List Nat), s.activity = .idle →
    1 ≤ ver.toNat → ver.toNat ≤ 40 → ecl.toNat ≤ 3 → raw.length = totalOf s.cfg ver.toNat →
    LayoutWf (layoutOf s.cfg ver.toNat ecl.toNat) → ec = (layoutOf s.cfg ver.toNat ecl.toNat).ec →
    (blockSizes (layoutOf s.cfg ver.toNat ecl.toNat).groups = d.map fun x => (x : Int)) → (d.map (· + ec)).sum = raw.length →
    ∃ blk : List Block, exec (.deint ver ecl raw) s = .next (ended 0x00 0x00
        (u16Field d.length ++ blk.flatMap fun b => u16Field b.ndata ++ vecField b.buf) s.bb s) ∧
      blk.map Block.ndata = d ∧ blk.map (fun b => b.buf.length) = d.map (· + ec) ∧
      ∀ (j : Nat) (b : Block), blk[j]? = some b →
        (∀ i, i < d.headD 0 → b.buf.getD i 0 = raw.getD (i * d.length + j) 0) ∧
        (∀ L, L = d.count (d.headD 0) →
          (L ≤ j → b.buf.getD (d.headD 0) 0 = raw.getD (d.headD 0 * d.length + (j - L)) 0) ∧
          (∀ e, e < ec → b.buf.getD (b.ndata + e) 0 =
            raw.getD (d.headD 0 * d.length + (d.length - L) + e * d.length + j) 0))

/-- The layout that reset holds (R216; from outside the source, log entry 1) is well-formed for all 40 versions and 4
levels, its blocks add up to TOTAL, and each level carries fewer data codewords than the one before. -/
def Obligations.CandidateLayoutsAddUp : Prop :=
  ∀ ver : Nat, 1 ≤ ver → ver ≤ 40 → ∀ ecl : Nat, ecl ≤ 3 →
    LayoutWf (layoutOf State.reset.cfg ver ecl) ∧
    ((blockSizes (layoutOf State.reset.cfg ver ecl).groups).map
      (· + (layoutOf State.reset.cfg ver ecl).ec)).sum = totalOf State.reset.cfg ver ∧
    (ecl < 3 → (blockSizes (layoutOf State.reset.cfg ver (ecl + 1)).groups).sum <
      (blockSizes (layoutOf State.reset.cfg ver ecl).groups).sum)

/-- DECODE runs its stages in order: a fault of the de-interleaver, or of the first block that does not correct, ends
it, and the bit buffer is reset; else the segment stream starts, over the data bytes of the corrected blocks in block
order (R281, R283). -/
def Obligations.DecodeRunsThePipeline : Prop :=
  ∀ (ver ecl : Byte) (raw : List Byte) (s : State), s.activity = .idle →
    encode (.decode ver ecl raw) = .packet (0x70 :: ver :: ecl :: bytesOfVec raw) ∧
    (∀ c, deinterleave s.cfg ver ecl raw s.work = .error c →
      exec (.decode ver ecl raw) s = .next (ended (causeKind c) (causeCode c) [] ⟨[], 0, 0⟩ s)) ∧
    (∀ w, deinterleave s.cfg ver ecl raw s.work = .ok w →
      (∀ (good : List Block) (b : Block) (rest : List Block) (c : Cause), w.blk = good ++ b :: rest →
        (∀ g ∈ good, ∃ out, corrected g.buf (g.buf.length - g.ndata) = .ok out) →
        corrected b.buf (b.buf.length - b.ndata) = .error c →
        exec (.decode ver ecl raw) s = .next (ended (causeKind c) (causeCode c) [] ⟨[], 0, 0⟩ s)) ∧
      (∀ outs : List (List Byte),
        List.Forall₂ (fun b out => corrected b.buf (b.buf.length - b.ndata) = .ok out) w.blk outs →
        ∃ t, exec (.decode ver ecl raw) s = .next t ∧ t.activity = .decodeRun ecl ∧
          t.work.agg = ((w.blk.zip outs).map fun p => p.2.take p.1.ndata).flatten ∧ t.bb = ⟨t.work.agg, 0, 0⟩ ∧
          t.seg = ⟨ver.toNat, [], none, none, none⟩ ∧ t.status = s.status ∧ t.cfg = s.cfg ∧
          t.script = s.script ∧ t.responses = s.responses))

/-- DECODE corrects each block alone: if every block differs from a vector of its code in at most floor(ec/2)
codewords, the stream that starts is the data of those vectors (R281, R284, R191). -/
def Obligations.DecodeCorrectsEveryBlock : Prop :=
  ∀ (ver ecl : Byte) (raw : List Byte) (s : State) (w : Work) (codewords : List (List Byte)), s.activity = .idle →
    deinterleave s.cfg ver ecl raw s.work = .ok w →
    List.Forall₂ (fun b c => b.buf.length = c.length ∧ c.length ≤ 255 ∧ IsCodeword (c.length - b.ndata) c ∧
      differences b.buf c ≤ (c.length - b.ndata) / 2) w.blk codewords →
    ∃ t, exec (.decode ver ecl raw) s = .next t ∧ t.activity = .decodeRun ecl ∧
      t.bb = ⟨((w.blk.zip codewords).map fun p => p.2.take p.1.ndata).flatten, 0, 0⟩ ∧
      t.work.agg = ((w.blk.zip codewords).map fun p => p.2.take p.1.ndata).flatten ∧ t.responses = s.responses

/-! ## The bit buffer -/

/-- BB.LOAD, BB.AVAIL and BB.READ (R232 to R234): a read of n bits answers the number they spell and moves n bits on,
its faults in the order of the rule and without effect on the cursor. -/
def Obligations.BitBufferCommands : Prop :=
  (∀ (bytes : List Byte) (s : State), s.activity = .idle →
    encode (.bbLoad bytes) = .packet (0x50 :: bytesOfVec bytes) ∧
    exec (.bbLoad bytes) s = .next (ended 0x00 0x00 [] ⟨bytes, 0, 0⟩ s)) ∧
  (∀ s : State, s.activity = .idle →
    encode .bbAvail = .packet [0x51] ∧
    exec .bbAvail s =
      .next (ended 0x00 0x00 (u32Field (8 * (s.bb.bbuf.length - s.bb.bpos) - s.bb.boff)) s.bb s)) ∧
  (∀ (n : Byte) (s : State), s.activity = .idle →
    encode (.bbRead n) = .packet [0x52, n] ∧
    (n.toInt < 0 → exec (.bbRead n) s = .next (ended 0x02 0x21 [] s.bb s)) ∧
    (n.toInt = 0 ∨ 32 < n.toInt → exec (.bbRead n) s = .next (ended 0x02 0x22 [] s.bb s)) ∧
    (1 ≤ n.toInt → n.toInt ≤ 32 → s.bb.Wf →
      (8 * (s.bb.bbuf.length - s.bb.bpos) - s.bb.boff < n.toNat →
        exec (.bbRead n) s = .next (ended 0x02 0x20 [] s.bb s)) ∧
      (n.toNat ≤ 8 * (s.bb.bbuf.length - s.bb.bpos) - s.bb.boff → ∃ b : BitBuffer,
        b.bbuf = s.bb.bbuf ∧ b.Wf ∧ 8 * b.bpos + b.boff = 8 * s.bb.bpos + s.bb.boff + n.toNat ∧
        exec (.bbRead n) s = .next (ended 0x00 0x00 (u32Field (natOfBits
          (((byteBits s.bb.bbuf).drop (8 * s.bb.bpos + s.bb.boff)).take n.toNat))) b s))))

/-- The arithmetic form of a read, over the whole of BBUF as one number, and two reads in a row as one: the spec's own
"Equivalent arithmetic form, for proofs" (R235). -/
def Obligations.ReadsInArithmetic : Prop :=
  ∀ b : BitBuffer, b.Wf →
    (∀ (n : Nat) (v : Nat) (b' : BitBuffer), b.read n = .ok (v, b') →
      v = natOfBits (byteBits b.bbuf) / 2 ^ (8 * b.bbuf.length - (8 * b.bpos + b.boff) - n) % 2 ^ n ∧
      8 * b'.bpos + b'.boff = 8 * b.bpos + b.boff + n ∧ b'.bbuf = b.bbuf ∧ b'.Wf) ∧
    (∀ (n₁ n₂ v₁ v₂ : Nat) (b₁ b₂ : BitBuffer), b.read n₁ = .ok (v₁, b₁) → b₁.read n₂ = .ok (v₂, b₂) →
      n₁ + n₂ ≤ 32 → b.read (n₁ + n₂ : Nat) = .ok (v₁ * 2 ^ n₂ + v₂, b₂))

/-! ## Segments -/

/-- SEG.DECODE refuses a version outside 1..40; else it starts the run, at the first bit of the data, with the
registers at their initial values (R240). That a refused version leaves the bit buffer reset is R312's "once the
opcode and framing checks have passed", which the model follows over the order of R240 (DEDUCED, log entry 20). A run
ends at a TERMINATOR or with fewer than four bits left, with the fields of its command and the bit buffer reset (R240,
R241, R242, R256, R280, R282). -/
def Obligations.SegmentRunsStartAndEnd : Prop :=
  (∀ (ver : Byte) (data : List Byte) (s : State), s.activity = .idle →
    encode (.segDecode ver data) = .packet (0x60 :: ver :: bytesOfVec data) ∧
    (ver.toNat < 1 ∨ 40 < ver.toNat →
      exec (.segDecode ver data) s = .next (ended 0x01 0x08 [] ⟨[], 0, 0⟩ s)) ∧
    (1 ≤ ver.toNat → ver.toNat ≤ 40 → exec (.segDecode ver data) s = .next { s with
      bb := ⟨data, 0, 0⟩
      seg := ⟨ver.toNat, [], none, none, none⟩
      activity := .segRun })) ∧
  (∀ s : State, s.activity = .segRun →
    ∀ fields, fields = sentinelField s.seg.saseq ++ sentinelField s.seg.sapar ++ vec32Field s.seg.text →
      exec .terminator s = .next (ended 0x00 0x00 fields ⟨[], 0, 0⟩ s) ∧
      (s.bb.avail < 4 → s.bb.Wf → step s = .next (ended 0x00 0x00 fields ⟨[], 0, 0⟩ s))) ∧
  (∀ (s : State) (ecl : Byte), s.activity = .decodeRun ecl →
    ∀ fields, fields = [BitVec.ofNat 8 s.seg.ver, ecl] ++ sentinelField s.seg.saseq ++
        sentinelField s.seg.sapar ++ vecField s.work.agg ++ vec32Field s.seg.text →
      exec .terminator s = .next (ended 0x00 0x00 fields ⟨[], 0, 0⟩ s) ∧
      (s.bb.avail < 4 → s.bb.Wf → step s = .next (ended 0x00 0x00 fields ⟨[], 0, 0⟩ s)))

/-- NUMERIC appends the digits of its groups, leading zeros kept; the first group with no decimal reading faults
(R103, R243). -/
def Obligations.NumericAppendsDigits : Prop :=
  ∀ (s : State) (ds : List Nat), s.activity ≠ .idle → s.bb.Wf → (∀ d ∈ ds, d < 10) →
    ds.length < 2 ^ numericWidth s.seg.ver →
    (StreamAt s.bb (bitsOfNat (numericWidth s.seg.ver) ds.length ++ digitGroups ds) →
      exec .numeric s = .next { s with
        bb := s.bb.skip (numericWidth s.seg.ver + (digitGroups ds).length)
        seg := { s.seg with text := s.seg.text ++ ds.map fun d => BitVec.ofNat 8 (0x30 + d) } }) ∧
    (∀ (count size bound v : Nat), count < 2 ^ numericWidth s.seg.ver → ds.length % 3 = 0 →
      (ds.length + 3 ≤ count ∧ size = 10 ∧ bound = 1000 ∨ ds.length + 2 = count ∧ size = 7 ∧ bound = 100 ∨
        ds.length + 1 = count ∧ size = 4 ∧ bound = 10) → bound ≤ v → v < 2 ^ size →
      StreamAt s.bb (bitsOfNat (numericWidth s.seg.ver) count ++ digitGroups ds ++ bitsOfNat size v) →
      exec .numeric s = .next (ended 0x03 0x33 [] ⟨[], 0, 0⟩ s))

/-- ALPHANUMERIC appends the characters of its groups; the first group that no characters correspond to faults (R104,
R109, R244). -/
def Obligations.AlphanumericAppendsCharacters : Prop :=
  ∀ (s : State) (is : List Nat), s.activity ≠ .idle → s.bb.Wf → (∀ i ∈ is, i < 45) →
    is.length < 2 ^ alphanumericWidth s.seg.ver →
    (StreamAt s.bb (bitsOfNat (alphanumericWidth s.seg.ver) is.length ++ charGroups is) →
      exec .alphanumeric s = .next { s with
        bb := s.bb.skip (alphanumericWidth s.seg.ver + (charGroups is).length)
        seg := { s.seg with text := s.seg.text ++ is.map alnumChar } }) ∧
    (∀ (count size bound v : Nat), count < 2 ^ alphanumericWidth s.seg.ver → is.length % 2 = 0 →
      (is.length + 2 ≤ count ∧ size = 11 ∧ bound = 2025 ∨ is.length + 1 = count ∧ size = 6 ∧ bound = 45) →
      bound ≤ v → v < 2 ^ size →
      StreamAt s.bb (bitsOfNat (alphanumericWidth s.seg.ver) count ++ charGroups is ++ bitsOfNat size v) →
      exec .alphanumeric s = .next (ended 0x03 0x34 [] ⟨[], 0, 0⟩ s))

/-- BYTE appends its bytes, transcoded from the charset of the ECI record if it has a name and else from what DETECT
finds, and clears ECI; KANJI appends the transcoded byte pairs of its units; no data value faults (R105, R106, R247,
R250, R259). -/
def Obligations.ByteAndKanjiAppendText : Prop :=
  ∀ s : State, s.activity ≠ .idle → s.bb.Wf →
    (∀ (bytes : List Byte) (name : Config.Charset), bytes.length < 2 ^ byteWidth s.seg.ver →
      ((∃ id, s.seg.eci = some ⟨id, some name⟩) ∨
        ((∀ id n, s.seg.eci ≠ some ⟨id, some n⟩) ∧ name = detectedName (Config.detect bytes))) →
      StreamAt s.bb (bitsOfNat (byteWidth s.seg.ver) bytes.length ++ byteBits bytes) →
      exec .byte s = .next { s with
        bb := s.bb.skip (byteWidth s.seg.ver + 8 * bytes.length)
        seg := { s.seg with text := s.seg.text ++ Config.transcode name bytes, eci := none } }) ∧
    (∀ (us : List Nat) (pairs : List Byte), (∀ u ∈ us, u < 2 ^ 13) → us.length < 2 ^ kanjiWidth s.seg.ver →
      pairs = us.flatMap (fun u => [(kanjiMap s.cfg u).1, (kanjiMap s.cfg u).2]) →
      StreamAt s.bb (bitsOfNat (kanjiWidth s.seg.ver) us.length ++ unitBits us) →
      exec .kanji s = .next { s with
        bb := s.bb.skip (kanjiWidth s.seg.ver + 13 * us.length)
        seg := { s.seg with text := s.seg.text ++ Config.transcode .shiftJis pairs } })

/-- The ECI segment in each form of its designator: the record it writes, the id above 999999 and the form 111xxxxx as
faults (R107, R249); and, by the model's choice (DEDUCED, log entry 10), the row ECI alone, which reads the designator
itself and does what the row of its form does. -/
def Obligations.EciWritesTheRecord : Prop :=
  ∀ s : State, s.activity ≠ .idle →
    (∀ id : BitVec 7, exec (.eci1 id) s =
      .next { s with seg := { s.seg with eci := some ⟨id.toNat, eciName s.cfg id.toNat⟩ } }) ∧
    (∀ id : BitVec 14, exec (.eci2 id) s =
      .next { s with seg := { s.seg with eci := some ⟨id.toNat, eciName s.cfg id.toNat⟩ } }) ∧
    (∀ id : BitVec 21, (id.toNat ≤ 999999 → exec (.eci3 id) s =
        .next { s with seg := { s.seg with eci := some ⟨id.toNat, eciName s.cfg id.toNat⟩ } }) ∧
      (999999 < id.toNat → exec (.eci3 id) s = .next (ended 0x03 0x35 [] ⟨[], 0, 0⟩ s))) ∧
    (∀ x : BitVec 5, exec (.eciBad x) s = .next (ended 0x03 0x31 [] ⟨[], 0, 0⟩ s)) ∧
    (∀ (i : Instr) (designator : List Bool), s.bb.Wf → isEci i = true → i ≠ .eci →
      encode i = .bits (bitsOfNat 4 0b0111 ++ designator) → StreamAt s.bb designator →
      ∃ t, exec i { s with bb := s.bb.skip designator.length } = .next t ∧ exec .eci s = .next t)

/-- STRUCTURED_APPEND stores its two bytes; the FNC1 segments change nothing; the seven other indicators fault (R108,
R246, R248, R251, R252). -/
def Obligations.AppendInertAndIllegalSegments : Prop :=
  ∀ s : State, s.activity ≠ .idle →
    (∀ a b : Byte, s.bb.Wf → StreamAt s.bb (bitsOfNat 8 a.toNat ++ bitsOfNat 8 b.toNat) →
      exec .structuredAppend s = .next { s with
        bb := s.bb.skip 16
        seg := { s.seg with saseq := some a, sapar := some b } }) ∧
    (s.bb.avail < 16 → exec .structuredAppend s = .next (ended 0x03 0x32 [] ⟨[], 0, 0⟩ s)) ∧
    exec .fnc1First s = .next s ∧ exec .fnc1Second s = .next s ∧
    (∀ i ∈ [Instr.illegal0110, .illegal1010, .illegal1011, .illegal1100, .illegal1101, .illegal1110, .illegal1111],
      exec i s = .next (ended 0x03 0x30 [] ⟨[], 0, 0⟩ s))

/-- A stream that ends inside a NUMERIC, ALPHANUMERIC, BYTE or KANJI segment, in its count or in its groups, or inside
an ECI designator, ends the run with OutOfRange(BB_UNDERRUN), wherever it ends (R236, R359). Only the groups before
the cut one must be in range; of the cut group any bits may be there. STRUCTURED_APPEND is the exception: its fault is
SA_TRUNCATED (R246), which AppendInertAndIllegalSegments states. -/
def Obligations.TruncatedSegmentsUnderrun : Prop :=
  ∀ s : State, s.activity ≠ .idle → s.bb.Wf → ∀ underrun, underrun = .next (ended 0x02 0x20 [] ⟨[], 0, 0⟩ s) →
    (s.bb.avail < numericWidth s.seg.ver → exec .numeric s = underrun) ∧
    (∀ (count size : Nat) (ds : List Nat), count < 2 ^ numericWidth s.seg.ver → (∀ d ∈ ds, d < 10) → ds.length % 3 = 0 →
      (ds.length + 3 ≤ count ∧ size = 10 ∨ ds.length + 2 = count ∧ size = 7 ∨ ds.length + 1 = count ∧ size = 4) →
      StreamAt s.bb (bitsOfNat (numericWidth s.seg.ver) count ++ digitGroups ds) →
      s.bb.avail < numericWidth s.seg.ver + (digitGroups ds).length + size → exec .numeric s = underrun) ∧
    (s.bb.avail < alphanumericWidth s.seg.ver → exec .alphanumeric s = underrun) ∧
    (∀ (count size : Nat) (is : List Nat), count < 2 ^ alphanumericWidth s.seg.ver → (∀ i ∈ is, i < 45) →
      is.length % 2 = 0 → (is.length + 2 ≤ count ∧ size = 11 ∨ is.length + 1 = count ∧ size = 6) →
      StreamAt s.bb (bitsOfNat (alphanumericWidth s.seg.ver) count ++ charGroups is) →
      s.bb.avail < alphanumericWidth s.seg.ver + (charGroups is).length + size → exec .alphanumeric s = underrun) ∧
    (s.bb.avail < byteWidth s.seg.ver → exec .byte s = underrun) ∧
    (∀ count : Nat, count < 2 ^ byteWidth s.seg.ver → StreamAt s.bb (bitsOfNat (byteWidth s.seg.ver) count) →
      s.bb.avail < byteWidth s.seg.ver + 8 * count → exec .byte s = underrun) ∧
    (s.bb.avail < kanjiWidth s.seg.ver → exec .kanji s = underrun) ∧
    (∀ count : Nat, count < 2 ^ kanjiWidth s.seg.ver → StreamAt s.bb (bitsOfNat (kanjiWidth s.seg.ver) count) →
      s.bb.avail < kanjiWidth s.seg.ver + 13 * count → exec .kanji s = underrun) ∧
    (CutDesignator (s.bb.window 24) → exec .eci s = underrun)

/-- The tables of the segments: the count widths by version (R102, R253), the characters (R109), the two Kanji maps,
the first in its equivalent form (R254, R255), and the default charset names (R262). -/
def Obligations.SegmentTables : Prop :=
  (∀ ver : Nat,
    (ver ≤ 9 → numericWidth ver = 10 ∧ alphanumericWidth ver = 9 ∧ byteWidth ver = 8 ∧ kanjiWidth ver = 8) ∧
    (10 ≤ ver → ver ≤ 26 →
      numericWidth ver = 12 ∧ alphanumericWidth ver = 11 ∧ byteWidth ver = 16 ∧ kanjiWidth ver = 10) ∧
    (27 ≤ ver → numericWidth ver = 14 ∧ alphanumericWidth ver = 13 ∧ byteWidth ver = 16 ∧ kanjiWidth ver = 12)) ∧
  ((List.range 45).map fun i => (alnumChar i).toNat) =
    "0123456789ABCDEFGHIJKLMNOPQRSTUVWXYZ $%*+-./:".toList.map Char.toNat ∧
  (∀ u : Nat, u < 2 ^ 13 →
    (∀ c, c = 0x100 * (u / 0xC0) + u % 0xC0 +
        (if 0x100 * (u / 0xC0) + u % 0xC0 < 0x1F00 then 0x8140 else 0xC140) →
      kanjiMapIso u = (BitVec.ofNat 8 (c / 0x100), BitVec.ofNat 8 (c % 0x100))) ∧
    (u < 0x1F00 → kanjiMapDoc u = (BitVec.ofNat 8 (u / 0xC0 + 0x81), BitVec.ofNat 8 (u % 0xC0 + 0x40))) ∧
    (0x1F00 ≤ u → kanjiMapDoc u =
      (BitVec.ofNat 8 ((u - 0x1F00) / 0xC0 + 0xE0), BitVec.ofNat 8 ((u - 0x1F00) % 0xC0 + 0x40))) ∧
    (u < 0x1740 → kanjiMapDoc u = kanjiMapIso u) ∧ (0x1740 ≤ u → kanjiMapDoc u ≠ kanjiMapIso u)) ∧
  (∀ id : Nat, 4 ≤ id → id ≤ 13 → eciName State.reset.cfg id = some (.iso8859 (id - 2))) ∧
  eciName State.reset.cfg 0 = some .cp437 ∧ eciName State.reset.cfg 2 = some .cp437 ∧
  eciName State.reset.cfg 1 = some (.iso8859 1) ∧ eciName State.reset.cfg 3 = some (.iso8859 1) ∧
  eciName State.reset.cfg 15 = some (.iso8859 13) ∧ eciName State.reset.cfg 20 = some .shiftJis ∧
  (∀ id : Nat, 21 ≤ id → id ≤ 25 → eciName State.reset.cfg id = some (.windows (1229 + id))) ∧
  eciName State.reset.cfg 26 = some .utf8 ∧ eciName State.reset.cfg 27 = some .usAscii ∧
  eciName State.reset.cfg 170 = some .usAscii ∧ eciName State.reset.cfg 28 = some .big5 ∧
  eciName State.reset.cfg 29 = some .gb18030 ∧ eciName State.reset.cfg 30 = some .eucKr ∧
  (∀ id : Nat, id = 14 ∨ (16 ≤ id ∧ id ≤ 19) ∨ (31 ≤ id ∧ id ≠ 170) → eciName State.reset.cfg id = none)

/-- A whole stream: the segments that an encoder wrote, then a TERMINATOR and anything, or fewer than four bits,
decode to what those segments mean, one after the other; under SEG.DECODE from its packet to its response, and in the
run of a DECODE (R110, R240, R241, R257, R281, R282). -/
def Obligations.EncodedStreamsDecode : Prop :=
  ∀ (ver : Byte) (gs : List Seg) (tail : List Bool) (data : List Byte), 1 ≤ ver.toNat → ver.toNat ≤ 40 →
    FitsField data → (∀ g ∈ gs, g.Valid ver.toNat) →
    (tail.length < 4 ∨ ∃ more, tail = bitsOfNat 4 0b0000 ++ more) →
    byteBits data = gs.flatMap (Seg.bits ver.toNat) ++ tail →
    (∀ (s : State) (bytes : List Byte) (rest : List HostAction), s.activity = .idle →
      encode (.segDecode ver data) = .packet bytes → s.script = .packet bytes :: rest →
      ∀ r, r = gs.foldl (fun r g => g.effect s.cfg r) ⟨ver.toNat, [], none, none, none⟩ →
        Host.Core.run Sys2Proof.core (gs.length + 2) s = .next (ended 0x00 0x00
          (sentinelField r.saseq ++ sentinelField r.sapar ++ vec32Field r.text) ⟨[], 0, 0⟩ { s with script := rest })) ∧
    (∀ (s : State) (ecl : Byte), s.activity = .decodeRun ecl → s.bb = ⟨data, 0, 0⟩ →
      s.seg = ⟨ver.toNat, [], none, none, none⟩ →
      ∀ r, r = gs.foldl (fun r g => g.effect s.cfg r) s.seg →
        Host.Core.run Sys2Proof.core (gs.length + 1) s = .next (ended 0x00 0x00
          ([ver, ecl] ++ sentinelField r.saseq ++ sentinelField r.sapar ++ vecField s.work.agg ++ vec32Field r.text)
          ⟨[], 0, 0⟩ s))
end

