-- ==== Sys2Proof/Laws/BitBuffer.lean ====
section
/-! SUPPORT. The bit buffer: what taking bits does to the cursor, and what it answers in terms of the bits that the
window shows. Later proofs cite these and never unfold `BitBuffer.take`. -/

namespace Sys2Proof.Machine

namespace BitBuffer

/-- The bit address 8·BPOS + BOFF (spec/10_state.md R31). -/
def pos (b : BitBuffer) : Nat := 8 * b.bpos + b.boff

@[simp] theorem next_bbuf (b : BitBuffer) : b.next.bbuf = b.bbuf := by
  unfold next; split <;> rfl

@[simp] theorem take_bbuf (n v : Nat) (b : BitBuffer) : (take n v b).2.bbuf = b.bbuf := by
  induction n generalizing v b with
  | zero => rfl
  | succ n ih => simp [take, ih]

theorem avail_eq {b : BitBuffer} (h : b.Wf) : b.avail + b.pos = 8 * b.bbuf.length := by
  obtain ⟨h1, h2, h3⟩ := h
  unfold avail pos
  by_cases hb : b.bpos = b.bbuf.length
  · have := h3 hb; omega
  · omega

theorem next_pos {b : BitBuffer} (h : b.Wf) : b.next.pos = b.pos + 1 := by
  obtain ⟨h1, h2, h3⟩ := h
  unfold next pos
  split <;> simp <;> omega

theorem next_wf {b : BitBuffer} (h : b.Wf) (ha : 0 < b.avail) : b.next.Wf := by
  obtain ⟨h1, h2, h3⟩ := h
  unfold avail at ha
  unfold next
  split
  · exact ⟨by simp; omega, by simp, fun _ => rfl⟩
  · exact ⟨by simp; omega, by simp; omega, by simp; omega⟩

theorem next_avail {b : BitBuffer} (h : b.Wf) (ha : 0 < b.avail) : b.next.avail = b.avail - 1 := by
  have h1 := avail_eq h
  have h2 := avail_eq (next_wf h ha)
  have h3 := next_pos h
  rw [next_bbuf] at h2
  omega

/-- Taking `n` of the bits available keeps the invariant of R231 and moves the bit address by `n`. -/
theorem take_cursor {n : Nat} (v : Nat) {b : BitBuffer} (h : b.Wf) (hn : n ≤ b.avail) :
    (take n v b).2.Wf ∧ (take n v b).2.pos = b.pos + n ∧ (take n v b).2.avail = b.avail - n := by
  induction n generalizing v b with
  | zero => exact ⟨h, rfl, rfl⟩
  | succ n ih =>
    have ha : 0 < b.avail := by omega
    have hnext := next_avail h ha
    obtain ⟨w, p, a⟩ := ih (2 * v + b.bit.toNat) (next_wf h ha) (by omega)
    refine ⟨w, ?_, ?_⟩
    · rw [take, p, next_pos h]; omega
    · rw [take, a, hnext]; omega

theorem window_length {n : Nat} {b : BitBuffer} (h : b.Wf) : (window n b).length = min n b.avail := by
  induction n generalizing b with
  | zero => simp [window]
  | succ n ih =>
    unfold window
    split
    next h0 => simp [h0]
    next h0 =>
      have ha : 0 < b.avail := by omega
      rw [List.length_cons, ih (next_wf h ha), next_avail h ha]
      omega

/-- Where a take of bits leaves the cursor does not depend on the bits taken before. -/
theorem take_snd (n v : Nat) (b : BitBuffer) : (take n v b).2 = skip n b := by
  unfold skip
  induction n generalizing v b with
  | zero => rfl
  | succ n ih => rw [take, take, ih, ih (2 * 0 + b.bit.toNat)]

/-- The window of `m + n` bits is that of `m` bits and then that of `n` bits from the cursor `m` bits on. -/
theorem window_add {m n : Nat} {b : BitBuffer} (h : b.Wf) (hm : m ≤ b.avail) :
    window (m + n) b = window m b ++ window n (skip m b) := by
  induction m generalizing b with
  | zero => simp [window, skip, take]
  | succ m ih =>
    have ha : 0 < b.avail := by omega
    rw [show m + 1 + n = (m + n) + 1 by omega, window, window, if_neg (by omega), if_neg (by omega),
      ih (next_wf h ha) (by rw [next_avail h ha]; omega)]
    have hs : skip (m + 1) b = skip m b.next := take_snd m _ _
    rw [hs]; rfl

/-- The value taken is the number that the window's bits spell, after the bits taken before. -/
theorem take_fst {n : Nat} (v : Nat) {b : BitBuffer} (h : b.Wf) (hn : n ≤ b.avail) :
    (take n v b).1 = (window n b).foldl (fun v b => 2 * v + b.toNat) v := by
  induction n generalizing v b with
  | zero => rfl
  | succ n ih =>
    have ha : 0 < b.avail := by omega
    rw [take, window, if_neg (by omega), List.foldl_cons,
      ih _ (next_wf h ha) (by rw [next_avail h ha]; omega)]

theorem skip_wf {n : Nat} {b : BitBuffer} (h : b.Wf) (hn : n ≤ b.avail) : (skip n b).Wf := (take_cursor 0 h hn).1

@[simp] theorem skip_bbuf (n : Nat) (b : BitBuffer) : (skip n b).bbuf = b.bbuf := take_bbuf n 0 b

theorem skip_avail {n : Nat} {b : BitBuffer} (h : b.Wf) (hn : n ≤ b.avail) : (skip n b).avail = b.avail - n :=
  (take_cursor 0 h hn).2.2

theorem skip_add {m n : Nat} {b : BitBuffer} : skip (m + n) b = skip n (skip m b) := by
  induction m generalizing b with
  | zero => simp [skip, take]
  | succ m ih =>
    have h1 (k : Nat) (b : BitBuffer) : skip (k + 1) b = skip k b.next := take_snd k _ _
    rw [show m + 1 + n = (m + n) + 1 by omega, h1, h1, ih]

/-- Everything a successful `BBread(n)` says (R234): n is in 1..32 and available, the value is what the next n bits
spell, and the cursor is n bits on. -/
theorem read_eq_ok {n : Int} {b : BitBuffer} {r : Nat × BitBuffer} :
    read n b = .ok r ↔ 1 ≤ n ∧ n ≤ 32 ∧ n ≤ b.avail ∧ r = take n.toNat 0 b := by
  unfold read
  split
  · constructor
    · intro h; cases h
    · omega
  split
  · constructor
    · intro h; cases h
    · omega
  split
  · constructor
    · intro h; cases h
    · omega
  · constructor
    · intro h; cases h; exact ⟨by omega, by omega, by omega, rfl⟩
    · rintro ⟨-, -, -, rfl⟩; rfl

/-- A read of n bits, 1 ≤ n ≤ 32, that are available: its value and the cursor after it. -/
theorem read_ok {n : Nat} {b : BitBuffer} (h : b.Wf) (h1 : 1 ≤ n) (h32 : n ≤ 32) (hn : n ≤ b.avail) :
    read n b = .ok (natOfBits (window n b), skip n b) := by
  rw [read_eq_ok]
  refine ⟨by omega, by omega, by omega, ?_⟩
  rw [Int.toNat_natCast]
  exact Prod.ext (take_fst 0 h hn).symm rfl

end BitBuffer

/-! ## Bits and numbers -/

theorem foldl_bits (v : Nat) (bs : List Bool) :
    bs.foldl (fun v b => 2 * v + b.toNat) v = v * 2 ^ bs.length + natOfBits bs := by
  unfold natOfBits
  induction bs generalizing v with
  | nil => simp
  | cons b bs ih =>
    rw [List.foldl_cons, List.foldl_cons, ih, ih (2 * 0 + b.toNat), List.length_cons, pow_succ]
    ring

theorem natOfBits_cons (b : Bool) (bs : List Bool) :
    natOfBits (b :: bs) = b.toNat * 2 ^ bs.length + natOfBits bs := by
  have := foldl_bits (2 * 0 + b.toNat) bs
  simpa [natOfBits] using this

theorem natOfBits_append (as bs : List Bool) :
    natOfBits (as ++ bs) = natOfBits as * 2 ^ bs.length + natOfBits bs := by
  unfold natOfBits
  rw [List.foldl_append, foldl_bits]
  rfl

theorem natOfBits_lt (bs : List Bool) : natOfBits bs < 2 ^ bs.length := by
  induction bs with
  | nil => simp [natOfBits]
  | cons b bs ih =>
    rw [natOfBits_cons, List.length_cons, pow_succ]
    cases b <;> simp <;> omega

@[simp] theorem bitsOfNat_length (n v : Nat) : (bitsOfNat n v).length = n := by
  induction n with
  | zero => rfl
  | succ n ih => simp [bitsOfNat, ih]

/-- The bits of a number spell it, modulo the width. -/
theorem natOfBits_bitsOfNat (n v : Nat) : natOfBits (bitsOfNat n v) = v % 2 ^ n := by
  induction n with
  | zero => simp [bitsOfNat, natOfBits, Nat.mod_one]
  | succ n ih =>
    rw [bitsOfNat, natOfBits_cons, ih, bitsOfNat_length, Nat.mod_pow_succ]
    have : (v.testBit n).toNat = v / 2 ^ n % 2 := by
      rw [Nat.testBit_eq_decide_div_mod_eq]
      rcases Nat.mod_two_eq_zero_or_one (v / 2 ^ n) with h | h <;> simp [h]
    rw [this]
    ring

end Sys2Proof.Machine
end

