-- ==== Sys2Proof/Laws/Config.lean ====
section
/-! SUPPORT. The configuration data hold every total function that spec/00_scope.md R8 allows, on the domains of
spec/92_eei_decisions.md section 7. -/

namespace Sys2Proof.Machine

open Sys2Proof.Config

/-- Any TOTAL and any LAYOUT are those of some table. -/
theorem exists_versions (total : Nat → Int) (layout : Nat → Nat → Layout) :
    ∃ versions : Vector VersionRow 40, ∀ (cfg : Params) (ver : Nat), 1 ≤ ver → ver ≤ 40 →
      totalOf { cfg with versions := versions } ver = total ver ∧
      ∀ ecl, ecl ≤ 3 → layoutOf { cfg with versions := versions } ver ecl = layout ver ecl := by
  refine ⟨Vector.ofFn fun i => ⟨total (i + 1), layout (i + 1) 0, layout (i + 1) 1, layout (i + 1) 2,
    layout (i + 1) 3⟩, fun cfg ver h1 h40 => ?_⟩
  have hv : (ver - 1) % 40 + 1 = ver := by omega
  constructor
  · simp [totalOf, versionRow, hv]
  · intro ecl he
    interval_cases ecl <;> simp [layoutOf, versionRow, hv]

/-- Any ECI_NAME on the ids 0..999999 is that of some table. -/
theorem exists_eciNames (name : Nat → Option Charset) :
    ∃ names : List (Nat × Charset), ∀ (cfg : Params) (id : Nat), id ≤ 999999 →
      eciName { cfg with eciNames := names } id = name id := by
  have key : ∀ (ids : List Nat) (id : Nat),
      (ids.filterMap fun i => (name i).map fun c => (i, c)).lookup id = if id ∈ ids then name id else none := by
    intro ids id
    induction ids with
    | nil => rfl
    | cons i ids ih =>
      by_cases h : id = i
      · subst h
        cases hn : name id with
        | none => rw [List.filterMap_cons_none (by simp [hn]), ih, hn]; simp
        | some c => rw [List.filterMap_cons_some (b := (id, c)) (by simp [hn])]; simp
      · cases hn : name i with
        | none => rw [List.filterMap_cons_none (by simp [hn]), ih]; simp [h]
        | some c =>
          rw [List.filterMap_cons_some (b := (i, c)) (by simp [hn]), List.lookup_cons, ih]
          have hb : (id == i) = false := by simpa using h
          simp [hb, h]
  have below : ∀ n id, id < n → ((List.range n).filterMap fun i => (name i).map fun c => (i, c)).lookup id = name id :=
    fun n id h => (key (List.range n) id).trans (if_pos (List.mem_range.mpr h))
  have hex : ∀ n, ∃ names : List (Nat × Charset), ∀ id, id < n → names.lookup id = name id := fun n => ⟨_, below n⟩
  obtain ⟨names, h⟩ := hex 1000000
  exact ⟨names, fun cfg id hid => h id (by omega)⟩

/-- Any KANJI_MAP on the units 0..8191 is that of some configuration. -/
theorem exists_kanjiMap (f : Nat → Byte × Byte) :
    ∃ m : KanjiMap, ∀ (cfg : Params) (u : Nat), u < 8192 → kanjiMap { cfg with kanjiMap := m } u = f u := by
  refine ⟨.table (Vector.ofFn fun i => f i), fun cfg u hu => ?_⟩
  have h : ∀ g : Fin 8192 → Byte × Byte, (Vector.ofFn g).get (Fin.ofNat 8192 u) = g (Fin.ofNat 8192 u) :=
    fun g => by rw [Vector.get_eq_getElem, Vector.getElem_ofFn]
  exact (h _).trans (congrArg f (Nat.mod_eq_of_lt hu))

end Sys2Proof.Machine
end

