-- ==== Sys2Proof/Laws/State.lean ====
section
/-! SUPPORT. One lemma for each field of State under each named update: later proofs unfold no record update. -/

namespace Sys2Proof.Machine

/-! ## clearBitBuffer -/

@[simp] theorem clearBitBuffer_status (s : State) :
    (clearBitBuffer s).status = s.status := rfl
@[simp] theorem clearBitBuffer_bb (s : State) :
    (clearBitBuffer s).bb = BitBuffer.reset := rfl
@[simp] theorem clearBitBuffer_seg (s : State) :
    (clearBitBuffer s).seg = s.seg := rfl
@[simp] theorem clearBitBuffer_work (s : State) :
    (clearBitBuffer s).work = s.work := rfl
@[simp] theorem clearBitBuffer_activity (s : State) :
    (clearBitBuffer s).activity = s.activity := rfl
@[simp] theorem clearBitBuffer_cfg (s : State) :
    (clearBitBuffer s).cfg = s.cfg := rfl
@[simp] theorem clearBitBuffer_script (s : State) :
    (clearBitBuffer s).script = s.script := rfl
@[simp] theorem clearBitBuffer_responses (s : State) :
    (clearBitBuffer s).responses = s.responses := rfl

/-! ## dropRegisters -/

@[simp] theorem dropRegisters_status (s : State) :
    (dropRegisters s).status = s.status := rfl
@[simp] theorem dropRegisters_bb (s : State) :
    (dropRegisters s).bb = s.bb := rfl
@[simp] theorem dropRegisters_seg (s : State) :
    (dropRegisters s).seg = SegRegs.reset := rfl
@[simp] theorem dropRegisters_work (s : State) :
    (dropRegisters s).work = Work.reset := rfl
@[simp] theorem dropRegisters_activity (s : State) :
    (dropRegisters s).activity = .idle := rfl
@[simp] theorem dropRegisters_cfg (s : State) :
    (dropRegisters s).cfg = s.cfg := rfl
@[simp] theorem dropRegisters_script (s : State) :
    (dropRegisters s).script = s.script := rfl
@[simp] theorem dropRegisters_responses (s : State) :
    (dropRegisters s).responses = s.responses := rfl

/-! ## complete -/

@[simp] theorem complete_status (f : List Byte) (s : State) :
    (complete f s).status = okStatus := rfl
@[simp] theorem complete_bb (f : List Byte) (s : State) :
    (complete f s).bb = s.bb := rfl
@[simp] theorem complete_seg (f : List Byte) (s : State) :
    (complete f s).seg = SegRegs.reset := rfl
@[simp] theorem complete_work (f : List Byte) (s : State) :
    (complete f s).work = Work.reset := rfl
@[simp] theorem complete_activity (f : List Byte) (s : State) :
    (complete f s).activity = .idle := rfl
@[simp] theorem complete_cfg (f : List Byte) (s : State) :
    (complete f s).cfg = s.cfg := rfl
@[simp] theorem complete_script (f : List Byte) (s : State) :
    (complete f s).script = s.script := rfl
@[simp] theorem complete_responses (f : List Byte) (s : State) :
    (complete f s).responses = s.responses ++ [[okStatus.kind, okStatus.cause] ++ f] := rfl

/-! ## takeFault -/

@[simp] theorem takeFault_status (c : Cause) (s : State) :
    (takeFault c s).status = causeStatus c := rfl
@[simp] theorem takeFault_bb (c : Cause) (s : State) :
    (takeFault c s).bb = if s.activity = .idle then s.bb else BitBuffer.reset := rfl
@[simp] theorem takeFault_seg (c : Cause) (s : State) :
    (takeFault c s).seg = SegRegs.reset := rfl
@[simp] theorem takeFault_work (c : Cause) (s : State) :
    (takeFault c s).work = Work.reset := rfl
@[simp] theorem takeFault_activity (c : Cause) (s : State) :
    (takeFault c s).activity = .idle := rfl
@[simp] theorem takeFault_cfg (c : Cause) (s : State) :
    (takeFault c s).cfg = s.cfg := rfl
@[simp] theorem takeFault_script (c : Cause) (s : State) :
    (takeFault c s).script = s.script := rfl
@[simp] theorem takeFault_responses (c : Cause) (s : State) :
    (takeFault c s).responses = s.responses ++ [[causeKind c, causeCode c]] := rfl

/-! ## startRun -/

@[simp] theorem startRun_status (a : Activity) (ver : Nat) (data : List Byte) (s : State) :
    (startRun a ver data s).status = s.status := rfl
@[simp] theorem startRun_bb (a : Activity) (ver : Nat) (data : List Byte) (s : State) :
    (startRun a ver data s).bb = ⟨data, 0, 0⟩ := rfl
@[simp] theorem startRun_seg (a : Activity) (ver : Nat) (data : List Byte) (s : State) :
    (startRun a ver data s).seg = ⟨ver, [], none, none, none⟩ := rfl
@[simp] theorem startRun_work (a : Activity) (ver : Nat) (data : List Byte) (s : State) :
    (startRun a ver data s).work = s.work := rfl
@[simp] theorem startRun_activity (a : Activity) (ver : Nat) (data : List Byte) (s : State) :
    (startRun a ver data s).activity = a := rfl
@[simp] theorem startRun_cfg (a : Activity) (ver : Nat) (data : List Byte) (s : State) :
    (startRun a ver data s).cfg = s.cfg := rfl
@[simp] theorem startRun_script (a : Activity) (ver : Nat) (data : List Byte) (s : State) :
    (startRun a ver data s).script = s.script := rfl
@[simp] theorem startRun_responses (a : Activity) (ver : Nat) (data : List Byte) (s : State) :
    (startRun a ver data s).responses = s.responses := rfl

/-! ## endRun -/

@[simp] theorem endRun_status (s : State) :
    (endRun s).status = okStatus := rfl
@[simp] theorem endRun_bb (s : State) :
    (endRun s).bb = BitBuffer.reset := rfl
@[simp] theorem endRun_seg (s : State) :
    (endRun s).seg = SegRegs.reset := rfl
@[simp] theorem endRun_work (s : State) :
    (endRun s).work = Work.reset := rfl
@[simp] theorem endRun_activity (s : State) :
    (endRun s).activity = .idle := rfl
@[simp] theorem endRun_cfg (s : State) :
    (endRun s).cfg = s.cfg := rfl
@[simp] theorem endRun_script (s : State) :
    (endRun s).script = s.script := rfl
@[simp] theorem endRun_responses (s : State) :
    (endRun s).responses = s.responses ++ [[okStatus.kind, okStatus.cause] ++ runFields s] := rfl

/-! ## appendText -/

@[simp] theorem appendText_status (t : List Byte) (b : BitBuffer) (s : State) :
    (appendText t b s).status = s.status := rfl
@[simp] theorem appendText_bb (t : List Byte) (b : BitBuffer) (s : State) :
    (appendText t b s).bb = b := rfl
@[simp] theorem appendText_seg (t : List Byte) (b : BitBuffer) (s : State) :
    (appendText t b s).seg = { s.seg with text := s.seg.text ++ t } := rfl
@[simp] theorem appendText_work (t : List Byte) (b : BitBuffer) (s : State) :
    (appendText t b s).work = s.work := rfl
@[simp] theorem appendText_activity (t : List Byte) (b : BitBuffer) (s : State) :
    (appendText t b s).activity = s.activity := rfl
@[simp] theorem appendText_cfg (t : List Byte) (b : BitBuffer) (s : State) :
    (appendText t b s).cfg = s.cfg := rfl
@[simp] theorem appendText_script (t : List Byte) (b : BitBuffer) (s : State) :
    (appendText t b s).script = s.script := rfl
@[simp] theorem appendText_responses (t : List Byte) (b : BitBuffer) (s : State) :
    (appendText t b s).responses = s.responses := rfl

/-! ## resetEngine -/

@[simp] theorem resetEngine_status (s : State) :
    (resetEngine s).status = ⟨0x00, 0x00⟩ := rfl
@[simp] theorem resetEngine_bb (s : State) :
    (resetEngine s).bb = BitBuffer.reset := rfl
@[simp] theorem resetEngine_seg (s : State) :
    (resetEngine s).seg = SegRegs.reset := rfl
@[simp] theorem resetEngine_work (s : State) :
    (resetEngine s).work = Work.reset := rfl
@[simp] theorem resetEngine_activity (s : State) :
    (resetEngine s).activity = .idle := rfl
@[simp] theorem resetEngine_cfg (s : State) :
    (resetEngine s).cfg = s.cfg := rfl
@[simp] theorem resetEngine_script (s : State) :
    (resetEngine s).script = s.script := rfl
@[simp] theorem resetEngine_responses (s : State) :
    (resetEngine s).responses = s.responses := rfl

/-! ## What a frame answers -/

/-- Everything `command` can do: outside a run it answers the body's state, or takes the fault the body raises. -/
theorem command_eq {s : State} (h : s.activity = .idle) (body : State → Except Cause State) :
    command s body = .next (match body s with | .ok t => t | .error c => takeFault c s) := by
  unfold command
  exact if_pos h

theorem command_ok {s t : State} {body : State → Except Cause State} (h : s.activity = .idle)
    (hb : body s = .ok t) : command s body = .next t := by
  simp [command, h, hb]

theorem command_error {s : State} {c : Cause} {body : State → Except Cause State} (h : s.activity = .idle)
    (hb : body s = .error c) : command s body = .next (takeFault c s) := by
  simp [command, h, hb]

/-- If `command` answers a next state, it is one of these two. -/
theorem command_next {s t : State} {body : State → Except Cause State} (h : command s body = .next t) :
    s.activity = .idle ∧ (body s = .ok t ∨ ∃ c, body s = .error c ∧ t = takeFault c s) := by
  unfold command at h
  split at h
  next ha =>
    refine ⟨ha, ?_⟩
    cases hb : body s with
    | ok u => rw [hb] at h; cases h; exact .inl rfl
    | error c => rw [hb] at h; cases h; exact .inr ⟨c, rfl, rfl⟩
  · cases h

/-- Everything `segment` can do: inside a run it answers the body's state, or takes the fault the body raises. -/
theorem segment_ok {s t : State} {body : State → Except Cause State} (h : s.activity ≠ .idle)
    (hb : body s = .ok t) : segment s body = .next t := by
  simp [segment, h, hb]

theorem segment_error {s : State} {c : Cause} {body : State → Except Cause State} (h : s.activity ≠ .idle)
    (hb : body s = .error c) : segment s body = .next (takeFault c s) := by
  simp [segment, h, hb]

/-- If `segment` answers a next state, it is one of these two. -/
theorem segment_next {s t : State} {body : State → Except Cause State} (h : segment s body = .next t) :
    s.activity ≠ .idle ∧ (body s = .ok t ∨ ∃ c, body s = .error c ∧ t = takeFault c s) := by
  unfold segment at h
  split at h
  · cases h
  next ha =>
    refine ⟨ha, ?_⟩
    cases hb : body s with
    | ok u => rw [hb] at h; cases h; exact .inl rfl
    | error c => rw [hb] at h; cases h; exact .inr ⟨c, rfl, rfl⟩

theorem answer_ok {s : State} {f : List Byte} (h : s.activity = .idle) : answer s (.ok f) = .next (complete f s) :=
  command_ok h rfl

theorem answer_error {s : State} {c : Cause} (h : s.activity = .idle) :
    answer s (.error c) = .next (takeFault c s) :=
  command_error h rfl

/-- If `answer` answers a next state, it is one of these two. -/
theorem answer_next {s t : State} {r : Except Cause (List Byte)} (h : answer s r = .next t) :
    s.activity = .idle ∧ ((∃ f, r = .ok f ∧ t = complete f s) ∨ ∃ c, r = .error c ∧ t = takeFault c s) := by
  obtain ⟨ha, hb | ⟨c, hb, rfl⟩⟩ := command_next h
  · refine ⟨ha, .inl ?_⟩
    cases r with
    | ok f => cases hb; exact ⟨f, rfl, rfl⟩
    | error c => cases hb
  · refine ⟨ha, .inr ⟨c, ?_, rfl⟩⟩
    cases r with
    | ok f => cases hb
    | error c' => cases hb; rfl

end Sys2Proof.Machine
end

