-- ==== Sys2Proof/Laws/Ended.lean ====
section
/-! SUPPORT. What ending a command, taking a fault and the frames of a meaning say in the form `ended` of Safety.lean.
-/

namespace Sys2Proof.Machine

theorem complete_eq_ended (f : List Byte) (s : State) : complete f s = ended 0x00 0x00 f s.bb s := rfl

/-- Taking a fault between commands leaves the bit buffer (R312). -/
theorem takeFault_of_idle {c : Cause} {s : State} (h : s.activity = .idle) :
    takeFault c s = ended (causeKind c) (causeCode c) [] s.bb s := by
  simp [takeFault, ended, dropRegisters, causeStatus, h]

/-- Taking a fault inside a run resets it (R312). -/
theorem takeFault_of_run {c : Cause} {s : State} (h : s.activity ≠ .idle) :
    takeFault c s = ended (causeKind c) (causeCode c) [] ⟨[], 0, 0⟩ s := by
  simp [takeFault, ended, dropRegisters, causeStatus, h, BitBuffer.reset]

theorem endRun_eq_ended (s : State) : endRun s = ended 0x00 0x00 (runFields s) ⟨[], 0, 0⟩ s := by
  have h : runFields (clearBitBuffer s) = runFields s := rfl
  simp [endRun, complete_eq_ended, ended, clearBitBuffer, BitBuffer.reset]

/-- `ended` reads nothing of the registers that it drops. -/
theorem ended_congr {k c : Byte} {f : List Byte} {b : BitBuffer} {s t : State} (hcfg : s.cfg = t.cfg)
    (hscript : s.script = t.script) (hresp : s.responses = t.responses) : ended k c f b s = ended k c f b t := by
  simp [ended, hcfg, hscript, hresp]

theorem answer_ok_ended {s : State} {f : List Byte} (h : s.activity = .idle) :
    answer s (.ok f) = .next (ended 0x00 0x00 f s.bb s) := answer_ok h

theorem answer_error_ended {s : State} {c : Cause} (h : s.activity = .idle) :
    answer s (.error c) = .next (ended (causeKind c) (causeCode c) [] s.bb s) := by
  rw [answer_error h, takeFault_of_idle h]

theorem command_error_ended {s : State} {c : Cause} {body : State → Except Cause State} (h : s.activity = .idle)
    (hb : body s = .error c) : command s body = .next (ended (causeKind c) (causeCode c) [] s.bb s) := by
  rw [command_error h hb, takeFault_of_idle h]

theorem segment_error_ended {s : State} {c : Cause} {body : State → Except Cause State} (h : s.activity ≠ .idle)
    (hb : body s = .error c) : segment s body = .next (ended (causeKind c) (causeCode c) [] ⟨[], 0, 0⟩ s) := by
  rw [segment_error h hb, takeFault_of_run h]

end Sys2Proof.Machine
end

