-- ==== Sys2Proof/Laws/Field.lean ====
section
/-! SUPPORT. The tables and the scalar functions of Machine/Field.lean: what each entry is, and the field laws of
spec/40_gf256.md R139. Later proofs cite these and never unfold a table. -/

namespace Sys2Proof.Machine

/-! ## The tables -/

theorem LOG_EXP_upto : ∀ i ∈ List.range 255, LOG (EXP i) = some i := by decide +kernel

/-- LOG[EXP[i]] = i for i in 0..254 (R23). -/
theorem LOG_EXP {i : Nat} (h : i < 255) : LOG (EXP i) = some i :=
  LOG_EXP_upto i (List.mem_range.mpr h)

theorem LOG_cases : ∀ x : Byte, x = 0 ∨ ∃ l < 255, LOG x = some l ∧ EXP l = x := by decide +kernel

@[simp] theorem LOG_zero : LOG 0#8 = none := rfl

/-- LOG has no value at 0 and nowhere else (R23). -/
theorem LOG_eq_none {x : Byte} : LOG x = none ↔ x = 0 := by
  constructor
  · intro h
    rcases LOG_cases x with rfl | ⟨l, -, hl, -⟩
    · rfl
    · rw [h] at hl; cases hl
  · rintro rfl; rfl

/-- `exp[log[x]] = x` (R24). -/
theorem LOG_eq_some {x : Byte} {l : Nat} (h : LOG x = some l) : l < 255 ∧ EXP l = x := by
  rcases LOG_cases x with rfl | ⟨l', hl', hx, he⟩
  · cases h
  · rw [h] at hx; cases hx; exact ⟨hl', he⟩

/-- Every element but 0 is a power of α. -/
theorem exists_EXP {x : Byte} (h : x ≠ 0) : ∃ i < 255, EXP i = x ∧ LOG x = some i := by
  rcases LOG_cases x with rfl | ⟨l, hl, hx, he⟩
  · exact absurd rfl h
  · exact ⟨l, hl, he, hx⟩

/-- EXP[i] ≠ 0 for every i in 0..254 (R139). -/
theorem EXP_ne_zero {i : Nat} (h : i < 255) : EXP i ≠ 0 := by
  intro h0
  have := LOG_EXP h
  rw [h0] at this
  cases this

@[simp] theorem EXP_zero : EXP 0 = 1#8 := rfl

/-- EXP[255] = 1 (R22). -/
@[simp] theorem EXP_255 : EXP 255 = 1#8 := by decide

/-! ## Multiplication -/

@[simp] theorem gmul_zero_left (b : Byte) : gmul 0#8 b = 0#8 := rfl

@[simp] theorem gmul_zero_right (a : Byte) : gmul a 0#8 = 0#8 := by
  unfold gmul; cases LOG a <;> rfl

/-- The product of two powers of α. -/
theorem gmul_EXP {i j : Nat} (hi : i < 255) (hj : j < 255) :
    gmul (EXP i) (EXP j) = EXP ((i + j) % 255) := by
  simp [gmul, LOG_EXP hi, LOG_EXP hj]

theorem gmul_comm (a b : Byte) : gmul a b = gmul b a := by
  unfold gmul
  cases LOG a <;> cases LOG b <;> simp [Nat.add_comm]

theorem gmul_ne_zero {a b : Byte} (ha : a ≠ 0) (hb : b ≠ 0) : gmul a b ≠ 0 := by
  obtain ⟨i, hi, rfl, -⟩ := exists_EXP ha
  obtain ⟨j, hj, rfl, -⟩ := exists_EXP hb
  rw [gmul_EXP hi hj]
  exact EXP_ne_zero (Nat.mod_lt _ (by decide))

/-- The field has no zero divisors (R157). -/
theorem gmul_eq_zero {a b : Byte} : gmul a b = 0 ↔ a = 0 ∨ b = 0 := by
  constructor
  · intro h
    by_contra hn
    rw [not_or] at hn
    exact gmul_ne_zero hn.1 hn.2 h
  · rintro (rfl | rfl) <;> simp

theorem gmul_assoc (a b c : Byte) : gmul (gmul a b) c = gmul a (gmul b c) := by
  by_cases ha : a = 0
  · simp [ha]
  by_cases hb : b = 0
  · simp [hb]
  by_cases hc : c = 0
  · simp [hc]
  obtain ⟨i, hi, rfl, -⟩ := exists_EXP ha
  obtain ⟨j, hj, rfl, -⟩ := exists_EXP hb
  obtain ⟨k, hk, rfl, -⟩ := exists_EXP hc
  have lt (n : Nat) : n % 255 < 255 := Nat.mod_lt _ (by decide)
  rw [gmul_EXP hi hj, gmul_EXP hj hk, gmul_EXP (lt _) hk, gmul_EXP hi (lt _)]
  congr 1
  omega

@[simp] theorem gmul_one (a : Byte) : gmul a 1#8 = a := by
  by_cases ha : a = 0
  · simp [ha]
  obtain ⟨i, hi, rfl, -⟩ := exists_EXP ha
  rw [← EXP_zero, gmul_EXP hi (by decide)]
  congr 1
  omega

@[simp] theorem one_gmul (a : Byte) : gmul 1#8 a = a := by rw [gmul_comm, gmul_one]

/-! ### Distributivity, from multiplication by α -/

/-- Multiplication by x modulo 0x011D (spec/40_gf256.md R130). -/
def timesAlpha (b : Byte) : Byte := (b <<< 1) ^^^ (if b.msb then 0x1D#8 else 0#8)

theorem gmul_two : ∀ b : Byte, gmul 2 b = timesAlpha b := by decide +kernel

theorem timesAlpha_xor (b c : Byte) : timesAlpha (b ^^^ c) = timesAlpha b ^^^ timesAlpha c := by
  unfold timesAlpha
  rw [BitVec.msb_xor, BitVec.shiftLeft_xor_distrib]
  generalize b <<< 1 = b'
  generalize c <<< 1 = c'
  cases b.msb <;> cases c.msb <;> simp only [Bool.xor_false, Bool.xor_true, Bool.not_false, Bool.not_true,
    Bool.false_eq_true, if_true, if_false, BitVec.xor_zero]
  · ac_rfl
  · ac_rfl
  · rw [show b' ^^^ 0x1D#8 ^^^ (c' ^^^ 0x1D#8) = b' ^^^ c' ^^^ (0x1D#8 ^^^ 0x1D#8) by ac_rfl,
      BitVec.xor_self, BitVec.xor_zero]

/-- Multiplication distributes over XOR (R139). -/
theorem gmul_xor (a b c : Byte) : gmul a (b ^^^ c) = gmul a b ^^^ gmul a c := by
  by_cases ha : a = 0
  · simp [ha]
  obtain ⟨i, hi, rfl, -⟩ := exists_EXP ha
  clear ha
  induction i with
  | zero => simp
  | succ i ih =>
    have h2 : EXP (i + 1) = gmul 2 (EXP i) := by
      have h := gmul_EXP (i := 1) (j := i) (by decide) (by omega)
      rw [show (1 + i) % 255 = i + 1 by omega] at h
      rw [← h]; rfl
    rw [h2, gmul_assoc, gmul_assoc, gmul_assoc, ih (by omega)]
    simp only [gmul_two, timesAlpha_xor]

theorem xor_gmul (a b c : Byte) : gmul (a ^^^ b) c = gmul a c ^^^ gmul b c := by
  rw [gmul_comm, gmul_xor, gmul_comm c a, gmul_comm c b]

/-! ## Inverse, powers -/

/-- What `ginv` can answer (R134). -/
theorem ginv_eq_ok {a r : Byte} (h : ginv a = .ok r) : a ≠ 0 ∧ r ≠ 0 ∧ gmul a r = 1 := by
  unfold ginv at h
  split at h
  · cases h
  next l hl =>
    cases h
    obtain ⟨hlt, rfl⟩ := LOG_eq_some hl
    rcases Nat.eq_zero_or_pos l with rfl | hpos
    · exact ⟨by decide, by decide, by decide⟩
    · refine ⟨EXP_ne_zero hlt, EXP_ne_zero (by omega), ?_⟩
      rw [gmul_EXP hlt (by omega), show (l + (255 - l)) % 255 = 0 by omega, EXP_zero]
      rfl

@[simp] theorem ginv_zero : ginv 0#8 = .error .gfInvZero := rfl

theorem exists_ginv {a : Byte} (h : a ≠ 0) : ∃ r, ginv a = .ok r := by
  obtain ⟨i, -, -, hl⟩ := exists_EXP h
  exact ⟨EXP (255 - i), by simp [ginv, hl]⟩

@[simp] theorem glog_zero : glog 0#8 = .error .gfLogZero := rfl

/-- What `glog` can answer (R136). -/
theorem glog_eq_ok {a : Byte} {l : Nat} : glog a = .ok l ↔ l < 255 ∧ a = EXP l := by
  unfold glog
  constructor
  · intro h
    split at h
    · cases h
    next l' hl => cases h; exact ⟨(LOG_eq_some hl).1, (LOG_eq_some hl).2.symm⟩
  · rintro ⟨hl, rfl⟩
    rw [LOG_EXP hl]

theorem gexp_ne_zero (i : Nat) : gexp i ≠ 0 := EXP_ne_zero (Nat.mod_lt _ (by decide))

theorem gexp_of_lt {i : Nat} (h : i < 255) : gexp i = EXP i := by rw [gexp, Nat.mod_eq_of_lt h]

theorem gexp_add (i j : Nat) : gexp (i + j) = gmul (gexp i) (gexp j) := by
  have lt (n : Nat) : n % 255 < 255 := Nat.mod_lt _ (by decide)
  rw [gexp, gexp, gexp, gmul_EXP (lt _) (lt _)]
  congr 1
  omega

end Sys2Proof.Machine
end

