-- ==== Sys2Proof/Laws/PerInstr.lean ====
section
/-! SUPPORT. The statements made instruction by instruction. `TableWord`: the encoding carries the fixed bits of the
row of spec/opcode_table.json that the constructor stands for (its width, mask and match), the level 1 rows in byte 0
of the packet, the level 2 rows in the bits of the row. -/

namespace Sys2Proof.Laws.TableWord

/-- A row of the opcode table: where its bits stand, how many it has, which are fixed, and to what. -/
structure Row where
  level : Nat
  width : Nat
  mask : Nat
  pattern : Nat
  deriving DecidableEq, Repr

/-- The row of a command: its opcode byte. -/
def commandRow (opcode : Nat) : Row := ⟨1, 8, 0xFF, opcode⟩

/-- The row of a mode indicator. -/
def indicatorRow (indicator : Nat) : Row := ⟨2, 4, 0xF, indicator⟩

/-- The row of each constructor, as the table prints it. -/
def row : Instr → Row
  | .gfAdd _ _ => commandRow 0x10
  | .gfMul _ _ => commandRow 0x11
  | .gfInv _ => commandRow 0x12
  | .gfExp _ => commandRow 0x13
  | .gfLog _ => commandRow 0x14
  | .gfMono _ _ => commandRow 0x15
  | .polyNew _ _ => commandRow 0x20
  | .polyDeg _ => commandRow 0x21
  | .polyCoef _ _ => commandRow 0x22
  | .polyIsZero _ => commandRow 0x23
  | .polyEval _ _ => commandRow 0x24
  | .polyAdd _ _ => commandRow 0x25
  | .polyMul _ _ => commandRow 0x26
  | .polyMulI _ _ => commandRow 0x27
  | .polyMulM _ _ _ => commandRow 0x28
  | .polyDiv _ _ => commandRow 0x29
  | .polyMod _ _ => commandRow 0x2A
  | .rsSyn _ _ => commandRow 0x30
  | .rsEuclid _ _ => commandRow 0x31
  | .rsChien _ => commandRow 0x32
  | .rsForney _ _ _ => commandRow 0x33
  | .rsDecode _ _ => commandRow 0x34
  | .deint _ _ _ => commandRow 0x40
  | .bbLoad _ => commandRow 0x50
  | .bbAvail => commandRow 0x51
  | .bbRead _ => commandRow 0x52
  | .segDecode _ _ => commandRow 0x60
  | .decode _ _ _ => commandRow 0x70
  | .terminator => indicatorRow 0x0
  | .numeric => indicatorRow 0x1
  | .alphanumeric => indicatorRow 0x2
  | .structuredAppend => indicatorRow 0x3
  | .byte => indicatorRow 0x4
  | .fnc1First => indicatorRow 0x5
  | .illegal0110 => indicatorRow 0x6
  | .eci => indicatorRow 0x7
  | .kanji => indicatorRow 0x8
  | .fnc1Second => indicatorRow 0x9
  | .illegal1010 => indicatorRow 0xA
  | .illegal1011 => indicatorRow 0xB
  | .illegal1100 => indicatorRow 0xC
  | .illegal1101 => indicatorRow 0xD
  | .illegal1110 => indicatorRow 0xE
  | .illegal1111 => indicatorRow 0xF
  | .eci1 _ => ⟨2, 12, 0xF80, 0x700⟩
  | .eci2 _ => ⟨2, 20, 0xFC000, 0x78000⟩
  | .eci3 _ => ⟨2, 28, 0xFE00000, 0x7C00000⟩
  | .eciBad _ => ⟨2, 12, 0xFE0, 0x7E0⟩

/-- Words carry the fixed bits of a row. -/
def Carries (r : Row) : Words → Prop
  | .packet (b :: _) => r.level = 1 ∧ r.width = 8 ∧ b.toNat &&& r.mask = r.pattern
  | .packet [] => False
  | .bits bs => r.level = 2 ∧ bs.length = r.width ∧ natOfBits bs &&& r.mask = r.pattern

/-- The encoding of an instruction carries the fixed bits of its row. -/
def Statement (i : Instr) : Prop := Carries (row i) (encode i)

/-- Reading on the `n` bits of `v` after the bits already in `acc`. -/
theorem foldl_ofNat (n v acc : Nat) :
    (bitsOfNat n v).foldl (fun v b => 2 * v + b.toNat) acc = acc * 2 ^ n + v % 2 ^ n := by
  induction n generalizing acc with
  | zero => simp [bitsOfNat, Nat.mod_one]
  | succ n ih =>
    have hb : v % 2 ^ (n + 1) = 2 ^ n * (v.testBit n).toNat + v % 2 ^ n := by
      rw [Nat.testBit_eq_decide_div_mod_eq, pow_succ, Nat.mod_mul]
      rcases Nat.mod_two_eq_zero_or_one (v / 2 ^ n) with h | h <;> simp [h, Nat.add_comm]
    simp only [bitsOfNat, List.foldl_cons, ih, hb]
    rw [pow_succ]
    ring

theorem eciRow (n k fixed v : Nat) (h : v < 2 ^ n) :
    natOfBits (bitsOfNat k fixed ++ bitsOfNat n v) = fixed % 2 ^ k * 2 ^ n + v := by
  rw [natOfBits, List.foldl_append, foldl_ofNat, foldl_ofNat, Nat.mod_eq_of_lt h]
  simp

/-- The fixed bits, masked out, are what is left. -/
theorem masked {n k fixed v : Nat} (hv : v < 2 ^ n) (hf : fixed < 2 ^ k) :
    (fixed * 2 ^ n + v) &&& ((2 ^ k - 1) * 2 ^ n) = fixed * 2 ^ n := by
  rw [← Nat.shiftLeft_eq, ← Nat.shiftLeft_eq, Nat.shiftLeft_add_eq_or_of_lt hv]
  apply Nat.eq_of_testBit_eq
  intro i
  rw [Nat.testBit_and, Nat.testBit_or, Nat.testBit_shiftLeft, Nat.testBit_shiftLeft, Nat.testBit_two_pow_sub_one]
  by_cases hi : n ≤ i
  · have hvi : v.testBit i = false :=
      Nat.testBit_lt_two_pow (lt_of_lt_of_le hv (Nat.pow_le_pow_right (by decide) hi))
    by_cases hk : i - n < k
    · simp [hi, hvi, hk]
    · have hfi : fixed.testBit (i - n) = false :=
        Nat.testBit_lt_two_pow (lt_of_lt_of_le hf (Nat.pow_le_pow_right (by decide) (by omega)))
      simp [hi, hvi, hfi]
  · simp [hi]

/-- A command whose opcode byte is that of its row. -/
theorem command {i : Instr} {op : Byte} {rest : List Byte} (he : encode i = .packet (op :: rest))
    (hr : row i = commandRow op.toNat) : Statement i := by
  rw [Statement, he, hr]
  exact ⟨rfl, rfl, by simpa [commandRow] using (Nat.and_two_pow_sub_one_eq_mod op.toNat 8).trans (Nat.mod_eq_of_lt op.isLt)⟩

theorem gfAdd (a b : Byte) : Statement (.gfAdd a b) := command rfl rfl

theorem gfMul (a b : Byte) : Statement (.gfMul a b) := command rfl rfl

theorem gfInv (a : Byte) : Statement (.gfInv a) := command rfl rfl

theorem gfExp (i : Word16) : Statement (.gfExp i) := command rfl rfl

theorem gfLog (a : Byte) : Statement (.gfLog a) := command rfl rfl

theorem gfMono (degree : Word16) (coefficient : Byte) : Statement (.gfMono degree coefficient) := command rfl rfl

theorem polyNew (c : Poly) (degree : Word16) : Statement (.polyNew c degree) := command rfl rfl

theorem polyDeg (p : Poly) : Statement (.polyDeg p) := command rfl rfl

theorem polyCoef (p : Poly) (deg : Word16) : Statement (.polyCoef p deg) := command rfl rfl

theorem polyIsZero (p : Poly) : Statement (.polyIsZero p) := command rfl rfl

theorem polyEval (p : Poly) (x : Byte) : Statement (.polyEval p x) := command rfl rfl

theorem polyAdd (p q : Poly) : Statement (.polyAdd p q) := command rfl rfl

theorem polyMul (p q : Poly) : Statement (.polyMul p q) := command rfl rfl

theorem polyMulI (p : Poly) (scalar : Byte) : Statement (.polyMulI p scalar) := command rfl rfl

theorem polyMulM (p : Poly) (degree : Word16) (coefficient : Byte) : Statement (.polyMulM p degree coefficient) := command rfl rfl

theorem polyDiv (p q : Poly) : Statement (.polyDiv p q) := command rfl rfl

theorem polyMod (p q : Poly) : Statement (.polyMod p q) := command rfl rfl

theorem rsSyn (received : List Byte) (twoS : Word16) : Statement (.rsSyn received twoS) := command rfl rfl

theorem rsEuclid (spoly : Poly) (twoS : Word16) : Statement (.rsEuclid spoly twoS) := command rfl rfl

theorem rsChien (sigma : Poly) : Statement (.rsChien sigma) := command rfl rfl

theorem rsForney (sigma omega : Poly) (xloc : List Byte) : Statement (.rsForney sigma omega xloc) := command rfl rfl

theorem rsDecode (received : List Byte) (twoS : Word16) : Statement (.rsDecode received twoS) := command rfl rfl

theorem deint (version ecl : Byte) (raw : List Byte) : Statement (.deint version ecl raw) := command rfl rfl

theorem bbLoad (bytes : List Byte) : Statement (.bbLoad bytes) := command rfl rfl

theorem bbAvail : Statement .bbAvail := command rfl rfl

theorem bbRead (n : Byte) : Statement (.bbRead n) := command rfl rfl

theorem segDecode (version : Byte) (data : List Byte) : Statement (.segDecode version data) := command rfl rfl

theorem decode (version ecl : Byte) (raw : List Byte) : Statement (.decode version ecl raw) := command rfl rfl

theorem terminator : Statement .terminator := ⟨rfl, rfl, by decide⟩

theorem numeric : Statement .numeric := ⟨rfl, rfl, by decide⟩

theorem alphanumeric : Statement .alphanumeric := ⟨rfl, rfl, by decide⟩

theorem structuredAppend : Statement .structuredAppend := ⟨rfl, rfl, by decide⟩

theorem byte : Statement .byte := ⟨rfl, rfl, by decide⟩

theorem fnc1First : Statement .fnc1First := ⟨rfl, rfl, by decide⟩

theorem illegal0110 : Statement .illegal0110 := ⟨rfl, rfl, by decide⟩

theorem eci : Statement .eci := ⟨rfl, rfl, by decide⟩

theorem kanji : Statement .kanji := ⟨rfl, rfl, by decide⟩

theorem fnc1Second : Statement .fnc1Second := ⟨rfl, rfl, by decide⟩

theorem illegal1010 : Statement .illegal1010 := ⟨rfl, rfl, by decide⟩

theorem illegal1011 : Statement .illegal1011 := ⟨rfl, rfl, by decide⟩

theorem illegal1100 : Statement .illegal1100 := ⟨rfl, rfl, by decide⟩

theorem illegal1101 : Statement .illegal1101 := ⟨rfl, rfl, by decide⟩

theorem illegal1110 : Statement .illegal1110 := ⟨rfl, rfl, by decide⟩

theorem illegal1111 : Statement .illegal1111 := ⟨rfl, rfl, by decide⟩

theorem eci1 (id : BitVec 7) : Statement (.eci1 id) := by
  refine ⟨rfl, by simp [row, bitsOfNat], ?_⟩
  rw [eciRow _ _ _ _ id.isLt]
  exact masked (k := 5) (fixed := 14) id.isLt (by decide)

theorem eci2 (id : BitVec 14) : Statement (.eci2 id) := by
  refine ⟨rfl, by simp [row, bitsOfNat], ?_⟩
  rw [eciRow _ _ _ _ id.isLt]
  exact masked (k := 6) (fixed := 30) id.isLt (by decide)

theorem eci3 (id : BitVec 21) : Statement (.eci3 id) := by
  refine ⟨rfl, by simp [row, bitsOfNat], ?_⟩
  rw [eciRow _ _ _ _ id.isLt]
  exact masked (k := 7) (fixed := 62) id.isLt (by decide)

theorem eciBad (x : BitVec 5) : Statement (.eciBad x) := by
  refine ⟨rfl, by simp [row, bitsOfNat], ?_⟩
  rw [eciRow _ _ _ _ x.isLt]
  exact masked (k := 7) (fixed := 63) x.isLt (by decide)

end Sys2Proof.Laws.TableWord
end

