-- ==== Sys2Proof/Laws/Pipeline.lean ====
section
/-! SUPPORT. What the operand checks, the de-interleaver and the stages of DECODE can answer, each said once. -/

namespace Sys2Proof.Machine

open Sys2Proof.Config

theorem versionOperand_eq_ok {version : Byte} {ver : Nat} :
    versionOperand version = .ok ver ↔ 1 ≤ version.toNat ∧ version.toNat ≤ 40 ∧ ver = version.toNat := by
  unfold versionOperand
  by_cases h : version.toNat < 1 ∨ 40 < version.toNat
  · simp only [h, if_true]
    constructor
    · intro h; cases h
    · rintro ⟨h1, h2, -⟩; omega
  · simp only [h, if_false, Except.ok.injEq]
    constructor
    · rintro rfl; exact ⟨by omega, by omega, rfl⟩
    · rintro ⟨-, -, rfl⟩; rfl

theorem versionOperand_error {version : Byte} {c : Cause} (h : versionOperand version = .error c) :
    c = .badVersion ∧ (version.toNat < 1 ∨ 40 < version.toNat) := by
  unfold versionOperand at h
  by_cases hv : version.toNat < 1 ∨ 40 < version.toNat
  · simp only [hv, if_true] at h; cases h; exact ⟨rfl, hv⟩
  · simp only [hv, if_false] at h; cases h

theorem eclOperand_eq_ok {ecl : Byte} {level : Nat} :
    eclOperand ecl = .ok level ↔ ecl.toNat ≤ 3 ∧ level = ecl.toNat := by
  unfold eclOperand
  by_cases h : 3 < ecl.toNat
  · have h' : ¬ ecl.toNat ≤ 3 := by omega
    simp [h, h']
  · have h' : ecl.toNat ≤ 3 := by omega
    simp [h, h', eq_comm]

theorem eclOperand_error {ecl : Byte} {c : Cause} (h : eclOperand ecl = .error c) : c = .badEcl ∧ 3 < ecl.toNat := by
  unfold eclOperand at h
  by_cases he : 3 < ecl.toNat
  · simp only [he, if_true] at h; cases h; exact ⟨rfl, he⟩
  · simp only [he, if_false] at h; cases h

/-- The de-interleaver answers exactly if every test of R212 passes, and then the filled blocks and the cursor. -/
theorem deinterleave_eq_ok {cfg : Params} {version ecl : Byte} {raw : List Byte} {w v : Work} :
    deinterleave cfg version ecl raw w = .ok v ↔
      1 ≤ version.toNat ∧ version.toNat ≤ 40 ∧ ecl.toNat ≤ 3 ∧ (raw.length : Int) = totalOf cfg version.toNat ∧
        wellFormedLayout (layoutOf cfg version.toNat ecl.toNat) = true ∧
        ((allocateBlocks (layoutOf cfg version.toNat ecl.toNat)).map fun b => b.buf.length).sum = raw.length ∧
        v = { w with
          raw := raw
          blk := (fillBlocks (layoutOf cfg version.toNat ecl.toNat).ec.toNat raw
            (allocateBlocks (layoutOf cfg version.toNat ecl.toNat))).1
          cur := (fillBlocks (layoutOf cfg version.toNat ecl.toNat).ec.toNat raw
            (allocateBlocks (layoutOf cfg version.toNat ecl.toNat))).2 } := by
  unfold deinterleave
  cases hv : versionOperand version with
  | error c =>
    have := (versionOperand_error hv).2
    constructor
    · intro h; cases h
    · rintro ⟨h1, h2, -⟩; omega
  | ok ver =>
    obtain ⟨h1, h2, rfl⟩ := versionOperand_eq_ok.mp hv
    cases he : eclOperand ecl with
    | error c =>
      have := (eclOperand_error he).2
      constructor
      · intro h; cases h
      · rintro ⟨-, -, h3, -⟩; omega
    | ok level =>
      obtain ⟨h3, rfl⟩ := eclOperand_eq_ok.mp he
      simp only [h1, h2, h3, true_and]
      by_cases ht : (raw.length : Int) = totalOf cfg version.toNat
      · cases hw : wellFormedLayout (layoutOf cfg version.toNat ecl.toNat) with
        | false => simp [ht]
        | true =>
          by_cases hs : ((allocateBlocks (layoutOf cfg version.toNat ecl.toNat)).map fun b => b.buf.length).sum =
              raw.length
          · simp only [ne_eq, ht, hs, not_true, if_false, Bool.true_eq_false, Except.ok.injEq, true_and]
            exact eq_comm
          · simp [ht, hs]
      · simp [ht]

/-- The de-interleaver raises one of four causes (R212). -/
theorem deinterleave_error {cfg : Params} {version ecl : Byte} {raw : List Byte} {w : Work} {c : Cause}
    (h : deinterleave cfg version ecl raw w = .error c) :
    c = .badVersion ∨ c = .badEcl ∨ c = .rawLen ∨ c = .cursor := by
  unfold deinterleave at h
  split at h
  · next hv => cases h; exact .inl (versionOperand_error hv).1
  · split at h
    · next he => cases h; exact .inr (.inl (eclOperand_error he).1)
    · simp only at h
      split at h
      · cases h; exact .inr (.inr (.inl rfl))
      · split at h
        · cases h; exact .inr (.inr (.inr rfl))
        · split at h
          · cases h; exact .inr (.inr (.inr rfl))
          · cases h

/-- The correction loop of R281 on one block more. -/
theorem correctBlocks_cons_eq_ok {b : Block} {rest : List Block} {w v : Work} :
    correctBlocks (b :: rest) w = .ok v ↔
      ∃ u buf, rsDecode b.buf (b.buf.length - b.ndata) w = .ok (u, buf) ∧
        correctBlocks rest { u with blk := u.blk ++ [{ b with buf := buf }], agg := u.agg ++ buf.take b.ndata } =
          .ok v := by
  rw [correctBlocks]
  rcases rsDecode b.buf (b.buf.length - b.ndata) w with c | ⟨u, buf⟩ <;> simp

/-- The first block that faults ends the loop (R283). -/
theorem correctBlocks_cons_error {b : Block} {rest : List Block} {w : Work} {c : Cause} :
    correctBlocks (b :: rest) w = .error c ↔
      rsDecode b.buf (b.buf.length - b.ndata) w = .error c ∨
      ∃ u buf, rsDecode b.buf (b.buf.length - b.ndata) w = .ok (u, buf) ∧
        correctBlocks rest { u with blk := u.blk ++ [{ b with buf := buf }], agg := u.agg ++ buf.take b.ndata } =
          .error c := by
  rw [correctBlocks]
  rcases rsDecode b.buf (b.buf.length - b.ndata) w with c | ⟨u, buf⟩ <;> simp

theorem pipelineStages_eq_ok {cfg : Params} {version ecl : Byte} {raw : List Byte} {w v : Work} :
    pipelineStages cfg version ecl raw w = .ok v ↔
      ∃ u, deinterleave cfg version ecl raw w = .ok u ∧ correctBlocks u.blk { u with blk := [], agg := [] } = .ok v := by
  unfold pipelineStages
  cases deinterleave cfg version ecl raw w <;> simp

theorem pipelineStages_error {cfg : Params} {version ecl : Byte} {raw : List Byte} {w : Work} {c : Cause} :
    pipelineStages cfg version ecl raw w = .error c ↔
      deinterleave cfg version ecl raw w = .error c ∨
      ∃ u, deinterleave cfg version ecl raw w = .ok u ∧
        correctBlocks u.blk { u with blk := [], agg := [] } = .error c := by
  unfold pipelineStages
  cases deinterleave cfg version ecl raw w <;> simp

end Sys2Proof.Machine
end

