-- ==== Sys2Proof/Laws/Polynomial.lean ====
section
/-! SUPPORT. The polynomial unit by coefficients: what each function of Machine/Polynomial.lean answers is canonical,
and which coefficients it has. Two canonical polynomials with the same coefficients are one, so these say everything.
-/

namespace Sys2Proof.Machine

open Sys2Proof.Config

/-! ## Coefficients -/

theorem coef_eq (p : List Byte) (k : Nat) :
    coef p k = if k < p.length then p.getD (p.length - 1 - k) 0 else 0 := by
  unfold coef
  split
  next h =>
    rw [List.getD_eq_getElem _ _ (by simpa using h), List.getElem_reverse, List.getD_eq_getElem]
  next h => exact List.getD_eq_default _ _ (by simpa using h)

theorem coef_of_le {p : List Byte} {k : Nat} (h : p.length ≤ k) : coef p k = 0 := by
  rw [coef_eq, if_neg (by omega)]

@[simp] theorem coef_nil (k : Nat) : coef [] k = 0#8 := coef_of_le (by simp)

theorem coef_append (p q : List Byte) (k : Nat) :
    coef (p ++ q) k = if k < q.length then coef q k else coef p (k - q.length) := by
  unfold coef
  rw [List.reverse_append]
  split
  next h => rw [List.getD_append _ _ _ _ (by simpa using h)]
  next h => rw [List.getD_append_right _ _ _ _ (by simpa using h), List.length_reverse]

theorem coef_cons (a : Byte) (p : List Byte) (k : Nat) :
    coef (a :: p) k = if k = p.length then a else coef p k := by
  have h := coef_append [a] p k
  rw [List.singleton_append] at h
  rw [h]
  by_cases h1 : k < p.length
  · rw [if_pos h1, if_neg (by omega)]
  · rw [if_neg h1]
    by_cases h2 : k = p.length
    · subst h2; simp [coef]
    · rw [if_neg h2, coef_of_le (p := p) (by omega), coef_of_le]
      simp; omega

@[simp] theorem coef_zero_cons (p : List Byte) (k : Nat) : coef (0#8 :: p) k = coef p k := by
  rw [coef_cons]
  split
  next h => rw [coef_of_le (by omega)]; rfl
  next => rfl

theorem coef_replicate_zero (n k : Nat) : coef (List.replicate n 0) k = 0 := by
  induction n with
  | zero => rfl
  | succ n ih => rw [List.replicate_succ]; simpa using ih

theorem coef_map {f : Byte → Byte} (h0 : f 0 = 0) (p : List Byte) (k : Nat) : coef (p.map f) k = f (coef p k) := by
  induction p with
  | nil => simpa using h0.symm
  | cons a p ih => rw [List.map_cons, coef_cons, coef_cons, ih, List.length_map]; split <;> rfl

theorem pcoef_eq_coef (p : Poly) (k : Nat) : pcoef p k = coef p k := by
  unfold pcoef pdeg
  rw [coef_eq]
  cases p with
  | nil => simp
  | cons a p =>
    simp only [List.length_cons]
    by_cases h : k < p.length + 1
    · rw [if_neg (by omega), if_pos h]; simp
    · rw [if_pos (by omega), if_neg h]

/-! ## Canonical polynomials -/

theorem canonical_zero : Canonical [0] := ⟨by simp, fun _ => rfl⟩

theorem canonical_cons {a : Byte} (h : a ≠ 0) (p : List Byte) : Canonical (a :: p) :=
  ⟨by simp, fun h' => absurd h' h⟩

theorem canonical_one : Canonical [1] := canonical_cons (by decide) []

theorem canonical_cases {p : Poly} (h : Canonical p) : p = [0] ∨ ∃ a rest, a ≠ 0 ∧ p = a :: rest := by
  obtain ⟨h1, h2⟩ := h
  cases p with
  | nil => exact absurd rfl h1
  | cons a rest =>
    by_cases ha : a = 0
    · exact .inl (h2 ha)
    · exact .inr ⟨a, rest, ha, rfl⟩

theorem pzero_eq_true {p : Poly} (h : Canonical p) : pzero p = true ↔ p = [0] := by
  unfold pzero
  rw [beq_iff_eq]
  exact ⟨h.2, fun h => by rw [h]; rfl⟩

/-- Everything the constructor says of a vector with leading zeros (R151). -/
theorem strip_cons_zero (c : List Byte) : strip (0#8 :: c) = strip c := by
  unfold strip; rw [List.dropWhile_cons_of_pos (by decide)]

theorem strip_cons {a : Byte} (h : a ≠ 0) (c : List Byte) : strip (a :: c) = a :: c := by
  unfold strip; rw [List.dropWhile_cons_of_neg (by simpa using h)]

@[simp] theorem strip_nil : strip [] = [0] := rfl

theorem strip_replicate (n : Nat) (c : List Byte) : strip (List.replicate n 0 ++ c) = strip c := by
  induction n with
  | zero => rfl
  | succ n ih => rw [List.replicate_succ, List.cons_append]; exact (strip_cons_zero _).trans ih

/-- A vector is leading zeros and then nothing, or a coefficient that is not zero. -/
theorem leading_zeros (c : List Byte) :
    ∃ n, c = List.replicate n 0 ∨ ∃ a rest, a ≠ 0 ∧ c = List.replicate n 0 ++ a :: rest := by
  induction c with
  | nil => exact ⟨0, .inl rfl⟩
  | cons b c ih =>
    by_cases hb : b = 0
    · obtain ⟨n, rfl | ⟨a, rest, ha, rfl⟩⟩ := ih
      · exact ⟨n + 1, .inl (by rw [hb, List.replicate_succ])⟩
      · exact ⟨n + 1, .inr ⟨a, rest, ha, by rw [hb, List.replicate_succ]; rfl⟩⟩
    · exact ⟨0, .inr ⟨b, c, hb, rfl⟩⟩

theorem strip_canonical (c : List Byte) : Canonical (strip c) := by
  obtain ⟨n, rfl | ⟨a, rest, ha, rfl⟩⟩ := leading_zeros c
  · have := strip_replicate n []
    rw [List.append_nil] at this
    rw [this]; exact canonical_zero
  · rw [strip_replicate, strip_cons ha]; exact canonical_cons ha rest

theorem strip_of_canonical {p : Poly} (h : Canonical p) : strip p = p := by
  obtain rfl | ⟨a, rest, ha, rfl⟩ := canonical_cases h
  · rfl
  · exact strip_cons ha rest

@[simp] theorem coef_strip (c : List Byte) (k : Nat) : coef (strip c) k = coef c k := by
  induction c with
  | nil => simp
  | cons b c ih =>
    by_cases hb : b = 0
    · subst hb; rw [show (0 : Byte) = 0#8 from rfl, strip_cons_zero, ih, coef_zero_cons]
    · rw [strip_cons hb]

theorem strip_length_le (c : List Byte) : (strip c).length ≤ max 1 c.length := by
  induction c with
  | nil => simp
  | cons b c ih =>
    by_cases hb : b = 0
    · subst hb; rw [show (0 : Byte) = 0#8 from rfl, strip_cons_zero, List.length_cons]; omega
    · rw [strip_cons hb]; exact le_max_right _ _

theorem length_of_canonical {p : Poly} (h : Canonical p) : p.length = pdeg p + 1 := by
  have := List.length_pos_of_ne_nil h.1
  unfold pdeg; omega

/-- The leading coefficient of a polynomial that is not zero. -/
theorem coef_pdeg {p : Poly} (h : Canonical p) (h0 : p ≠ [0]) : coef p (pdeg p) = p.headD 0 ∧ coef p (pdeg p) ≠ 0 := by
  obtain rfl | ⟨a, rest, ha, rfl⟩ := canonical_cases h
  · exact absurd rfl h0
  · exact ⟨by simp [pdeg, coef_cons], by simpa [pdeg, coef_cons] using ha⟩

theorem coef_of_pdeg_lt {p : Poly} (h : Canonical p) {k : Nat} (hk : pdeg p < k) : coef p k = 0 :=
  coef_of_le (by rw [length_of_canonical h]; omega)

/-- A canonical polynomial whose coefficients from x^n on are zero is shorter than n, or zero. -/
theorem pdeg_lt_of_coef {p : Poly} (h : Canonical p) {n : Nat} (hn : ∀ k, n ≤ k → coef p k = 0) : p = [0] ∨ pdeg p < n := by
  by_cases h0 : p = [0]
  · exact .inl h0
  · refine .inr (Nat.lt_of_not_le fun hle => (coef_pdeg h h0).2 (hn _ hle))

/-- Two polynomials are equal iff their canonical vectors are (R164). -/
theorem canonical_ext {p q : Poly} (hp : Canonical p) (hq : Canonical q) (h : ∀ k, coef p k = coef q k) : p = q := by
  have key : ∀ {p q : Poly}, Canonical p → Canonical q → (∀ k, coef p k = coef q k) → p.length ≤ q.length := by
    intro p q hp hq h
    have h1 := length_of_canonical hp
    have h2 := length_of_canonical hq
    by_cases h0 : p = [0]
    · rw [h0, h2]; simp
    · have h3 := (coef_pdeg hp h0).2
      by_contra hlt
      exact h3 (by rw [h, coef_of_pdeg_lt hq (by omega)])
  have hlen := le_antisymm (key hp hq h) (key hq hp fun k => (h k).symm)
  have : p.reverse = q.reverse := by
    apply List.ext_getElem (by simpa using hlen)
    intro i h1 h2
    have := h i
    unfold coef at this
    rwa [List.getD_eq_getElem _ _ h1, List.getD_eq_getElem _ _ h2] at this
  exact List.reverse_injective this

theorem eq_zero_iff_coef {p : Poly} (h : Canonical p) : p = [0] ↔ ∀ k, coef p k = 0 := by
  constructor
  · rintro rfl k; simp
  · intro h'; exact canonical_ext h canonical_zero fun k => by rw [h' k]; simp

/-! ## The constructor -/

/-- Everything the assembly of a `poly` operand that a packet can carry says (R96). -/
theorem polyOperand_eq {c : List Byte} (h : c.length ≤ lmax) :
    polyOperand c = if c = [] then .error .polyEmpty else .ok (strip c) := by
  unfold polyOperand norm
  split
  · rfl
  next hc =>
    rw [if_neg (by omega)]
    have hs : strip c = match c.dropWhile (· == 0) with | [] => [0] | p => p := rfl
    split
    next hd => rw [hs, hd]
    next hd =>
      have hle : (c.dropWhile (· == 0)).length ≤ c.length := (List.dropWhile_sublist _).length_le
      rw [if_neg (by rw [Int.toNat_zero]; omega), hs, Int.toNat_zero, List.replicate_zero, List.append_nil]
      split
      next h' => exact absurd h' hd
      next => rfl

/-! ## Sums -/

theorem coef_zipWith_xor {l s : List Byte} (h : l.length = s.length) (k : Nat) :
    coef (List.zipWith (· ^^^ ·) l s) k = coef l k ^^^ coef s k := by
  induction l generalizing s with
  | nil => obtain rfl : s = [] := by simpa using h.symm
           simp
  | cons a l ih =>
    cases s with
    | nil => simp at h
    | cons b s =>
      have h' : l.length = s.length := by simpa using h
      rw [List.zipWith_cons_cons, coef_cons, coef_cons, coef_cons, ih h', List.length_zipWith, ← h', Nat.min_self]
      split <;> rfl

theorem coef_xorAligned {l s : List Byte} (h : s.length ≤ l.length) (k : Nat) :
    coef (xorAligned l s) k = coef l k ^^^ coef s k := by
  unfold xorAligned
  have hd : (l.drop (l.length - s.length)).length = s.length := by simp; omega
  have hz : (List.zipWith (· ^^^ ·) (l.drop (l.length - s.length)) s).length = s.length := by
    rw [List.length_zipWith, hd, Nat.min_self]
  have hl := coef_append (l.take (l.length - s.length)) (l.drop (l.length - s.length)) k
  rw [List.take_append_drop, hd] at hl
  rw [coef_append, hz, hl, coef_zipWith_xor hd]
  split
  · rfl
  next hk => rw [coef_of_le (p := s) (by omega)]; simp

theorem padd_canonical {p q : Poly} (hp : Canonical p) (hq : Canonical q) : Canonical (padd p q) := by
  unfold padd
  split
  · exact hq
  split
  · exact hp
  split <;> exact strip_canonical _

/-- Everything a sum says (R156). -/
theorem coef_padd {p q : Poly} (hp : Canonical p) (hq : Canonical q) (k : Nat) :
    coef (padd p q) k = coef p k ^^^ coef q k := by
  unfold padd
  split
  next h => rw [(pzero_eq_true hp).1 h]; simp
  split
  next h => rw [(pzero_eq_true hq).1 h]; simp
  split
  next h => rw [coef_strip, coef_xorAligned (by omega)]
  next h => rw [coef_strip, coef_xorAligned (by omega), BitVec.xor_comm]

/-! ## Sums of many bytes -/

theorem foldl_xor (x : Byte) (l : List Byte) : l.foldl (· ^^^ ·) x = x ^^^ l.foldl (· ^^^ ·) 0 := by
  induction l generalizing x with
  | nil => simp
  | cons a l ih => rw [List.foldl_cons, List.foldl_cons, ih, ih (0 ^^^ a), BitVec.xor_assoc]; simp

@[simp] theorem xorSum_zero (v : Nat → Byte) : xorSum 0 v = 0#8 := rfl

theorem xorSum_succ (n : Nat) (v : Nat → Byte) : xorSum (n + 1) v = xorSum n v ^^^ v n := by
  simp [xorSum, List.range_succ, List.foldl_append]

theorem xorSum_succ' (n : Nat) (v : Nat → Byte) : xorSum (n + 1) v = v 0 ^^^ xorSum n fun i => v (i + 1) := by
  induction n with
  | zero => simp [xorSum_succ]
  | succ n ih => rw [xorSum_succ, ih, xorSum_succ n, BitVec.xor_assoc]

theorem xorSum_congr {n : Nat} {v w : Nat → Byte} (h : ∀ i < n, v i = w i) : xorSum n v = xorSum n w := by
  induction n with
  | zero => rfl
  | succ n ih => rw [xorSum_succ, xorSum_succ, ih fun i hi => h i (by omega), h n (by omega)]

theorem xorSum_xor (n : Nat) (v w : Nat → Byte) : xorSum n (fun i => v i ^^^ w i) = xorSum n v ^^^ xorSum n w := by
  induction n with
  | zero => simp
  | succ n ih => rw [xorSum_succ, xorSum_succ, xorSum_succ, ih]; ac_rfl

theorem gmul_xorSum (a : Byte) (n : Nat) (v : Nat → Byte) : gmul a (xorSum n v) = xorSum n fun i => gmul a (v i) := by
  induction n with
  | zero => simp
  | succ n ih => rw [xorSum_succ, xorSum_succ, gmul_xor, ih]

theorem xorSum_eq_zero {n : Nat} {v : Nat → Byte} (h : ∀ i < n, v i = 0) : xorSum n v = 0 := by
  induction n with
  | zero => rfl
  | succ n ih => rw [xorSum_succ, ih fun i hi => h i (by omega), h n (by omega)]; rfl

/-- A sum over one index with one nonzero term. -/
theorem xorSum_single {n j : Nat} {v : Nat → Byte} (hj : j < n) (h : ∀ i < n, i ≠ j → v i = 0) : xorSum n v = v j := by
  induction n with
  | zero => omega
  | succ n ih =>
    rw [xorSum_succ]
    by_cases hn : j = n
    · subst hn; rw [xorSum_eq_zero fun i hi => h i (by omega) (by omega)]; simp
    · rw [ih (by omega) fun i hi => h i (by omega), h n (by omega) (Ne.symm hn)]; simp

/-! ## Products -/

theorem convolve_length (p : Poly) {q : Poly} (hq : q ≠ []) : (convolve p q).length = p.length + q.length - 1 := by
  have := List.length_pos_of_ne_nil hq
  induction p with
  | nil => simp [convolve]
  | cons a p ih => simp [convolve, ih]; omega

/-- The convolution by coefficients (R157). -/
theorem coef_convolve (p : Poly) {q : Poly} (hq : q ≠ []) (k : Nat) :
    coef (convolve p q) k = xorSum (k + 1) fun i => gmul (coef p i) (coef q (k - i)) := by
  have := List.length_pos_of_ne_nil hq
  induction p with
  | nil =>
    rw [convolve, coef_replicate_zero, xorSum_eq_zero]
    intro i _; simp
  | cons a p ih =>
    rw [convolve, coef_zipWith_xor (by simp [convolve_length _ hq]; omega), coef_append,
      show (0 : Byte) = 0#8 from rfl, coef_zero_cons, ih, List.length_replicate, coef_map (by simp),
      show (0#8 : Byte) = 0 from rfl, coef_replicate_zero]
    have hsplit : ∀ i, gmul (coef (a :: p) i) (coef q (k - i)) =
        (if i = p.length then gmul a (coef q (k - i)) else 0) ^^^ gmul (coef p i) (coef q (k - i)) := by
      intro i
      rw [coef_cons]
      split
      next h => rw [coef_of_le (p := p) (by omega)]; simp
      next => simp
    rw [xorSum_congr fun i _ => hsplit i, xorSum_xor]
    congr 1
    split
    next h => rw [xorSum_eq_zero fun i hi => if_neg (by omega)]
    next h =>
      rw [xorSum_single (j := p.length) (by omega) fun i _ hi => if_neg hi, if_pos rfl]

theorem pmul_canonical (p q : Poly) : Canonical (pmul p q) := by
  unfold pmul
  split
  · exact canonical_zero
  · exact strip_canonical _

/-- Everything a product says (R157). -/
theorem coef_pmul {p q : Poly} (hp : Canonical p) (hq : Canonical q) (k : Nat) :
    coef (pmul p q) k = xorSum (k + 1) fun i => gmul (coef p i) (coef q (k - i)) := by
  unfold pmul
  split
  next h =>
    rw [Bool.or_eq_true, pzero_eq_true hp, pzero_eq_true hq] at h
    rw [xorSum_eq_zero]
    · simp
    · intro i _
      rcases h with rfl | rfl <;> simp
  next => rw [coef_strip, coef_convolve _ hq.1]

theorem pmuli_canonical {p : Poly} (hp : Canonical p) (k : Byte) : Canonical (pmuli p k) := by
  unfold pmuli
  split
  · exact canonical_zero
  split
  · exact hp
  · exact strip_canonical _

/-- Everything a multiple says (R158). -/
theorem coef_pmuli (p : Poly) (c : Byte) (k : Nat) : coef (pmuli p c) k = gmul (coef p k) c := by
  unfold pmuli
  split
  next h => rw [h]; simp
  split
  next h => rw [h]; simp
  next => rw [coef_strip, coef_map (by simp)]

theorem monomial_canonical (d : Nat) (c : Byte) : Canonical (monomial d c) := by
  unfold monomial
  split
  · exact canonical_zero
  next h => exact canonical_cons h _

theorem coef_monomial (d : Nat) (c : Byte) (k : Nat) : coef (monomial d c) k = if k = d then c else 0 := by
  unfold monomial
  split
  next h => subst h; simp
  next h => rw [coef_cons, List.length_replicate, coef_replicate_zero]

theorem pmulm_canonical (p : Poly) (d : Nat) (c : Byte) : Canonical (pmulm p d c) := by
  unfold pmulm
  split
  · exact canonical_zero
  · exact strip_canonical _

/-- Everything a product with a monomial says (R159). -/
theorem coef_pmulm {p : Poly} (hp : Canonical p) (d : Nat) (c : Byte) (k : Nat) :
    coef (pmulm p d c) k = if k < d then 0 else gmul (coef p (k - d)) c := by
  unfold pmulm
  split
  next h =>
    rw [Bool.or_eq_true, decide_eq_true_eq, pzero_eq_true hp] at h
    rcases h with rfl | rfl <;> simp
  next =>
    rw [coef_strip, coef_append, List.length_replicate, coef_replicate_zero, coef_map (by simp)]

/-! ## Values -/

theorem horner_eq (x r : Byte) (p : List Byte) : horner x r p = p.foldl (fun r c => gmul x r ^^^ c) r := rfl

theorem valueAt_cons (a : Byte) (p : List Byte) (x : Byte) : valueAt (a :: p) x = horner x a p := by
  simp [valueAt, horner]

theorem valueAt_append (p : List Byte) (c x : Byte) : valueAt (p ++ [c]) x = gmul x (valueAt p x) ^^^ c := by
  simp [valueAt, horner]

@[simp] theorem valueAt_zero_cons (p : List Byte) (x : Byte) : valueAt (0#8 :: p) x = valueAt p x := by
  rw [valueAt_cons]; rfl

@[simp] theorem valueAt_strip (p : List Byte) (x : Byte) : valueAt (strip p) x = valueAt p x := by
  induction p with
  | nil => simp [valueAt, horner]
  | cons b p ih =>
    by_cases hb : b = 0
    · subst hb; rw [show (0 : Byte) = 0#8 from rfl, strip_cons_zero, ih, valueAt_zero_cons]
    · rw [strip_cons hb]

/-- The two fast paths of R155 answer what the loop does. -/
theorem peval_eq_valueAt {p : Poly} (hp : p ≠ []) (x : Byte) : peval p x = valueAt p x := by
  unfold peval
  split
  next h =>
    subst h
    obtain ⟨q, c, rfl⟩ := List.eq_nil_or_concat p |>.resolve_left hp
    rw [List.concat_eq_append, valueAt_append]
    simp
  split
  next h =>
    subst h
    unfold valueAt horner
    congr 1
    funext r c
    simp
  next =>
    cases p with
    | nil => exact absurd rfl hp
    | cons a p => rw [valueAt_cons]; rfl

end Sys2Proof.Machine
end

