-- ==== Sys2Proof/Laws/ReedSolomon.lean ====
section
/-! SUPPORT. What the division, the stages of the Reed–Solomon decoder and its sequence can answer, each said once. -/

namespace Sys2Proof.Machine

/-- A division that answers has a divisor that is not zero, and runs its loop with the inverse of the leading
coefficient. -/
theorem pdiv_eq_ok {p q : Poly} {r : Poly × Poly} :
    pdiv p q = .ok r ↔ pzero q = false ∧ ∃ dinv, ginv (q.headD 0) = .ok dinv ∧ r = divLoop q dinv p.length [0] p := by
  unfold pdiv
  cases hz : pzero q <;> cases hi : ginv (q.headD 0) <;> simp [eq_comm]

/-- A division faults only if the divisor is zero. -/
theorem pdiv_error {p q : Poly} {c : Cause} (h : pdiv p q = .error c) : pzero q = true ∧ c = .divByZeroPoly := by
  unfold pdiv at h
  cases hz : pzero q with
  | true => simp [hz] at h; exact ⟨rfl, h.symm⟩
  | false =>
    have hq : q.headD 0 ≠ 0 := by simpa [pzero] using hz
    obtain ⟨r, hr⟩ := exists_ginv hq
    simp only [hz, hr, Bool.false_eq_true, if_false] at h
    cases h

/-- One pass of the loop, or its exit. -/
theorem divLoop_succ (q : Poly) (dinv : Byte) (n : Nat) (quo rem : Poly) :
    (pdeg q ≤ pdeg rem ∧ pzero rem = false ∧ divLoop q dinv (n + 1) quo rem =
      divLoop q dinv n (padd quo (monomial (pdeg rem - pdeg q) (gmul (rem.headD 0) dinv)))
        (padd rem (pmulm q (pdeg rem - pdeg q) (gmul (rem.headD 0) dinv)))) ∨
    (¬ (pdeg q ≤ pdeg rem ∧ pzero rem = false) ∧ divLoop q dinv (n + 1) quo rem = (quo, rem)) := by
  by_cases h : pdeg q ≤ pdeg rem ∧ pzero rem = false
  · exact .inl ⟨h.1, h.2, by rw [divLoop, if_pos h]⟩
  · exact .inr ⟨h, by rw [divLoop, if_neg h]⟩

/-- One pass of the Euclid loop (R183): a division, and the temporaries shifted. -/
theorem euclidPass_eq_ok {e e' : EuclidRegs} :
    euclidPass e = .ok e' ↔
      ∃ q r, pdiv e.rLast e.r = .ok (q, r) ∧ e' = ⟨e.r, r, e.t, padd (pmul q e.t) e.tLast, q⟩ := by
  unfold euclidPass
  rcases pdiv e.rLast e.r with c | ⟨q, r⟩ <;> simp [eq_comm]

/-- The Euclid loop with a pass left: its exit, or a pass and the rest. -/
theorem euclidLoop_succ {twoS n : Nat} {e e' : EuclidRegs} :
    euclidLoop twoS (n + 1) e = .ok e' ↔
      (2 * pdeg e.r < twoS ∧ e' = e) ∨
      (twoS ≤ 2 * pdeg e.r ∧ ∃ m, euclidPass e = .ok m ∧ euclidLoop twoS n m = .ok e') := by
  rw [euclidLoop]
  by_cases h : twoS ≤ 2 * pdeg e.r
  · have h' : ¬ 2 * pdeg e.r < twoS := by omega
    rw [if_pos h]
    cases hp : euclidPass e <;> simp [h, h']
  · have h' : 2 * pdeg e.r < twoS := by omega
    rw [if_neg h]
    simp [h, h', eq_comm]

/-- The Euclid stage answers exactly if its argument is legal, its loop ends and the constant term found is not zero
(R183). -/
theorem rsEuclid_eq_ok {spoly : Poly} {twoS : Nat} {e : EuclidRegs} {sigma omega : Poly} :
    rsEuclid spoly twoS = .ok (e, sigma, omega) ↔
      pdeg spoly < twoS ∧ euclidLoop twoS spoly.length (euclidStart spoly twoS) = .ok e ∧
        ∃ inv, ginv (pcoef e.t 0) = .ok inv ∧ sigma = pmuli e.t inv ∧ omega = pmuli e.r inv := by
  unfold rsEuclid
  by_cases ha : twoS = 0 ∨ twoS ≤ pdeg spoly
  · rw [if_pos ha]
    constructor
    · intro h; cases h
    · rintro ⟨h, -⟩; omega
  · rw [if_neg ha]
    have ha' : pdeg spoly < twoS := by omega
    cases hl : euclidLoop twoS spoly.length (euclidStart spoly twoS) with
    | error c => simp
    | ok e' =>
      by_cases h0 : pcoef e'.t 0 = 0
      · simp only [h0, if_true]
        constructor
        · intro h; cases h
        · rintro ⟨-, he, inv, hi, -⟩
          cases he
          rw [h0] at hi
          cases hi
      · obtain ⟨inv, hi⟩ := exists_ginv h0
        simp only [h0, if_false, hi, ha', true_and]
        constructor
        · intro h
          cases h
          exact ⟨rfl, inv, hi, rfl, rfl⟩
        · rintro ⟨he, inv', hi', rfl, rfl⟩
          cases he
          rw [hi] at hi'
          cases hi'
          rfl

/-- The Chien stage answers the locators it finds exactly if there are as many as the degree (R185). -/
theorem rsChien_eq_ok {sigma : Poly} {xloc : List Byte} :
    rsChien sigma = .ok xloc ↔ (chienLocators sigma).length = pdeg sigma ∧ xloc = chienLocators sigma := by
  unfold rsChien
  by_cases h : (chienLocators sigma).length = pdeg sigma <;> simp [h, eq_comm]

theorem rsChien_error {sigma : Poly} {c : Cause} (h : rsChien sigma = .error c) :
    c = .rootCount ∧ (chienLocators sigma).length ≠ pdeg sigma := by
  unfold rsChien at h
  by_cases hl : (chienLocators sigma).length = pdeg sigma
  · simp [hl] at h
  · simp [hl] at h
    exact ⟨h.symm, hl⟩

/-- The Forney stage on one locator more (R187). -/
theorem forneyFrom_cons_eq_ok {d omega : Poly} {x : Byte} {xs emag : List Byte} :
    forneyFrom d omega (x :: xs) = .ok emag ↔
      ∃ xi dinv es, ginv x = .ok xi ∧ ginv (peval d xi) = .ok dinv ∧ forneyFrom d omega xs = .ok es ∧
        emag = gmul x (gmul (peval omega xi) dinv) :: es := by
  rw [forneyFrom]
  cases hx : ginv x with
  | error c => simp
  | ok xi =>
    simp only [Except.ok.injEq, exists_and_left, exists_eq_left']
    by_cases hd : peval d xi = 0
    · simp only [hd, if_true]
      constructor
      · intro h; cases h
      · rintro ⟨dinv, hi, -⟩; cases hi
    · obtain ⟨dinv, hi⟩ := exists_ginv hd
      simp only [hd, if_false, hi]
      cases forneyFrom d omega xs <;> simp [eq_comm]

/-- The Forney stage faults at a locator 0 or at a denominator 0, and nowhere else (R187). -/
theorem forneyFrom_error {d omega : Poly} {xs : List Byte} {c : Cause} (h : forneyFrom d omega xs = .error c) :
    c = .gfInvZero ∨ c = .zeroDenom := by
  induction xs with
  | nil => cases h
  | cons x xs ih =>
    rw [forneyFrom] at h
    cases hx : ginv x with
    | error c' =>
      rw [hx] at h
      cases h
      left
      by_cases h0 : x = 0
      · subst h0; cases hx; rfl
      · obtain ⟨r, hr⟩ := exists_ginv h0; rw [hr] at hx; cases hx
    | ok xi =>
      rw [hx] at h
      by_cases hd : peval d xi = 0
      · simp only [hd, if_true] at h; cases h; exact .inr rfl
      · obtain ⟨dinv, hi⟩ := exists_ginv hd
        simp only [hd, if_false, hi] at h
        cases hf : forneyFrom d omega xs with
        | error c' => rw [hf] at h; cases h; exact ih hf
        | ok es => rw [hf] at h; cases h

/-- The positions on one locator more (R188, R189). -/
theorem rsPositions_cons_eq_ok {n : Nat} {x : Byte} {xs : List Byte} {ps : List Int} :
    rsPositions n (x :: xs) = .ok ps ↔
      ∃ l qs, glog x = .ok l ∧ l < n ∧ rsPositions n xs = .ok qs ∧ ps = ((n : Int) - 1 - l) :: qs := by
  rw [rsPositions]
  cases hx : glog x with
  | error c => simp
  | ok l =>
    by_cases hl : (n : Int) - 1 - l < 0
    · have : ¬ l < n := by omega
      simp [hl, this]
    · have : l < n := by omega
      cases rsPositions n xs <;> simp [hl, this, eq_comm]

@[simp] theorem stageSyn_work (received : List Byte) (twoS : Nat) (w : Work) :
    stageSyn received twoS w =
      { w with rx := received, twos := twoS, syn := (rsSyn received twoS).1, spoly := (rsSyn received twoS).2 } := rfl

theorem stageEuclid_eq_ok {w v : Work} : stageEuclid w = .ok v ↔
    ∃ e sigma omega, rsEuclid w.spoly w.twos = .ok (e, sigma, omega) ∧
      v = { w with euclid := e, sigma := sigma, omega := omega } := by
  unfold stageEuclid
  rcases rsEuclid w.spoly w.twos with c | ⟨e, sigma, omega⟩ <;> simp [eq_comm]

theorem stageChien_eq_ok {w v : Work} :
    stageChien w = .ok v ↔ ∃ xloc, rsChien w.sigma = .ok xloc ∧ v = { w with xloc := xloc } := by
  unfold stageChien
  rcases rsChien w.sigma with c | xloc <;> simp [eq_comm]

theorem stageForney_eq_ok {w v : Work} : stageForney w = .ok v ↔
    ∃ emag, rsForney w.sigma w.omega w.xloc = .ok emag ∧ v = { w with emag := emag } := by
  unfold stageForney
  rcases rsForney w.sigma w.omega w.xloc with c | emag <;> simp [eq_comm]

theorem stagePositions_eq_ok {w v : Work} : stagePositions w = .ok v ↔
    ∃ epos, rsPositions w.rx.length w.xloc = .ok epos ∧ v = { w with epos := epos } := by
  unfold stagePositions
  rcases rsPositions w.rx.length w.xloc with c | epos <;> simp [eq_comm]

/-- The decoder answers the vector as it is if every syndrome is zero, and else what the stages correct (R189). -/
theorem rsDecode_eq_ok {received out : List Byte} {twoS : Nat} {w v : Work} :
    rsDecode received twoS w = .ok (v, out) ↔
      ((rsSyn received twoS).1.all (· == 0) = true ∧ v = stageSyn received twoS w ∧ out = received) ∨
      ((rsSyn received twoS).1.all (· == 0) = false ∧ correctStages (stageSyn received twoS w) = .ok v ∧
        out = correctedOf v) := by
  unfold rsDecode
  simp only
  cases h : (rsSyn received twoS).1.all (· == 0) with
  | true => simp only [stageSyn, h, if_true]; simp [eq_comm]
  | false =>
    simp only [stageSyn, h, Bool.false_eq_true, if_false]
    rcases correctStages { w with rx := received, twos := twoS, syn := (rsSyn received twoS).1, spoly := (rsSyn received twoS).2 }
      with c | u
    · simp
    · simp only [Except.ok.injEq, Prod.mk.injEq]
      constructor
      · rintro ⟨rfl, rfl⟩; simp
      · rintro (⟨h, -⟩ | ⟨-, rfl, rfl⟩)
        · cases h
        · exact ⟨rfl, rfl⟩

/-- XORing errors into a vector keeps its length. -/
@[simp] theorem applyErrors_length (out : List Byte) (errors : List (Int × Byte)) :
    (applyErrors out errors).length = out.length := by
  unfold applyErrors
  induction errors generalizing out with
  | nil => rfl
  | cons e es ih => rw [List.foldl_cons, ih, List.length_modify]

end Sys2Proof.Machine
end

