-- ==== Sys2Proof/Laws/Segments.lean ====
section
/-! SUPPORT. The readers of Machine/SegmentBody.lean: where each leaves the cursor, which causes each can raise, and
what one read answers of a stream whose bits are given. -/

namespace Sys2Proof.Machine

open Sys2Proof.Config

/-! ## Where a reader leaves the cursor -/

/-- The cursor `b'` is `b` moved on by bits that were available. -/
def Advances (b b' : BitBuffer) : Prop := ∃ n ≤ b.avail, b' = b.skip n

theorem Advances.refl (b : BitBuffer) : Advances b b := ⟨0, Nat.zero_le _, rfl⟩

theorem Advances.trans {a b c : BitBuffer} (ha : a.Wf) (h1 : Advances a b) (h2 : Advances b c) : Advances a c := by
  obtain ⟨m, hm, rfl⟩ := h1
  obtain ⟨n, hn, rfl⟩ := h2
  rw [BitBuffer.skip_avail ha hm] at hn
  exact ⟨m + n, by omega, BitBuffer.skip_add.symm⟩

/-- Moving on keeps the bytes and the invariant of R231, and does not go back. -/
theorem Advances.cursor {b b' : BitBuffer} (hb : b.Wf) (h : Advances b b') :
    b'.Wf ∧ b'.bbuf = b.bbuf ∧ b.pos ≤ b'.pos ∧ b'.avail ≤ b.avail := by
  obtain ⟨n, hn, rfl⟩ := h
  obtain ⟨h1, h2, h3⟩ := BitBuffer.take_cursor 0 hb hn
  exact ⟨h1, BitBuffer.skip_bbuf n b, by rw [BitBuffer.skip, h2]; omega, by rw [BitBuffer.skip, h3]; omega⟩

theorem read_advances {n : Int} {b b' : BitBuffer} {v : Nat} (h : b.read n = .ok (v, b')) : Advances b b' := by
  obtain ⟨h1, -, h2, hr⟩ := BitBuffer.read_eq_ok.1 h
  exact ⟨n.toNat, by omega, congrArg Prod.snd hr⟩

/-- A read can fault only in the three ways of R234. -/
theorem read_error {n : Int} {b : BitBuffer} {c : Cause} (h : b.read n = .error c) :
    (c = .bbNeg ∧ n < 0) ∨ (c = .bbWidth ∧ (n = 0 ∨ 32 < n)) ∨ (c = .bbUnderrun ∧ b.avail < n) := by
  unfold BitBuffer.read at h
  split at h
  next h1 => cases h; exact .inl ⟨rfl, h1⟩
  split at h
  next h1 => cases h; exact .inr (.inl ⟨rfl, h1⟩)
  split at h
  next h1 => cases h; exact .inr (.inr ⟨rfl, h1⟩)
  · cases h

/-- A read of a width in 1..32 can only underrun. -/
theorem read_underrun {n : Nat} {b : BitBuffer} {c : Cause} (h1 : 1 ≤ n) (h32 : n ≤ 32) (h : b.read n = .error c) :
    c = .bbUnderrun ∧ b.avail < n := by
  rcases read_error h with ⟨-, h⟩ | ⟨-, h⟩ | ⟨h, h'⟩
  · omega
  · omega
  · exact ⟨h, by omega⟩

theorem readBelow_advances {n bound : Nat} {cause : Cause} {b b' : BitBuffer} {v : Nat}
    (h : readBelow n bound cause b = .ok (v, b')) : Advances b b' := by
  unfold readBelow at h
  split at h
  · cases h
  next hr =>
    split at h
    · cases h
    · cases h; exact read_advances hr

theorem readBelow_error {n bound : Nat} {cause c : Cause} {b : BitBuffer} (h1 : 1 ≤ n) (h32 : n ≤ 32)
    (h : readBelow n bound cause b = .error c) : c = .bbUnderrun ∨ c = cause := by
  unfold readBelow at h
  split at h
  next hr => cases h; exact .inl (read_underrun h1 h32 hr).1
  next =>
    split at h
    · cases h; exact .inr rfl
    · cases h

/-! ## Peeling a sequence of reads -/

theorem bind_ok {ε α β : Type} {x : Except ε α} {f : α → Except ε β} {r : β} (h : (x >>= f) = .ok r) :
    ∃ a, x = .ok a ∧ f a = .ok r := by
  cases x with
  | error e => cases h
  | ok a => exact ⟨a, rfl, h⟩

theorem bind_error {ε α β : Type} {x : Except ε α} {f : α → Except ε β} {e : ε} (h : (x >>= f) = .error e) :
    x = .error e ∨ ∃ a, x = .ok a ∧ f a = .error e := by
  cases x with
  | error e' => cases h; exact .inl rfl
  | ok a => exact .inr ⟨a, rfl, h⟩

theorem readTriples_advances {n : Nat} {b b' : BitBuffer} {t : List Byte} (hb : b.Wf)
    (h : readTriples n b = .ok (t, b')) : Advances b b' := by
  induction n generalizing b t with
  | zero => cases h; exact .refl _
  | succ n ih =>
    obtain ⟨⟨v, b1⟩, h1, h⟩ := bind_ok h
    obtain ⟨⟨s, b2⟩, h2, h⟩ := bind_ok h
    cases h
    have a1 := readBelow_advances h1
    exact a1.trans hb (ih (a1.cursor hb).1 h2)

theorem readTriples_error {n : Nat} {b : BitBuffer} {c : Cause} (h : readTriples n b = .error c) :
    c = .bbUnderrun ∨ c = .numValue := by
  induction n generalizing b with
  | zero => cases h
  | succ n ih =>
    rcases bind_error h with h | ⟨⟨v, b1⟩, -, h⟩
    · exact readBelow_error (by decide) (by decide) h
    rcases bind_error h with h | ⟨⟨s, b2⟩, -, h⟩
    · exact ih h
    · cases h

theorem readDigitTail_advances {n : Nat} {b b' : BitBuffer} {t : List Byte}
    (h : readDigitTail n b = .ok (t, b')) : Advances b b' := by
  unfold readDigitTail at h
  split at h
  · obtain ⟨⟨v, b1⟩, h1, h⟩ := bind_ok h
    cases h; exact readBelow_advances h1
  · obtain ⟨⟨v, b1⟩, h1, h⟩ := bind_ok h
    cases h; exact readBelow_advances h1
  · cases h; exact .refl _

theorem readDigitTail_error {n : Nat} {b : BitBuffer} {c : Cause} (h : readDigitTail n b = .error c) :
    c = .bbUnderrun ∨ c = .numValue := by
  unfold readDigitTail at h
  split at h
  · rcases bind_error h with h | ⟨⟨v, b1⟩, -, h⟩
    · exact readBelow_error (by decide) (by decide) h
    · cases h
  · rcases bind_error h with h | ⟨⟨v, b1⟩, -, h⟩
    · exact readBelow_error (by decide) (by decide) h
    · cases h
  · cases h

/-- The count widths of R253 are legal read widths. -/
theorem numericWidth_range (ver : Nat) : 1 ≤ numericWidth ver ∧ numericWidth ver ≤ 32 := by
  unfold numericWidth byVersion; split <;> (try split) <;> omega

theorem alphanumericWidth_range (ver : Nat) : 1 ≤ alphanumericWidth ver ∧ alphanumericWidth ver ≤ 32 := by
  unfold alphanumericWidth byVersion; split <;> (try split) <;> omega

theorem byteWidth_range (ver : Nat) : 1 ≤ byteWidth ver ∧ byteWidth ver ≤ 32 := by
  unfold byteWidth byVersion; split <;> (try split) <;> omega

theorem kanjiWidth_range (ver : Nat) : 1 ≤ kanjiWidth ver ∧ kanjiWidth ver ≤ 32 := by
  unfold kanjiWidth byVersion; split <;> (try split) <;> omega

theorem readNumeric_advances {ver : Nat} {b b' : BitBuffer} {t : List Byte} (hb : b.Wf)
    (h : readNumeric ver b = .ok (t, b')) : Advances b b' := by
  obtain ⟨⟨count, b1⟩, h1, h⟩ := bind_ok h
  obtain ⟨⟨s, b2⟩, h2, h⟩ := bind_ok h
  obtain ⟨⟨u, b3⟩, h3, h⟩ := bind_ok h
  cases h
  have a1 := read_advances h1
  have a2 := readTriples_advances (a1.cursor hb).1 h2
  exact (a1.trans hb a2).trans hb (readDigitTail_advances h3)

theorem readNumeric_error {ver : Nat} {b : BitBuffer} {c : Cause} (h : readNumeric ver b = .error c) :
    c = .bbUnderrun ∨ c = .numValue := by
  rcases bind_error h with h | ⟨⟨count, b1⟩, -, h⟩
  · exact .inl (read_underrun (numericWidth_range ver).1 (numericWidth_range ver).2 h).1
  rcases bind_error h with h | ⟨⟨s, b2⟩, -, h⟩
  · exact readTriples_error h
  rcases bind_error h with h | ⟨⟨u, b3⟩, -, h⟩
  · exact readDigitTail_error h
  · cases h

theorem readPairs_advances {n : Nat} {b b' : BitBuffer} {t : List Byte} (hb : b.Wf)
    (h : readPairs n b = .ok (t, b')) : Advances b b' := by
  induction n generalizing b t with
  | zero => cases h; exact .refl _
  | succ n ih =>
    obtain ⟨⟨v, b1⟩, h1, h⟩ := bind_ok h
    obtain ⟨⟨s, b2⟩, h2, h⟩ := bind_ok h
    cases h
    have a1 := readBelow_advances h1
    exact a1.trans hb (ih (a1.cursor hb).1 h2)

theorem readPairs_error {n : Nat} {b : BitBuffer} {c : Cause} (h : readPairs n b = .error c) :
    c = .bbUnderrun ∨ c = .alnumValue := by
  induction n generalizing b with
  | zero => cases h
  | succ n ih =>
    rcases bind_error h with h | ⟨⟨v, b1⟩, -, h⟩
    · exact readBelow_error (by decide) (by decide) h
    rcases bind_error h with h | ⟨⟨s, b2⟩, -, h⟩
    · exact ih h
    · cases h

theorem readAlphanumeric_advances {ver : Nat} {b b' : BitBuffer} {t : List Byte} (hb : b.Wf)
    (h : readAlphanumeric ver b = .ok (t, b')) : Advances b b' := by
  obtain ⟨⟨count, b1⟩, h1, h⟩ := bind_ok h
  obtain ⟨⟨s, b2⟩, h2, h⟩ := bind_ok h
  obtain ⟨⟨u, b3⟩, h3, h⟩ := bind_ok h
  cases h
  have a1 := read_advances h1
  have a2 := readPairs_advances (a1.cursor hb).1 h2
  refine (a1.trans hb a2).trans hb ?_
  unfold readCharTail at h3
  split at h3
  · obtain ⟨⟨v, b4⟩, h4, h3⟩ := bind_ok h3
    cases h3; exact readBelow_advances h4
  · cases h3; exact .refl _

theorem readAlphanumeric_error {ver : Nat} {b : BitBuffer} {c : Cause} (h : readAlphanumeric ver b = .error c) :
    c = .bbUnderrun ∨ c = .alnumValue := by
  rcases bind_error h with h | ⟨⟨count, b1⟩, -, h⟩
  · exact .inl (read_underrun (alphanumericWidth_range ver).1 (alphanumericWidth_range ver).2 h).1
  rcases bind_error h with h | ⟨⟨s, b2⟩, -, h⟩
  · exact readPairs_error h
  rcases bind_error h with h | ⟨⟨u, b3⟩, -, h⟩
  · unfold readCharTail at h
    split at h
    · rcases bind_error h with h | ⟨⟨v, b4⟩, -, h⟩
      · exact readBelow_error (by decide) (by decide) h
      · cases h
    · cases h
  · cases h

theorem readBytes_advances {n : Nat} {b b' : BitBuffer} {t : List Byte} (hb : b.Wf)
    (h : readBytes n b = .ok (t, b')) : Advances b b' := by
  induction n generalizing b t with
  | zero => cases h; exact .refl _
  | succ n ih =>
    obtain ⟨⟨v, b1⟩, h1, h⟩ := bind_ok h
    obtain ⟨⟨s, b2⟩, h2, h⟩ := bind_ok h
    cases h
    have a1 := read_advances h1
    exact a1.trans hb (ih (a1.cursor hb).1 h2)

theorem readBytes_error {n : Nat} {b : BitBuffer} {c : Cause} (h : readBytes n b = .error c) : c = .bbUnderrun := by
  induction n generalizing b with
  | zero => cases h
  | succ n ih =>
    rcases bind_error h with h | ⟨⟨v, b1⟩, -, h⟩
    · exact (read_underrun (n := 8) (by decide) (by decide) h).1
    rcases bind_error h with h | ⟨⟨s, b2⟩, -, h⟩
    · exact ih h
    · cases h

theorem readByteSegment_advances {ver : Nat} {b b' : BitBuffer} {t : List Byte} (hb : b.Wf)
    (h : readByteSegment ver b = .ok (t, b')) : Advances b b' := by
  obtain ⟨⟨count, b1⟩, h1, h⟩ := bind_ok h
  have a1 := read_advances h1
  exact a1.trans hb (readBytes_advances (a1.cursor hb).1 h)

theorem readByteSegment_error {ver : Nat} {b : BitBuffer} {c : Cause} (h : readByteSegment ver b = .error c) :
    c = .bbUnderrun := by
  rcases bind_error h with h | ⟨⟨count, b1⟩, -, h⟩
  · exact (read_underrun (byteWidth_range ver).1 (byteWidth_range ver).2 h).1
  · exact readBytes_error h

theorem readUnits_advances {cfg : Params} {n : Nat} {b b' : BitBuffer} {t : List Byte} (hb : b.Wf)
    (h : readUnits cfg n b = .ok (t, b')) : Advances b b' := by
  induction n generalizing b t with
  | zero => cases h; exact .refl _
  | succ n ih =>
    obtain ⟨⟨v, b1⟩, h1, h⟩ := bind_ok h
    obtain ⟨⟨s, b2⟩, h2, h⟩ := bind_ok h
    cases h
    have a1 := read_advances h1
    exact a1.trans hb (ih (a1.cursor hb).1 h2)

theorem readUnits_error {cfg : Params} {n : Nat} {b : BitBuffer} {c : Cause} (h : readUnits cfg n b = .error c) :
    c = .bbUnderrun := by
  induction n generalizing b with
  | zero => cases h
  | succ n ih =>
    rcases bind_error h with h | ⟨⟨v, b1⟩, -, h⟩
    · exact (read_underrun (n := 13) (by decide) (by decide) h).1
    rcases bind_error h with h | ⟨⟨s, b2⟩, -, h⟩
    · exact ih h
    · cases h

theorem readKanji_advances {cfg : Params} {ver : Nat} {b b' : BitBuffer} {t : List Byte} (hb : b.Wf)
    (h : readKanji cfg ver b = .ok (t, b')) : Advances b b' := by
  obtain ⟨⟨count, b1⟩, h1, h⟩ := bind_ok h
  have a1 := read_advances h1
  exact a1.trans hb (readUnits_advances (a1.cursor hb).1 h)

theorem readKanji_error {cfg : Params} {ver : Nat} {b : BitBuffer} {c : Cause} (h : readKanji cfg ver b = .error c) :
    c = .bbUnderrun := by
  rcases bind_error h with h | ⟨⟨count, b1⟩, -, h⟩
  · exact (read_underrun (kanjiWidth_range ver).1 (kanjiWidth_range ver).2 h).1
  · exact readUnits_error h

theorem readAppendPair_advances {b b' : BitBuffer} {r : Byte × Byte} (hb : b.Wf)
    (h : readAppendPair b = .ok (r, b')) : Advances b b' := by
  unfold readAppendPair at h
  split at h
  · cases h
  · obtain ⟨⟨v, b1⟩, h1, h⟩ := bind_ok h
    obtain ⟨⟨w, b2⟩, h2, h⟩ := bind_ok h
    cases h
    exact (read_advances h1).trans hb (read_advances h2)

theorem readDesignator_advances {b b' : BitBuffer} {id : Nat} (hb : b.Wf)
    (h : readDesignator b = .ok (id, b')) : Advances b b' := by
  obtain ⟨⟨v, b1⟩, h1, h⟩ := bind_ok h
  have a1 := read_advances h1
  dsimp only at h
  split at h
  · cases h; exact a1
  split at h
  · obtain ⟨⟨w, b2⟩, h2, h⟩ := bind_ok h
    cases h; exact a1.trans hb (read_advances h2)
  split at h
  · obtain ⟨⟨w, b2⟩, h2, h⟩ := bind_ok h
    cases h; exact a1.trans hb (read_advances h2)
  · cases h

theorem readDesignator_error {b : BitBuffer} {c : Cause} (h : readDesignator b = .error c) :
    c = .bbUnderrun ∨ c = .badEciHeader := by
  rcases bind_error h with h | ⟨⟨v, b1⟩, -, h⟩
  · exact .inl (read_underrun (n := 8) (by decide) (by decide) h).1
  dsimp only at h
  split at h
  · cases h
  split at h
  · rcases bind_error h with h | ⟨⟨w, b2⟩, -, h⟩
    · exact .inl (read_underrun (n := 8) (by decide) (by decide) h).1
    · cases h
  split at h
  · rcases bind_error h with h | ⟨⟨w, b2⟩, -, h⟩
    · exact .inl (read_underrun (n := 16) (by decide) (by decide) h).1
    · cases h
  · cases h; exact .inr rfl

/-- What the ECI record of an id can be (R249). -/
theorem eciRecord_ok {cfg : Params} {id : Nat} {r : EciRecord} (h : eciRecord cfg id = .ok r) :
    id ≤ 999999 ∧ r = ⟨id, eciName cfg id⟩ := by
  unfold eciRecord at h
  split at h
  · cases h
  next hid => cases h; exact ⟨by omega, rfl⟩

theorem eciRecord_error {cfg : Params} {id : Nat} {c : Cause} (h : eciRecord cfg id = .error c) :
    c = .eciRange ∧ 999999 < id := by
  unfold eciRecord at h
  split at h
  next hid => cases h; exact ⟨rfl, hid⟩
  · cases h

/-! ## Reads of a given stream -/

namespace StreamAt

theorem avail {b : BitBuffer} {bits : List Bool} (hb : b.Wf) (h : StreamAt b bits) : bits.length ≤ b.avail := by
  have := BitBuffer.window_length (n := bits.length) hb
  rw [h] at this
  omega

/-- A stream in two parts: the first, and the second from where the first ends. -/
theorem split {b : BitBuffer} {bits more : List Bool} (hb : b.Wf) (h : StreamAt b (bits ++ more)) :
    StreamAt b bits ∧ StreamAt (b.skip bits.length) more ∧ (b.skip bits.length).Wf := by
  have ha := avail hb h
  rw [List.length_append] at ha
  have hw : b.window (bits ++ more).length = bits ++ more := h
  rw [List.length_append, BitBuffer.window_add hb (by omega)] at hw
  have hl : (b.window bits.length).length = bits.length := by
    rw [BitBuffer.window_length hb]; omega
  obtain ⟨h1, h2⟩ := List.append_inj hw hl
  exact ⟨h1, h2, BitBuffer.skip_wf hb (by omega)⟩

/-- One read of the first bits of a stream. -/
theorem read {b : BitBuffer} {bits : List Bool} (hb : b.Wf) (h : StreamAt b bits) (h1 : 1 ≤ bits.length)
    (h32 : bits.length ≤ 32) : b.read bits.length = .ok (natOfBits bits, b.skip bits.length) := by
  rw [BitBuffer.read_ok hb h1 h32 (avail hb h), show b.window bits.length = bits from h]

/-- One read of a number written in n bits, and the stream after it. -/
theorem read_number {b : BitBuffer} {n v : Nat} {more : List Bool} (hb : b.Wf) (h1 : 1 ≤ n) (h32 : n ≤ 32)
    (hv : v < 2 ^ n) (h : StreamAt b (bitsOfNat n v ++ more)) :
    b.read n = .ok (v, b.skip n) ∧ StreamAt (b.skip n) more ∧ (b.skip n).Wf := by
  obtain ⟨s1, s2, w⟩ := split hb h
  have hr := read hb s1 (by simpa using h1) (by simpa using h32)
  rw [bitsOfNat_length, natOfBits_bitsOfNat, Nat.mod_eq_of_lt hv] at hr
  rw [bitsOfNat_length] at s2 w
  exact ⟨hr, s2, w⟩

end StreamAt

end Sys2Proof.Machine
end

