-- ==== Sys2Proof/Laws/Step.lean ====
section
/-! SUPPORT. What a step fetches, each case said once. -/

namespace Sys2Proof.Machine

/-- With nothing sent, nothing is fetched (R324; log entry 6). -/
theorem fetch_idle_nil {s : State} (h : s.activity = .idle) (hs : s.script = []) : fetch s = .over s := by
  simp [fetch, fetchCommand, h, hs]

/-- A reset between commands (R340). -/
theorem fetch_idle_reset {s : State} {rest : List HostAction} (h : s.activity = .idle) (hs : s.script = .reset :: rest) :
    fetch s = .over (resetEngine { s with script := rest }) := by
  simp [fetch, fetchCommand, h, hs]

/-- A packet (R91). -/
theorem fetch_idle_packet {s : State} {bytes : List Byte} {rest : List HostAction} (h : s.activity = .idle)
    (hs : s.script = .packet bytes :: rest) : fetch s = fetchPacket bytes { s with script := rest } := by
  simp [fetch, fetchCommand, h, hs]

/-- A packet decodes, or faults (R99, R100). -/
theorem fetchPacket_cases (bytes : List Byte) (s : State) :
    (∃ i, decodePacket bytes = .ok i ∧ fetchPacket bytes s = .run i s) ∨
    (∃ r, decodePacket bytes = .error r ∧ fetchPacket bytes s = .over (takeFault (rejectCause r) s)) := by
  unfold fetchPacket
  cases decodePacket bytes <;> simp

/-- Inside a run the next instruction is in the stream (R241). -/
theorem fetch_run {s : State} (h : s.activity ≠ .idle) : fetch s = fetchSegment s := by
  unfold fetch
  split
  · next ha => exact absurd ha h
  · rfl
  · rfl

/-- A row stands at the cursor, or the stream is over (R241). -/
theorem fetchSegment_cases (s : State) :
    (∃ i width, decodeSegment (s.bb.window longestRow) = .ok (i, width) ∧
      fetchSegment s = .run i { s with bb := s.bb.skip width }) ∨
    (∃ r, decodeSegment (s.bb.window longestRow) = .error r ∧ fetchSegment s = .over (endRun s)) := by
  unfold fetchSegment
  rcases decodeSegment (s.bb.window longestRow) with r | ⟨i, width⟩
  · exact .inr ⟨r, rfl, rfl⟩
  · exact .inl ⟨i, width, rfl, rfl⟩

end Sys2Proof.Machine
end

