-- ==== Sys2Proof/Tests/Slice0.lean ====
section
/-! SUPPORT. Tests of the model: ill-formed terms, a written-out word for every constructor, one or two steps for
each instruction with the results of spec/95_test_vectors.md, and for every obligation with hypotheses a witness that
meets them. -/

namespace Sys2Proof.Tests

set_option Elab.async false

open Sys2Proof.Machine

/-! ## Ill-formed terms (R97) -/

/-- One byte more than a field carries. -/
def tooLong : List Byte := List.replicate 65536 0

/-- The longest vector that a field carries. -/
def longest : List Byte := List.replicate 65535 0

theorem tooLong_unfit : ¬ FitsField tooLong := fun h =>
  absurd (List.length_replicate.symm.trans_le h : 65536 ≤ Config.lmax) (by decide)

theorem longest_fits : FitsField longest := le_of_eq List.length_replicate

theorem test_illformed_polyNew : ¬ WellFormed (.polyNew tooLong 0) := tooLong_unfit

theorem test_illformed_polyDeg : ¬ WellFormed (.polyDeg tooLong) := tooLong_unfit

theorem test_illformed_polyCoef : ¬ WellFormed (.polyCoef tooLong 0) := tooLong_unfit

theorem test_illformed_polyIsZero : ¬ WellFormed (.polyIsZero tooLong) := tooLong_unfit

theorem test_illformed_polyEval : ¬ WellFormed (.polyEval tooLong 0) := tooLong_unfit

theorem test_illformed_polyMulI : ¬ WellFormed (.polyMulI tooLong 0) := tooLong_unfit

theorem test_illformed_polyMulM : ¬ WellFormed (.polyMulM tooLong 0 0) := tooLong_unfit

theorem test_illformed_rsSyn : ¬ WellFormed (.rsSyn tooLong 0) := tooLong_unfit

theorem test_illformed_rsEuclid : ¬ WellFormed (.rsEuclid tooLong 0) := tooLong_unfit

theorem test_illformed_rsChien : ¬ WellFormed (.rsChien tooLong) := tooLong_unfit

theorem test_illformed_rsDecode : ¬ WellFormed (.rsDecode tooLong 0) := tooLong_unfit

theorem test_illformed_deint : ¬ WellFormed (.deint 1 0 tooLong) := tooLong_unfit

theorem test_illformed_bbLoad : ¬ WellFormed (.bbLoad tooLong) := tooLong_unfit

theorem test_illformed_segDecode : ¬ WellFormed (.segDecode 1 tooLong) := tooLong_unfit

theorem test_illformed_decode : ¬ WellFormed (.decode 1 0 tooLong) := tooLong_unfit

theorem test_illformed_polyAdd : ¬ WellFormed (.polyAdd tooLong [1]) ∧ ¬ WellFormed (.polyAdd [1] tooLong) :=
  ⟨fun h => tooLong_unfit h.1, fun h => tooLong_unfit h.2⟩

theorem test_illformed_polyMul : ¬ WellFormed (.polyMul tooLong [1]) ∧ ¬ WellFormed (.polyMul [1] tooLong) :=
  ⟨fun h => tooLong_unfit h.1, fun h => tooLong_unfit h.2⟩

theorem test_illformed_polyDiv : ¬ WellFormed (.polyDiv tooLong [1]) ∧ ¬ WellFormed (.polyDiv [1] tooLong) :=
  ⟨fun h => tooLong_unfit h.1, fun h => tooLong_unfit h.2⟩

theorem test_illformed_polyMod : ¬ WellFormed (.polyMod tooLong [1]) ∧ ¬ WellFormed (.polyMod [1] tooLong) :=
  ⟨fun h => tooLong_unfit h.1, fun h => tooLong_unfit h.2⟩

theorem test_illformed_rsForney : ¬ WellFormed (.rsForney tooLong [1] []) ∧ ¬ WellFormed (.rsForney [1] tooLong []) ∧
    ¬ WellFormed (.rsForney [1] [1] tooLong) :=
  ⟨fun h => tooLong_unfit h.1, fun h => tooLong_unfit h.2.1, fun h => tooLong_unfit h.2.2⟩

/-! ## A word for every constructor, written out from R92, R94, R95, R101 and R107 -/

/-- Bits written out, first-read bit first. -/
def bitsOf (s : String) : List Bool := s.toList.map (· == '1')

theorem test_word_gfAdd : decodePacket [0x10, 0x53, 0xCA] = .ok (.gfAdd 0x53 0xCA) := by decide

theorem test_word_gfMul : decodePacket [0x11, 0x02, 0x80] = .ok (.gfMul 2 0x80) := by decide

theorem test_word_gfInv : decodePacket [0x12, 0x53] = .ok (.gfInv 0x53) := by decide

theorem test_word_gfExp : decodePacket [0x13, 0x01, 0xFE] = .ok (.gfExp 510) := by decide

theorem test_word_gfLog : decodePacket [0x14, 0x1D] = .ok (.gfLog 0x1D) := by decide

theorem test_word_gfMono : decodePacket [0x15, 0xFF, 0xFF, 0x05] = .ok (.gfMono (-1) 5) := by decide

theorem test_word_polyNew :
    decodePacket [0x20, 0x00, 0x05, 0x00, 0x00, 0x03, 0x00, 0x05, 0x00, 0x02] =
      .ok (.polyNew [0, 0, 3, 0, 5] 2) := by decide

theorem test_word_polyDeg : decodePacket [0x21, 0x00, 0x03, 0x01, 0x02, 0x03] = .ok (.polyDeg [1, 2, 3]) := by decide

theorem test_word_polyCoef :
    decodePacket [0x22, 0x00, 0x03, 0x01, 0x02, 0x03, 0x00, 0x01] = .ok (.polyCoef [1, 2, 3] 1) := by decide

theorem test_word_polyIsZero : decodePacket [0x23, 0x00, 0x01, 0x00] = .ok (.polyIsZero [0]) := by decide

theorem test_word_polyEval :
    decodePacket [0x24, 0x00, 0x03, 0x01, 0x02, 0x03, 0x02] = .ok (.polyEval [1, 2, 3] 2) := by decide

theorem test_word_polyAdd :
    decodePacket [0x25, 0x00, 0x03, 0x01, 0x02, 0x03, 0x00, 0x02, 0x04, 0x05] =
      .ok (.polyAdd [1, 2, 3] [4, 5]) := by decide

theorem test_word_polyMul :
    decodePacket [0x26, 0x00, 0x03, 0x01, 0x02, 0x03, 0x00, 0x02, 0x04, 0x05] =
      .ok (.polyMul [1, 2, 3] [4, 5]) := by decide

theorem test_word_polyMulI :
    decodePacket [0x27, 0x00, 0x02, 0x80, 0x01, 0x02] = .ok (.polyMulI [0x80, 1] 2) := by decide

theorem test_word_polyMulM :
    decodePacket [0x28, 0x00, 0x03, 0x01, 0x02, 0x03, 0x00, 0x02, 0x03] = .ok (.polyMulM [1, 2, 3] 2 3) := by decide

theorem test_word_polyDiv :
    decodePacket [0x29, 0x00, 0x04, 0x12, 0x34, 0x56, 0x78, 0x00, 0x02, 0x02, 0x03] =
      .ok (.polyDiv [0x12, 0x34, 0x56, 0x78] [2, 3]) := by decide

theorem test_word_polyMod :
    decodePacket [0x2A, 0x00, 0x05, 0x01, 0x00, 0x00, 0x00, 0x00, 0x00, 0x03, 0x03, 0x02, 0x01] =
      .ok (.polyMod [1, 0, 0, 0, 0] [3, 2, 1]) := by decide

theorem test_word_rsSyn :
    decodePacket [0x30, 0x00, 0x04, 0x12, 0x74, 0x22, 0x04, 0x00, 0x02] =
      .ok (.rsSyn [0x12, 0x74, 0x22, 4] 2) := by decide

theorem test_word_rsEuclid :
    decodePacket [0x31, 0x00, 0x02, 0x1D, 0x40, 0x01, 0x02] = .ok (.rsEuclid [0x1D, 0x40] 0x102) := by decide

theorem test_word_rsChien :
    decodePacket [0x32, 0x00, 0x03, 0x80, 0x42, 0x01] = .ok (.rsChien [0x80, 0x42, 1]) := by decide

theorem test_word_rsForney :
    decodePacket [0x33, 0x00, 0x03, 0x80, 0x42, 0x01, 0x00, 0x02, 0x85, 0x81, 0x00, 0x01, 0x02] =
      .ok (.rsForney [0x80, 0x42, 1] [0x85, 0x81] [2]) := by decide

theorem test_word_rsDecode :
    decodePacket [0x34, 0x00, 0x04, 0x12, 0x74, 0x22, 0x04, 0x00, 0x02] =
      .ok (.rsDecode [0x12, 0x74, 0x22, 4] 2) := by decide

theorem test_word_deint :
    decodePacket [0x40, 0x03, 0x02, 0x00, 0x02, 0xAA, 0xBB] = .ok (.deint 3 2 [0xAA, 0xBB]) := by decide

theorem test_word_bbLoad : decodePacket [0x50, 0x00, 0x02, 0xA5, 0x3C] = .ok (.bbLoad [0xA5, 0x3C]) := by decide

theorem test_word_bbAvail : decodePacket [0x51] = .ok (.bbAvail) := by decide

theorem test_word_bbRead : decodePacket [0x52, 0xFF] = .ok (.bbRead 0xFF) := by decide

theorem test_word_segDecode : decodePacket [0x60, 0x28, 0x00, 0x01, 0xD0] = .ok (.segDecode 40 [0xD0]) := by decide

theorem test_word_decode : decodePacket [0x70, 0x05, 0x02, 0x00, 0x01, 0x10] = .ok (.decode 5 2 [0x10]) := by decide

theorem test_word_terminator : decodeSegment (bitsOf "0000") = .ok (.terminator, 4) := by decide

theorem test_word_numeric : decodeSegment (bitsOf "0001") = .ok (.numeric, 4) := by decide

theorem test_word_alphanumeric : decodeSegment (bitsOf "0010") = .ok (.alphanumeric, 4) := by decide

theorem test_word_structuredAppend : decodeSegment (bitsOf "0011") = .ok (.structuredAppend, 4) := by decide

theorem test_word_byte : decodeSegment (bitsOf "0100") = .ok (.byte, 4) := by decide

theorem test_word_fnc1First : decodeSegment (bitsOf "0101") = .ok (.fnc1First, 4) := by decide

theorem test_word_illegal0110 : decodeSegment (bitsOf "0110") = .ok (.illegal0110, 4) := by decide

theorem test_word_kanji : decodeSegment (bitsOf "1000") = .ok (.kanji, 4) := by decide

theorem test_word_fnc1Second : decodeSegment (bitsOf "1001") = .ok (.fnc1Second, 4) := by decide

theorem test_word_illegal1010 : decodeSegment (bitsOf "1010") = .ok (.illegal1010, 4) := by decide

theorem test_word_illegal1011 : decodeSegment (bitsOf "1011") = .ok (.illegal1011, 4) := by decide

theorem test_word_illegal1100 : decodeSegment (bitsOf "1100") = .ok (.illegal1100, 4) := by decide

theorem test_word_illegal1101 : decodeSegment (bitsOf "1101") = .ok (.illegal1101, 4) := by decide

theorem test_word_illegal1110 : decodeSegment (bitsOf "1110") = .ok (.illegal1110, 4) := by decide

theorem test_word_illegal1111 : decodeSegment (bitsOf "1111") = .ok (.illegal1111, 4) := by decide

/-- A designator cut short, after 0, 7, 15 and 23 bits (log entry 10). -/
theorem test_word_eci :
    decodeSegment (bitsOf "0111") = .ok (.eci, 4) ∧ decodeSegment (bitsOf "01110000000") = .ok (.eci, 4) ∧
    decodeSegment (bitsOf "0111100000000000000") = .ok (.eci, 4) ∧
    decodeSegment (bitsOf "011111000000000000000000000") = .ok (.eci, 4) := by decide

theorem test_word_eci1 : decodeSegment (bitsOf "011100011010") = .ok (.eci1 26, 12) := by decide

theorem test_word_eci2 : decodeSegment (bitsOf "01111000001110000011") = .ok (.eci2 899, 20) := by decide

theorem test_word_eci3 : decodeSegment (bitsOf "0111110011110100001000111111") = .ok (.eci3 999999, 28) := by decide

theorem test_word_eciBad : decodeSegment (bitsOf "011111100101") = .ok (.eciBad 5, 12) := by decide

/-- The numbering of the opcode table: a command, an indicator, the row ECI and a form of it. -/
theorem test_table_words : decodeTableWord 8 0x2A = some (.polyMod [] []) ∧ decodeTableWord 8 0x1 = some .numeric ∧
    decodeTableWord 8 0x7 = some .eci ∧ decodeTableWord 24 0x78000 = some (.eci2 0) ∧
    decodeTableWord 32 0x7C00000 = some (.eci3 0) ∧ decodeTableWord 16 0x7E0 = some (.eciBad 0) := by decide

/-- The state that a step goes on to. -/
def nextState (r : Result) : Option State :=
  match r with
  | .next t => some t
  | _ => none

/-- A placed word is run by the next step: GF.ADD of zeros answers 0, the ECI alone underruns. -/
theorem test_placed_words :
    nextState (step (State.reset.withFetchWord 8 0x10)) = some (ended 0 0 [0] ⟨[], 0, 0⟩ State.reset) ∧
    nextState (step (State.reset.withFetchWord 8 0x7)) = some (ended 2 0x20 [] ⟨[], 0, 0⟩ State.reset) := by
  decide +kernel

/-! ## Commands: a packet to the engine after reset, and its response -/

/-- The engine after reset, one packet sent. -/
def sent (packet : List Byte) : State := { State.reset with script := [.packet packet] }

/-- The responses after a step. -/
def answers (r : Result) : List (List Byte) :=
  match r with
  | .next t => t.responses
  | _ => []

theorem test_gfAdd : answers (step (sent [0x10, 0x53, 0xCA])) = [[0x00, 0x00, 0x99]] := by decide +kernel

theorem test_gfMul : answers (step (sent [0x11, 0xFF, 0xFF])) = [[0x00, 0x00, 0xE2]] := by decide +kernel

theorem test_gfMul_zero : answers (step (sent [0x11, 0x00, 0xAB])) = [[0x00, 0x00, 0x00]] := by decide +kernel

theorem test_gfInv_one : answers (step (sent [0x12, 0x01])) = [[0x00, 0x00, 0x01]] := by decide +kernel

theorem test_gfInv_zero : answers (step (sent [0x12, 0x00])) = [[0x01, 0x01]] := by decide +kernel

theorem test_gfExp : answers (step (sent [0x13, 0x01, 0xFE])) = [[0x00, 0x00, 0x01]] := by decide +kernel

theorem test_gfExp_wide : answers (step (sent [0x13, 0x01, 0x00])) = [[0x00, 0x00, 0x02]] := by decide +kernel

theorem test_gfLog : answers (step (sent [0x14, 0x8E])) = [[0x00, 0x00, 0xFE]] := by decide +kernel

theorem test_gfLog_zero : answers (step (sent [0x14, 0x00])) = [[0x01, 0x02]] := by decide +kernel

theorem test_gfMono :
    answers (step (sent [0x15, 0x00, 0x03, 0x05])) =
      [[0x00, 0x00, 0x00, 0x04, 0x05, 0x00, 0x00, 0x00]] := by decide +kernel

theorem test_gfMono_negative : answers (step (sent [0x15, 0xFF, 0xFF, 0x00])) = [[0x01, 0x04]] := by decide +kernel

theorem test_polyNew :
    answers (step (sent [0x20, 0x00, 0x03, 0x00, 0x07, 0x01, 0x00, 0x03])) =
      [[0x00, 0x00, 0x00, 0x05, 0x07, 0x01, 0x00, 0x00, 0x00]] := by decide +kernel

theorem test_polyNew_empty :
    answers (step (sent [0x20, 0x00, 0x00, 0xFF, 0xFF])) = [[0x01, 0x03]] := by decide +kernel

theorem test_polyDeg :
    answers (step (sent [0x21, 0x00, 0x03, 0x01, 0x02, 0x03])) = [[0x00, 0x00, 0x00, 0x02]] := by decide +kernel

theorem test_polyDeg_normalised :
    answers (step (sent [0x21, 0x00, 0x03, 0x00, 0x00, 0x09])) = [[0x00, 0x00, 0x00, 0x00]] := by decide +kernel

theorem test_polyCoef :
    answers (step (sent [0x22, 0x00, 0x03, 0x01, 0x02, 0x03, 0x00, 0x02])) = [[0x00, 0x00, 0x01]] := by decide +kernel

theorem test_polyCoef_negative :
    answers (step (sent [0x22, 0x00, 0x03, 0x01, 0x02, 0x03, 0xFF, 0xFF])) = [[0x00, 0x00, 0x00]] := by decide +kernel

theorem test_polyIsZero :
    answers (step (sent [0x23, 0x00, 0x03, 0x00, 0x00, 0x00])) = [[0x00, 0x00, 0x01]] := by decide +kernel

theorem test_polyIsZero_not :
    answers (step (sent [0x23, 0x00, 0x02, 0x00, 0x01])) = [[0x00, 0x00, 0x00]] := by decide +kernel

theorem test_polyEval :
    answers (step (sent [0x24, 0x00, 0x03, 0x01, 0x02, 0x03, 0x53])) = [[0x00, 0x00, 0x70]] := by decide +kernel

theorem test_polyEval_fast :
    answers (step (sent [0x24, 0x00, 0x03, 0x01, 0x02, 0x03, 0x01])) = [[0x00, 0x00, 0x00]] := by decide +kernel

theorem test_polyAdd :
    answers (step (sent [0x25, 0x00, 0x03, 0x01, 0x02, 0x03, 0x00, 0x02, 0x04, 0x05])) =
      [[0x00, 0x00, 0x00, 0x03, 0x01, 0x06, 0x06]] := by decide +kernel

theorem test_polyAdd_cancel :
    answers (step (sent [0x25, 0x00, 0x03, 0x01, 0x02, 0x03, 0x00, 0x03, 0x01, 0x02, 0x04])) =
      [[0x00, 0x00, 0x00, 0x01, 0x07]] := by decide +kernel

theorem test_polyMul :
    answers (step (sent [0x26, 0x00, 0x03, 0x01, 0x02, 0x03, 0x00, 0x02, 0x04, 0x05])) =
      [[0x00, 0x00, 0x00, 0x04, 0x04, 0x0D, 0x06, 0x0F]] := by decide +kernel

theorem test_polyMul_zero :
    answers (step (sent [0x26, 0x00, 0x01, 0x00, 0x00, 0x02, 0x04, 0x05])) =
      [[0x00, 0x00, 0x00, 0x01, 0x00]] := by decide +kernel

theorem test_polyMulI :
    answers (step (sent [0x27, 0x00, 0x02, 0x80, 0x01, 0x02])) =
      [[0x00, 0x00, 0x00, 0x02, 0x1D, 0x02]] := by decide +kernel

theorem test_polyMulI_zero :
    answers (step (sent [0x27, 0x00, 0x03, 0x01, 0x02, 0x03, 0x00])) =
      [[0x00, 0x00, 0x00, 0x01, 0x00]] := by decide +kernel

theorem test_polyMulM :
    answers (step (sent [0x28, 0x00, 0x03, 0x01, 0x02, 0x03, 0x00, 0x02, 0x03])) =
      [[0x00, 0x00, 0x00, 0x05, 0x03, 0x06, 0x05, 0x00, 0x00]] := by decide +kernel

theorem test_polyMulM_negative :
    answers (step (sent [0x28, 0x00, 0x01, 0x01, 0xFF, 0xFF, 0x01])) = [[0x01, 0x04]] := by decide +kernel

theorem test_polyDiv :
    answers (step (sent [0x29, 0x00, 0x05, 0x01, 0x00, 0x00, 0x00, 0x00, 0x00, 0x03, 0x03, 0x02, 0x01])) =
      [[0x00, 0x00, 0x00, 0x03, 0xF4, 0x53, 0xC5, 0x00, 0x02, 0xC4, 0xC5]] := by decide +kernel

theorem test_polyDiv_zero :
    answers (step (sent [0x29, 0x00, 0x02, 0x01, 0x02, 0x00, 0x01, 0x00])) = [[0x01, 0x05]] := by decide +kernel

theorem test_polyMod :
    answers (step (sent [0x2A, 0x00, 0x04, 0x12, 0x34, 0x56, 0x78, 0x00, 0x02, 0x02, 0x03])) =
      [[0x00, 0x00, 0x00, 0x01, 0xE8]] := by decide +kernel

theorem test_polyMod_zero :
    answers (step (sent [0x2A, 0x00, 0x03, 0x01, 0x02, 0x03, 0x00, 0x02, 0x00, 0x00])) =
      [[0x01, 0x05]] := by decide +kernel

theorem test_rsSyn :
    answers (step (sent [0x30, 0x00, 0x04, 0x12, 0x74, 0x22, 0x04, 0x00, 0x02])) =
      [[0x00, 0x00, 0x00, 0x02, 0x40, 0x1D, 0x00, 0x02, 0x1D, 0x40]] := by decide +kernel

theorem test_rsSyn_empty :
    answers (step (sent [0x30, 0x00, 0x03, 0x01, 0x02, 0x03, 0x00, 0x00])) =
      [[0x00, 0x00, 0x00, 0x00, 0x00, 0x01, 0x00]] := by decide +kernel

theorem test_rsEuclid :
    answers (step (sent [0x31, 0x00, 0x04, 0x59, 0xF7, 0x5D, 0x81, 0x00, 0x04])) =
      [[0x00, 0x00, 0x00, 0x03, 0x80, 0x42, 0x01, 0x00, 0x02, 0x85, 0x81]] := by decide +kernel

theorem test_rsEuclid_sigma0 :
    answers (step (sent [0x31, 0x00, 0x02, 0x01, 0x00, 0x00, 0x02])) = [[0x04, 0x40]] := by decide +kernel

theorem test_rsChien :
    answers (step (sent [0x32, 0x00, 0x03, 0x80, 0x42, 0x01])) =
      [[0x00, 0x00, 0x00, 0x02, 0x02, 0x40]] := by decide +kernel

theorem test_rsChien_repeated :
    answers (step (sent [0x32, 0x00, 0x03, 0x01, 0x00, 0x01])) = [[0x04, 0x41]] := by decide +kernel

theorem test_rsForney :
    answers (step (sent [0x33, 0x00, 0x03, 0x80, 0x42, 0x01, 0x00, 0x02, 0x85, 0x81, 0x00, 0x02, 0x02, 0x40])) =
      [[0x00, 0x00, 0x00, 0x02, 0x80, 0x01]] := by decide +kernel

theorem test_rsForney_denominator :
    answers (step (sent [0x33, 0x00, 0x03, 0x01, 0x00, 0x01, 0x00, 0x01, 0x01, 0x00, 0x01, 0x01])) =
      [[0x04, 0x42]] := by decide +kernel

theorem test_rsDecode :
    answers (step (sent [0x34, 0x00, 0x07, 0x13, 0x34, 0x56, 0x37, 0xE6, 0xF8, 0xD9, 0x00, 0x04])) =
      [[0x00, 0x00, 0x00, 0x07, 0x12, 0x34, 0x56, 0x37, 0xE6, 0x78, 0xD9]] := by decide +kernel

theorem test_rsDecode_posRange :
    answers (step (sent [0x34, 0x00, 0x07, 0x12, 0x16, 0x56, 0x37, 0xB9, 0x93, 0xD9, 0x00, 0x04])) =
      [[0x04, 0x43]] := by decide +kernel

theorem test_bbRead_negative : answers (step (sent [0x52, 0xFF])) = [[0x02, 0x21]] := by decide +kernel

theorem test_bbAvail : answers (step (sent [0x51])) = [[0x00, 0x00, 0x00, 0x00, 0x00, 0x00]] := by decide +kernel

theorem test_segDecode_version : answers (step (sent [0x60, 0x29, 0x00, 0x00])) = [[0x01, 0x08]] := by decide +kernel

theorem test_decode_ecl : answers (step (sent [0x70, 0x01, 0x04, 0x00, 0x00])) = [[0x01, 0x09]] := by decide +kernel

/-- 3-Q over the bytes 00 01 ... 45: two blocks of 35 bytes, the even ones and the odd ones. 5-Q has two short and two
longer blocks (R215): the ends of the four blocks. -/
theorem test_deint :
    answers (exec (.deint 3 2 ((List.range 70).map (BitVec.ofNat 8))) State.reset) =
      [[0, 0, 0, 2, 0, 17, 0, 35] ++ (List.range 35).map (fun i => BitVec.ofNat 8 (2 * i)) ++ [0, 17, 0, 35] ++
        (List.range 35).map (fun i => BitVec.ofNat 8 (2 * i + 1))] ∧
    (deinterleave State.reset.cfg 5 2 ((List.range 134).map (BitVec.ofNat 8)) Work.reset).map
      (fun w => (w.cur, w.blk.map fun b => (b.ndata, b.buf.length, b.buf.getD 15 0, b.buf.getLastD 0))) =
      .ok (134, [(15, 33, 62, 130), (15, 33, 63, 131), (16, 34, 60, 132), (16, 34, 61, 133)]) := by decide +kernel

/-- BB.LOAD puts the cursor at the first bit. -/
theorem test_bbLoad : nextState (exec (.bbLoad [0xA5, 0x3C]) State.reset) =
    some (ended 0 0 [] ⟨[0xA5, 0x3C], 0, 0⟩ State.reset) := by decide

/-- Program P5: 12 bits from bit 4 of A5 3C are 53C, and the buffer is at its end. -/
theorem test_bbRead : nextState (exec (.bbRead 12) { State.reset with bb := ⟨[0xA5, 0x3C], 0, 4⟩ }) =
    some (ended 0 0 [0, 0, 5, 0x3C] ⟨[0xA5, 0x3C], 2, 0⟩ State.reset) := by decide

/-- BB.AVAIL between bytes. -/
theorem test_bbAvail_partial : nextState (exec .bbAvail { State.reset with bb := ⟨[0xA5, 0x3C], 0, 4⟩ }) =
    some (ended 0 0 [0, 0, 0, 12] ⟨[0xA5, 0x3C], 0, 4⟩ State.reset) := by decide

/-- The packet of scenario E starts the run, the cursor at the first bit of its data; nothing is answered yet. -/
theorem test_segDecode :
    (nextState (step (sent [0x60, 0x01, 0x00, 0x06, 0x31, 0x3A, 0xB1, 0x00, 0x95, 0x00]))).map
      (fun t => (t.bb, t.seg, t.activity, t.responses)) =
      some (⟨[0x31, 0x3A, 0xB1, 0x00, 0x95, 0x00], 0, 0⟩, ⟨1, [], none, none, none⟩, .segRun, []) := by decide +kernel

/-- Program P3: one block with two errors is corrected, and its 16 data codewords are the stream. -/
theorem test_decode :
    (nextState (step (sent [0x70, 0x01, 0x01, 0x00, 0x1A, 0x10, 0x20, 0x0C, 0xA9, 0x61, 0x80, 0xEC, 0x11, 0xEC, 0x11,
      0xEC, 0x11, 0xEC, 0x11, 0xEC, 0x11, 0xA5, 0x24, 0xD4, 0xC1, 0xEC, 0x36, 0xC7, 0x87, 0x2C, 0x55]))).map
      (fun t => (t.bb, t.activity, t.responses)) =
      some (⟨[0x10, 0x20, 0x0C, 0x56, 0x61, 0x80, 0xEC, 0x11, 0xEC, 0x11, 0xEC, 0x11, 0xEC, 0x11, 0xEC, 0x11], 0, 0⟩,
        .decodeRun 1, []) := by decide +kernel

/-! ## Segments: one step of a run over a few bytes -/

/-- A run of SEG.DECODE for a version, its cursor at the first bit of `data`. -/
def running (ver : Nat) (data : List Byte) : State :=
  { State.reset with bb := ⟨data, 0, 0⟩, seg := ⟨ver, [], none, none, none⟩, activity := .segRun }

/-- The segment registers and the cursor after a step that does not end the run. -/
def registers (r : Result) : Option (SegRegs × Nat × Nat) :=
  match r with
  | .next t => if t.activity = .idle then none else some (t.seg, t.bb.bpos, t.bb.boff)
  | _ => none

/-- NUMERIC with a 12-bit count: "000999". -/
theorem test_numeric :
    registers (step (running 10 [0x10, 0x06, 0x00, 0x3E, 0x70])) =
      some (⟨10, [0x30, 0x30, 0x30, 0x39, 0x39, 0x39], none, none, none⟩, 4, 4) := by decide +kernel

/-- A group of 1000. -/
theorem test_numeric_value : answers (step (running 1 [0x10, 0x0F, 0xE8])) = [[0x03, 0x33]] := by decide +kernel

/-- ALPHANUMERIC "$%*+-./: Z". -/
theorem test_alphanumeric :
    registers (step (running 1 [0x20, 0x56, 0xA7, 0xE0, 0x7D, 0x7F, 0xDD, 0xE7, 0x70])) =
      some (⟨1, [0x24, 0x25, 0x2A, 0x2B, 0x2D, 0x2E, 0x2F, 0x3A, 0x20, 0x5A], none, none, none⟩, 8,
        4) := by decide +kernel

/-- A pair of 2025. -/
theorem test_alphanumeric_value : answers (step (running 1 [0x20, 0x17, 0xE9])) = [[0x03, 0x34]] := by decide +kernel

/-- STRUCTURED_APPEND. -/
theorem test_structuredAppend :
    registers (step (running 1 [0x30, 0x10, 0x23])) = some (⟨1, [], none, some 1, some 2⟩, 2, 4) := by decide +kernel

/-- Twelve bits are not enough. -/
theorem test_structuredAppend_truncated :
    answers (step (running 1 [0x31, 0x3A])) = [[0x03, 0x32]] := by decide +kernel

/-- BYTE of two bytes, the second cut short. -/
theorem test_byte_underrun : answers (step (running 1 [0x40, 0x24, 0x86])) = [[0x02, 0x20]] := by decide +kernel

/-- FNC1_FIRST changes nothing. -/
theorem test_fnc1First :
    registers (step (running 1 [0x51, 0x00])) = some (⟨1, [], none, none, none⟩, 0, 4) := by decide +kernel

/-- FNC1_SECOND consumes no application indicator. -/
theorem test_fnc1Second :
    registers (step (running 1 [0x91, 0x00])) = some (⟨1, [], none, none, none⟩, 0, 4) := by decide +kernel

/-- An ECI with four bits left for its designator. -/
theorem test_eci_cut : answers (step (running 1 [0x71])) = [[0x02, 0x20]] := by decide +kernel

/-- ECI 26. -/
theorem test_eci1 :
    registers (step (running 1 [0x71, 0xA4])) =
      some (⟨1, [], some ⟨26, some .utf8⟩, none, none⟩, 1, 4) := by decide +kernel

/-- ECI 899 has no name. -/
theorem test_eci2 :
    registers (step (running 1 [0x78, 0x38, 0x30])) =
      some (⟨1, [], some ⟨899, none⟩, none, none⟩, 2, 4) := by decide +kernel

/-- ECI 999999. -/
theorem test_eci3 :
    registers (step (running 1 [0x7C, 0xF4, 0x23, 0xF0])) =
      some (⟨1, [], some ⟨999999, none⟩, none, none⟩, 3, 4) := by decide +kernel

/-- ECI 1000000. -/
theorem test_eci3_range : answers (step (running 1 [0x7C, 0xF4, 0x24, 0x00])) = [[0x03, 0x35]] := by decide +kernel

/-- A designator that begins with 111. -/
theorem test_eciBad : answers (step (running 1 [0x7E, 0x00])) = [[0x03, 0x31]] := by decide +kernel

/-- TERMINATOR: the bits after it are never fetched. -/
theorem test_terminator :
    answers (step (running 1 [0x0F])) =
      [[0x00, 0x00, 0xFF, 0xFF, 0xFF, 0xFF, 0x00, 0x00, 0x00, 0x00]] := by decide +kernel

/-- TERMINATOR in a run of DECODE: version 3, ecl 2, the two bytes of STRUCTURED_APPEND, AGG and TEXT (R280). -/
theorem test_terminator_decode :
    answers (exec .terminator { running 3 [0x00] with
      activity := .decodeRun 2
      seg := ⟨3, [0x34, 0x32], none, some 0x13, some 0xAB⟩
      work := { Work.reset with agg := [0x00] } }) =
      [[0x00, 0x00, 0x03, 0x02, 0x00, 0x13, 0x00, 0xAB, 0x00, 0x01, 0x00, 0x00, 0x00, 0x00, 0x02, 0x34, 0x32]] := by
  decide +kernel

/-- The indicator 0110. -/
theorem test_illegal0110 : answers (step (running 1 [0x60])) = [[0x03, 0x30]] := by decide +kernel

/-- The indicator 1010. -/
theorem test_illegal1010 : answers (step (running 1 [0xA0])) = [[0x03, 0x30]] := by decide +kernel

/-- The indicator 1011. -/
theorem test_illegal1011 : answers (step (running 1 [0xB0])) = [[0x03, 0x30]] := by decide +kernel

/-- The indicator 1100. -/
theorem test_illegal1100 : answers (step (running 1 [0xC0])) = [[0x03, 0x30]] := by decide +kernel

/-- The indicator 1101. -/
theorem test_illegal1101 : answers (step (running 1 [0xD0])) = [[0x03, 0x30]] := by decide +kernel

/-- The indicator 1110. -/
theorem test_illegal1110 : answers (step (running 1 [0xE0])) = [[0x03, 0x30]] := by decide +kernel

/-- The indicator 1111. -/
theorem test_illegal1111 : answers (step (running 1 [0xF0])) = [[0x03, 0x30]] := by decide +kernel

/-- BYTE of E9 after ECI 3 is transcoded from ISO-8859-1, and ECI is cleared. -/
theorem test_byte : exec .byte { running 1 [0x40, 0x1E, 0x90] with
      bb := ⟨[0x40, 0x1E, 0x90], 0, 4⟩, seg := ⟨1, [], some ⟨3, some (.iso8859 1)⟩, none, none⟩ } =
    .next { running 1 [0x40, 0x1E, 0x90] with
      bb := ⟨[0x40, 0x1E, 0x90], 2, 4⟩, seg := ⟨1, [] ++ Config.transcode (.iso8859 1) [0xE9], none, none,
        none⟩ } := by rfl

/-- KANJI of five units at the corners of the map hands their byte pairs to TRANSCODE. -/
theorem test_kanji :
    readKanji State.reset.cfg 1 ⟨[0x80, 0x5B, 0xA0, 0x7C, 0x93, 0xFF, 0xF7, 0x3C, 0x00, 0x00, 0x00], 0, 4⟩ =
    .ok ([0xE0, 0x40, 0xEA, 0xA4, 0xEB, 0xBF, 0x9F, 0xFC, 0x81, 0x40],
      ⟨[0x80, 0x5B, 0xA0, 0x7C, 0x93, 0xFF, 0xF7, 0x3C, 0x00, 0x00, 0x00], 9, 5⟩) := by decide +kernel

/-- KANJI of the unit 0 appends what TRANSCODE gives for 81 40. -/
theorem test_kanji_text : exec .kanji (running 1 [0x01, 0x00, 0x00]) =
    .next { running 1 [0x01, 0x00, 0x00] with
      bb := ⟨[0x01, 0x00, 0x00], 2, 5⟩, seg := ⟨1, [] ++ Config.transcode .shiftJis [0x81, 0x40], none, none,
        none⟩ } := by rfl

/-! ## Witnesses: states and operands that meet the hypotheses of the obligations, clause by clause -/

theorem inv_reset : Inv State.reset where
  cursor := by decide
  fits := by decide
  version := by decide
  eciId := fun r h => by cases h
  dropped := fun _ => ⟨rfl, rfl⟩

theorem inv_sent (packet : List Byte) : Inv (sent packet) :=
  ⟨inv_reset.cursor, inv_reset.fits, inv_reset.version, inv_reset.eciId, inv_reset.dropped⟩

/-- A run over a few bytes is a good state. -/
theorem inv_running : Inv (running 40 [0x31, 0x3A]) where
  cursor := by decide
  fits := by decide
  version := by decide
  eciId := fun r h => by cases h
  dropped := fun h => by cases h

theorem test_hyps_DecodeInvertsEncode : WellFormed (.bbLoad longest) ∧ WellFormed (.rsForney [] longest [0]) ∧
    WellFormed (.eci3 2097151) := ⟨longest_fits, ⟨by decide, longest_fits, by decide⟩, trivial⟩

theorem test_hyps_EachPacketHasOneEncoding : decodePacket [0x23, 0x00, 0x01, 0x00] = .ok (.polyIsZero [0]) ∧
    WellFormed (.polyIsZero [0]) ∧ encode (.polyIsZero [0]) = .packet [0x23, 0x00, 0x01, 0x00] :=
  ⟨by decide, (by decide : FitsField [0]), by decide⟩

theorem test_hyps_SegmentRowEndsWhereItsBitsEnd :
    (Instr.eci1 127 ≠ .eci ∧ encode (.eci1 127) = .bits (bitsOf "011101111111")) ∧
    (CutDesignator [] ∧ CutDesignator (bitsOf "0111111") ∧ CutDesignator (bitsOf "101111111111111") ∧
      CutDesignator (bitsOf "11011111111111111111111")) ∧
    decodeSegment (bitsOf "0111111") = .ok (.eci, 4) ∧ (bitsOf "111").length < 4 :=
  ⟨⟨by decide, by decide⟩,
    ⟨.inl (by decide), .inl (by decide), .inr (.inl ⟨by decide, bitsOf "1111111111111", by decide⟩),
      .inr (.inr ⟨by decide, bitsOf "11111111111111111111", by decide⟩)⟩, by decide, by decide⟩

/-- Both ends of every range of R99. -/
theorem test_hyps_IllegalOpcodesRaiseBadOpcode :
    ∀ op ∈ ([0x00, 0x0F, 0x16, 0x1F, 0x2B, 0x2F, 0x35, 0x3F, 0x41, 0x4F, 0x53, 0x5F,
      0x61, 0x6F, 0x71, 0xFF] : List Byte),
    Inv (sent [op, 0x00]) ∧ (sent [op, 0x00]).activity = .idle ∧
    (sent [op, 0x00]).script = .packet (op :: [0x00]) :: [] ∧
    (op.toNat ≤ 0x0F ∨ (0x16 ≤ op.toNat ∧ op.toNat ≤ 0x1F) ∨ (0x2B ≤ op.toNat ∧ op.toNat ≤ 0x2F) ∨
      (0x35 ≤ op.toNat ∧ op.toNat ≤ 0x3F) ∨ (0x41 ≤ op.toNat ∧ op.toNat ≤ 0x4F) ∨
      (0x53 ≤ op.toNat ∧ op.toNat ≤ 0x5F) ∨ (0x61 ≤ op.toNat ∧ op.toNat ≤ 0x6F) ∨ 0x71 ≤ op.toNat) := by
  intro op h
  exact ⟨inv_sent _, rfl, rfl, by revert op; decide⟩

/-- GF.ADD with one byte of its two is no instruction's encoding. -/
theorem test_hyps_MalformedPacketsRaiseBadPacket : (sent [0x10, 0x53]).activity = .idle ∧
    (sent [0x10, 0x53]).script = [.packet [0x10, 0x53]] ∧
    (∃ (op : Byte) (operands good : List Byte) (i : Instr), [0x10, 0x53] = op :: operands ∧
      encode i = .packet (op :: good) ∧ ¬ ∃ j, WellFormed j ∧ encode j = .packet [0x10, 0x53]) := by
  refine ⟨rfl, rfl, 0x10, [0x53], [0, 0], .gfAdd 0 0, rfl, rfl, ?_⟩
  rintro ⟨j, -, h⟩
  cases j <;> simp [encode] at h

theorem test_hyps_StepRunsDecodedInstruction :
    ((sent [0x51]).activity = .idle ∧ (sent [0x51]).script = .packet [0x51] :: [] ∧
      decodePacket [0x51] = .ok .bbAvail) ∧
    (running 1 [0x31, 0x3A]).activity ≠ .idle ∧
    decodeSegment ((running 1 [0x31, 0x3A]).bb.window longestRow) = .ok (.structuredAppend, 4) :=
  ⟨⟨rfl, rfl, rfl⟩, by decide, by decide⟩

theorem test_hyps_RowAtTheCursorRuns :
    ((running 1 [0x71, 0xA4]).activity ≠ .idle ∧ (running 1 [0x71, 0xA4]).bb.Wf ∧
      encode (.eci1 26) = .bits (bitsOf "011100011010") ∧
      StreamAt (running 1 [0x71, 0xA4]).bb (bitsOf "011100011010")) ∧
    ((running 1 [0x78, 0x3F]).activity ≠ .idle ∧ (running 1 [0x78, 0x3F]).bb.Wf ∧
      StreamAt (running 1 [0x78, 0x3F]).bb (bitsOfNat 4 0b0111) ∧
      CutDesignator (((running 1 [0x78, 0x3F]).bb.skip 4).window 24)) :=
  ⟨⟨by decide, by decide, by decide, by decide⟩, by decide, by decide, by decide,
    .inr (.inl ⟨by decide, bitsOf "0000111111", by decide⟩)⟩

theorem test_hyps_ResetLeavesAnEmptyEngine :
    (1 ≤ (1 : Byte).toNat ∧ (32 : Byte).toNat ≤ 32) ∧
    (({ State.reset with script := [.reset] } : State).activity = .idle ∧
      ({ State.reset with script := [.reset] } : State).script = .reset :: []) ∧
    State.reset.activity = .idle ∧ State.reset.script = [] := by decide

theorem test_hyps_EveryStepKeepsInv : Inv (running 40 [0x31, 0x3A]) ∧ ∃ t, step (running 40 [0x31, 0x3A]) = .next t :=
  ⟨inv_running, _, rfl⟩

theorem test_hyps_EveryStepGoesOnAndAnswersOnce : (running 1 []).activity ≠ .idle ∧
    ((sent [0x51]).activity = .idle ∧ (sent [0x51]).script = .packet [0x51] :: []) ∧
    (({ State.reset with script := [.reset, .reset] } : State).activity = .idle ∧
      ({ State.reset with script := [.reset, .reset] } : State).script = .reset :: [.reset]) := by decide

theorem test_hyps_EveryRunEnds :
    (running 1 [0x51, 0x00]).bb.Wf ∧ (running 1 [0x51, 0x00]).activity ≠ .idle := by decide

/-- A step that answers, with a fault and without. -/
theorem test_hyps_StatusHeadsEveryResponse :
    (nextState (step (sent [0x12, 0x00]))).map (fun t => (t.status.kind, t.responses)) = some (0x01, [[0x01, 0x01]]) ∧
    (nextState (step (sent [0x12, 0x01]))).map (fun t => (t.status.kind, t.responses)) =
      some (0x00, [[0x00, 0x00, 0x01]]) := by
  decide +kernel

/-- Two engines that differ in their status, their registers and the responses behind them. -/
theorem test_hyps_ResponsesIgnoreWorkingRegisters :
    ∃ s' : State, s' = { sent [0x52, 0x04] with
        status := ⟨0x04, 0x41⟩, seg := ⟨7, [1], none, some 2, none⟩, work := { Work.reset with cur := 5 },
          responses := [[4, 0x41]] } ∧
      s' ≠ sent [0x52, 0x04] ∧ (sent [0x52, 0x04]).activity = .idle ∧ s'.activity = .idle ∧
      (sent [0x52, 0x04]).bb = s'.bb ∧ (sent [0x52, 0x04]).cfg = s'.cfg ∧ (sent [0x52, 0x04]).script = s'.script :=
  ⟨_, rfl, by decide, rfl, rfl, rfl, rfl, rfl⟩

/-- A refused SEG.DECODE, a fault that leaves the bit buffer, and a run that ends with a fault. -/
theorem test_hyps_FaultsLeaveTheStatedState :
    ((sent [0x60, 0x00, 0x00, 0x00]).script = .packet [0x60, 0x00, 0x00, 0x00] :: [] ∧
      (nextState (step (sent [0x60, 0x00, 0x00, 0x00]))).map (fun t => (t.activity, t.status)) =
        some (.idle, ⟨0x01, 0x08⟩) ∧ TakesBitBuffer [0x60, 0x00, 0x00, 0x00]) ∧
    ((sent [0x60]).script = .packet [0x60] :: [] ∧
      (nextState (step (sent [0x60]))).map (fun t => (t.activity, t.status)) = some (.idle, ⟨0x01, 0x0B⟩) ∧
      ¬ TakesBitBuffer [0x60]) ∧
    ((running 1 [0xF0]).activity ≠ .idle ∧
      (nextState (step (running 1 [0xF0]))).map (fun t => (t.activity, t.status)) = some (.idle, ⟨0x03, 0x30⟩)) := by
  refine ⟨⟨rfl, by decide +kernel, .inl ⟨0, [], by decide, rfl⟩⟩, ⟨rfl, by decide +kernel, ?_⟩, by decide, by decide +kernel⟩
  rintro (⟨ver, data, -, h⟩ | ⟨ver, ecl, raw, -, h⟩) <;> simp [encode] at h

theorem test_hyps_CommandsChangeOnlyStatus :
    (isSegment (.gfMul 2 3) = false ∧ touchesBitBuffer (.gfMul 2 3) = false ∧
      (nextState (exec (.gfMul 2 3) State.reset)).isSome = true) ∧
    (nextState (exec (.bbLoad [1]) State.reset)).isSome = true ∧
    ((nextState (exec (.bbRead 0) State.reset)).map fun t => t.status.kind) = some 0x02 ∧
    State.reset.activity = .idle ∧ Inv State.reset :=
  ⟨by decide +kernel, by decide, by decide, rfl, inv_reset⟩

/-- A run that goes on after its segment. -/
theorem test_hyps_SegmentsChangeOnlyTheirRegisters : isSegment .numeric = true ∧
    (running 1 [0x00, 0x5C]).bb.Wf ∧
    (nextState (exec .numeric (running 1 [0x00, 0x5C]))).map (fun t => (t.activity, t.seg.text)) =
      some (.segRun, [0x37]) := ⟨rfl, by decide, by decide⟩

/-- BYTE, an ECI segment and STRUCTURED_APPEND, each in a run that goes on. -/
theorem test_hyps_SegmentRegisterLifetimes :
    (isSegment .byte = true ∧ (nextState (exec .byte (running 1 [0x00]))).map State.activity = some .segRun) ∧
    (isSegment (.eci2 899) = true ∧ isEci (.eci2 899) = true ∧
      (nextState (exec (.eci2 899) (running 1 []))).map State.activity = some .segRun) ∧
    (isSegment .structuredAppend = true ∧ writesText .structuredAppend = false ∧
      (nextState (exec .structuredAppend (running 1 [1, 2]))).map State.activity = some .segRun) := by
  decide

theorem test_hyps_OnlyListedFaultsAreRaised : WellFormed (.gfInv 0) ∧ (∀ v w, Instr.gfInv 0 ≠ .rsDecode v w) ∧
    (∀ ver ecl raw, Instr.gfInv 0 ≠ .decode ver ecl raw) ∧
    (nextState (exec (.gfInv 0) State.reset)).map (fun t => (t.activity, t.status.kind)) = some (.idle, 0x01) :=
  ⟨trivial, nofun, nofun, by decide⟩

/-- The three causes that RS.DECODE can raise, for three words of 95_test_vectors.md, and one that DECODE raises. -/
theorem test_hyps_UncorrectableWordsRaiseListedFaults :
    (nextState (exec (.rsDecode [0x12, 0x34, 0x56, 0x83, 0xE6, 0xE2, 0xEC] 4) State.reset)).map
      (fun t => (t.activity, t.status)) = some (.idle, ⟨0x04, 0x40⟩) ∧
    (nextState (exec (.rsDecode [0x12, 0x34, 0x64, 0x0B, 0xE6, 0x78, 0x57] 4) State.reset)).map
      (fun t => (t.activity, t.status)) = some (.idle, ⟨0x04, 0x41⟩) ∧
    (nextState (exec (.rsDecode [0x12, 0x16, 0x56, 0x37, 0xB9, 0x93, 0xD9] 4) State.reset)).map
      (fun t => (t.activity, t.status)) = some (.idle, ⟨0x04, 0x43⟩) ∧
    (nextState (exec (.decode 41 0 []) State.reset)).map
      (fun t => (t.activity, t.status)) = some (.idle, ⟨0x01, 0x08⟩) := by decide +kernel

theorem test_hyps_ResultFieldLayouts : 65535 < 2 ^ 16 ∧ 4294967295 < 2 ^ 32 ∧ FitsField longest :=
  ⟨by decide, by decide, longest_fits⟩

/-- Most statements about a command ask this of the state. -/
theorem test_hyps_idle : State.reset.activity = .idle := rfl

/-- The clauses of the field commands: no logarithm, the least and the greatest one, the two signs of a degree. -/
theorem test_hyps_field : LOG 0 = none ∧ LOG 1 = some 0 ∧ LOG 0x8E = some 254 ∧ (0x8E : Byte) ≠ 0 ∧
    (0xFFFF : Word16).toInt < 0 ∧ 0 ≤ (0 : Word16).toInt ∧ 0 ≤ (0x7FFF : Word16).toInt := by decide +kernel

/-- The clauses of TablesFollowTheAlgorithm and GfIsAField: the least and the greatest index, an element that is not
0. -/
theorem test_hyps_tables : 0 < 255 ∧ 254 < 255 ∧ (1 : Byte) ≠ 0 ∧ (0xFF : Byte) ≠ 0 := by decide

/-- The clauses of POLY.NEW: an empty vector, a negative degree, zeros, and lengths up to the limit and beyond it. -/
theorem test_hyps_PolyNewNormalises :
    (([] : List Byte) = [] ∧ [(1 : Byte)] ≠ [] ∧ (0xFFFF : Word16).toInt < 0) ∧
    (0 ≤ (2 : Word16).toInt ∧ ([0, 0] : List Byte) = List.replicate (1 + 1) 0) ∧
    (0 ≤ (0x7FFF : Word16).toInt ∧ (1 : Byte) ≠ 0 ∧
      65535 < ((List.replicate 32768 (0 : Byte)).length + 1 : Int) + (0x7FFF : Word16).toInt) ∧
    ((List.replicate 32767 (0 : Byte)).length + 1 : Int) + (0x7FFF : Word16).toInt ≤ 65535 := by
  refine ⟨by decide, by decide, ⟨by decide, by decide, ?_⟩, ?_⟩ <;> rw [List.length_replicate] <;> decide

/-- Polynomial operands: not empty, short enough, the zero polynomial and another. -/
theorem test_hyps_polynomials : ([0, 7] : Poly) ≠ [] ∧ FitsField [0, 7] ∧ strip [0, 7] ≠ [0] ∧ strip [0, 0] = [0] ∧
    (∀ c ∈ ([0, 0] : Poly), c = 0) ∧ (∃ c ∈ ([0, 7] : Poly), c ≠ 0) ∧ FitsField longest ∧ longest ≠ [] ∧
    (0xFFFF : Word16).toInt < 0 ∧ 0 ≤ (1 : Word16).toInt :=
  ⟨by decide, by decide, by decide, by decide, by decide, ⟨7, by decide, by decide⟩, longest_fits,
    fun h => absurd ((List.length_replicate (n := 65535) (a := (0 : Byte))).symm.trans (congrArg List.length h)) (by decide),
    by decide, by decide⟩

/-- A polynomial of 65535 coefficients, the first of them 1. -/
def wide : Poly := 1 :: List.replicate 65534 0

theorem wide_length : wide.length = 65535 := congrArg (· + 1) List.length_replicate

/-- A product and a shift that are one coefficient too long, and ones that just fit. -/
theorem test_hyps_long_products : FitsField wide ∧ strip wide ≠ [0] ∧
    65535 < (strip wide).length + (strip [1, 0]).length - 1 ∧ (strip wide).length + (strip [1]).length - 1 ≤ 65535 ∧
    65535 < ((strip wide).length : Int) + (1 : Word16).toInt ∧
    ((strip wide).length : Int) + (0 : Word16).toInt ≤ 65535 := by
  have h : strip wide = wide := rfl
  have h0 : wide ≠ [0] := fun e => absurd (wide_length.symm.trans (congrArg List.length e)) (by decide)
  rw [h]
  refine ⟨le_of_eq wide_length, h0, ?_, ?_, ?_, ?_⟩ <;> rw [wide_length] <;> decide

theorem test_hyps_EvaluationIsAHomomorphism : Canonical [1, 2] ∧ Canonical [0] := by decide

theorem test_hyps_PolyOperandsAreNormalised :
    (WellFormed (.rsForney [1] [] [2]) ∧ [] ∈ polyOperands (.rsForney [1] [] [2])) ∧
    (WellFormed (.polyAdd [0, 1] [0]) ∧ [] ∉ polyOperands (.polyAdd [0, 1] [0])) ∧ (1 : Byte) ≠ 0 :=
  ⟨⟨by simp [WellFormed, Config.lmax], by decide⟩, ⟨by simp [WellFormed, Config.lmax], by decide⟩, by decide⟩

/-- The clauses of RS.EUCLID: a twoS of 0, one that is too small, one that is just enough; a constant term that is not
zero, and one that is. -/
theorem test_hyps_EuclidRunsTheLoop :
    ([0x1D, 0x40] : Poly) ≠ [] ∧ FitsField [0x1D, 0x40] ∧ (1 : Word16).toNat ≤ pdeg (strip [0x1D, 0x40]) ∧
    ((2 : Word16) ≠ 0 ∧ pdeg (strip [0x1D, 0x40]) < (2 : Word16).toNat) ∧
    (∃ e, EuclidExit 2 ⟨[1, 0, 0], [0x1D, 0x40], [0], [1], [0]⟩ e ∧ ∃ inv, gmul (coef e.t 0) inv = 1) ∧
    (∃ e, EuclidExit 2 ⟨[1, 0, 0], [1, 0], [0], [1], [0]⟩ e ∧ coef e.t 0 = 0) := by
  refine ⟨by decide, by decide, by decide, by decide, ?_, ?_⟩
  · refine ⟨_, .pass _ _ [0x83, 0xE9] [0xD8] (by decide) (by decide +kernel) (.stop _ (by decide +kernel)), 0x74, ?_⟩
    decide +kernel
  · exact ⟨_, .pass _ _ [1, 0] [0] (by decide) (by decide +kernel) (.stop _ (by decide +kernel)), by decide +kernel⟩

theorem test_hyps_EuclidSolvesTheKeyEquation : Canonical [0x1D, 0x40] ∧
    (rsEuclid [0x1D, 0x40] 2).map Prod.snd = .ok ([0x04, 0x01], [0x40]) := by decide +kernel

/-- Two roots found at the degree 2, and one root only. -/
theorem test_hyps_ChienFindsEveryRoot :
    ((List.range' 1 255).filter fun i => valueAt [0x80, 0x42, 1] (gexp (255 - i)) == 0) = [1, 6] ∧
    pdeg (strip [0x80, 0x42, 1]) = 2 ∧
    ((List.range' 1 255).filter fun i => valueAt [1, 0, 1] (gexp (255 - i)) == 0) = [255] ∧
    pdeg (strip [1, 0, 1]) = 2 := by decide +kernel

/-- A magnitude, the locator 0, and a denominator that is zero. -/
theorem test_hyps_ForneyComputesMagnitudes :
    List.Forall₂ (ForneyMagnitude (strip [0x04, 0x01]) (strip [0x40])) [0x04] [0x40] ∧
    ([0x04, 0x00] : List Byte) = [0x04] ++ 0x00 :: [] ∧
    (gmul 1 1 = 1 ∧ valueAt (pderiv (strip [1, 0, 1])) 1 = 0) :=
  ⟨.cons ⟨0x47, 0x47, by decide +kernel, by decide +kernel, by decide +kernel⟩ .nil, rfl, by decide +kernel⟩

/-- The clauses of RS.DECODE: all syndromes zero, the low-degree corner, and the four ways a word with errors ends. -/
theorem test_hyps_RsDecodeAppliesTheStages :
    (∀ i, i < 2 → valueAt [0x12, 0x34, 0x22, 0x04] (gexp i) = 0) ∧
    ((∀ i, i < 4 → 4 ≤ 2 * i → valueAt [0x03, 0xB0, 0x56, 0x37, 0xE6, 0x4D, 0xD9] (gexp i) = 0) ∧
      valueAt [0x03, 0xB0, 0x56, 0x37, 0xE6, 0x4D, 0xD9] (gexp 0) ≠ 0) ∧
    (rsEuclid (rsSyn [0x12, 0x34, 0x56, 0x83, 0xE6, 0xE2, 0xEC] 4).2 4).map Prod.snd = .error .sigma0Zero ∧
    ((rsEuclid (rsSyn [0x12, 0x34, 0x64, 0x0B, 0xE6, 0x78, 0x57] 4).2 4).bind fun e => rsChien e.2.1) =
      .error .rootCount ∧
    ((rsEuclid (rsSyn [0x12, 0x16, 0x56, 0x37, 0xB9, 0x93, 0xD9] 4).2 4).bind fun e => rsChien e.2.1) =
      .ok [0xB6, 0x9E] ∧ LOG 0xB6 = some 93 ∧
    ((rsEuclid (rsSyn [0x13, 0x34, 0x56, 0x37, 0xE6, 0xF8, 0xD9] 4).2 4).bind fun e =>
      (rsChien e.2.1).bind fun x => (rsForney e.2.1 e.2.2 x).map fun m => (x, m)) =
      .ok ([0x02, 0x40], [0x80, 0x01]) ∧ LOG 0x02 = some 1 ∧ LOG 0x40 = some 6 := by decide +kernel

/-- The code of twoS = 2 has this vector; one place of it is wrong. -/
theorem test_hyps_OneErrorIsCorrected : IsCodeword 2 [0x12, 0x34, 0x22, 0x04] ∧ 2 ≤ (2 : Word16).toNat ∧
    ([0x12, 0x34, 0x22, 0x04] : List Byte).length ≤ 255 ∧ 3 < ([0x12, 0x34, 0x22, 0x04] : List Byte).length := by
  unfold IsCodeword
  decide +kernel

theorem test_hyps_ErrorsWithinCapacityAreCorrected : IsCodeword 4 [0x12, 0x34, 0x56, 0x37, 0xE6, 0x78, 0xD9] ∧
    differences [0x13, 0x34, 0x56, 0x37, 0xE6, 0xF8, 0xD9] [0x12, 0x34, 0x56, 0x37, 0xE6, 0x78, 0xD9] =
      (4 : Word16).toNat / 2 ∧
    ([0x12, 0x34, 0x56, 0x37, 0xE6, 0x78, 0xD9] : List Byte).length ≤ 255 := by
  unfold IsCodeword
  decide +kernel

/-- A configuration with the same row for every version. -/
def configured (row : Config.VersionRow) : State := { State.reset with cfg := { State.reset.cfg with versions := .replicate 40 row } }

/-- The clauses of DEINT's tests: versions 0, 41, 1 and 40, the levels 4 and 3, a vector that is too short, a TOTAL
that no length equals; the two configurations of 95_test_vectors.md section 3.4, a layout that does not add up and one
that is not ascending; and layouts with a negative ec, a negative data count and a negative block count. -/
theorem test_hyps_DeintFaultsInOrder :
    ((0 : Byte).toNat < 1 ∧ 40 < (41 : Byte).toNat ∧ 1 ≤ (1 : Byte).toNat ∧ (40 : Byte).toNat ≤ 40) ∧
    (3 < (4 : Byte).toNat ∧ (3 : Byte).toNat ≤ 3) ∧
    ((([] : List Byte).length : Int) ≠ totalOf State.reset.cfg 1 ∧
      (([] : List Byte).length : Int) ≠ totalOf (configured ⟨-1, lay 0 [], lay 0 [], lay 0 [], lay 0 []⟩).cfg 40) ∧
    (totalOf (configured ⟨26, lay 7 [(1, 20)], lay 7 [(1, 20)], lay 7 [(1, 20)], lay 7 [(1, 20)]⟩).cfg 1 = 26 ∧
      ((blockSizes (lay 7 [(1, 20)]).groups).map (· + 7)).sum ≠ 26) ∧
    ¬ LayoutWf (lay 7 [(1, 10), (1, 9)]) ∧ ¬ LayoutWf (lay (-1) [(1, 10)]) ∧ ¬ LayoutWf (lay 7 [(1, -1)]) ∧
    ¬ LayoutWf (lay 7 [(-1, 10)]) := by
  refine ⟨by decide, by decide, by decide, by decide, ?_, ?_, ?_, ?_⟩ <;> intro h
  · exact absurd (h.2.2.2.2.1 0 (by decide)) (by decide)
  · exact absurd h.2.2.1 (by decide)
  · exact absurd h.2.2.2.1 (by decide)
  · exact absurd h.2.1 (by decide)

/-- The version is tested before the ecl; a layout that adds up to the length of its vector but has a negative data
count faults with CURSOR. -/
theorem test_deint_faults :
    answers (exec (.deint 0 9 []) State.reset) = [[0x01, 0x08]] ∧
    answers (exec (.deint 1 0 [0xAA, 0xBB])
      (configured ⟨2, lay 3 [(1, -1)], lay 3 [(1, -1)], lay 3 [(1, -1)], lay 3 [(1, -1)]⟩)) = [[0x01, 0x07]] := by
  decide +kernel

theorem wf_5Q : LayoutWf (layoutOf State.reset.cfg 5 2) := by
  refine ⟨by decide, by decide, by decide, by decide, ?_, by decide⟩
  have h : blockSizes (layoutOf State.reset.cfg 5 2).groups = [15, 15, 16, 16] := by decide
  rw [h]
  intro j hj
  have hj : j + 1 < 4 := hj
  have : j < 3 := by omega
  interval_cases j <;> decide

/-- The layout 5-Q: two short blocks and two longer ones, with an index in each of the ranges. -/
theorem test_hyps_DeintInClosedForm : LayoutWf (layoutOf State.reset.cfg 5 2) ∧
    ((List.replicate 134 (0 : Byte)).length : Int) = totalOf State.reset.cfg (5 : Byte).toNat ∧
    (layoutOf State.reset.cfg 5 2).ec = 18 ∧
    blockSizes (layoutOf State.reset.cfg 5 2).groups = ([15, 15, 16, 16] : List Nat).map (fun x => (x : Int)) ∧
    (([15, 15, 16, 16] : List Nat).map (· + 18)).sum = 134 ∧ ([15, 15, 16, 16] : List Nat).count 15 = 2 := by
  refine ⟨wf_5Q, ?_, ?_⟩
  · rw [List.length_replicate]; decide
  · decide

/-- DECODE with a de-interleaver fault, with a block that does not correct, and with a block that does. -/
theorem test_hyps_DecodeRunsThePipeline :
    (deinterleave State.reset.cfg 41 0 [] Work.reset).map Work.blk = .error .badVersion ∧
    (deinterleave (configured ⟨7, lay 4 [(1, 3)], lay 4 [(1, 3)], lay 4 [(1, 3)], lay 4 [(1, 3)]⟩).cfg 1 0
      [0x12, 0x34, 0x64, 0x0B, 0xE6, 0x78, 0x57] Work.reset).map Work.blk =
      .ok ([] ++ ⟨3, [0x12, 0x34, 0x64, 0x0B, 0xE6, 0x78, 0x57]⟩ :: []) ∧
    corrected [0x12, 0x34, 0x64, 0x0B, 0xE6, 0x78, 0x57] 4 = .error .rootCount ∧
    (deinterleave (configured ⟨7, lay 4 [(1, 3)], lay 4 [(1, 3)], lay 4 [(1, 3)], lay 4 [(1, 3)]⟩).cfg 1 0
      [0x13, 0x34, 0x56, 0x37, 0xE6, 0xF8, 0xD9] Work.reset).map Work.blk =
      .ok [⟨3, [0x13, 0x34, 0x56, 0x37, 0xE6, 0xF8, 0xD9]⟩] ∧
    corrected [0x13, 0x34, 0x56, 0x37, 0xE6, 0xF8, 0xD9] 4 = .ok [0x12, 0x34, 0x56, 0x37, 0xE6, 0x78, 0xD9] := by
  decide +kernel

/-- The second of those blocks is two errors from a vector of its code, as many as four check symbols correct. -/
theorem test_hyps_DecodeCorrectsEveryBlock :
    ([0x13, 0x34, 0x56, 0x37, 0xE6, 0xF8, 0xD9] : List Byte).length =
      ([0x12, 0x34, 0x56, 0x37, 0xE6, 0x78, 0xD9] : List Byte).length ∧
    IsCodeword (7 - 3) [0x12, 0x34, 0x56, 0x37, 0xE6, 0x78, 0xD9] ∧
    differences [0x13, 0x34, 0x56, 0x37, 0xE6, 0xF8, 0xD9] [0x12, 0x34, 0x56, 0x37, 0xE6, 0x78,
      0xD9] ≤ (7 - 3) / 2 := by
  unfold IsCodeword
  decide +kernel

/-- The widths at the ends of the ranges of BB.READ, and a buffer with exactly enough bits and with one too few. -/
theorem test_hyps_BitBufferCommands :
    ((0xFF : Byte).toInt < 0 ∧ (0x80 : Byte).toInt < 0 ∧ (0 : Byte).toInt = 0 ∧ 32 < (33 : Byte).toInt ∧
      1 ≤ (1 : Byte).toInt ∧ (32 : Byte).toInt ≤ 32) ∧
    ((⟨[0xA5, 0x3C], 0, 4⟩ : BitBuffer).Wf ∧ 8 * (2 - 0) - 4 < (13 : Byte).toNat ∧
    (12 : Byte).toNat ≤ 8 * (2 - 0) - 4) := by
  decide

theorem test_hyps_ReadsInArithmetic : (⟨[0xA5, 0x3C, 0xFF, 0x00, 0x12], 0, 4⟩ : BitBuffer).Wf ∧
    (⟨[0xA5, 0x3C, 0xFF, 0x00, 0x12], 0, 4⟩ : BitBuffer).read (8 : Nat) =
      .ok (0x53, ⟨[0xA5, 0x3C, 0xFF, 0x00, 0x12], 1, 4⟩) ∧
    (⟨[0xA5, 0x3C, 0xFF, 0x00, 0x12], 1, 4⟩ : BitBuffer).read (24 : Nat) =
      .ok (0xCFF001, ⟨[0xA5, 0x3C, 0xFF, 0x00, 0x12], 4, 4⟩) ∧ 8 + 24 ≤ 32 := by decide

/-- The ends of the version range, the two kinds of run, and a stream of fewer than four bits. -/
theorem test_hyps_SegmentRunsStartAndEnd :
    ((0 : Byte).toNat < 1 ∧ 40 < (41 : Byte).toNat ∧ 1 ≤ (1 : Byte).toNat ∧ (40 : Byte).toNat ≤ 40) ∧
    ((running 1 []).activity = .segRun ∧ (running 1 []).bb.avail < 4 ∧ (running 1 []).bb.Wf) ∧
    ({ running 1 [0] with activity := .decodeRun 3, bb := ⟨[0], 0, 5⟩ } : State).activity = .decodeRun 3 ∧
    (⟨[0], 0, 5⟩ : BitBuffer).avail = 3 ∧ (⟨[0], 0, 5⟩ : BitBuffer).Wf := by decide

/-- A run whose stream is `bits`, filled up with zero bits to a whole byte. -/
def streaming (ver : Nat) (bits : List Bool) : State := running ver (packBits bits)

/-- The digits of scenario A, no digits at all, and after three digits or none the least value too large for each size
of group. -/
theorem test_hyps_NumericAppendsDigits :
    (∀ bits ∈ [bitsOfNat (numericWidth 1) 8 ++ digitGroups [0, 1, 2, 3, 4, 5, 6, 7],
      bitsOfNat (numericWidth 1) 0 ++ digitGroups [],
        bitsOfNat (numericWidth 1) 3 ++ digitGroups [] ++ bitsOfNat 10 1000,
        bitsOfNat (numericWidth 1) 5 ++ digitGroups [1, 2, 3] ++ bitsOfNat 7 100,
        bitsOfNat (numericWidth 1) 1 ++ digitGroups [] ++ bitsOfNat 4 10],
      (streaming 1 bits).activity ≠ .idle ∧ (streaming 1 bits).bb.Wf ∧ StreamAt (streaming 1 bits).bb bits) ∧
    (∀ d ∈ [0, 1, 2, 3, 4, 5, 6, 7, 9], d < 10) ∧ 8 < 2 ^ numericWidth (streaming 1 []).seg.ver ∧
    ([] : List Nat).length + 3 ≤ 3 ∧ [1, 2, 3].length % 3 = 0 ∧ [1, 2, 3].length + 2 = 5 ∧
    ([] : List Nat).length + 1 = 1 := by
  decide +kernel

/-- "AC-42", an empty segment, and the least value too large for each size of group. -/
theorem test_hyps_AlphanumericAppendsCharacters :
    (∀ bits ∈ [bitsOfNat (alphanumericWidth 27) 5 ++ charGroups [10, 12, 41, 4, 2],
      bitsOfNat (alphanumericWidth 27) 0 ++ charGroups [],
        bitsOfNat (alphanumericWidth 27) 4 ++ charGroups [10, 44] ++ bitsOfNat 11 2025,
        bitsOfNat (alphanumericWidth 27) 1 ++ charGroups [] ++ bitsOfNat 6 45],
      (streaming 27 bits).activity ≠ .idle ∧ (streaming 27 bits).bb.Wf ∧ StreamAt (streaming 27 bits).bb bits) ∧
    (∀ i ∈ [10, 12, 41, 4, 2, 44], i < 45) ∧ 5 < 2 ^ alphanumericWidth (streaming 27 []).seg.ver ∧
    [10, 44].length % 2 = 0 ∧ [10, 44].length + 2 ≤ 4 ∧ ([] : List Nat).length + 1 = 1 := by
  decide +kernel

/-- BYTE with a named ECI, with an ECI without a name and without ECI; KANJI with the greatest unit. -/
theorem test_hyps_ByteAndKanjiAppendText :
    (∀ bits ∈ [bitsOfNat (byteWidth 10) 2 ++ byteBits [0xC3, 0xA9], bitsOfNat (kanjiWidth 10) 2 ++ unitBits [0,
      8191]],
      (streaming 10 bits).activity ≠ .idle ∧ (streaming 10 bits).bb.Wf ∧ StreamAt (streaming 10 bits).bb bits) ∧
    (∃ id, some (EciRecord.mk 26 (some .utf8)) = some ⟨id, some .utf8⟩) ∧
    (∀ (id : Nat) (n : Config.Charset), some (EciRecord.mk 899 none) ≠ some ⟨id, some n⟩) ∧
    (∀ (id : Nat) (n : Config.Charset), (streaming 10 []).seg.eci ≠ some ⟨id, some n⟩) ∧
    (∀ u ∈ [0, 8191], u < 2 ^ 13) ∧ 2 < 2 ^ byteWidth 10 ∧ 2 < 2 ^ kanjiWidth 10 := by
  refine ⟨by decide +kernel, ⟨26, rfl⟩, ?_, ?_, by decide⟩ <;> intro id n h <;> cases h

/-- Ids on both sides of 999999, and a designator in the stream. -/
theorem test_hyps_EciWritesTheRecord :
    ((999999 : BitVec 21).toNat ≤ 999999 ∧ 999999 < (1000000 : BitVec 21).toNat) ∧
    (running 1 [0x83, 0x83]).activity ≠ .idle ∧ (running 1 [0x83, 0x83]).bb.Wf ∧ isEci (.eci2 899) = true ∧
    encode (.eci2 899) = .bits (bitsOfNat 4 0b0111 ++ bitsOf "1000001110000011") ∧
    StreamAt (running 1 [0x83, 0x83]).bb (bitsOf "1000001110000011") := by decide

/-- Sixteen bits, and one bit fewer. -/
theorem test_hyps_AppendInertAndIllegalSegments :
    ((running 1 [0x13, 0xAB]).activity ≠ .idle ∧ (running 1 [0x13, 0xAB]).bb.Wf ∧
      StreamAt (running 1 [0x13, 0xAB]).bb (bitsOfNat 8 (0x13 : Byte).toNat ++ bitsOfNat 8 (0xAB : Byte).toNat)) ∧
    (⟨[0x13, 0xAB], 0, 1⟩ : BitBuffer).avail < 16 := by decide

/-- A run whose stream is `bits` to the last bit: what fills the first byte lies before the cursor. -/
def ending (ver : Nat) (bits : List Bool) : State :=
  let fill := (8 - bits.length % 8) % 8
  { running ver [] with bb := ⟨packBits (List.replicate fill false ++ bits), 0, fill⟩ }

/-- Streams cut one bit before the end of each count, and inside a group of each size; the cut groups of NUMERIC and
ALPHANUMERIC already spell a value that is too large. -/
theorem test_hyps_TruncatedSegmentsUnderrun :
    ((ending 1 (bitsOf "000000000")).bb.avail < numericWidth 1 ∧
    (ending 1 (bitsOf "00000000")).bb.avail < alphanumericWidth 1 ∧
      (ending 1 (bitsOf "0000000")).bb.avail < byteWidth 1 ∧ (ending 1 (bitsOf "0000000")).bb.avail < kanjiWidth 1) ∧
    (∀ c ∈ [(bitsOfNat 10 3 ++ digitGroups [], 10, "111111"), (bitsOfNat 10 5 ++ digitGroups [9, 9, 9], 7, "1101"),
        (bitsOfNat 10 4 ++ digitGroups [0, 0, 0], 4, "11"), (bitsOfNat 9 2 ++ charGroups [], 11, "1111111111"),
        (bitsOfNat 9 3 ++ charGroups [44, 44], 6, "11"), (bitsOfNat 8 1, 8, "1111111"), (bitsOfNat 8 1, 13,
          "111111111111")],
      (ending 1 (c.1 ++ bitsOf c.2.2)).activity ≠ .idle ∧ (ending 1 (c.1 ++ bitsOf c.2.2)).bb.Wf ∧
      StreamAt (ending 1 (c.1 ++ bitsOf c.2.2)).bb c.1 ∧
      (ending 1 (c.1 ++ bitsOf c.2.2)).bb.avail < c.1.length + c.2.1) ∧
    (([] : List Nat).length + 3 ≤ 3 ∧ [9, 9, 9].length + 2 = 5 ∧ [0, 0, 0].length + 1 = 4 ∧
    ([] : List Nat).length + 2 ≤ 2 ∧
      [44, 44].length + 1 = 3) ∧
    CutDesignator ((running 1 [0x80]).bb.window 24) := by
  refine ⟨by decide, by decide +kernel, by decide, .inr (.inl ⟨by decide, bitsOf "000000", by decide⟩)⟩

/-- Ids and versions at the ends of the ranges of the tables. -/
theorem test_hyps_SegmentTables :
    (9 ≤ 9 ∧ 10 ≤ 10 ∧ 26 ≤ 26 ∧ 27 ≤ 27) ∧ (0x1EFF < 0x1F00 ∧ 0x1F00 ≤ 0x1F00 ∧ 0x1FFF < 2 ^ 13) ∧
    (0x173F < 0x1740 ∧ 4 ≤ 4 ∧ 13 ≤ 13 ∧ 21 ≤ 21 ∧ 25 ≤ 25 ∧ 31 ≤ 31 ∧ 31 ≠ 170) := by decide

/-- Scenario E as a stream: two segments, a TERMINATOR and padding; and an empty stream of fewer than four bits. -/
theorem test_hyps_EncodedStreamsDecode :
    (1 ≤ (1 : Byte).toNat ∧ (1 : Byte).toNat ≤ 40) ∧ FitsField [0x31, 0x3A, 0xB1, 0x00, 0x95, 0x00] ∧
    (∀ g ∈ [Seg.append 0x13 0xAB, .num [4, 2]], g.Valid (1 : Byte).toNat) ∧
    (∃ more, bitsOf "0000000" = bitsOfNat 4 0b0000 ++ more) ∧
    byteBits [0x31, 0x3A, 0xB1, 0x00, 0x95, 0x00] =
      [Seg.append 0x13 0xAB, .num [4, 2]].flatMap (Seg.bits (1 : Byte).toNat) ++ bitsOf "0000000" ∧
    (([] : List Bool).length < 4 ∧ byteBits [] = ([] : List Seg).flatMap (Seg.bits (1 : Byte).toNat) ++ []) ∧
    ((sent [0x60, 0x01, 0x00, 0x06, 0x31, 0x3A, 0xB1, 0x00, 0x95, 0x00]).activity = .idle ∧
      encode (.segDecode 1 [0x31, 0x3A, 0xB1, 0x00, 0x95, 0x00]) =
        .packet [0x60, 0x01, 0x00, 0x06, 0x31, 0x3A, 0xB1, 0x00, 0x95, 0x00]) ∧
    (startRun (.decodeRun 0) 1 [0x31, 0x3A, 0xB1, 0x00, 0x95, 0x00] State.reset).activity = .decodeRun 0 := by
  refine ⟨by decide, by decide, ?_, ⟨bitsOf "000", by decide⟩, by decide +kernel, by decide, by decide, rfl⟩
  intro g hg
  rcases List.mem_cons.mp hg with rfl | hg
  · trivial
  · rw [List.mem_singleton.mp hg]
    exact ⟨by decide, by decide⟩

end Sys2Proof.Tests
end

section
/-! SUPPORT. Which level an instruction that decodes belongs to (spec/30_encoding.md R90): a packet decodes to a
command, a row of the stream to a segment. -/

namespace Sys2Proof.Machine

/-- Whatever the parse `x` finds is a command. -/
def FindsCommand (x : Option (Instr × List Byte)) : Prop := ∀ r ∈ x, isSegment r.1 = false

namespace FindsCommand

theorem map {α : Type} {x : Option (α × List Byte)} {k : α → Instr} (h : ∀ a, isSegment (k a) = false) :
    FindsCommand (x.map fun (a, rest) => (k a, rest)) := by
  intro r hr
  obtain ⟨a, -, rfl⟩ := Option.mem_map.mp hr
  exact h a.1

theorem bind {α : Type} {x : Option (α × List Byte)} {f : α × List Byte → Option (Instr × List Byte)}
    (h : ∀ a rest, FindsCommand (f (a, rest))) : FindsCommand (x.bind f) := by
  intro r hr
  obtain ⟨a, -, ha⟩ := Option.mem_bind_iff.mp hr
  exact h a.1 a.2 r ha

theorem formatF0 {k : Instr} (h : isSegment k = false) (bytes : List Byte) : FindsCommand (formatF0 k bytes) := by
  intro r hr
  cases hr
  exact h

theorem formatFS {k : Byte → Instr} (h : ∀ a, isSegment (k a) = false) (bytes : List Byte) :
    FindsCommand (formatFS k bytes) := map h

theorem formatFSS {k : Byte → Byte → Instr} (h : ∀ a b, isSegment (k a b) = false) (bytes : List Byte) :
    FindsCommand (formatFSS k bytes) := bind fun a => formatFS (h a)

theorem formatFW {k : Word16 → Instr} (h : ∀ i, isSegment (k i) = false) (bytes : List Byte) :
    FindsCommand (formatFW k bytes) := map h

theorem formatFDS {k : Word16 → Byte → Instr} (h : ∀ d a, isSegment (k d a) = false) (bytes : List Byte) :
    FindsCommand (formatFDS k bytes) := bind fun d => formatFS (h d)

theorem formatFP {k : List Byte → Instr} (h : ∀ p, isSegment (k p) = false) (bytes : List Byte) :
    FindsCommand (formatFP k bytes) := map h

theorem formatFPW {k : List Byte → Word16 → Instr} (h : ∀ p d, isSegment (k p d) = false) (bytes : List Byte) :
    FindsCommand (formatFPW k bytes) := bind fun p => formatFW (h p)

theorem formatFPS {k : List Byte → Byte → Instr} (h : ∀ p a, isSegment (k p a) = false) (bytes : List Byte) :
    FindsCommand (formatFPS k bytes) := bind fun p => formatFS (h p)

theorem formatFPDS {k : List Byte → Word16 → Byte → Instr} (h : ∀ p d a, isSegment (k p d a) = false)
    (bytes : List Byte) : FindsCommand (formatFPDS k bytes) := bind fun p => formatFDS (h p)

theorem formatFPP {k : List Byte → List Byte → Instr} (h : ∀ p q, isSegment (k p q) = false) (bytes : List Byte) :
    FindsCommand (formatFPP k bytes) := bind fun p => formatFP (h p)

theorem formatFPPV {k : List Byte → List Byte → List Byte → Instr} (h : ∀ p q v, isSegment (k p q v) = false)
    (bytes : List Byte) : FindsCommand (formatFPPV k bytes) := bind fun p => formatFPP (h p)

theorem formatFSV {k : Byte → List Byte → Instr} (h : ∀ a v, isSegment (k a v) = false) (bytes : List Byte) :
    FindsCommand (formatFSV k bytes) := bind fun a => formatFP (h a)

theorem formatFSSV {k : Byte → Byte → List Byte → Instr} (h : ∀ a b v, isSegment (k a b v) = false)
    (bytes : List Byte) : FindsCommand (formatFSSV k bytes) := bind fun a => formatFSV (h a)

end FindsCommand

/-- Every opcode of the map is a command's (R95): the format of each, on the constructor it is given. -/
theorem operandParser_findsCommand {op : Byte} {parse : List Byte → Option (Instr × List Byte)}
    (h : operandParser op = some parse) (bytes : List Byte) : FindsCommand (parse bytes) := by
  unfold operandParser at h
  split at h <;> cases h
  any_goals exact FindsCommand.formatF0 rfl bytes
  any_goals exact FindsCommand.formatFS (fun _ => rfl) bytes
  any_goals exact FindsCommand.formatFSS (fun _ _ => rfl) bytes
  any_goals exact FindsCommand.formatFW (fun _ => rfl) bytes
  any_goals exact FindsCommand.formatFDS (fun _ _ => rfl) bytes
  any_goals exact FindsCommand.formatFP (fun _ => rfl) bytes
  any_goals exact FindsCommand.formatFPW (fun _ _ => rfl) bytes
  any_goals exact FindsCommand.formatFPS (fun _ _ => rfl) bytes
  any_goals exact FindsCommand.formatFPDS (fun _ _ _ => rfl) bytes
  any_goals exact FindsCommand.formatFPP (fun _ _ => rfl) bytes
  any_goals exact FindsCommand.formatFPPV (fun _ _ _ => rfl) bytes
  any_goals exact FindsCommand.formatFSV (fun _ _ => rfl) bytes
  all_goals exact FindsCommand.formatFSSV (fun _ _ _ => rfl) bytes

/-- A packet decodes to a command (R90). -/
theorem isSegment_of_decodePacket {bytes : List Byte} {i : Instr} (h : decodePacket bytes = .ok i) :
    isSegment i = false := by
  cases bytes with
  | nil => cases h
  | cons op operands =>
    rw [decodePacket] at h
    split at h
    · cases h
    next parse hop =>
      split at h
      next hparse =>
        cases h
        exact operandParser_findsCommand hop operands _ hparse
      · cases h

theorem decodeDesignator_isSegment (bits : List Bool) : isSegment (decodeDesignator bits).1 = true := by
  unfold decodeDesignator
  dsimp only
  repeat' split
  all_goals rfl

/-- A row of the stream decodes to a segment (R90). -/
theorem isSegment_of_decodeSegment {bits : List Bool} {i : Instr} {width : Nat}
    (h : decodeSegment bits = .ok (i, width)) : isSegment i = true := by
  unfold decodeSegment at h
  split at h
  next rest =>
    split at h
    -- the indicator 0111, whose designator has the rows of R107
    case h_8 =>
      have hi : i = (decodeDesignator rest).1 := by rw [Except.ok.inj h]
      rw [hi]
      exact decodeDesignator_isSegment rest
    all_goals cases h; rfl
  · cases h

end Sys2Proof.Machine
end

section
/-! SUPPORT. What a command answers from. No stage reads a working register that its command has not written, so the
commands of RS and DEINT answer what functions of their operands answer; and every command but the four that touch the
bit buffer is one `answer` (spec/10_state.md R40, spec/70_reset_and_hazards.md R356, R358). -/

namespace Sys2Proof.Machine

open Sys2Proof.Config

/-- Two results that look alike through `f` are the same fault, or two answers that look alike. -/
theorem except_map_eq_map {ε α β : Type} {x y : Except ε α} {f : α → β} (h : x.map f = y.map f) :
    (∃ c, x = .error c ∧ y = .error c) ∨ ∃ a b, x = .ok a ∧ y = .ok b ∧ f a = f b := by
  rcases x with c | a <;> rcases y with d | b
  · exact .inl ⟨c, rfl, congrArg Except.error (Except.error.inj h).symm⟩
  · cases h
  · cases h
  · exact .inr ⟨a, b, rfl, rfl, Except.ok.inj h⟩

/-! ## The stages -/

/-- What the stages after the syndromes correct does not depend on the registers before them. -/
theorem correctStages_congr (received : List Byte) (twoS : Nat) (w w' : Work) :
    (correctStages (stageSyn received twoS w)).map correctedOf =
      (correctStages (stageSyn received twoS w')).map correctedOf := by
  unfold correctStages stageEuclid
  dsimp only [stageSyn_work]
  rcases rsEuclid (rsSyn received twoS).2 twoS with c | ⟨e, sigma, omega⟩
  · rfl
  dsimp only [Except.bind, stageChien]
  rcases rsChien sigma with c | xloc
  · rfl
  dsimp only [stageForney]
  rcases rsForney sigma omega xloc with c | emag
  · rfl
  dsimp only [stagePositions]
  rcases rsPositions received.length xloc with c | epos <;> rfl

/-- The stages leave AGG alone. -/
theorem correctStages_agg {w v : Work} (h : correctStages w = .ok v) : v.agg = w.agg := by
  obtain ⟨w3, h, hpos⟩ := bind_ok h
  obtain ⟨w2, h, hforney⟩ := bind_ok h
  obtain ⟨w1, heuclid, hchien⟩ := bind_ok h
  obtain ⟨e, sigma, omega, -, rfl⟩ := stageEuclid_eq_ok.mp heuclid
  obtain ⟨xloc, -, rfl⟩ := stageChien_eq_ok.mp hchien
  obtain ⟨emag, -, rfl⟩ := stageForney_eq_ok.mp hforney
  obtain ⟨epos, -, rfl⟩ := stagePositions_eq_ok.mp hpos
  rfl

theorem rsDecode_agg {received out : List Byte} {twoS : Nat} {w v : Work}
    (h : rsDecode received twoS w = .ok (v, out)) : v.agg = w.agg := by
  rcases rsDecode_eq_ok.mp h with ⟨-, rfl, -⟩ | ⟨-, hv, -⟩
  · rfl
  · exact correctStages_agg (w := stageSyn received twoS w) hv

/-- The decoder reads none of the registers that it finds: what it answers is a function of its operands (R189). -/
theorem rsDecode_map_snd (received : List Byte) (twoS : Nat) (w : Work) :
    (rsDecode received twoS w).map Prod.snd = corrected received twoS := by
  have hstages := correctStages_congr received twoS w Work.reset
  have hsyn (u : Work) : (stageSyn received twoS u).syn = (rsSyn received twoS).1 := rfl
  unfold corrected rsDecode
  dsimp only
  rw [hsyn, hsyn]
  split
  · rfl
  · rcases except_map_eq_map hstages with ⟨c, hc, hc'⟩ | ⟨v, v', hv, hv', heq⟩
    · rw [hc, hc']
    · rw [hv, hv']
      exact congrArg Except.ok heq

/-- What the correction loop of R281 adds to AGG depends on the blocks alone. -/
theorem correctBlocks_map_agg (blk : List Block) {w w' : Work} (h : w.agg = w'.agg) :
    (correctBlocks blk w).map Work.agg = (correctBlocks blk w').map Work.agg := by
  induction blk generalizing w w' with
  | nil => exact congrArg Except.ok h
  | cons b rest ih =>
    have hsnd : (rsDecode b.buf (b.buf.length - b.ndata) w).map Prod.snd =
        (rsDecode b.buf (b.buf.length - b.ndata) w').map Prod.snd := by rw [rsDecode_map_snd, rsDecode_map_snd]
    rw [correctBlocks, correctBlocks]
    rcases except_map_eq_map hsnd with ⟨c, hc, hc'⟩ | ⟨⟨v, out⟩, ⟨v', out'⟩, hv, hv', rfl⟩
    · rw [hc, hc']
    · rw [hv, hv']
      refine ih ?_
      dsimp only
      rw [rsDecode_agg hv, rsDecode_agg hv', h]

/-- The blocks are functions of the operands and the configuration (R212). -/
theorem deinterleave_map_blk (cfg : Params) (version ecl : Byte) (raw : List Byte) (w w' : Work) :
    (deinterleave cfg version ecl raw w).map Work.blk = (deinterleave cfg version ecl raw w').map Work.blk := by
  unfold deinterleave
  split
  · rfl
  split
  · rfl
  dsimp only
  split
  · rfl
  split
  · rfl
  split <;> rfl

/-- The stages of DECODE before its stream read none of the registers that they find (R281). -/
theorem pipelineStages_map_agg (cfg : Params) (version ecl : Byte) (raw : List Byte) (w w' : Work) :
    (pipelineStages cfg version ecl raw w).map Work.agg = (pipelineStages cfg version ecl raw w').map Work.agg := by
  unfold pipelineStages
  rcases except_map_eq_map (deinterleave_map_blk cfg version ecl raw w w') with ⟨c, hc, hc'⟩ | ⟨v, v', hv, hv', hblk⟩
  · rw [hc, hc']
  · rw [hv, hv']
    dsimp only
    rw [hblk]
    exact correctBlocks_map_agg _ rfl

/-! ## The commands -/

theorem command_congr {s : State} {body body' : State → Except Cause State} (h : body s = body' s) :
    command s body = command s body' := by
  unfold command
  rw [h]

theorem execRsSyn_eq_answer (received : List Byte) (twoS : Word16) (s : State) :
    execRsSyn received twoS s =
      answer s (.ok (vecField (rsSyn received twoS.toNat).1 ++ vecField (rsSyn received twoS.toNat).2)) := rfl

/-- The end of a command that leaves values in the working registers: they are dropped (R40). -/
theorem bind_complete (x : Except Cause Work) (f : Work → List Byte) (s : State) :
    (x >>= fun w => pure (complete (f w) { s with work := w })) = (x.map f).map fun g => complete g s := by
  cases x <;> rfl

theorem stageEuclid_map {α : Type} (f : Poly → Poly → α) (w : Work) :
    (stageEuclid w).map (fun v => f v.sigma v.omega) = (rsEuclid w.spoly w.twos).map fun r => f r.2.1 r.2.2 := by
  unfold stageEuclid
  cases rsEuclid w.spoly w.twos <;> rfl

theorem stageChien_map {α : Type} (f : List Byte → α) (w : Work) :
    (stageChien w).map (fun v => f v.xloc) = (rsChien w.sigma).map f := by
  unfold stageChien
  cases rsChien w.sigma <;> rfl

theorem stageForney_map {α : Type} (f : List Byte → α) (w : Work) :
    (stageForney w).map (fun v => f v.emag) = (rsForney w.sigma w.omega w.xloc).map f := by
  unfold stageForney
  cases rsForney w.sigma w.omega w.xloc <;> rfl

theorem execRsEuclid_eq_answer (spoly : Poly) (twoS : Word16) (s : State) :
    execRsEuclid spoly twoS s = answer s (withPoly spoly fun p =>
      (rsEuclid p twoS.toNat).map fun r => vecField r.2.1 ++ vecField r.2.2) := by
  refine command_congr ?_
  unfold withPoly
  rcases polyOperand spoly with c | p
  · rfl
  · refine (bind_complete _ _ _).trans (congrArg _ ?_)
    exact stageEuclid_map (fun sigma omega => vecField sigma ++ vecField omega) _

theorem execRsChien_eq_answer (sigma : Poly) (s : State) :
    execRsChien sigma s = answer s (withPoly sigma fun p => (rsChien p).map vecField) := by
  refine command_congr ?_
  unfold withPoly
  rcases polyOperand sigma with c | p
  · rfl
  · exact (bind_complete _ _ _).trans (congrArg _ (stageChien_map vecField _))

theorem execRsForney_eq_answer (sigma omega : Poly) (xloc : List Byte) (s : State) :
    execRsForney sigma omega xloc s =
      answer s (withPolys sigma omega fun p q => (rsForney p q xloc).map vecField) := by
  refine command_congr ?_
  unfold withPolys withPoly
  rcases polyOperand sigma with c | p
  · rfl
  rcases polyOperand omega with c | q
  · rfl
  · exact (bind_complete _ _ _).trans (congrArg _ (stageForney_map vecField _))

theorem execRsDecode_eq_answer (received : List Byte) (twoS : Word16) (s : State) :
    execRsDecode received twoS s = answer s ((corrected received twoS.toNat).map vecField) := by
  refine command_congr ?_
  rw [← rsDecode_map_snd received twoS.toNat s.work]
  cases rsDecode received twoS.toNat s.work <;> rfl

theorem execDeint_eq_answer (version ecl : Byte) (raw : List Byte) (s : State) :
    execDeint version ecl raw s =
      answer s (((deinterleave s.cfg version ecl raw Work.reset).map Work.blk).map blocksField) := by
  refine command_congr ?_
  rw [deinterleave_map_blk s.cfg version ecl raw Work.reset s.work]
  cases deinterleave s.cfg version ecl raw s.work <;> rfl

/-- The meaning `m` is one answer, made of the configuration and the bit buffer alone. -/
def AnswersFromBits (m : State → Result) : Prop :=
  ∃ fields : Params → BitBuffer → Except Cause (List Byte), ∀ s, m s = answer s (fields s.cfg s.bb)

/-- Fields made of the operands alone. -/
theorem answersFromBits_of_operands {m : State → Result} {fields : Except Cause (List Byte)}
    (h : ∀ s, m s = answer s fields) : AnswersFromBits m := ⟨fun _ _ => fields, h⟩

/-- Every command but the four that touch the bit buffer is one answer: those of GF and POLY by definition, those of
RS and DEINT because no stage reads an old register, BB.AVAIL from the cursor. -/
theorem exec_answersFromBits {i : Instr} (hi : isSegment i = false) (ht : touchesBitBuffer i = false) :
    AnswersFromBits (exec i) := by
  cases i
  case gfAdd a b => exact answersFromBits_of_operands (fields := .ok [a ^^^ b]) fun _ => rfl
  case gfMul a b => exact answersFromBits_of_operands (fields := .ok [gmul a b]) fun _ => rfl
  case gfExp i => exact answersFromBits_of_operands (fields := .ok [gexp i.toNat]) fun _ => rfl
  case gfInv | gfLog | gfMono | polyNew | polyDeg | polyCoef | polyIsZero | polyEval | polyAdd | polyMul | polyMulI |
      polyMulM | polyDiv | polyMod => exact answersFromBits_of_operands fun _ => rfl
  case rsSyn received twoS => exact answersFromBits_of_operands (execRsSyn_eq_answer received twoS)
  case rsEuclid p twoS => exact answersFromBits_of_operands (execRsEuclid_eq_answer p twoS)
  case rsChien p => exact answersFromBits_of_operands (execRsChien_eq_answer p)
  case rsForney p q xloc => exact answersFromBits_of_operands (execRsForney_eq_answer p q xloc)
  case rsDecode received twoS => exact answersFromBits_of_operands (execRsDecode_eq_answer received twoS)
  case deint version ecl raw =>
    exact ⟨fun cfg _ => ((deinterleave cfg version ecl raw Work.reset).map Work.blk).map blocksField,
      execDeint_eq_answer version ecl raw⟩
  case bbAvail => exact ⟨fun _ b => .ok (u32Field b.avail), fun _ => rfl⟩
  case bbLoad | bbRead | segDecode | decode => cases ht
  all_goals cases hi

end Sys2Proof.Machine
end

section
/-! SUPPORT. What a segment does to the run: the cursor and the segment registers, computed from them and the
configuration (spec/45_segment_decoder.md R243 to R252). -/

namespace Sys2Proof.Machine

open Sys2Proof.Config

/-- The cursor and the segment registers after a segment that does not end the run, from those before it. The illegal
indicators are the last case; TERMINATOR and the commands are not segments that go on. -/
def segmentEffect (cfg : Params) (b : BitBuffer) (r : SegRegs) : Instr → Except Cause (BitBuffer × SegRegs)
  | .numeric => (readNumeric r.ver b).map fun x => (x.2, { r with text := r.text ++ x.1 })
  | .alphanumeric => (readAlphanumeric r.ver b).map fun x => (x.2, { r with text := r.text ++ x.1 })
  | .structuredAppend =>
    (readAppendPair b).map fun x => (x.2, { r with saseq := some x.1.1, sapar := some x.1.2 })
  | .byte =>
    (readByteSegment r.ver b).map fun x =>
      (x.2, { r with text := r.text ++ transcode (byteCharset r.eci x.1) x.1, eci := none })
  | .kanji =>
    (readKanji cfg r.ver b).map fun x => (x.2, { r with text := r.text ++ transcode .shiftJis x.1 })
  | .fnc1First => .ok (b, r)
  | .fnc1Second => .ok (b, r)
  | .eci =>
    (readDesignator b).bind fun x => (eciRecord cfg x.1).map fun e => (x.2, { r with eci := some e })
  | .eci1 id => (eciRecord cfg id.toNat).map fun e => (b, { r with eci := some e })
  | .eci2 id => (eciRecord cfg id.toNat).map fun e => (b, { r with eci := some e })
  | .eci3 id => (eciRecord cfg id.toNat).map fun e => (b, { r with eci := some e })
  | .eciBad _ => .error .badEciHeader
  | _ => .error .badMode

/-- The body of a segment: its effect on the cursor and the segment registers, nothing else. -/
def segmentBody (i : Instr) (s : State) : Except Cause State :=
  (segmentEffect s.cfg s.bb s.seg i).map fun x => { s with bb := x.1, seg := x.2 }

theorem segment_congr {s : State} {body body' : State → Except Cause State} (h : body s = body' s) :
    segment s body = segment s body' := by
  unfold segment
  rw [h]

theorem setEci_eq (id : Nat) (b : BitBuffer) (s : State) :
    setEci id b s = ((eciRecord s.cfg id).map fun e => (b, { s.seg with eci := some e })).map fun x =>
      { s with bb := x.1, seg := x.2 } := by
  unfold setEci
  cases eciRecord s.cfg id <;> rfl

/-- Every segment but TERMINATOR is its effect. -/
theorem exec_eq_segmentBody {i : Instr} (hi : isSegment i = true) (ht : i ≠ .terminator) (s : State) :
    exec i s = segment s (segmentBody i) := by
  cases i
  case terminator => exact absurd rfl ht
  case numeric =>
    show execNumeric s = _
    refine segment_congr ?_
    simp only [segmentBody, segmentEffect]
    cases readNumeric s.seg.ver s.bb <;> rfl
  case alphanumeric =>
    show execAlphanumeric s = _
    refine segment_congr ?_
    simp only [segmentBody, segmentEffect]
    cases readAlphanumeric s.seg.ver s.bb <;> rfl
  case structuredAppend =>
    show execStructuredAppend s = _
    refine segment_congr ?_
    simp only [segmentBody, segmentEffect]
    cases readAppendPair s.bb <;> rfl
  case byte =>
    show execByte s = _
    refine segment_congr ?_
    simp only [segmentBody, segmentEffect]
    cases readByteSegment s.seg.ver s.bb <;> rfl
  case kanji =>
    show execKanji s = _
    refine segment_congr ?_
    simp only [segmentBody, segmentEffect]
    cases readKanji s.cfg s.seg.ver s.bb <;> rfl
  case eci =>
    show execEci s = _
    refine segment_congr ?_
    simp only [segmentBody, segmentEffect]
    rcases readDesignator s.bb with c | x
    · rfl
    · exact setEci_eq x.1 x.2 s
  case eci1 id =>
    show execEci1 id s = _
    exact segment_congr (setEci_eq id.toNat s.bb s)
  case eci2 id =>
    show execEci2 id s = _
    exact segment_congr (setEci_eq id.toNat s.bb s)
  case eci3 id =>
    show execEci3 id s = _
    exact segment_congr (setEci_eq id.toNat s.bb s)
  case fnc1First | fnc1Second | eciBad | illegal0110 | illegal1010 | illegal1011 | illegal1100 | illegal1101 |
      illegal1110 | illegal1111 => rfl
  all_goals cases hi

theorem except_map_eq_ok {ε α β : Type} {x : Except ε α} {f : α → β} {r : β} (h : x.map f = .ok r) :
    ∃ a, x = .ok a ∧ f a = r := by
  cases x with
  | error c => cases h
  | ok a => exact ⟨a, rfl, Except.ok.inj h⟩

/-- A segment that goes on moves the cursor on over bits that are there, and leaves VER (R33). -/
theorem segmentEffect_advances {cfg : Params} {b : BitBuffer} {r : SegRegs} {i : Instr} {x : BitBuffer × SegRegs}
    (hb : b.Wf) (h : segmentEffect cfg b r i = .ok x) : Advances b x.1 ∧ x.2.ver = r.ver := by
  unfold segmentEffect at h
  cases i
  case numeric => obtain ⟨a, ha, rfl⟩ := except_map_eq_ok h; exact ⟨readNumeric_advances hb ha, rfl⟩
  case alphanumeric => obtain ⟨a, ha, rfl⟩ := except_map_eq_ok h; exact ⟨readAlphanumeric_advances hb ha, rfl⟩
  case structuredAppend => obtain ⟨a, ha, rfl⟩ := except_map_eq_ok h; exact ⟨readAppendPair_advances hb ha, rfl⟩
  case byte => obtain ⟨a, ha, rfl⟩ := except_map_eq_ok h; exact ⟨readByteSegment_advances hb ha, rfl⟩
  case kanji => obtain ⟨a, ha, rfl⟩ := except_map_eq_ok h; exact ⟨readKanji_advances hb ha, rfl⟩
  case fnc1First | fnc1Second => cases h; exact ⟨.refl b, rfl⟩
  case eci =>
    obtain ⟨a, ha, h⟩ := bind_ok h
    obtain ⟨e, -, rfl⟩ := except_map_eq_ok h
    exact ⟨readDesignator_advances hb ha, rfl⟩
  case eci1 | eci2 | eci3 => obtain ⟨e, -, rfl⟩ := except_map_eq_ok h; exact ⟨.refl b, rfl⟩
  all_goals cases h

/-- A segment after which the run goes on is its effect on the cursor and the segment registers, everything else as it
was; TERMINATOR and the faults end the run. -/
theorem exec_segment_goesOn {i : Instr} {s t : State} (hi : isSegment i = true) (h : exec i s = .next t)
    (ht : t.activity ≠ .idle) :
    ∃ x, segmentEffect s.cfg s.bb s.seg i = .ok x ∧ t = { s with bb := x.1, seg := x.2 } := by
  by_cases hterm : i = .terminator
  · subst hterm
    rw [show exec .terminator s = execTerminator s from rfl, execTerminator] at h
    obtain ⟨-, hend | ⟨c, -, rfl⟩⟩ := segment_next h
    · cases hend
      exact absurd (endRun_activity s) ht
    · exact absurd (takeFault_activity c s) ht
  · rw [exec_eq_segmentBody hi hterm] at h
    obtain ⟨-, hbody | ⟨c, -, rfl⟩⟩ := segment_next h
    · obtain ⟨x, hx, rfl⟩ := except_map_eq_ok hbody
      exact ⟨x, hx, rfl⟩
    · exact absurd (takeFault_activity c s) ht

end Sys2Proof.Machine
end

section
/-! CLAIMS. Family 10_state: the frame of the segments. -/

namespace Sys2Proof.Machine

/-- Settles O17: a segment that goes on is its effect on the cursor and the segment registers, and that effect moves
the cursor on and leaves VER. -/
theorem segmentsChangeOnlyTheirRegisters : Obligations.SegmentsChangeOnlyTheirRegisters := by
  intro i s t hi hb h ht
  obtain ⟨x, hx, rfl⟩ := exec_segment_goesOn hi h ht
  obtain ⟨hadv, hver⟩ := segmentEffect_advances hb hx
  obtain ⟨hwf, hbbuf, hpos, -⟩ := hadv.cursor hb
  exact ⟨rfl, rfl, rfl, rfl, rfl, rfl, hver, hwf, hbbuf, hpos⟩

end Sys2Proof.Machine
end

section
/-! SUPPORT. Two engines that cannot be told apart from now on. They agree on the bit buffer, the configuration and what
the host sends; inside a run also on the segment registers, and inside DECODE on AGG, the one working register that its
response reads. Every step keeps this and answers alike (spec/10_state.md R40, spec/70_reset_and_hazards.md R356). -/

namespace Sys2Proof.Machine

/-- What the two states have to share for the same future. -/
structure Alike (s s' : State) : Prop where
  bb : s.bb = s'.bb
  cfg : s.cfg = s'.cfg
  script : s.script = s'.script
  activity : s.activity = s'.activity
  seg : s.activity ≠ .idle → s.seg = s'.seg
  agg : ∀ ecl, s.activity = .decodeRun ecl → s.work.agg = s'.work.agg

/-- From `s` to `t` and from `s'` to `t'` the same responses were added, and the ends are alike. -/
def AnsweredAlike (s s' t t' : State) : Prop :=
  Alike t t' ∧ ∃ rs, t.responses = s.responses ++ rs ∧ t'.responses = s'.responses ++ rs

/-- Both results are states that `AnsweredAlike` relates. -/
def GoOnAlike (s s' : State) (o o' : Result) : Prop :=
  ∃ t t', o = .next t ∧ o' = .next t' ∧ AnsweredAlike s s' t t'

namespace Alike

variable {s s' : State}

/-- Between commands the registers need not agree. -/
theorem of_idle (hi : s.activity = .idle) (hi' : s'.activity = .idle) (hbb : s.bb = s'.bb) (hcfg : s.cfg = s'.cfg)
    (hscript : s.script = s'.script) : Alike s s' where
  bb := hbb
  cfg := hcfg
  script := hscript
  activity := hi.trans hi'.symm
  seg h := absurd hi h
  agg ecl h := by rw [hi] at h; cases h

theorem idle (h : Alike s s') (hi : s.activity = .idle) : s'.activity = .idle := h.activity.symm.trans hi

theorem running (h : Alike s s') (hi : s.activity ≠ .idle) : s'.activity ≠ .idle := h.activity ▸ hi

/-- With another cursor and other segment registers, the same in both. -/
theorem withCursor (h : Alike s s') (b : BitBuffer) (r : SegRegs) :
    Alike { s with bb := b, seg := r } { s' with bb := b, seg := r } where
  bb := rfl
  cfg := h.cfg
  script := h.script
  activity := h.activity
  seg _ := rfl
  agg := h.agg

theorem withScript (h : Alike s s') (rest : List HostAction) :
    Alike { s with script := rest } { s' with script := rest } where
  bb := h.bb
  cfg := h.cfg
  script := rfl
  activity := h.activity
  seg := h.seg
  agg := h.agg

theorem withBits (h : Alike s s') (b : BitBuffer) : Alike { s with bb := b } { s' with bb := b } where
  bb := rfl
  cfg := h.cfg
  script := h.script
  activity := h.activity
  seg := h.seg
  agg := h.agg

/-- The fields of the response are made of what the two share (R240, R280). -/
theorem runFields_eq (h : Alike s s') (hi : s.activity ≠ .idle) : runFields s = runFields s' := by
  have hseg := h.seg hi
  unfold runFields
  rw [← h.activity, hseg]
  split
  next ecl ha => rw [h.agg ecl ha]
  · rfl

/-! ### The ends of a command -/

theorem complete (h : Alike s s') (f : List Byte) :
    AnsweredAlike s s' (Machine.complete f s) (Machine.complete f s') :=
  ⟨of_idle rfl rfl h.bb h.cfg h.script, _, rfl, rfl⟩

theorem takeFault (h : Alike s s') (c : Cause) :
    AnsweredAlike s s' (Machine.takeFault c s) (Machine.takeFault c s') := by
  refine ⟨of_idle rfl rfl ?_ h.cfg h.script, _, rfl, rfl⟩
  rw [takeFault_bb, takeFault_bb, h.bb, h.activity]

theorem endRun (h : Alike s s') (hi : s.activity ≠ .idle) :
    AnsweredAlike s s' (Machine.endRun s) (Machine.endRun s') := by
  refine ⟨of_idle rfl rfl rfl h.cfg h.script, _, rfl, ?_⟩
  rw [endRun_responses, h.runFields_eq hi]

theorem resetEngine (h : Alike s s') : AnsweredAlike s s' (Machine.resetEngine s) (Machine.resetEngine s') :=
  ⟨of_idle rfl rfl rfl h.cfg h.script, [], (List.append_nil _).symm, (List.append_nil _).symm⟩

/-! ### The frames of a meaning -/

/-- A command answers alike if its body raises one fault in both states or ends alike in both. -/
theorem command (h : Alike s s') (hi : s.activity = .idle) {body : State → Except Cause State}
    (hbody : (∃ c, body s = .error c ∧ body s' = .error c) ∨
      ∃ t t', body s = .ok t ∧ body s' = .ok t' ∧ AnsweredAlike s s' t t') :
    GoOnAlike s s' (command s body) (command s' body) := by
  rcases hbody with ⟨c, hc, hc'⟩ | ⟨t, t', ht, ht', halike⟩
  · exact ⟨_, _, command_error hi hc, command_error (h.idle hi) hc', h.takeFault c⟩
  · exact ⟨t, t', command_ok hi ht, command_ok (h.idle hi) ht', halike⟩

/-- The same for a segment. -/
theorem segment (h : Alike s s') (hi : s.activity ≠ .idle) {body : State → Except Cause State}
    (hbody : (∃ c, body s = .error c ∧ body s' = .error c) ∨
      ∃ t t', body s = .ok t ∧ body s' = .ok t' ∧ AnsweredAlike s s' t t') :
    GoOnAlike s s' (segment s body) (segment s' body) := by
  rcases hbody with ⟨c, hc, hc'⟩ | ⟨t, t', ht, ht', halike⟩
  · exact ⟨_, _, segment_error hi hc, segment_error (h.running hi) hc', h.takeFault c⟩
  · exact ⟨t, t', segment_ok hi ht, segment_ok (h.running hi) ht', halike⟩

theorem answer (h : Alike s s') (hi : s.activity = .idle) (fields : Except Cause (List Byte)) :
    GoOnAlike s s' (answer s fields) (answer s' fields) := by
  refine h.command hi ?_
  rcases fields with c | f
  · exact .inl ⟨c, rfl, rfl⟩
  · exact .inr ⟨_, _, rfl, rfl, h.complete f⟩

/-! ### The commands that touch the bit buffer -/

theorem execBbLoad (h : Alike s s') (hi : s.activity = .idle) (bytes : List Byte) :
    GoOnAlike s s' (execBbLoad bytes s) (execBbLoad bytes s') :=
  h.command hi (.inr ⟨_, _, rfl, rfl, (h.withBits ⟨bytes, 0, 0⟩).complete []⟩)

theorem execBbRead (h : Alike s s') (hi : s.activity = .idle) (n : Byte) :
    GoOnAlike s s' (execBbRead n s) (execBbRead n s') := by
  refine h.command hi ?_
  rw [← h.bb]
  rcases s.bb.read (s8Operand n) with c | ⟨v, b⟩
  · exact .inl ⟨c, rfl, rfl⟩
  · exact .inr ⟨_, _, rfl, rfl, (h.withBits b).complete (u32Field v)⟩

/-- A run starts from its data, version and activity. -/
theorem startRun (h : Alike s s') (a : Activity) (ver : Nat) (data : List Byte)
    (hagg : ∀ ecl, a = .decodeRun ecl → s.work.agg = s'.work.agg) :
    AnsweredAlike s s' (Machine.startRun a ver data s) (Machine.startRun a ver data s') where
  left := ⟨rfl, h.cfg, h.script, rfl, fun _ => rfl, hagg⟩
  right := ⟨[], (List.append_nil _).symm, (List.append_nil _).symm⟩

theorem execSegDecode (h : Alike s s') (hi : s.activity = .idle) (version : Byte) (data : List Byte) :
    GoOnAlike s s' (execSegDecode version data s) (execSegDecode version data s') := by
  have hclear : Alike (clearBitBuffer s) (clearBitBuffer s') := h.withBits BitBuffer.reset
  refine hclear.command hi ?_
  rcases versionOperand version with c | ver
  · exact .inl ⟨c, rfl, rfl⟩
  · exact .inr ⟨_, _, rfl, rfl, hclear.startRun .segRun ver data fun ecl ha => by cases ha⟩

/-- DECODE raises the same fault or starts a run over the same AGG, whatever its registers held. -/
theorem execDecode (h : Alike s s') (hi : s.activity = .idle) (version ecl : Byte) (raw : List Byte) :
    GoOnAlike s s' (execDecode version ecl raw s) (execDecode version ecl raw s') := by
  have hclear : Alike (clearBitBuffer s) (clearBitBuffer s') := h.withBits BitBuffer.reset
  have hstages : (pipelineStages s.cfg version ecl raw s.work).map Work.agg =
      (pipelineStages s'.cfg version ecl raw s'.work).map Work.agg := by
    rw [← h.cfg, pipelineStages_map_agg]
  refine hclear.command hi ?_
  dsimp only [clearBitBuffer_cfg, clearBitBuffer_work]
  rcases except_map_eq_map hstages with ⟨c, hc, hc'⟩ | ⟨w, w', hw, hw', hagg⟩
  · exact .inl ⟨c, by rw [hc]; rfl, by rw [hc']; rfl⟩
  · have hwork : Alike { clearBitBuffer s with work := w } { clearBitBuffer s' with work := w' } :=
      of_idle hi (h.idle hi) rfl h.cfg h.script
    have hrun := hwork.startRun (.decodeRun ecl) version.toNat w.agg fun _ _ => hagg
    exact .inr ⟨_, _, by rw [hw]; rfl, by rw [hw', hagg]; rfl, hrun⟩

/-! ### Instructions and steps -/

theorem exec_command (h : Alike s s') (hi : s.activity = .idle) {i : Instr} (hcmd : isSegment i = false) :
    GoOnAlike s s' (exec i s) (exec i s') := by
  cases ht : touchesBitBuffer i with
  | false =>
    obtain ⟨fields, hfields⟩ := exec_answersFromBits hcmd ht
    rw [hfields s, hfields s', ← h.cfg, ← h.bb]
    exact h.answer hi _
  | true =>
    cases i
    case bbLoad bytes => exact h.execBbLoad hi bytes
    case bbRead n => exact h.execBbRead hi n
    case segDecode version data => exact h.execSegDecode hi version data
    case decode version ecl raw => exact h.execDecode hi version ecl raw
    all_goals cases ht

theorem exec_segment (h : Alike s s') (hi : s.activity ≠ .idle) {i : Instr} (hseg : isSegment i = true) :
    GoOnAlike s s' (exec i s) (exec i s') := by
  by_cases hterm : i = .terminator
  · subst hterm
    show GoOnAlike s s' (execTerminator s) (execTerminator s')
    exact h.segment hi (.inr ⟨_, _, rfl, rfl, h.endRun hi⟩)
  · have heffect : segmentEffect s'.cfg s'.bb s'.seg i = segmentEffect s.cfg s.bb s.seg i := by
      rw [h.cfg, h.bb, h.seg hi]
    rw [exec_eq_segmentBody hseg hterm, exec_eq_segmentBody hseg hterm]
    refine h.segment hi ?_
    unfold segmentBody
    rw [heffect]
    rcases segmentEffect s.cfg s.bb s.seg i with c | x
    · exact .inl ⟨c, rfl, rfl⟩
    · exact .inr ⟨_, _, rfl, rfl, h.withCursor x.1 x.2, [], (List.append_nil _).symm, (List.append_nil _).symm⟩

end Alike

theorem step_of_over {s t : State} (h : fetch s = .over t) : step s = .next t := by
  unfold step
  rw [h]

theorem step_of_run {s t : State} {i : Instr} (h : fetch s = .run i t) : step s = exec i t := by
  unfold step
  rw [h]

/-- The action the host sends decides the step between commands. -/
theorem Alike.step_idle {s s' : State} (h : Alike s s') (hi : s.activity = .idle) :
    GoOnAlike s s' (step s) (step s') := by
  have hi' := h.idle hi
  have hscript' := h.script
  cases hscript : s.script with
  | nil =>
    rw [hscript] at hscript'
    exact ⟨s, s', step_of_over (fetch_idle_nil hi hscript), step_of_over (fetch_idle_nil hi' hscript'.symm), h, [],
      (List.append_nil _).symm, (List.append_nil _).symm⟩
  | cons action rest =>
    rw [hscript] at hscript'
    have hrest := h.withScript rest
    cases action with
    | reset =>
      exact ⟨_, _, step_of_over (fetch_idle_reset hi hscript), step_of_over (fetch_idle_reset hi' hscript'.symm),
        hrest.resetEngine⟩
    | packet bytes =>
      have hf := fetch_idle_packet hi hscript
      have hf' := fetch_idle_packet hi' hscript'.symm
      unfold fetchPacket at hf hf'
      cases hdec : decodePacket bytes with
      | error r =>
        rw [hdec] at hf hf'
        exact ⟨_, _, step_of_over hf, step_of_over hf', hrest.takeFault (rejectCause r)⟩
      | ok i =>
        rw [hdec] at hf hf'
        rw [step_of_run hf, step_of_run hf']
        exact hrest.exec_command hi (isSegment_of_decodePacket hdec)

/-- The row at the cursor decides the step inside a run. -/
theorem Alike.step_run {s s' : State} (h : Alike s s') (hi : s.activity ≠ .idle) :
    GoOnAlike s s' (step s) (step s') := by
  have hf := fetch_run hi
  have hf' := fetch_run (h.running hi)
  unfold fetchSegment at hf hf'
  rw [← h.bb] at hf'
  cases hdec : decodeSegment (s.bb.window longestRow) with
  | error r =>
    rw [hdec] at hf hf'
    exact ⟨_, _, step_of_over hf, step_of_over hf', h.endRun hi⟩
  | ok x =>
    rw [hdec] at hf hf'
    rw [step_of_run hf, step_of_run hf']
    exact (h.withBits (s.bb.skip x.2)).exec_segment hi (isSegment_of_decodeSegment hdec)

/-- Every step of two engines that are alike goes on, answers alike, and leaves them alike. -/
theorem Alike.step {s s' : State} (h : Alike s s') : GoOnAlike s s' (step s) (step s') := by
  by_cases hi : s.activity = .idle
  · exact h.step_idle hi
  · exact h.step_run hi

theorem run_succ {M : Host.Core} {s t : M.State} (h : M.step s = .next t) (k : Nat) : M.run (k + 1) s = M.run k t := by
  rw [Host.Core.run, h]

theorem AnsweredAlike.trans {s s' t t' u u' : State} (h1 : AnsweredAlike s s' t t') (h2 : AnsweredAlike t t' u u') :
    AnsweredAlike s s' u u' := by
  obtain ⟨-, rs, hr, hr'⟩ := h1
  obtain ⟨halike, more, hm, hm'⟩ := h2
  refine ⟨halike, rs ++ more, ?_, ?_⟩
  · rw [hm, hr, List.append_assoc]
  · rw [hm', hr', List.append_assoc]

/-- So does every run of steps. -/
theorem Alike.run (k : Nat) {s s' : State} (h : Alike s s') :
    GoOnAlike s s' (Host.Core.run Sys2Proof.core k s) (Host.Core.run Sys2Proof.core k s') := by
  induction k generalizing s s' with
  | zero => exact ⟨s, s', rfl, rfl, h, [], (List.append_nil _).symm, (List.append_nil _).symm⟩
  | succ k ih =>
    obtain ⟨t, t', ht, ht', hstep⟩ := h.step
    obtain ⟨u, u', hu, hu', hrest⟩ := ih hstep.1
    exact ⟨u, u', (run_succ (M := core) ht k).trans hu, (run_succ (M := core) ht' k).trans hu', hstep.trans hrest⟩

/-- Settles O14: idle engines that agree on the bit buffer, the configuration and the host's script are alike, and
every run keeps them so and answers alike. -/
theorem responsesIgnoreWorkingRegisters : Obligations.ResponsesIgnoreWorkingRegisters := by
  intro k s s' hi hi' hbb hcfg hscript
  obtain ⟨t, t', ht, ht', halike, rs, hrs, hrs'⟩ := (Alike.of_idle hi hi' hbb hcfg hscript).run k
  exact ⟨t, t', rs, ht, ht', hrs, hrs', halike.activity, halike.bb, halike.script⟩

end Sys2Proof.Machine
end

section
/-! CLAIMS. Family 10_state: the engine after reset. -/

namespace Sys2Proof.Machine

/-- Nothing is written after reset: the cursor stands at the end of an empty buffer and no working register holds a
value (R41; log entries 3 and 4). -/
theorem inv_reset : Inv State.reset where
  cursor := ⟨Nat.le_refl 0, Nat.zero_le 7, fun _ => rfl⟩
  fits := Nat.zero_le _
  version := ⟨Nat.le_refl 1, by decide⟩
  eciId r h := by cases h
  dropped _ := ⟨rfl, rfl⟩

/-- A byte of the legal widths is its own signed value (R92, R234). -/
theorem s8Operand_of_le {n : Byte} (h : n.toNat ≤ 32) : s8Operand n = n.toNat := by
  unfold s8Operand
  rw [BitVec.toInt_eq_toNat_cond, if_pos (by omega)]

/-- A read of more bits than are left, of a legal width, underruns (R234). -/
theorem read_of_avail_lt {n : Nat} {b : BitBuffer} (h1 : 1 ≤ n) (h32 : n ≤ 32) (h : b.avail < n) :
    b.read n = .error .bbUnderrun := by
  unfold BitBuffer.read
  rw [if_neg (by omega), if_neg (by omega), if_pos (by omega)]

theorem execBbAvail_reset :
    exec .bbAvail State.reset = .next (ended 0x00 0x00 [0, 0, 0, 0] ⟨[], 0, 0⟩ State.reset) := by
  have hfield : u32Field State.reset.bb.avail = [0, 0, 0, 0] := by decide
  rw [← hfield]
  show execBbAvail State.reset = _
  exact answer_ok_ended rfl

theorem execBbRead_reset {n : Byte} (h1 : 1 ≤ n.toNat) (h32 : n.toNat ≤ 32) :
    exec (.bbRead n) State.reset = .next (ended 0x02 0x20 [] ⟨[], 0, 0⟩ State.reset) := by
  have havail : State.reset.bb.avail = 0 := rfl
  have hread : State.reset.bb.read (s8Operand n) = .error .bbUnderrun := by
    rw [s8Operand_of_le h32]
    exact read_of_avail_lt h1 h32 (by omega)
  show execBbRead n State.reset = _
  exact command_error_ended (c := .bbUnderrun) rfl (by rw [hread]; rfl)

/-- Settles O9: the values after reset, the two commands that look at the empty bit buffer, and the two steps that run
no command. -/
theorem resetLeavesAnEmptyEngine : Obligations.ResetLeavesAnEmptyEngine := by
  refine ⟨⟨inv_reset, rfl, rfl, rfl⟩, execBbAvail_reset, fun n => execBbRead_reset, ?_, ?_⟩
  · intro s rest hi hscript
    exact step_of_over (fetch_idle_reset hi hscript)
  · intro s hi hscript
    exact step_of_over (fetch_idle_nil hi hscript)

end Sys2Proof.Machine
end

section
/-! SUPPORT. The packet level of the encoding (spec/30_encoding.md R91 to R95): what each field and each format reads,
as an equivalence, so that decoding and encoding a command are the two directions of one fact. -/

namespace Sys2Proof.Machine

/-! ## Fields (R92) -/

theorem takeByte_eq_some {bytes rest : List Byte} {a : Byte} :
    takeByte bytes = some (a, rest) ↔ bytes = a :: rest := by
  cases bytes <;> simp [takeByte]

/-- Two bytes are a word big-endian exactly if they are the word's bytes. -/
theorem word16OfBytes_eq_iff {hi lo : Byte} {w : Word16} :
    word16OfBytes hi lo = w ↔ [hi, lo] = bytesOfWord16 w := by
  simp only [bytesOfWord16, List.cons.injEq, and_true]
  constructor
  · rintro rfl
    exact ⟨BitVec.extractLsb'_append_eq_left.symm, BitVec.extractLsb'_append_eq_right.symm⟩
  · rintro ⟨rfl, rfl⟩
    exact BitVec.extractLsb'_append_extractLsb' (w := 8) (len := 8) (x := w)

theorem takeWord16_eq_some {bytes rest : List Byte} {w : Word16} :
    takeWord16 bytes = some (w, rest) ↔ bytes = bytesOfWord16 w ++ rest := by
  match bytes with
  | [] => simp [takeWord16, bytesOfWord16]
  | [hi] => simp [takeWord16, bytesOfWord16]
  | hi :: lo :: more =>
    have hw : word16OfBytes hi lo = w ↔ _ := word16OfBytes_eq_iff
    simp_all [takeWord16, bytesOfWord16, and_assoc]

/-- A length that a field carries is the number in the field (R97). -/
theorem toNat_ofNat_length {v : List Byte} (h : FitsField v) : (BitVec.ofNat 16 v.length).toNat = v.length := by
  have h' : v.length ≤ 65535 := h
  rw [BitVec.toNat_ofNat]
  omega

theorem takeVec_eq_some {bytes v rest : List Byte} :
    takeVec bytes = some (v, rest) ↔ FitsField v ∧ bytes = bytesOfVec v ++ rest := by
  constructor
  · intro h
    unfold takeVec at h
    split at h
    · cases h
    next len more hlen =>
      split at h
      next hle =>
        cases h
        have hlength : (more.take len.toNat).length = len.toNat := List.length_take_of_le hle
        refine ⟨?_, ?_⟩
        · have := len.isLt
          show _ ≤ 65535
          omega
        · rw [bytesOfVec, hlength, BitVec.ofNat_toNat, BitVec.setWidth_eq, List.append_assoc, List.take_append_drop]
          exact takeWord16_eq_some.mp hlen
      · cases h
  · rintro ⟨hfits, rfl⟩
    have hlen : takeWord16 (bytesOfVec v ++ rest) = some (BitVec.ofNat 16 v.length, v ++ rest) :=
      takeWord16_eq_some.mpr (List.append_assoc ..)
    unfold takeVec
    rw [hlen]
    dsimp only
    rw [toNat_ofNat_length hfits, if_pos (by simp), List.take_left, List.drop_left]

/-! ## Formats (R94) -/

section Formats

variable {bytes rest : List Byte} {i : Instr}

theorem formatF0_eq_some {k : Instr} : formatF0 k bytes = some (i, rest) ↔ i = k ∧ bytes = rest := by
  simp [formatF0, eq_comm]

theorem formatFS_eq_some {k : Byte → Instr} :
    formatFS k bytes = some (i, rest) ↔ ∃ a, i = k a ∧ bytes = a :: rest := by
  rw [formatFS, Option.map_eq_some_iff]
  simp only [Prod.exists, takeByte_eq_some]
  aesop

theorem formatFSS_eq_some {k : Byte → Byte → Instr} :
    formatFSS k bytes = some (i, rest) ↔ ∃ a b, i = k a b ∧ bytes = a :: b :: rest := by
  rw [formatFSS, Option.bind_eq_some_iff]
  simp only [Prod.exists, takeByte_eq_some, formatFS_eq_some]
  aesop

theorem formatFW_eq_some {k : Word16 → Instr} :
    formatFW k bytes = some (i, rest) ↔ ∃ w, i = k w ∧ bytes = bytesOfWord16 w ++ rest := by
  rw [formatFW, Option.map_eq_some_iff]
  simp only [Prod.exists, takeWord16_eq_some]
  aesop

theorem formatFDS_eq_some {k : Word16 → Byte → Instr} :
    formatFDS k bytes = some (i, rest) ↔ ∃ d c, i = k d c ∧ bytes = bytesOfWord16 d ++ c :: rest := by
  rw [formatFDS, Option.bind_eq_some_iff]
  simp only [Prod.exists, takeWord16_eq_some, formatFS_eq_some]
  aesop

theorem formatFP_eq_some {k : List Byte → Instr} :
    formatFP k bytes = some (i, rest) ↔ ∃ p, i = k p ∧ FitsField p ∧ bytes = bytesOfVec p ++ rest := by
  rw [formatFP, Option.map_eq_some_iff]
  simp only [Prod.exists, takeVec_eq_some]
  aesop

theorem formatFPW_eq_some {k : List Byte → Word16 → Instr} :
    formatFPW k bytes = some (i, rest) ↔
      ∃ p w, i = k p w ∧ FitsField p ∧ bytes = bytesOfVec p ++ (bytesOfWord16 w ++ rest) := by
  rw [formatFPW, Option.bind_eq_some_iff]
  simp only [Prod.exists, takeVec_eq_some, formatFW_eq_some]
  aesop

theorem formatFPS_eq_some {k : List Byte → Byte → Instr} :
    formatFPS k bytes = some (i, rest) ↔ ∃ p x, i = k p x ∧ FitsField p ∧ bytes = bytesOfVec p ++ x :: rest := by
  rw [formatFPS, Option.bind_eq_some_iff]
  simp only [Prod.exists, takeVec_eq_some, formatFS_eq_some]
  aesop

theorem formatFPDS_eq_some {k : List Byte → Word16 → Byte → Instr} :
    formatFPDS k bytes = some (i, rest) ↔
      ∃ p d c, i = k p d c ∧ FitsField p ∧ bytes = bytesOfVec p ++ (bytesOfWord16 d ++ c :: rest) := by
  rw [formatFPDS, Option.bind_eq_some_iff]
  simp only [Prod.exists, takeVec_eq_some, formatFDS_eq_some]
  aesop

theorem formatFPP_eq_some {k : List Byte → List Byte → Instr} :
    formatFPP k bytes = some (i, rest) ↔
      ∃ p q, i = k p q ∧ (FitsField p ∧ FitsField q) ∧ bytes = bytesOfVec p ++ (bytesOfVec q ++ rest) := by
  rw [formatFPP, Option.bind_eq_some_iff]
  simp only [Prod.exists, takeVec_eq_some, formatFP_eq_some]
  aesop

theorem formatFPPV_eq_some {k : List Byte → List Byte → List Byte → Instr} :
    formatFPPV k bytes = some (i, rest) ↔
      ∃ p q v, i = k p q v ∧ (FitsField p ∧ FitsField q ∧ FitsField v) ∧
        bytes = bytesOfVec p ++ (bytesOfVec q ++ (bytesOfVec v ++ rest)) := by
  rw [formatFPPV, Option.bind_eq_some_iff]
  simp only [Prod.exists, takeVec_eq_some, formatFPP_eq_some]
  aesop

theorem formatFSV_eq_some {k : Byte → List Byte → Instr} :
    formatFSV k bytes = some (i, rest) ↔ ∃ a v, i = k a v ∧ FitsField v ∧ bytes = a :: (bytesOfVec v ++ rest) := by
  rw [formatFSV, Option.bind_eq_some_iff]
  simp only [Prod.exists, takeByte_eq_some, formatFP_eq_some]
  aesop

theorem formatFSSV_eq_some {k : Byte → Byte → List Byte → Instr} :
    formatFSSV k bytes = some (i, rest) ↔
      ∃ a b v, i = k a b v ∧ FitsField v ∧ bytes = a :: b :: (bytesOfVec v ++ rest) := by
  rw [formatFSSV, Option.bind_eq_some_iff]
  simp only [Prod.exists, takeByte_eq_some, formatFSV_eq_some]
  aesop

end Formats

/-! ## The opcode map (R95) -/

/-- What the parser of an opcode finds is well-formed, and the packet is its encoding. -/
theorem encode_of_parse {op : Byte} {parse : List Byte → Option (Instr × List Byte)} {operands : List Byte} {i : Instr}
    (hop : operandParser op = some parse) (h : parse operands = some (i, [])) :
    WellFormed i ∧ encode i = .packet (op :: operands) := by
  have hbyte : BitVec.ofNat 8 op.toNat = op := by simp
  unfold operandParser at hop
  split at hop <;> cases hop
  -- the opcodes in the order of R95, grouped by their formats
  all_goals
    rw [‹op.toNat = _›] at hbyte
    subst hbyte
  case h_25 => obtain ⟨rfl, rfl⟩ := formatF0_eq_some.mp h; exact ⟨trivial, rfl⟩
  case h_3 | h_5 | h_26 => obtain ⟨a, rfl, rfl⟩ := formatFS_eq_some.mp h; exact ⟨trivial, rfl⟩
  case h_1 | h_2 => obtain ⟨a, b, rfl, rfl⟩ := formatFSS_eq_some.mp h; exact ⟨trivial, rfl⟩
  case h_4 => obtain ⟨w, rfl, rfl⟩ := formatFW_eq_some.mp h; exact ⟨trivial, by simp [encode]⟩
  case h_6 => obtain ⟨d, c, rfl, rfl⟩ := formatFDS_eq_some.mp h; exact ⟨trivial, by simp [encode]⟩
  case h_8 | h_10 | h_20 | h_24 =>
    obtain ⟨p, rfl, hfits, rfl⟩ := formatFP_eq_some.mp h; exact ⟨hfits, by simp [encode]⟩
  case h_7 | h_9 | h_18 | h_19 | h_22 =>
    obtain ⟨p, w, rfl, hfits, rfl⟩ := formatFPW_eq_some.mp h; exact ⟨hfits, by simp [encode]⟩
  case h_11 | h_14 => obtain ⟨p, x, rfl, hfits, rfl⟩ := formatFPS_eq_some.mp h; exact ⟨hfits, by simp [encode]⟩
  case h_15 => obtain ⟨p, d, c, rfl, hfits, rfl⟩ := formatFPDS_eq_some.mp h; exact ⟨hfits, by simp [encode]⟩
  case h_12 | h_13 | h_16 | h_17 =>
    obtain ⟨p, q, rfl, hfits, rfl⟩ := formatFPP_eq_some.mp h; exact ⟨hfits, by simp [encode]⟩
  case h_21 => obtain ⟨p, q, v, rfl, hfits, rfl⟩ := formatFPPV_eq_some.mp h; exact ⟨hfits, by simp [encode]⟩
  case h_27 => obtain ⟨a, v, rfl, hfits, rfl⟩ := formatFSV_eq_some.mp h; exact ⟨hfits, by simp [encode]⟩
  case h_23 | h_28 => obtain ⟨a, b, v, rfl, hfits, rfl⟩ := formatFSSV_eq_some.mp h; exact ⟨hfits, by simp [encode]⟩

/-- The parser of the opcode of an encoding reads the instruction back, and leaves nothing. -/
theorem parse_of_encode {i : Instr} {op : Byte} {operands : List Byte} (hw : WellFormed i)
    (he : encode i = .packet (op :: operands)) :
    ∃ parse, operandParser op = some parse ∧ parse operands = some (i, []) := by
  cases i
  case bbAvail => cases he; exact ⟨_, rfl, formatF0_eq_some.mpr ⟨rfl, rfl⟩⟩
  case gfInv | gfLog | bbRead => cases he; exact ⟨_, rfl, formatFS_eq_some.mpr ⟨_, rfl, rfl⟩⟩
  case gfAdd | gfMul => cases he; exact ⟨_, rfl, formatFSS_eq_some.mpr ⟨_, _, rfl, rfl⟩⟩
  case gfExp => cases he; exact ⟨_, rfl, formatFW_eq_some.mpr ⟨_, rfl, by simp⟩⟩
  case gfMono => cases he; exact ⟨_, rfl, formatFDS_eq_some.mpr ⟨_, _, rfl, by simp⟩⟩
  case polyDeg | polyIsZero | rsChien | bbLoad =>
    cases he; exact ⟨_, rfl, formatFP_eq_some.mpr ⟨_, rfl, hw, by simp⟩⟩
  case polyNew | polyCoef | rsSyn | rsEuclid | rsDecode =>
    cases he; exact ⟨_, rfl, formatFPW_eq_some.mpr ⟨_, _, rfl, hw, by simp⟩⟩
  case polyEval | polyMulI => cases he; exact ⟨_, rfl, formatFPS_eq_some.mpr ⟨_, _, rfl, hw, by simp⟩⟩
  case polyMulM => cases he; exact ⟨_, rfl, formatFPDS_eq_some.mpr ⟨_, _, _, rfl, hw, by simp⟩⟩
  case polyAdd | polyMul | polyDiv | polyMod =>
    cases he; exact ⟨_, rfl, formatFPP_eq_some.mpr ⟨_, _, rfl, hw, by simp⟩⟩
  case rsForney => cases he; exact ⟨_, rfl, formatFPPV_eq_some.mpr ⟨_, _, _, rfl, hw, by simp⟩⟩
  case segDecode => cases he; exact ⟨_, rfl, formatFSV_eq_some.mpr ⟨_, _, rfl, hw, by simp⟩⟩
  case deint | decode => cases he; exact ⟨_, rfl, formatFSSV_eq_some.mpr ⟨_, _, _, rfl, hw, by simp⟩⟩
  all_goals cases he

/-- Decoding a packet is parsing its operands to the last byte, by the parser of its opcode (R91, R100). -/
theorem decodePacket_cons_eq_ok {op : Byte} {operands : List Byte} {i : Instr} :
    decodePacket (op :: operands) = .ok i ↔
      ∃ parse, operandParser op = some parse ∧ parse operands = some (i, []) := by
  rw [decodePacket]
  cases operandParser op with
  | none => simp
  | some parse =>
    dsimp only
    split
    next j hparse => simp [hparse]
    next hparse => simpa using hparse i

theorem encode_ne_nil (i : Instr) : encode i ≠ .packet [] := by
  cases i <;> simp [encode]

end Sys2Proof.Machine
end

section
/-! CLAIMS. Family 30_encoding: the packets. -/

namespace Sys2Proof.Machine

/-- Settles O2: the parser of an opcode reads exactly the operands that the encoder writes after it. -/
theorem eachPacketHasOneEncoding : Obligations.EachPacketHasOneEncoding := by
  intro bytes i
  cases bytes with
  | nil =>
    constructor
    · intro h; cases h
    · rintro ⟨-, he⟩; exact absurd he (encode_ne_nil i)
  | cons op operands =>
    rw [decodePacket_cons_eq_ok]
    constructor
    · rintro ⟨parse, hop, hparse⟩; exact encode_of_parse hop hparse
    · rintro ⟨hw, he⟩; exact parse_of_encode hw he

end Sys2Proof.Machine
end

section
/-! SUPPORT. The segment rows of the encoding (spec/30_encoding.md R101, R107): what the fetch reads from the bits at
the cursor, by the shape of the designator. -/

namespace Sys2Proof.Machine

/-! ## Bits and numbers -/

/-- The n bits of a number depend on the number modulo 2^n. -/
theorem bitsOfNat_mod (n v : Nat) : bitsOfNat n (v % 2 ^ n) = bitsOfNat n v := by
  have agree : ∀ (m : Nat), m ≤ n → bitsOfNat m (v % 2 ^ n) = bitsOfNat m v := by
    intro m hm
    induction m with
    | zero => rfl
    | succ m ih =>
      rw [bitsOfNat, bitsOfNat, ih (by omega), Nat.testBit_mod_two_pow, decide_eq_true (show m < n by omega),
        Bool.true_and]
  exact agree n (Nat.le_refl n)

/-- The number that bits spell has these bits. -/
theorem bitsOfNat_natOfBits (bs : List Bool) : bitsOfNat bs.length (natOfBits bs) = bs := by
  induction bs with
  | nil => rfl
  | cons b bs ih =>
    have hlow : natOfBits (b :: bs) % 2 ^ bs.length = natOfBits bs := by
      rw [natOfBits_cons, Nat.mul_add_mod_self_right, Nat.mod_eq_of_lt (natOfBits_lt bs)]
    have hhigh : (natOfBits (b :: bs)).testBit bs.length = b := by
      rw [natOfBits_cons, Nat.mul_comm, Nat.testBit_two_pow_mul_add _ (natOfBits_lt bs)]
      cases b <;> simp
    rw [List.length_cons, bitsOfNat, hhigh, ← bitsOfNat_mod, hlow, ih]

/-- Enough bits begin with those of some n-bit number. -/
theorem exists_bitsOfNat_append {n : Nat} {bits : List Bool} (h : n ≤ bits.length) :
    ∃ (v : BitVec n) (rest : List Bool), bits = bitsOfNat n v.toNat ++ rest := by
  have hlength : (bits.take n).length = n := List.length_take_of_le h
  refine ⟨BitVec.ofNat n (natOfBits (bits.take n)), bits.drop n, ?_⟩
  have hbits := bitsOfNat_natOfBits (bits.take n)
  rw [hlength] at hbits
  rw [BitVec.toNat_ofNat, bitsOfNat_mod, hbits, List.take_append_drop]

theorem natOfBits_take_lt (n : Nat) (bits : List Bool) : natOfBits (bits.take n) < 2 ^ n :=
  (natOfBits_lt _).trans_le (Nat.pow_le_pow_right (by decide) (List.length_take_le n bits))

theorem natOfBits_take_append (pre : List Bool) {bits : List Bool} {n : Nat} (h : n ≤ bits.length) :
    natOfBits ((pre ++ bits).take (pre.length + n)) = natOfBits pre * 2 ^ n + natOfBits (bits.take n) := by
  rw [List.take_length_add_append, natOfBits_append, List.length_take_of_le h]

theorem natOfBits_take_bitsOfNat {n v : Nat} (h : v < 2 ^ n) (rest : List Bool) :
    natOfBits ((bitsOfNat n v ++ rest).take n) = v := by
  rw [List.take_left' (bitsOfNat_length n v), natOfBits_bitsOfNat, Nat.mod_eq_of_lt h]

/-! ## The designator (R107) -/

/-- The first byte of a designator that begins with `pre`, whatever follows. -/
theorem designator_firstByte {pre : List Bool} {k v : Nat} (more : List Bool) (hpre : natOfBits pre = v)
    (hbyte : pre.length + k = 8) (h : k ≤ more.length) :
    ∃ low < 2 ^ k, natOfBits ((pre ++ more).take 8) = v * 2 ^ k + low := by
  subst hpre
  rw [← hbyte]
  exact ⟨_, natOfBits_take_lt k _, natOfBits_take_append pre h⟩

/-- What the fetch compares of a designator that begins with the bits of `v` and goes on with an n-bit number: its
first byte, and the whole of it. -/
theorem designator_values {pre : List Bool} {k n v w : Nat} (id : BitVec n) (rest : List Bool)
    (hpre : natOfBits pre = v) (hbyte : pre.length + k = 8) (hwhole : pre.length + n = w) (hk : k ≤ n) :
    w ≤ (pre ++ (bitsOfNat n id.toNat ++ rest)).length ∧
    (∃ low < 2 ^ k, natOfBits ((pre ++ (bitsOfNat n id.toNat ++ rest)).take 8) = v * 2 ^ k + low) ∧
    natOfBits ((pre ++ (bitsOfNat n id.toNat ++ rest)).take w) = v * 2 ^ n + id.toNat := by
  subst hwhole
  have hn : n ≤ (bitsOfNat n id.toNat ++ rest).length := by simp
  refine ⟨by simp, designator_firstByte _ hpre hbyte (hk.trans hn), ?_⟩
  rw [natOfBits_take_append pre hn, natOfBits_take_bitsOfNat id.isLt, hpre]

/-- The low n bits of a number that ends in an n-bit number. -/
theorem ofNat_mul_add_toNat {n : Nat} (k : Nat) (id : BitVec n) : BitVec.ofNat n (k * 2 ^ n + id.toNat) = id := by
  apply BitVec.eq_of_toNat_eq
  rw [BitVec.toNat_ofNat, Nat.mul_add_mod_self_right, Nat.mod_eq_of_lt id.isLt]

theorem decodeDesignator_one (id : BitVec 7) (rest : List Bool) :
    decodeDesignator ([false] ++ (bitsOfNat 7 id.toNat ++ rest)) = (.eci1 id, 12) := by
  obtain ⟨hlength, -, hall⟩ :=
    designator_values (pre := [false]) (k := 7) (w := 8) (v := 0) id rest rfl rfl rfl (by decide)
  have hid := id.isLt
  generalize [false] ++ (bitsOfNat 7 id.toNat ++ rest) = bits at hlength hall ⊢
  unfold decodeDesignator
  rw [if_neg (by omega), hall]
  dsimp only
  rw [if_pos (by omega), ofNat_mul_add_toNat]

theorem decodeDesignator_two (id : BitVec 14) (rest : List Bool) :
    decodeDesignator ([true, false] ++ (bitsOfNat 14 id.toNat ++ rest)) = (.eci2 id, 20) := by
  obtain ⟨hlength, ⟨low, hlow, hfirst⟩, hall⟩ :=
    designator_values (pre := [true, false]) (k := 6) (w := 16) (v := 2) id rest rfl rfl rfl (by decide)
  generalize [true, false] ++ (bitsOfNat 14 id.toNat ++ rest) = bits at hlength hfirst hall ⊢
  unfold decodeDesignator
  rw [if_neg (by omega), hfirst, hall]
  dsimp only
  rw [if_neg (by omega), if_pos (by omega), if_neg (by omega), ofNat_mul_add_toNat]

theorem decodeDesignator_three (id : BitVec 21) (rest : List Bool) :
    decodeDesignator ([true, true, false] ++ (bitsOfNat 21 id.toNat ++ rest)) = (.eci3 id, 28) := by
  obtain ⟨hlength, ⟨low, hlow, hfirst⟩, hall⟩ :=
    designator_values (pre := [true, true, false]) (k := 5) (w := 24) (v := 6) id rest rfl rfl rfl (by decide)
  generalize [true, true, false] ++ (bitsOfNat 21 id.toNat ++ rest) = bits at hlength hfirst hall ⊢
  unfold decodeDesignator
  rw [if_neg (by omega), hfirst, hall]
  dsimp only
  rw [if_neg (by omega), if_neg (by omega), if_pos (by omega), if_neg (by omega), ofNat_mul_add_toNat]

theorem decodeDesignator_bad (x : BitVec 5) (rest : List Bool) :
    decodeDesignator ([true, true, true] ++ (bitsOfNat 5 x.toNat ++ rest)) = (.eciBad x, 12) := by
  obtain ⟨hlength, -, hall⟩ :=
    designator_values (pre := [true, true, true]) (k := 5) (w := 8) (v := 7) x rest rfl rfl rfl (by decide)
  generalize [true, true, true] ++ (bitsOfNat 5 x.toNat ++ rest) = bits at hlength hall ⊢
  unfold decodeDesignator
  rw [if_neg (by omega), hall]
  dsimp only
  rw [if_neg (by omega), if_neg (by omega), if_neg (by omega), ofNat_mul_add_toNat]

/-- A designator that the stream cuts short is the row ECI (log entry 10). -/
theorem decodeDesignator_cut {bits : List Bool} (h : CutDesignator bits) : decodeDesignator bits = (.eci, 4) := by
  unfold decodeDesignator
  by_cases h8 : bits.length < 8
  · rw [if_pos h8]
  rw [if_neg h8]
  dsimp only
  obtain h | ⟨h16, more, rfl⟩ | ⟨h24, more, rfl⟩ := h
  · exact absurd h h8
  · obtain ⟨low, hlow, hfirst⟩ := designator_firstByte (pre := [true, false]) (k := 6) (v := 2) more rfl rfl
      (by simp only [List.length_cons] at h8; omega)
    rw [show true :: false :: more = [true, false] ++ more from rfl] at *
    rw [hfirst, if_neg (by omega), if_pos (by omega), if_pos h16]
  · obtain ⟨low, hlow, hfirst⟩ := designator_firstByte (pre := [true, true, false]) (k := 5) (v := 6) more rfl rfl
      (by simp only [List.length_cons] at h8; omega)
    rw [show true :: true :: false :: more = [true, true, false] ++ more from rfl] at *
    rw [hfirst, if_neg (by omega), if_neg (by omega), if_pos (by omega), if_pos h24]

/-- A designator is cut short, or begins with one of the four forms (R107). -/
theorem designator_cases (bits : List Bool) :
    CutDesignator bits ∨
    (∃ (id : BitVec 7) (rest : List Bool), bits = [false] ++ (bitsOfNat 7 id.toNat ++ rest)) ∨
    (∃ (id : BitVec 14) (rest : List Bool), bits = [true, false] ++ (bitsOfNat 14 id.toNat ++ rest)) ∨
    (∃ (id : BitVec 21) (rest : List Bool), bits = [true, true, false] ++ (bitsOfNat 21 id.toNat ++ rest)) ∨
    (∃ (x : BitVec 5) (rest : List Bool), bits = [true, true, true] ++ (bitsOfNat 5 x.toNat ++ rest)) := by
  by_cases h8 : bits.length < 8
  · exact .inl (.inl h8)
  match bits, h8 with
  | [], h8 | [_], h8 | [_, _], h8 => simp at h8
  | false :: b :: c :: more, h8 =>
    obtain ⟨id, rest, h⟩ := exists_bitsOfNat_append (n := 7) (bits := b :: c :: more) (by simp at h8 ⊢; omega)
    exact .inr (.inl ⟨id, rest, by rw [h]; rfl⟩)
  | true :: false :: c :: more, h8 =>
    by_cases h16 : (true :: false :: c :: more).length < 16
    · exact .inl (.inr (.inl ⟨h16, _, rfl⟩))
    obtain ⟨id, rest, h⟩ := exists_bitsOfNat_append (n := 14) (bits := c :: more) (by simp at h16 ⊢; omega)
    exact .inr (.inr (.inl ⟨id, rest, by rw [h]; rfl⟩))
  | true :: true :: false :: more, h8 =>
    by_cases h24 : (true :: true :: false :: more).length < 24
    · exact .inl (.inr (.inr ⟨h24, _, rfl⟩))
    obtain ⟨id, rest, h⟩ := exists_bitsOfNat_append (n := 21) (bits := more) (by simp at h24 ⊢; omega)
    exact .inr (.inr (.inr (.inl ⟨id, rest, by rw [h]; rfl⟩)))
  | true :: true :: true :: more, h8 =>
    obtain ⟨x, rest, h⟩ := exists_bitsOfNat_append (n := 5) (bits := more) (by simp at h8 ⊢; omega)
    exact .inr (.inr (.inr (.inr ⟨x, rest, by rw [h]; rfl⟩)))

/-! ## The rows (R101) -/

theorem decodeSegment_0111 (rest : List Bool) :
    decodeSegment (bitsOfNat 4 0b0111 ++ rest) = .ok (decodeDesignator rest) := rfl

/-- A row of ECI: the indicator and the first bits of a form, then the number. -/
theorem decodeSegment_form {head form number rest : List Bool} {r : Instr × Nat}
    (hhead : head = bitsOfNat 4 0b0111 ++ form) (h : decodeDesignator (form ++ (number ++ rest)) = r) :
    decodeSegment (head ++ number ++ rest) = .ok r := by
  rw [hhead, List.append_assoc, List.append_assoc, decodeSegment_0111, h]

/-- Such a row is the beginning of its stream. -/
theorem take_form {head form number : List Bool} {w : Nat} (rest : List Bool)
    (hhead : head = bitsOfNat 4 0b0111 ++ form) (hw : (head ++ number).length = w) :
    w ≤ (bitsOfNat 4 0b0111 ++ (form ++ (number ++ rest))).length ∧
      (bitsOfNat 4 0b0111 ++ (form ++ (number ++ rest))).take w = head ++ number := by
  have hsplit : bitsOfNat 4 0b0111 ++ (form ++ (number ++ rest)) = (head ++ number) ++ rest := by
    rw [hhead, List.append_assoc, List.append_assoc]
  rw [hsplit, List.take_left' hw, List.length_append, hw]
  exact ⟨Nat.le_add_right _ _, rfl⟩

/-- A row decodes whatever bits come after it; the row ECI only if nothing whole does (log entry 10). -/
theorem decodeSegment_append {i : Instr} {bits : List Bool} (hi : i ≠ .eci) (he : encode i = .bits bits)
    (rest : List Bool) : decodeSegment (bits ++ rest) = .ok (i, bits.length) := by
  cases i
  case eci => exact absurd rfl hi
  case terminator | numeric | alphanumeric | structuredAppend | byte | fnc1First | illegal0110 | kanji | fnc1Second |
      illegal1010 | illegal1011 | illegal1100 | illegal1101 | illegal1110 | illegal1111 => cases he; rfl
  case eci1 id => cases he; exact decodeSegment_form rfl (decodeDesignator_one id rest)
  case eci2 id => cases he; exact decodeSegment_form rfl (decodeDesignator_two id rest)
  case eci3 id => cases he; exact decodeSegment_form rfl (decodeDesignator_three id rest)
  case eciBad x => cases he; exact decodeSegment_form rfl (decodeDesignator_bad x rest)
  all_goals cases he

theorem decodeSegment_cut {rest : List Bool} (h : CutDesignator rest) :
    decodeSegment (bitsOfNat 4 0b0111 ++ rest) = .ok (.eci, 4) := by
  rw [decodeSegment_0111, decodeDesignator_cut h]

/-- The row that a designator is given is the encoding of a beginning of the stream. -/
theorem encode_decodeDesignator (rest : List Bool) :
    (decodeDesignator rest).2 ≤ (bitsOfNat 4 0b0111 ++ rest).length ∧
      encode (decodeDesignator rest).1 =
        .bits ((bitsOfNat 4 0b0111 ++ rest).take (decodeDesignator rest).2) := by
  obtain h | ⟨id, more, rfl⟩ | ⟨id, more, rfl⟩ | ⟨id, more, rfl⟩ | ⟨x, more, rfl⟩ := designator_cases rest
  · rw [decodeDesignator_cut h]
    exact ⟨by simp, rfl⟩
  · obtain ⟨hle, htake⟩ := take_form (head := bitsOfNat 5 0b01110) (number := bitsOfNat 7 id.toNat) more rfl rfl
    rw [decodeDesignator_one]
    exact ⟨hle, congrArg Words.bits htake.symm⟩
  · obtain ⟨hle, htake⟩ := take_form (head := bitsOfNat 6 0b011110) (number := bitsOfNat 14 id.toNat) more rfl rfl
    rw [decodeDesignator_two]
    exact ⟨hle, congrArg Words.bits htake.symm⟩
  · obtain ⟨hle, htake⟩ := take_form (head := bitsOfNat 7 0b0111110) (number := bitsOfNat 21 id.toNat) more rfl rfl
    rw [decodeDesignator_three]
    exact ⟨hle, congrArg Words.bits htake.symm⟩
  · obtain ⟨hle, htake⟩ := take_form (head := bitsOfNat 7 0b0111111) (number := bitsOfNat 5 x.toNat) more rfl rfl
    rw [decodeDesignator_bad]
    exact ⟨hle, congrArg Words.bits htake.symm⟩

/-- What is decoded is the encoding of a beginning of the stream. -/
theorem encode_of_decodeSegment {bits : List Bool} {i : Instr} {n : Nat} (h : decodeSegment bits = .ok (i, n)) :
    n ≤ bits.length ∧ encode i = .bits (bits.take n) := by
  unfold decodeSegment at h
  split at h
  next rest =>
    split at h
    -- the indicator 0111, whose designator has the rows of R107
    case h_8 =>
      have hrow := encode_decodeDesignator rest
      rw [Except.ok.inj h] at hrow
      exact hrow
    all_goals
      cases h
      exact ⟨by simp, rfl⟩
  · cases h

theorem decodeSegment_of_four (m3 m2 m1 m0 : Bool) (rest : List Bool) :
    ∃ r, decodeSegment (m3 :: m2 :: m1 :: m0 :: rest) = .ok r := by
  unfold decodeSegment
  dsimp only
  split <;> exact ⟨_, rfl⟩

/-- Only fewer than four bits hold no row: every indicator has one (R241). -/
theorem decodeSegment_eq_error (bits : List Bool) :
    decodeSegment bits = .error .fewerThanFourBits ↔ bits.length < 4 := by
  match bits with
  | [] | [_] | [_, _] | [_, _, _] => simp [decodeSegment]
  | m3 :: m2 :: m1 :: m0 :: rest =>
    obtain ⟨r, hr⟩ := decodeSegment_of_four m3 m2 m1 m0 rest
    simp [hr]

end Sys2Proof.Machine
end

section
/-! CLAIMS. Family 30_encoding: the segment rows, and both levels together. -/

namespace Sys2Proof.Machine

/-- Settles O3: the rows by their indicators, those of ECI by the form of the designator. -/
theorem segmentRowEndsWhereItsBitsEnd : Obligations.SegmentRowEndsWhereItsBitsEnd :=
  ⟨fun _ _ rest hi he => decodeSegment_append hi he rest, fun _ => decodeSegment_cut,
    fun _ _ _ => encode_of_decodeSegment, decodeSegment_eq_error⟩

/-- Settles O1: a packet by the uniqueness of its encoding, a row of the segment table because it decodes whatever
follows it, here nothing. -/
theorem decodeInvertsEncode : Obligations.DecodeInvertsEncode := by
  intro i hw
  cases he : encode i with
  | packet bytes =>
    have hdecode := (eachPacketHasOneEncoding bytes i).mpr ⟨hw, he⟩
    rw [decodeWords, hdecode]
    rfl
  | bits bs =>
    by_cases hi : i = .eci
    · subst hi
      cases he
      rfl
    · have hrow := decodeSegment_append hi he []
      rw [List.append_nil] at hrow
      rw [decodeWords, hrow]
      rfl

end Sys2Proof.Machine
end

section
/-! CLAIMS. Family 30_encoding: what a step runs. -/

namespace Sys2Proof.Machine

/-- A packet that decodes is the command that the step runs (R90, R324). -/
theorem step_of_packet {s : State} {bytes : List Byte} {rest : List HostAction} {i : Instr} (hi : s.activity = .idle)
    (hscript : s.script = .packet bytes :: rest) (hdecode : decodePacket bytes = .ok i) :
    step s = exec i { s with script := rest } := by
  refine step_of_run ((fetch_idle_packet hi hscript).trans ?_)
  unfold fetchPacket
  rw [hdecode]

/-- A packet that does not decode faults (R99, R100). -/
theorem step_of_rejected {s : State} {bytes : List Byte} {rest : List HostAction} {r : Reject}
    (hi : s.activity = .idle) (hscript : s.script = .packet bytes :: rest) (hdecode : decodePacket bytes = .error r) :
    step s =
      .next (ended (causeKind (rejectCause r)) (causeCode (rejectCause r)) [] s.bb { s with script := rest }) := by
  refine step_of_over ((fetch_idle_packet hi hscript).trans ?_)
  unfold fetchPacket
  rw [hdecode]
  exact congrArg Fetched.over (takeFault_of_idle hi)

/-- The row at the cursor is the segment that the step runs (R90, R241). -/
theorem step_of_row {s : State} {i : Instr} {width : Nat} (hi : s.activity ≠ .idle)
    (hdecode : decodeSegment (s.bb.window longestRow) = .ok (i, width)) :
    step s = exec i { s with bb := s.bb.skip width } := by
  refine step_of_run ((fetch_run hi).trans ?_)
  unfold fetchSegment
  rw [hdecode]

/-- With no row at the cursor the run ends (R241). -/
theorem step_of_streamEnd {s : State} {r : StreamEnd} (hi : s.activity ≠ .idle)
    (hdecode : decodeSegment (s.bb.window longestRow) = .error r) : step s = .next (endRun s) := by
  refine step_of_over ((fetch_run hi).trans ?_)
  unfold fetchSegment
  rw [hdecode]

/-- Settles O7: the two fetches, of a packet and of a row. -/
theorem stepRunsDecodedInstruction : Obligations.StepRunsDecodedInstruction :=
  ⟨fun _ _ _ _ => step_of_packet, fun _ _ _ => step_of_row⟩

theorem rowLength_le {i : Instr} {bits : List Bool} (he : encode i = .bits bits) : bits.length ≤ longestRow := by
  cases i <;> cases he <;> simp [longestRow]

/-- What the fetch looks at begins with the bits at the cursor, and goes on from where they end. -/
theorem window_of_streamAt {b : BitBuffer} {bits : List Bool} {n : Nat} (hb : b.Wf) (h : StreamAt b bits)
    (hn : bits.length ≤ n) : b.window n = bits ++ (b.skip bits.length).window (n - bits.length) := by
  have hadd := BitBuffer.window_add (n := n - bits.length) hb (StreamAt.avail hb h)
  rw [Nat.add_sub_cancel' hn] at hadd
  rw [hadd, show b.window bits.length = bits from h]

/-- The segment whose row stands at the cursor is run from behind its row. -/
theorem step_of_rowAt {s : State} {i : Instr} {bits : List Bool} (hi : s.activity ≠ .idle) (hb : s.bb.Wf)
    (hne : i ≠ .eci) (he : encode i = .bits bits) (h : StreamAt s.bb bits) :
    step s = exec i { s with bb := s.bb.skip bits.length } := by
  refine step_of_row hi ?_
  rw [window_of_streamAt hb h (rowLength_le he)]
  exact decodeSegment_append hne he _

/-- Settles O8: a row decodes whatever follows it, and a designator cut short is the row ECI. -/
theorem rowAtTheCursorRuns : Obligations.RowAtTheCursorRuns := by
  intro s hi hb
  refine ⟨fun i bits hne he h => step_of_rowAt hi hb hne he h, fun h hcut => step_of_row hi ?_⟩
  rw [window_of_streamAt hb h (by simp [longestRow])]
  exact decodeSegment_cut hcut

end Sys2Proof.Machine
end

section
/-! SUPPORT. The readers of the segments on the bits that an encoder writes (spec/30_encoding.md R103 to R108): each
reads its bits to the last one and answers what they spell. -/

namespace Sys2Proof.Machine

open Sys2Proof.Config

/-- On any stream that begins with `bits` the reader answers `a` and moves the cursor past them. -/
def Reads {α : Type} (f : BitBuffer → Except Cause (α × BitBuffer)) (bits : List Bool) (a : α) : Prop :=
  ∀ b : BitBuffer, b.Wf → StreamAt b bits → f b = .ok (a, b.skip bits.length)

namespace Reads

variable {α β : Type} {f : BitBuffer → Except Cause (α × BitBuffer)} {bits more : List Bool} {a : α} {c : β}

theorem nothing (a : α) : Reads (fun b => .ok (a, b)) [] a := fun _ _ _ => rfl

/-- One reader after another. -/
theorem bind {g : α → BitBuffer → Except Cause (β × BitBuffer)} (hf : Reads f bits a) (hg : Reads (g a) more c) :
    Reads (fun b => f b >>= fun x => g x.1 x.2) (bits ++ more) c := by
  intro b hb h
  obtain ⟨hbits, hmore, hwf⟩ := StreamAt.split hb h
  show (f b >>= fun x => g x.1 x.2) = _
  rw [hf b hb hbits, List.length_append, BitBuffer.skip_add]
  exact hg _ hwf hmore

/-- What is answered, changed. -/
theorem map (k : α → β) (hf : Reads f bits a) : Reads (fun b => f b >>= fun x => .ok (k x.1, x.2)) bits (k a) := by
  have h := hf.bind (g := fun a b => .ok (k a, b)) (nothing (k a))
  rwa [List.append_nil] at h

end Reads

theorem read_reads {n v : Nat} (h1 : 1 ≤ n) (h32 : n ≤ 32) (hv : v < 2 ^ n) :
    Reads (BitBuffer.read n) (bitsOfNat n v) v := by
  intro b hb h
  rw [← List.append_nil (bitsOfNat n v)] at h
  rw [(StreamAt.read_number hb h1 h32 hv h).1, bitsOfNat_length]

theorem readBelow_reads {n bound v : Nat} {cause : Cause} (h1 : 1 ≤ n) (h32 : n ≤ 32) (hv : v < 2 ^ n)
    (hbound : v < bound) : Reads (readBelow n bound cause) (bitsOfNat n v) v := by
  intro b hb h
  rw [readBelow, read_reads h1 h32 hv b hb h]
  exact if_neg (by omega)

/-! ## Digits (R103) -/

theorem readTriples_none {n : Nat} (h : n = 0) : Reads (readTriples n) [] [] := by
  subst h
  exact .nothing []

/-- The bits of the digit groups are those of the groups of three, and then those of the last group. -/
theorem digitGroups_reads (ds : List Nat) (h : ∀ d ∈ ds, d < 10) :
    ∃ bits more s t, digitGroups ds = bits ++ more ∧ ds.map digit = s ++ t ∧
      Reads (readTriples (ds.length / 3)) bits s ∧ Reads (readDigitTail (ds.length % 3)) more t := by
  induction ds using digitGroups.induct with
  | case1 x y z rest ih =>
    obtain ⟨bits, more, s, t, hbits, hst, hs, ht⟩ := ih fun d hd => h d (by simp [hd])
    have hx : x < 10 := h x (by simp)
    have hy : y < 10 := h y (by simp)
    have hz : z < 10 := h z (by simp)
    have hgroup : Reads (readBelow 10 1000 .numValue) (bitsOfNat 10 (100 * x + 10 * y + z)) (100 * x + 10 * y + z) :=
      readBelow_reads (by decide) (by decide) (by omega) (by omega)
    refine ⟨bitsOfNat 10 (100 * x + 10 * y + z) ++ bits, more, digit x :: digit y :: digit z :: s, t, ?_, ?_, ?_, ?_⟩
    · rw [digitGroups, hbits, List.append_assoc]
    · simp [hst]
    · have hlen : (x :: y :: z :: rest).length / 3 = rest.length / 3 + 1 := by simp only [List.length_cons]; omega
      have hd1 : (100 * x + 10 * y + z) / 100 = x := by omega
      have hd2 : (100 * x + 10 * y + z) / 10 % 10 = y := by omega
      have hd3 : (100 * x + 10 * y + z) % 10 = z := by omega
      have hall := hgroup.bind (g := fun v b => readTriples (rest.length / 3) b >>= fun x =>
        .ok ([digit (v / 100), digit (v / 10 % 10), digit (v % 10)] ++ x.1, x.2)) (hs.map _)
      rw [hd1, hd2, hd3] at hall
      rw [hlen]
      exact hall
    · have hlen : (x :: y :: z :: rest).length % 3 = rest.length % 3 := by simp only [List.length_cons]; omega
      rw [hlen]
      exact ht
  | case2 x y =>
    have hx : x < 10 := h x (by simp)
    have hy : y < 10 := h y (by simp)
    have hgroup : Reads (readBelow 7 100 .numValue) (bitsOfNat 7 (10 * x + y)) (10 * x + y) :=
      readBelow_reads (by decide) (by decide) (by omega) (by omega)
    have hd1 : (10 * x + y) / 10 = x := by omega
    have hd2 : (10 * x + y) % 10 = y := by omega
    have hall := hgroup.map fun v => [digit (v / 10), digit (v % 10)]
    rw [hd1, hd2] at hall
    exact ⟨[], bitsOfNat 7 (10 * x + y), [], [digit x, digit y], rfl, rfl, readTriples_none (by simp), hall⟩
  | case3 x =>
    have hx : x < 10 := h x (by simp)
    have hgroup : Reads (readBelow 4 10 .numValue) (bitsOfNat 4 x) x :=
      readBelow_reads (by decide) (by decide) (by omega) hx
    exact ⟨[], bitsOfNat 4 x, [], [digit x], rfl, rfl, readTriples_none (by simp), hgroup.map fun v => [digit v]⟩
  | case4 => exact ⟨[], [], [], [], rfl, rfl, .nothing [], .nothing []⟩

theorem readNumeric_reads {ver : Nat} {ds : List Nat} (h : ∀ d ∈ ds, d < 10) (hlen : ds.length < 2 ^ numericWidth ver) :
    Reads (readNumeric ver) (bitsOfNat (numericWidth ver) ds.length ++ digitGroups ds) (ds.map digit) := by
  obtain ⟨bits, more, s, t, hbits, hst, hs, ht⟩ := digitGroups_reads ds h
  obtain ⟨h1, h32⟩ := numericWidth_range ver
  have hgroups := hs.bind (g := fun s b => readDigitTail (ds.length % 3) b >>= fun y => .ok (s ++ y.1, y.2))
    (ht.map (s ++ ·))
  rw [hbits, hst]
  exact (read_reads h1 h32 hlen).bind (g := fun count b => readTriples (count / 3) b >>= fun x =>
    readDigitTail (count % 3) x.2 >>= fun y => .ok (x.1 ++ y.1, y.2)) hgroups

/-! ## Characters (R104) -/

theorem readPairs_none {n : Nat} (h : n = 0) : Reads (readPairs n) [] [] := by
  subst h
  exact .nothing []

/-- The bits of the character groups are those of the pairs, and then those of the last character. -/
theorem charGroups_reads (cs : List Nat) (h : ∀ i ∈ cs, i < 45) :
    ∃ bits more s t, charGroups cs = bits ++ more ∧ cs.map alnumChar = s ++ t ∧
      Reads (readPairs (cs.length / 2)) bits s ∧ Reads (readCharTail (cs.length % 2)) more t := by
  induction cs using charGroups.induct with
  | case1 x y rest ih =>
    obtain ⟨bits, more, s, t, hbits, hst, hs, ht⟩ := ih fun i hi => h i (by simp [hi])
    have hx : x < 45 := h x (by simp)
    have hy : y < 45 := h y (by simp)
    have hgroup : Reads (readBelow 11 2025 .alnumValue) (bitsOfNat 11 (45 * x + y)) (45 * x + y) :=
      readBelow_reads (by decide) (by decide) (by omega) (by omega)
    refine ⟨bitsOfNat 11 (45 * x + y) ++ bits, more, alnumChar x :: alnumChar y :: s, t, ?_, ?_, ?_, ?_⟩
    · rw [charGroups, hbits, List.append_assoc]
    · simp [hst]
    · have hlen : (x :: y :: rest).length / 2 = rest.length / 2 + 1 := by simp only [List.length_cons]; omega
      have hc1 : (45 * x + y) / 45 = x := by omega
      have hc2 : (45 * x + y) % 45 = y := by omega
      have hall := hgroup.bind (g := fun v b => readPairs (rest.length / 2) b >>= fun x =>
        .ok ([alnumChar (v / 45), alnumChar (v % 45)] ++ x.1, x.2)) (hs.map _)
      rw [hc1, hc2] at hall
      rw [hlen]
      exact hall
    · have hlen : (x :: y :: rest).length % 2 = rest.length % 2 := by simp only [List.length_cons]; omega
      rw [hlen]
      exact ht
  | case2 x =>
    have hx : x < 45 := h x (by simp)
    have hgroup : Reads (readBelow 6 45 .alnumValue) (bitsOfNat 6 x) x :=
      readBelow_reads (by decide) (by decide) (by omega) hx
    exact ⟨[], bitsOfNat 6 x, [], [alnumChar x], rfl, rfl, readPairs_none (by simp), hgroup.map fun v => [alnumChar v]⟩
  | case3 => exact ⟨[], [], [], [], rfl, rfl, .nothing [], .nothing []⟩

theorem readAlphanumeric_reads {ver : Nat} {cs : List Nat} (h : ∀ i ∈ cs, i < 45)
    (hlen : cs.length < 2 ^ alphanumericWidth ver) :
    Reads (readAlphanumeric ver) (bitsOfNat (alphanumericWidth ver) cs.length ++ charGroups cs) (cs.map alnumChar) := by
  obtain ⟨bits, more, s, t, hbits, hst, hs, ht⟩ := charGroups_reads cs h
  obtain ⟨h1, h32⟩ := alphanumericWidth_range ver
  have hgroups := hs.bind (g := fun s b => readCharTail (cs.length % 2) b >>= fun y => .ok (s ++ y.1, y.2))
    (ht.map (s ++ ·))
  rw [hbits, hst]
  exact (read_reads h1 h32 hlen).bind (g := fun count b => readPairs (count / 2) b >>= fun x =>
    readCharTail (count % 2) x.2 >>= fun y => .ok (x.1 ++ y.1, y.2)) hgroups

/-! ## Bytes (R105, R106, R108) -/

theorem read_byte_reads (a : Byte) : Reads (BitBuffer.read 8) (bitsOfNat 8 a.toNat) a.toNat :=
  read_reads (n := 8) (by decide) (by decide) a.isLt

theorem readBytes_reads (bytes : List Byte) : Reads (readBytes bytes.length) (byteBits bytes) bytes := by
  induction bytes with
  | nil => exact .nothing []
  | cons a rest ih =>
    have hall := (read_byte_reads a).bind (g := fun v b => readBytes rest.length b >>= fun x =>
      .ok (BitVec.ofNat 8 v :: x.1, x.2)) (ih.map _)
    rw [BitVec.ofNat_toNat, BitVec.setWidth_eq] at hall
    exact hall

theorem readByteSegment_reads {ver : Nat} {bytes : List Byte} (hlen : bytes.length < 2 ^ byteWidth ver) :
    Reads (readByteSegment ver) (bitsOfNat (byteWidth ver) bytes.length ++ byteBits bytes) bytes := by
  obtain ⟨h1, h32⟩ := byteWidth_range ver
  exact (read_reads h1 h32 hlen).bind (g := readBytes) (readBytes_reads bytes)

/-- The two bytes of each unit (R250). -/
def kanjiBytes (cfg : Params) (units : List Nat) : List Byte :=
  units.flatMap fun u => [(kanjiMap cfg u).1, (kanjiMap cfg u).2]

theorem readUnits_reads (cfg : Params) (units : List Nat) (h : ∀ u ∈ units, u < 2 ^ 13) :
    Reads (readUnits cfg units.length) (unitBits units) (kanjiBytes cfg units) := by
  induction units with
  | nil => exact .nothing []
  | cons u rest ih =>
    have hunit : Reads (BitBuffer.read 13) (bitsOfNat 13 u) u :=
      read_reads (n := 13) (by decide) (by decide) (h u (by simp))
    exact hunit.bind (g := fun u b => readUnits cfg rest.length b >>= fun x =>
      .ok ([(kanjiMap cfg u).1, (kanjiMap cfg u).2] ++ x.1, x.2)) ((ih fun v hv => h v (by simp [hv])).map _)

theorem readKanji_reads (cfg : Params) {ver : Nat} {units : List Nat} (h : ∀ u ∈ units, u < 2 ^ 13)
    (hlen : units.length < 2 ^ kanjiWidth ver) :
    Reads (readKanji cfg ver) (bitsOfNat (kanjiWidth ver) units.length ++ unitBits units) (kanjiBytes cfg units) := by
  obtain ⟨h1, h32⟩ := kanjiWidth_range ver
  exact (read_reads h1 h32 hlen).bind (g := readUnits cfg) (readUnits_reads cfg units h)

theorem readAppendPair_reads (a c : Byte) :
    Reads readAppendPair (bitsOfNat 8 a.toNat ++ bitsOfNat 8 c.toNat) (a, c) := by
  intro b hb h
  have havail := StreamAt.avail hb h
  rw [List.length_append, bitsOfNat_length, bitsOfNat_length] at havail
  have hpair := (read_byte_reads a).bind (g := fun v b => BitBuffer.read 8 b >>= fun x =>
    .ok ((BitVec.ofNat 8 v, BitVec.ofNat 8 x.1), x.2))
    ((read_byte_reads c).map fun w => (BitVec.ofNat 8 a.toNat, BitVec.ofNat 8 w))
  simp only [BitVec.ofNat_toNat, BitVec.setWidth_eq] at hpair
  rw [readAppendPair, if_neg (by omega)]
  exact hpair b hb h

/-! ## The effect of a segment -/

theorem Reads.effect {α : Type} {f : BitBuffer → Except Cause (α × BitBuffer)} {bits : List Bool} {a : α}
    (hf : Reads f bits a) (k : α → SegRegs) {b : BitBuffer} (hb : b.Wf) (h : StreamAt b bits) :
    (f b).map (fun x => (x.2, k x.1)) = .ok (b.skip bits.length, k a) := by
  rw [hf b hb h]
  rfl

theorem eciRecord_of_le {cfg : Params} {id : Nat} (h : id ≤ 999999) : eciRecord cfg id = .ok ⟨id, eciName cfg id⟩ :=
  if_neg (by omega)

/-- After its row, a segment that an encoder wrote has its effect on the registers, and the cursor stands behind it. -/
theorem segmentEffect_of_valid {cfg : Params} {r : SegRegs} {g : Seg} {b : BitBuffer} (hg : g.Valid r.ver) (hb : b.Wf)
    (h : StreamAt b (g.body r.ver)) :
    segmentEffect cfg b r g.instr = .ok (b.skip (g.body r.ver).length, g.effect cfg r) := by
  cases g with
  | num ds =>
    exact (readNumeric_reads hg.1 hg.2).effect (fun t => { r with text := r.text ++ t }) hb h
  | alnum cs =>
    exact (readAlphanumeric_reads hg.1 hg.2).effect (fun t => { r with text := r.text ++ t }) hb h
  | append a c =>
    exact (readAppendPair_reads a c).effect (fun p => { r with saseq := some p.1, sapar := some p.2 }) hb h
  | bytes bs =>
    exact (readByteSegment_reads hg).effect
      (fun t => { r with text := r.text ++ transcode (byteCharset r.eci t) t, eci := none }) hb h
  | kanji us =>
    exact (readKanji_reads cfg hg.1 hg.2).effect (fun t => { r with text := r.text ++ transcode .shiftJis t }) hb h
  | fnc1First | fnc1Second => rfl
  | eci1 id =>
    have hid := id.isLt
    show (eciRecord cfg id.toNat).map _ = _
    rw [eciRecord_of_le (by omega)]
    rfl
  | eci2 id =>
    have hid := id.isLt
    show (eciRecord cfg id.toNat).map _ = _
    rw [eciRecord_of_le (by omega)]
    rfl
  | eci3 id =>
    show (eciRecord cfg id.toNat).map _ = _
    rw [eciRecord_of_le hg]
    rfl

theorem effect_ver (cfg : Params) (g : Seg) (r : SegRegs) : (g.effect cfg r).ver = r.ver := by
  cases g <;> rfl

end Sys2Proof.Machine
end

section
/-! SUPPORT. A run over a stream whose remaining bits are known: one step for each segment that an encoder wrote, and
one for the end (spec/45_segment_decoder.md R241). -/

namespace Sys2Proof.Machine

/-- The stream at the cursor is `bits` to its end. -/
structure Remains (b : BitBuffer) (bits : List Bool) : Prop where
  wf : b.Wf
  stream : StreamAt b bits
  avail : b.avail = bits.length

theorem Remains.skip {b : BitBuffer} {bits more : List Bool} (h : Remains b (bits ++ more)) :
    StreamAt b bits ∧ Remains (b.skip bits.length) more := by
  obtain ⟨hbits, hmore, hwf⟩ := StreamAt.split h.wf h.stream
  have havail := h.avail
  rw [List.length_append] at havail
  refine ⟨hbits, hwf, hmore, ?_⟩
  rw [BitBuffer.skip_avail h.wf (by omega)]
  omega

/-! ## The bits of a vector of bytes (spec/20_memory.md R65) -/

/-- With the cursor at a byte, its bits are the next eight. -/
theorem streamAt_byte (before : List Byte) (a : Byte) (after : List Byte) :
    StreamAt ⟨before ++ a :: after, before.length, 0⟩ (bitsOfNat 8 a.toNat) := by
  have hleft (k : Nat) (hk : k < 8) : (8 * (after.length + 1) - k = 0) = False := by
    rw [eq_iff_iff, iff_false]
    omega
  simp [StreamAt, BitBuffer.window, BitBuffer.avail, BitBuffer.bit, BitBuffer.next, bitsOfNat, BitVec.testBit_toNat,
    hleft, -Nat.testBit_zero]

theorem streamAt_byteBits (before bytes : List Byte) :
    StreamAt ⟨before ++ bytes, before.length, 0⟩ (byteBits bytes) := by
  induction bytes generalizing before with
  | nil => rfl
  | cons a rest ih =>
    have hwf : (⟨before ++ a :: rest, before.length, 0⟩ : BitBuffer).Wf := ⟨by simp, by simp, fun _ => rfl⟩
    have hbyte := streamAt_byte before a rest
    have hnext := ih (before ++ [a])
    have hskip : (⟨before ++ a :: rest, before.length, 0⟩ : BitBuffer).skip 8 =
        ⟨(before ++ [a]) ++ rest, (before ++ [a]).length, 0⟩ := by
      simp [BitBuffer.skip, BitBuffer.take, BitBuffer.next]
    have hwindow := window_of_streamAt (n := 8 + (byteBits rest).length) hwf hbyte (by simp)
    rw [bitsOfNat_length, hskip, Nat.add_sub_cancel_left, hnext] at hwindow
    have hbits : byteBits (a :: rest) = bitsOfNat 8 a.toNat ++ byteBits rest := rfl
    rw [hbits, StreamAt, List.length_append, bitsOfNat_length]
    exact hwindow

theorem byteBits_length (bytes : List Byte) : (byteBits bytes).length = 8 * bytes.length := by
  induction bytes with
  | nil => rfl
  | cons a rest ih =>
    rw [show byteBits (a :: rest) = bitsOfNat 8 a.toNat ++ byteBits rest from rfl, List.length_append, ih,
      bitsOfNat_length, List.length_cons]
    omega

/-- A buffer that has just been loaded holds the bits of its bytes. -/
theorem remains_loaded (data : List Byte) : Remains ⟨data, 0, 0⟩ (byteBits data) where
  wf := ⟨Nat.zero_le _, by simp, fun _ => rfl⟩
  stream := streamAt_byteBits [] data
  avail := (byteBits_length data).symm

/-! ## One step -/

theorem encode_segInstr (g : Seg) : encode g.instr = .bits (rowOf g.instr) := by
  cases g <;> rfl

/-- A segment is no command, ends no run, and has its whole row in the table. -/
theorem segInstr_facts (g : Seg) : isSegment g.instr = true ∧ g.instr ≠ .terminator ∧ g.instr ≠ .eci := by
  cases g <;> simp [Seg.instr, isSegment, encode]

/-- The step over a segment that an encoder wrote. -/
theorem step_of_segment {s : State} {g : Seg} {more : List Bool} (hi : s.activity ≠ .idle) (hg : g.Valid s.seg.ver)
    (h : Remains s.bb (g.bits s.seg.ver ++ more)) :
    step s = .next { s with bb := s.bb.skip (g.bits s.seg.ver).length, seg := g.effect s.cfg s.seg } := by
  obtain ⟨hseg, hterm, heci⟩ := segInstr_facts g
  have hbits : g.bits s.seg.ver = rowOf g.instr ++ g.body s.seg.ver := rfl
  rw [hbits] at h ⊢
  obtain ⟨hwhole, -⟩ := h.skip
  obtain ⟨hrow, hbody, hwf⟩ := StreamAt.split h.wf hwhole
  rw [step_of_rowAt hi h.wf heci (encode_segInstr g) hrow, exec_eq_segmentBody hseg hterm]
  refine segment_ok hi ?_
  rw [segmentBody, segmentEffect_of_valid hg hwf hbody, List.length_append, BitBuffer.skip_add]
  rfl

theorem exec_terminator {s : State} (hi : s.activity ≠ .idle) : exec .terminator s = .next (endRun s) := by
  show execTerminator s = _
  exact segment_ok hi rfl

/-- What ends a stream (R241): fewer than four bits, or a TERMINATOR and anything. -/
def EndsStream (tail : List Bool) : Prop := tail.length < 4 ∨ ∃ more, tail = bitsOfNat 4 0b0000 ++ more

/-- The step at the end of the stream. -/
theorem step_of_end {s : State} {tail : List Bool} (hi : s.activity ≠ .idle) (htail : EndsStream tail)
    (h : Remains s.bb tail) : step s = .next (ended 0x00 0x00 (runFields s) ⟨[], 0, 0⟩ s) := by
  obtain hshort | ⟨more, rfl⟩ := htail
  · have hwindow : (s.bb.window longestRow).length < 4 := by
      rw [BitBuffer.window_length h.wf, h.avail]
      omega
    rw [step_of_streamEnd hi ((decodeSegment_eq_error _).mpr hwindow), endRun_eq_ended]
  · obtain ⟨hrow, -⟩ := h.skip
    rw [step_of_rowAt (i := .terminator) hi h.wf (by simp) rfl hrow]
    refine (exec_terminator hi).trans (congrArg Host.Outcome.next ?_)
    exact endRun_eq_ended _

/-! ## The run -/

/-- The registers after segments, one after the other. -/
def effects (cfg : Config.Params) (gs : List Seg) (r : SegRegs) : SegRegs :=
  gs.foldl (fun r g => g.effect cfg r) r

/-- The run over the segments that an encoder wrote ends with the response that they mean, after a step for each and
one more. -/
theorem run_of_stream {gs : List Seg} {tail : List Bool} (htail : EndsStream tail) {s : State}
    (hi : s.activity ≠ .idle) (hgs : ∀ g ∈ gs, g.Valid s.seg.ver)
    (h : Remains s.bb (gs.flatMap (Seg.bits s.seg.ver) ++ tail)) :
    Host.Core.run Sys2Proof.core (gs.length + 1) s =
      .next (ended 0x00 0x00 (runFields { s with seg := effects s.cfg gs s.seg }) ⟨[], 0, 0⟩ s) := by
  induction gs generalizing s with
  | nil => exact run_succ (M := core) (step_of_end hi htail h) 0
  | cons g gs ih =>
    rw [List.flatMap_cons, List.append_assoc] at h
    have hstep := step_of_segment hi (hgs g (by simp)) h
    obtain ⟨-, hrest⟩ := h.skip
    have hver := effect_ver s.cfg g s.seg
    have hrun := ih (s := { s with bb := s.bb.skip (g.bits s.seg.ver).length, seg := g.effect s.cfg s.seg }) hi
      (fun g' hg' => by rw [hver]; exact hgs g' (by simp [hg'])) (by rw [hver]; exact hrest)
    refine (run_succ (M := core) hstep _).trans (hrun.trans (congrArg Host.Outcome.next ?_))
    exact ended_congr rfl rfl rfl

theorem effects_ver (cfg : Config.Params) (gs : List Seg) (r : SegRegs) : (effects cfg gs r).ver = r.ver := by
  induction gs generalizing r with
  | nil => rfl
  | cons g gs ih => exact (ih _).trans (effect_ver cfg g r)

/-- SEG.DECODE of a legal version starts its run (R240). -/
theorem execSegDecode_of_version {s : State} {ver : Byte} (data : List Byte) (hi : s.activity = .idle)
    (h1 : 1 ≤ ver.toNat) (h40 : ver.toNat ≤ 40) :
    exec (.segDecode ver data) s = .next (startRun .segRun ver.toNat data (clearBitBuffer s)) := by
  show execSegDecode ver data s = _
  refine command_ok hi ?_
  rw [versionOperand_eq_ok.mpr ⟨h1, h40, rfl⟩]
  rfl

end Sys2Proof.Machine
end

section
/-! CLAIMS. Family 30_encoding: whole streams. -/

namespace Sys2Proof.Machine

/-- Settles O60: the bits of the loaded data are those of the segments, so the run takes a step for each; SEG.DECODE
starts its run with one step more. -/
theorem encodedStreamsDecode : Obligations.EncodedStreamsDecode := by
  intro ver gs tail data h1 h40 hfits hgs htail hdata
  have hloaded := remains_loaded data
  rw [hdata] at hloaded
  constructor
  · intro s bytes rest hi he hscript r hr
    have hdecode := (eachPacketHasOneEncoding bytes (.segDecode ver data)).mpr ⟨hfits, he⟩
    have hstep := (step_of_packet hi hscript hdecode).trans (execSegDecode_of_version data hi h1 h40)
    have hrun := run_of_stream htail (s := startRun .segRun ver.toNat data (clearBitBuffer { s with script := rest }))
      (by simp) hgs hloaded
    subst hr
    exact (run_succ (M := core) hstep _).trans hrun
  · intro s ecl ha hbb hseg r hr
    have hver : s.seg.ver = ver.toNat := by rw [hseg]
    have hrun := run_of_stream htail (s := s) (by simp [ha]) (by rwa [hver]) (by rwa [hbb, hver])
    rw [hrun, hr]
    congr 2
    have hver' := effects_ver s.cfg gs s.seg
    simp only [effects, hver] at hver'
    simp [runFields, ha, effects, hver']

end Sys2Proof.Machine
end

section
/-! CLAIMS. Family 30_encoding: sample words, and the packets that are refused (spec/30_encoding.md R99, R100). -/

namespace Sys2Proof.Machine

/-- Settles O4: each word decoded. -/
theorem sampleWordsDecode : Obligations.SampleWordsDecode := by
  refine ⟨?_, ?_, ?_, ?_, ?_, ?_, ?_, ?_, ?_, ?_, ?_, ?_, ?_, ?_, ?_⟩ <;> decide

/-- The opcode bytes outside the map (R99). -/
def IllegalOpcode (op : Byte) : Prop :=
  op.toNat ≤ 0x0F ∨ (0x16 ≤ op.toNat ∧ op.toNat ≤ 0x1F) ∨ (0x2B ≤ op.toNat ∧ op.toNat ≤ 0x2F) ∨
    (0x35 ≤ op.toNat ∧ op.toNat ≤ 0x3F) ∨ (0x41 ≤ op.toNat ∧ op.toNat ≤ 0x4F) ∨
    (0x53 ≤ op.toNat ∧ op.toNat ≤ 0x5F) ∨ (0x61 ≤ op.toNat ∧ op.toNat ≤ 0x6F) ∨ 0x71 ≤ op.toNat

theorem operandParser_of_illegal {op : Byte} (h : IllegalOpcode op) : operandParser op = none := by
  unfold IllegalOpcode at h
  unfold operandParser
  split
  case h_29 => rfl
  all_goals omega

theorem decodePacket_of_illegal {op : Byte} (h : IllegalOpcode op) (operands : List Byte) :
    decodePacket (op :: operands) = .error .badOpcode := by
  rw [decodePacket, operandParser_of_illegal h]

/-- Settles O5: no parser has the opcode, and an engine between commands has no working value to drop. -/
theorem illegalOpcodesRaiseBadOpcode : Obligations.IllegalOpcodesRaiseBadOpcode := by
  intro s op operands rest hinv hi hscript hop
  obtain ⟨hseg, hwork⟩ := hinv.dropped hi
  rw [step_of_rejected hi hscript (decodePacket_of_illegal hop operands)]
  simp [ended, rejectCause, causeKind, causeCode, hseg, hwork, hi]

/-- The opcode of an encoding is in the map, whatever the operands. -/
theorem operandParser_of_encode {i : Instr} {op : Byte} {operands : List Byte}
    (he : encode i = .packet (op :: operands)) : ∃ parse, operandParser op = some parse := by
  cases i <;> cases he <;> exact ⟨_, rfl⟩

/-- Behind an opcode of the map a packet decodes or its framing is refused. -/
theorem decodePacket_of_parser {op : Byte} {parse : List Byte → Option (Instr × List Byte)} (operands : List Byte)
    (hop : operandParser op = some parse) :
    (∃ i, decodePacket (op :: operands) = .ok i) ∨ decodePacket (op :: operands) = .error .badPacket := by
  rw [decodePacket, hop]
  dsimp only
  split
  · exact .inl ⟨_, rfl⟩
  · exact .inr rfl

/-- Settles O6: what decodes is an encoding, and the opcode is in the map, so only the framing is left to refuse. -/
theorem malformedPacketsRaiseBadPacket : Obligations.MalformedPacketsRaiseBadPacket := by
  intro s bytes rest hi hscript hbad
  have hdecode : decodePacket bytes = .error .badPacket := by
    obtain rfl | ⟨op, operands, good, i, rfl, he, hnone⟩ := hbad
    · rfl
    · obtain ⟨parse, hop⟩ := operandParser_of_encode he
      obtain ⟨j, hj⟩ | herror := decodePacket_of_parser operands hop
      · exact absurd ⟨j, (eachPacketHasOneEncoding _ j).mp hj⟩ hnone
      · exact herror
  exact step_of_rejected hi hscript hdecode

end Sys2Proof.Machine
end

section
/-! SUPPORT. Everything a step can do: it answers the host, it starts a run, it goes on inside one, it resets, or it
does nothing (spec/60_exceptions.md R311, R324). -/

namespace Sys2Proof.Machine

/-- From `s` to `t` a command was answered: it completed, or it faulted. -/
def Answers (s t : State) : Prop :=
  (∃ fields b, t = ended 0x00 0x00 fields b s) ∨ ∃ c b, t = ended (causeKind c) (causeCode c) [] b s

/-- From `s` to `t` a command started a run, and was not answered yet. -/
def StartsRun (s t : State) : Prop := ∃ a ver data w, a ≠ .idle ∧ t = startRun a ver data { s with work := w }

/-- From `s` to `t` a run went on: the cursor and the segment registers alone. -/
def GoesOn (s t : State) : Prop := ∃ b r, t = { s with bb := b, seg := r }

theorem answers_complete (f : List Byte) (s : State) (b : BitBuffer) (w : Work) :
    Answers s (complete f { s with bb := b, work := w }) := .inl ⟨f, b, rfl⟩

theorem answers_takeFault (c : Cause) (s : State) : Answers s (takeFault c s) :=
  .inr ⟨c, (takeFault c s).bb, rfl⟩

/-- What is answered does not depend on the registers that are dropped. -/
theorem Answers.congr {s s' t : State} (h : Answers s t) (hcfg : s.cfg = s'.cfg) (hscript : s.script = s'.script)
    (hresponses : s.responses = s'.responses) : Answers s' t := by
  obtain ⟨fields, b, rfl⟩ | ⟨c, b, rfl⟩ := h
  · exact .inl ⟨fields, b, ended_congr hcfg hscript hresponses⟩
  · exact .inr ⟨c, b, ended_congr hcfg hscript hresponses⟩

theorem answer_cases {s : State} (hi : s.activity = .idle) (fields : Except Cause (List Byte)) :
    ∃ t, answer s fields = .next t ∧ Answers s t := by
  cases fields with
  | ok f => exact ⟨_, answer_ok hi, answers_complete f s s.bb s.work⟩
  | error c => exact ⟨_, answer_error hi, answers_takeFault c s⟩

theorem execBbLoad_of_idle {s : State} (hi : s.activity = .idle) (bytes : List Byte) :
    execBbLoad bytes s = .next (complete [] { s with bb := ⟨bytes, 0, 0⟩ }) := command_ok hi rfl

theorem execBbRead_cases {s : State} (hi : s.activity = .idle) (n : Byte) :
    ∃ t, execBbRead n s = .next t ∧ Answers s t := by
  cases hread : s.bb.read (s8Operand n) with
  | ok x => exact ⟨_, command_ok hi (by rw [hread]; rfl), answers_complete (u32Field x.1) s x.2 s.work⟩
  | error c => exact ⟨_, command_error hi (by rw [hread]; rfl), answers_takeFault c s⟩

theorem execSegDecode_cases {s : State} (hi : s.activity = .idle) (version : Byte) (data : List Byte) :
    ∃ t, execSegDecode version data s = .next t ∧ (Answers s t ∨ StartsRun s t) := by
  cases hver : versionOperand version with
  | ok ver =>
    exact ⟨_, command_ok hi (by rw [hver]; rfl), .inr ⟨.segRun, ver, data, s.work, by simp, rfl⟩⟩
  | error c =>
    exact ⟨_, command_error hi (by rw [hver]; rfl), .inl ((answers_takeFault c _).congr rfl rfl rfl)⟩

theorem execDecode_cases {s : State} (hi : s.activity = .idle) (version ecl : Byte) (raw : List Byte) :
    ∃ t, execDecode version ecl raw s = .next t ∧ (Answers s t ∨ StartsRun s t) := by
  cases hstages : pipelineStages s.cfg version ecl raw s.work with
  | ok w =>
    refine ⟨_, command_ok hi ?_, .inr ⟨.decodeRun ecl, version.toNat, w.agg, w, by simp, rfl⟩⟩
    dsimp only [clearBitBuffer_cfg, clearBitBuffer_work]
    rw [hstages]
    rfl
  | error c =>
    refine ⟨_, command_error (c := c) hi ?_, .inl ((answers_takeFault c _).congr rfl rfl rfl)⟩
    dsimp only [clearBitBuffer_cfg, clearBitBuffer_work]
    rw [hstages]
    rfl

/-- Between commands every command answers or starts a run. -/
theorem exec_command_cases {s : State} {i : Instr} (hi : s.activity = .idle) (hcmd : isSegment i = false) :
    ∃ t, exec i s = .next t ∧ (Answers s t ∨ StartsRun s t) := by
  cases ht : touchesBitBuffer i with
  | false =>
    obtain ⟨fields, hfields⟩ := exec_answersFromBits hcmd ht
    obtain ⟨t, hstep, hanswers⟩ := answer_cases hi (fields s.cfg s.bb)
    exact ⟨t, (hfields s).trans hstep, .inl hanswers⟩
  | true =>
    cases i
    case bbLoad bytes => exact ⟨_, execBbLoad_of_idle hi bytes, .inl (answers_complete [] s ⟨bytes, 0, 0⟩ s.work)⟩
    case bbRead n =>
      obtain ⟨t, hstep, hanswers⟩ := execBbRead_cases hi n
      exact ⟨t, hstep, .inl hanswers⟩
    case segDecode version data => exact execSegDecode_cases hi version data
    case decode version ecl raw => exact execDecode_cases hi version ecl raw
    all_goals cases ht

/-- Inside a run every segment answers or goes on. -/
theorem exec_segment_cases {s : State} {i : Instr} (hi : s.activity ≠ .idle) (hseg : isSegment i = true) :
    ∃ t, exec i s = .next t ∧ (Answers s t ∨ GoesOn s t) := by
  by_cases hterm : i = .terminator
  · subst hterm
    exact ⟨_, exec_terminator hi, .inl (.inl ⟨_, _, endRun_eq_ended s⟩)⟩
  · rw [exec_eq_segmentBody hseg hterm]
    cases heffect : segmentEffect s.cfg s.bb s.seg i with
    | ok x => exact ⟨_, segment_ok hi (by rw [segmentBody, heffect]; rfl), .inr ⟨x.1, x.2, rfl⟩⟩
    | error c => exact ⟨_, segment_error hi (by rw [segmentBody, heffect]; rfl), .inl (answers_takeFault c s)⟩

/-! ## The steps -/

/-- A step inside a run answers or goes on. -/
theorem step_run_cases {s : State} (hi : s.activity ≠ .idle) : ∃ t, step s = .next t ∧ (Answers s t ∨ GoesOn s t) := by
  cases hdecode : decodeSegment (s.bb.window longestRow) with
  | error r => exact ⟨_, step_of_streamEnd hi hdecode, .inl (.inl ⟨_, _, endRun_eq_ended s⟩)⟩
  | ok row =>
    obtain ⟨t, hexec, hcases⟩ := exec_segment_cases (s := { s with bb := s.bb.skip row.2 }) (i := row.1) hi
      (isSegment_of_decodeSegment hdecode)
    refine ⟨t, (step_of_row hi hdecode).trans hexec, ?_⟩
    obtain hanswers | ⟨b, r, rfl⟩ := hcases
    · exact .inl (hanswers.congr rfl rfl rfl)
    · exact .inr ⟨b, r, rfl⟩

/-- A step that takes a packet answers or starts a run. -/
theorem step_packet_cases {s : State} {bytes : List Byte} {rest : List HostAction} (hi : s.activity = .idle)
    (hscript : s.script = .packet bytes :: rest) :
    ∃ t, step s = .next t ∧ (Answers { s with script := rest } t ∨ StartsRun { s with script := rest } t) := by
  cases hdecode : decodePacket bytes with
  | error r => exact ⟨_, step_of_rejected hi hscript hdecode, .inl (.inr ⟨rejectCause r, s.bb, rfl⟩)⟩
  | ok i =>
    obtain ⟨t, hexec, hcases⟩ := exec_command_cases (s := { s with script := rest }) hi
      (isSegment_of_decodePacket hdecode)
    exact ⟨t, (step_of_packet hi hscript hdecode).trans hexec, hcases⟩

end Sys2Proof.Machine
end

section
/-! CLAIMS. Family 30_encoding: one response per command, and what stands at its head. -/

namespace Sys2Proof.Machine

theorem Answers.frame {s t : State} (h : Answers s t) :
    t.cfg = s.cfg ∧ t.script = s.script ∧ t.activity = .idle ∧ ∃ r, t.responses = s.responses ++ [r] := by
  obtain ⟨fields, b, rfl⟩ | ⟨c, b, rfl⟩ := h <;> exact ⟨rfl, rfl, rfl, _, rfl⟩

theorem StartsRun.frame {s t : State} (h : StartsRun s t) :
    t.cfg = s.cfg ∧ t.script = s.script ∧ t.activity ≠ .idle ∧ t.responses = s.responses := by
  obtain ⟨a, ver, data, w, ha, rfl⟩ := h
  exact ⟨rfl, rfl, ha, rfl⟩

/-- Settles O11: by what the host sends between commands, and by what a step inside a run can do. -/
theorem everyStepGoesOnAndAnswersOnce : Obligations.EveryStepGoesOnAndAnswersOnce := by
  intro s
  by_cases hi : s.activity = .idle
  · cases hscript : s.script with
    | nil =>
      exact ⟨s, step_of_over (fetch_idle_nil hi hscript), rfl, fun h => absurd hi h, by simp, by simp⟩
    | cons action rest =>
      cases action with
      | reset =>
        refine ⟨_, step_of_over (fetch_idle_reset hi hscript), rfl, fun h => absurd hi h, by simp, ?_⟩
        rintro _ - ⟨⟩
        exact ⟨rfl, rfl, rfl⟩
      | packet bytes =>
        obtain ⟨t, hstep, hanswers | hstarts⟩ := step_packet_cases hi hscript
        · obtain ⟨hcfg, hrest, hidle, hresponse⟩ := hanswers.frame
          refine ⟨t, hstep, hcfg, fun h => absurd hi h, ?_, by simp⟩
          rintro _ _ - ⟨⟩
          exact ⟨hrest, .inr ⟨hidle, hresponse⟩⟩
        · obtain ⟨hcfg, hrest, hrun, hresponses⟩ := hstarts.frame
          refine ⟨t, hstep, hcfg, fun h => absurd hi h, ?_, by simp⟩
          rintro _ _ - ⟨⟩
          exact ⟨hrest, .inl ⟨hrun, hresponses⟩⟩
  · obtain ⟨t, hstep, hanswers | ⟨b, r, rfl⟩⟩ := step_run_cases hi
    · obtain ⟨hcfg, hscript, hidle, hresponse⟩ := hanswers.frame
      exact ⟨t, hstep, hcfg, fun _ => ⟨hscript, .inr ⟨hidle, hresponse⟩⟩, fun _ _ h => absurd h hi,
        fun _ h => absurd h hi⟩
    · exact ⟨_, hstep, rfl, fun _ => ⟨rfl, .inl ⟨rfl, rfl⟩⟩, fun _ _ h => absurd h hi, fun _ h => absurd h hi⟩

/-- No fault has the kind OK (R301). -/
theorem causeKind_ne_zero (c : Cause) : causeKind c ≠ 0x00 := by
  cases c <;> decide

/-- STATUS heads the response: `(kind, cause)` and the fields of a success, or a kind that is not OK and no field. -/
theorem Answers.status {s t : State} (h : Answers s t) :
    ∃ fields, t.responses = s.responses ++ [t.status.kind :: t.status.cause :: fields] ∧
      (t.status.kind ≠ 0x00 → fields = []) ∧ (t.status.kind = 0x00 → t.status.cause = 0x00) := by
  obtain ⟨fields, b, rfl⟩ | ⟨c, b, rfl⟩ := h
  · exact ⟨fields, rfl, fun h => absurd rfl h, fun _ => rfl⟩
  · exact ⟨[], rfl, fun _ => rfl, fun h => absurd h (causeKind_ne_zero c)⟩

/-- Settles O13: a step that adds a response is an answer. -/
theorem statusHeadsEveryResponse : Obligations.StatusHeadsEveryResponse := by
  intro s t hstep
  by_cases hi : s.activity = .idle
  · cases hscript : s.script with
    | nil =>
      rw [step_of_over (fetch_idle_nil hi hscript)] at hstep
      cases hstep
      exact .inl rfl
    | cons action rest =>
      cases action with
      | reset =>
        rw [step_of_over (fetch_idle_reset hi hscript)] at hstep
        cases hstep
        exact .inl rfl
      | packet bytes =>
        obtain ⟨u, hu, hcases⟩ := step_packet_cases hi hscript
        rw [hu] at hstep
        cases hstep
        obtain hanswers | hstarts := hcases
        · exact .inr hanswers.status
        · obtain ⟨-, -, -, hresponses⟩ := hstarts.frame
          exact .inl hresponses
  · obtain ⟨u, hu, hcases⟩ := step_run_cases hi
    rw [hu] at hstep
    cases hstep
    obtain hanswers | ⟨b, r, rfl⟩ := hcases
    · exact .inr hanswers.status
    · exact .inl rfl

end Sys2Proof.Machine
end

section
/-! CLAIMS. Family 30_encoding: the assembly of `poly` operands (spec/30_encoding.md R96). -/

namespace Sys2Proof.Machine

open Sys2Proof.Config

/-! ## An empty operand -/

theorem withPoly_nil (f : Poly → Except Cause (List Byte)) : withPoly [] f = .error .polyEmpty := rfl

/-- The operands are assembled in field order, so either of them may be the empty one (R310). -/
theorem withPolys_of_nil {p q : Poly} (f : Poly → Poly → Except Cause (List Byte)) (hp : FitsField p)
    (h : [] ∈ [p, q]) : withPolys p q f = .error .polyEmpty := by
  by_cases hnil : p = []
  · subst hnil; rfl
  · obtain rfl : q = [] := by simpa [hnil, eq_comm] using h
    rw [withPolys, withPoly, polyOperand_eq hp, if_neg hnil]
    rfl

/-- A command with an empty operand answers the fault whatever its other operands. -/
theorem exec_of_emptyPoly {i : Instr} (hw : WellFormed i) (h : [] ∈ polyOperands i) (s : State) :
    exec i s = answer s (.error .polyEmpty) := by
  cases i
  case polyNew | polyDeg | polyCoef | polyIsZero | polyEval | polyMulI | polyMulM =>
    cases List.mem_singleton.mp h
    rfl
  case polyAdd | polyMul | polyDiv | polyMod => exact congrArg (answer s) (withPolys_of_nil _ hw.1 h)
  case rsEuclid p twoS =>
    cases List.mem_singleton.mp h
    exact execRsEuclid_eq_answer [] twoS s
  case rsChien p =>
    cases List.mem_singleton.mp h
    exact execRsChien_eq_answer [] s
  case rsForney p q v =>
    exact (execRsForney_eq_answer p q v s).trans (congrArg (answer s) (withPolys_of_nil _ hw.1 h))
  all_goals cases h

/-! ## Leading zeros -/

theorem strip_strip (c : List Byte) : strip (strip c) = strip c := strip_of_canonical (strip_canonical c)

theorem strip_ne_nil (c : List Byte) : strip c ≠ [] := (strip_canonical c).1

theorem dropWhile_strip (c : List Byte) : (strip c).dropWhile (· == 0) = c.dropWhile (· == 0) := by
  induction c with
  | nil => rfl
  | cons b c ih =>
    by_cases hb : b = 0
    · subst hb
      exact (congrArg _ (strip_cons_zero c)).trans ih
    · rw [strip_cons hb]

/-- The constructor strips leading zeros itself (R151). -/
theorem norm_strip {c : List Byte} (h : c ≠ []) (degree : Int) : norm (strip c) degree = norm c degree := by
  rw [norm, norm, if_neg (strip_ne_nil c), if_neg h, dropWhile_strip]

theorem polyOperand_strip {p : Poly} (h : p ≠ []) : polyOperand (strip p) = polyOperand p := norm_strip h 0

theorem withPoly_strip {p : Poly} (h : p ≠ []) (f : Poly → Except Cause (List Byte)) :
    withPoly (strip p) f = withPoly p f := by
  rw [withPoly, withPoly, polyOperand_strip h]

theorem withPolys_strip {p q : Poly} (h : [] ∉ [p, q]) (f : Poly → Poly → Except Cause (List Byte)) :
    withPolys (strip p) (strip q) f = withPolys p q f := by
  have hp : p ≠ [] := by rintro rfl; simp at h
  have hq : q ≠ [] := by rintro rfl; simp at h
  simp only [withPolys, withPoly_strip hp, withPoly_strip hq]

/-- Every command takes its operands through the constructor, so stripping them first changes nothing. -/
theorem exec_mapPolyOperands_strip {i : Instr} (h : [] ∉ polyOperands i) (s : State) :
    exec (mapPolyOperands strip i) s = exec i s := by
  have hone {p : Poly} (h : [] ∉ [p]) : p ≠ [] := by rintro rfl; simp at h
  cases i
  case polyNew c d =>
    exact congrArg (fun r => answer s (r.map vecField)) (norm_strip (hone h) (s16Operand d))
  case polyDeg | polyCoef | polyIsZero | polyEval | polyMulI | polyMulM =>
    exact congrArg (answer s) (withPoly_strip (hone h) _)
  case polyAdd | polyMul | polyDiv | polyMod => exact congrArg (answer s) (withPolys_strip h _)
  case rsEuclid p w =>
    exact (execRsEuclid_eq_answer (strip p) w s).trans
      ((congrArg (answer s) (withPoly_strip (hone h) _)).trans (execRsEuclid_eq_answer p w s).symm)
  case rsChien p =>
    exact (execRsChien_eq_answer (strip p) s).trans
      ((congrArg (answer s) (withPoly_strip (hone h) _)).trans (execRsChien_eq_answer p s).symm)
  case rsForney p q v =>
    exact (execRsForney_eq_answer (strip p) (strip q) v s).trans
      ((congrArg (answer s) (withPolys_strip h _)).trans (execRsForney_eq_answer p q v s).symm)
  all_goals rfl

/-- Settles O36: an empty operand faults, and the constructor makes leading zeros no difference. -/
theorem polyOperandsAreNormalised : Obligations.PolyOperandsAreNormalised := by
  refine ⟨fun i s hw hi h => ?_, fun i s _ h => (exec_mapPolyOperands_strip h s).symm, fun k a rest ha => ⟨?_, ?_⟩⟩
  · rw [exec_of_emptyPoly hw h, answer_error_ended hi]
    rfl
  · rw [strip_replicate, strip_cons ha]
  · have hzero := strip_replicate (k + 1) []
    rwa [List.append_nil] at hzero

end Sys2Proof.Machine
end

section
/-! CLAIMS. Family 30_encoding: the result fields (spec/30_encoding.md R92, R98). -/

namespace Sys2Proof.Machine

theorem u16Field_of_lt {n : Nat} (h : n < 2 ^ 16) : u16Field n = bytesOfWord16 (BitVec.ofNat 16 n) := by
  rw [u16Field, if_pos h]
  rfl

/-- The number of a `u32` field is its bytes', big-endian. -/
theorem u32Field_of_lt {n : Nat} (h : n < 2 ^ 32) :
    u32Field n = [BitVec.ofNat 8 (n / 2 ^ 24), BitVec.ofNat 8 (n / 2 ^ 16), BitVec.ofNat 8 (n / 2 ^ 8),
      BitVec.ofNat 8 n] := by
  rw [u32Field, if_pos h]
  simp only [List.cons.injEq, and_true]
  refine ⟨?_, ?_, ?_, ?_⟩ <;> apply BitVec.eq_of_toNat_eq <;>
    simp [BitVec.extractLsb'_toNat, Nat.shiftRight_eq_div_pow] <;> omega

/-- Settles O22: each field by its bytes. -/
theorem resultFieldLayouts : Obligations.ResultFieldLayouts := by
  refine ⟨fun n h => ?_, fun n h => ?_, fun v h => ?_, fun v => rfl, rfl, fun b => rfl⟩
  · refine ⟨_, _, u16Field_of_lt h, ?_⟩
    simp [BitVec.extractLsb'_toNat, Nat.shiftRight_eq_div_pow]
    omega
  · refine ⟨_, _, _, _, u32Field_of_lt h, ?_⟩
    simp only [BitVec.toNat_ofNat]
    omega
  · refine ⟨rfl, ?_⟩
    have hlength : v.length ≤ 65535 := h
    rw [vecField, u16Field_of_lt (by omega), bytesOfVec]

end Sys2Proof.Machine
end

section
/-! CLAIMS. Family 30_encoding: the tables of the segments (spec/30_encoding.md R102, R109;
spec/45_segment_decoder.md R253 to R255, R262). -/

namespace Sys2Proof.Machine

/-! ## Count widths -/

theorem byVersion_narrow {ver : Nat} (h : ver ≤ 9) (narrow middle wide : Nat) :
    byVersion ver narrow middle wide = narrow := if_pos h

theorem byVersion_middle {ver : Nat} (h : 10 ≤ ver) (h' : ver ≤ 26) (narrow middle wide : Nat) :
    byVersion ver narrow middle wide = middle := by
  rw [byVersion, if_neg (by omega), if_pos h']

theorem byVersion_wide {ver : Nat} (h : 27 ≤ ver) (narrow middle wide : Nat) :
    byVersion ver narrow middle wide = wide := by
  rw [byVersion, if_neg (by omega), if_neg (by omega)]

/-! ## Kanji units -/

/-- The equivalent form of R254: an offset is added to the high and low parts as one number. -/
theorem kanjiMapIso_eq (u : Nat) {c : Nat}
    (h : c = 0x100 * (u / 0xC0) + u % 0xC0 + (if 0x100 * (u / 0xC0) + u % 0xC0 < 0x1F00 then 0x8140 else 0xC140)) :
    kanjiMapIso u = (BitVec.ofNat 8 (c / 0x100), BitVec.ofNat 8 (c % 0x100)) := by
  have hlo : u % 0xC0 < 0xC0 := Nat.mod_lt _ (by decide)
  unfold kanjiMapIso
  dsimp only
  by_cases hhi : u / 0xC0 < 0x1F
  · rw [if_pos (by omega)] at h
    have h1 : c / 0x100 = u / 0xC0 + 0x81 := by omega
    have h2 : c % 0x100 = u % 0xC0 + 0x40 := by omega
    rw [if_pos hhi, h1, h2]
  · rw [if_neg (by omega)] at h
    have h1 : c / 0x100 = u / 0xC0 + 0xC1 := by omega
    have h2 : c % 0x100 = u % 0xC0 + 0x40 := by omega
    rw [if_neg hhi, h1, h2]

/-- Below 0x1740 the two maps agree (R255). -/
theorem kanjiMapDoc_eq_iso {u : Nat} (h : u < 0x1740) : kanjiMapDoc u = kanjiMapIso u := by
  unfold kanjiMapDoc kanjiMapIso
  rw [if_pos (by omega)]
  dsimp only
  rw [if_pos (by omega)]

/-- From 0x1740 on they differ: in the high byte up to 0x1F00, in the low byte from there (R255). -/
theorem kanjiMapDoc_ne_iso {u : Nat} (h : 0x1740 ≤ u) (h13 : u < 2 ^ 13) : kanjiMapDoc u ≠ kanjiMapIso u := by
  intro heq
  unfold kanjiMapDoc kanjiMapIso at heq
  dsimp only at heq
  rw [if_neg (show ¬ u / 0xC0 < 0x1F by omega)] at heq
  by_cases hhigh : u < 0x1F00
  · rw [if_pos hhigh] at heq
    have hbyte := congrArg BitVec.toNat (congrArg Prod.fst heq)
    simp only [BitVec.toNat_ofNat] at hbyte
    omega
  · rw [if_neg hhigh] at heq
    have hbyte := congrArg BitVec.toNat (congrArg Prod.snd heq)
    simp only [BitVec.toNat_ofNat] at hbyte
    omega

/-! ## Charset names -/

/-- The ids that R262 does not list. -/
def UnlistedId (id : Nat) : Prop := id = 14 ∨ (16 ≤ id ∧ id ≤ 19) ∨ (31 ≤ id ∧ id ≠ 170)

theorem defaultEciNames_listed : ∀ p ∈ defaultEciNames, ¬ UnlistedId p.1 := by
  unfold UnlistedId
  decide

theorem eciName_reset_of_unlisted {id : Nat} (h : UnlistedId id) : eciName State.reset.cfg id = none := by
  show defaultEciNames.lookup id = none
  rw [List.lookup_eq_none_iff]
  intro p hp
  rw [bne_iff_ne]
  rintro rfl
  exact defaultEciNames_listed p hp h

/-- Settles O59: each table by its definition. -/
theorem segmentTables : Obligations.SegmentTables := by
  refine ⟨fun ver => ⟨fun h => ?_, fun h h' => ?_, fun h => ?_⟩, by decide, fun u h13 => ⟨?_, ?_, ?_, ?_, ?_⟩, ?_, rfl,
    rfl, rfl, rfl, rfl, rfl, ?_, rfl, rfl, rfl, rfl, rfl, rfl, fun id => eciName_reset_of_unlisted⟩
  · simp only [numericWidth, alphanumericWidth, byteWidth, kanjiWidth, byVersion_narrow h, and_self]
  · simp only [numericWidth, alphanumericWidth, byteWidth, kanjiWidth, byVersion_middle h h', and_self]
  · simp only [numericWidth, alphanumericWidth, byteWidth, kanjiWidth, byVersion_wide h, and_self]
  · exact fun c => kanjiMapIso_eq u
  · exact fun h => if_pos h
  · exact fun h => if_neg (by omega)
  · exact kanjiMapDoc_eq_iso
  · exact fun h => kanjiMapDoc_ne_iso h h13
  · intro id h4 h13
    interval_cases id <;> rfl
  · intro id h21 h25
    interval_cases id <;> rfl

end Sys2Proof.Machine
end

section
/-! CLAIMS. Family 40_gf256: the frame of the commands (spec/40_gf256.md R131, spec/70_reset_and_hazards.md R358). -/

namespace Sys2Proof.Machine

/-- A command that is one answer leaves the bit buffer as it is, and a fault has no field. -/
theorem answer_next_ended {s t : State} {fields : Except Cause (List Byte)} (h : answer s fields = .next t) :
    ∃ kind cause f, t = ended kind cause f s.bb s ∧ (kind ≠ 0x00 → f = []) := by
  obtain ⟨hi, ⟨f, -, rfl⟩ | ⟨c, -, rfl⟩⟩ := answer_next h
  · exact ⟨0x00, 0x00, f, complete_eq_ended f s, fun h => absurd rfl h⟩
  · exact ⟨causeKind c, causeCode c, [], takeFault_of_idle hi, fun _ => rfl⟩

theorem execBbLoad_next {v : List Byte} {s t : State} (h : execBbLoad v s = .next t) :
    t = ended 0x00 0x00 [] ⟨v, 0, 0⟩ s := by
  obtain ⟨-, hbody | ⟨c, hbody, -⟩⟩ := command_next h
  · exact (Except.ok.inj hbody).symm
  · cases hbody

/-- The cursor may move on, the bytes under it stay (R234). -/
theorem read_bbuf {n : Int} {b : BitBuffer} {r : Nat × BitBuffer} (h : b.read n = .ok r) : r.2.bbuf = b.bbuf := by
  unfold BitBuffer.read at h
  split at h
  · cases h
  split at h
  · cases h
  split at h
  · cases h
  cases h
  exact BitBuffer.take_bbuf n.toNat 0 b

/-- BB.READ answers the bits it read from behind them, or faults with the cursor where it was (R234). -/
theorem execBbRead_next {n : Byte} {s t : State} (h : execBbRead n s = .next t) :
    (∃ r, s.bb.read (s8Operand n) = .ok r ∧ t = ended 0x00 0x00 (u32Field r.1) r.2 s) ∨
      ∃ c, t = ended (causeKind c) (causeCode c) [] s.bb s := by
  obtain ⟨hi, hbody | ⟨c, -, rfl⟩⟩ := command_next h
  · obtain ⟨r, hread, hcomplete⟩ := bind_ok hbody
    exact .inl ⟨r, hread, (Except.ok.inj hcomplete).symm⟩
  · exact .inr ⟨c, takeFault_of_idle hi⟩

/-- Between commands there is no register to drop, so the end of a command writes STATUS, the bit buffer and the
response alone (R40). -/
theorem ended_of_inv {s : State} (hs : Inv s) (hi : s.activity = .idle) (kind cause : Byte) (fields : List Byte)
    (b : BitBuffer) :
    ended kind cause fields b s = { s with
      status := ⟨kind, cause⟩
      bb := b
      responses := s.responses ++ [kind :: cause :: fields] } := by
  obtain ⟨hseg, hwork⟩ := hs.dropped hi
  unfold ended
  rw [hseg, hwork, hi]

/-- Settles O16: the commands that do not touch the bit buffer are one answer each, BB.LOAD and BB.READ complete over
another bit buffer. -/
theorem commandsChangeOnlyStatus : Obligations.CommandsChangeOnlyStatus := by
  refine ⟨?_, ?_, ?_, fun kind cause fields b s hs hi => ended_of_inv hs hi kind cause fields b⟩
  · intro i s t hcmd ht h
    obtain ⟨fields, hfields⟩ := exec_answersFromBits hcmd ht
    exact answer_next_ended ((hfields s).symm.trans h)
  · intro v s t h
    obtain rfl := execBbLoad_next h
    rfl
  · intro n s t h
    obtain ⟨r, hread, rfl⟩ | ⟨c, rfl⟩ := execBbRead_next h
    · exact ⟨read_bbuf hread, 0x00, 0x00, _, rfl, fun h => absurd rfl h⟩
    · exact ⟨rfl, causeKind c, causeCode c, [], rfl, fun _ => ⟨rfl, rfl⟩⟩

end Sys2Proof.Machine
end

section
/-! CLAIMS. Family 40_gf256: the scalar commands (spec/40_gf256.md R132 to R137). -/

namespace Sys2Proof.Machine

/-! ## The scalar functions by their tables -/

theorem gmul_of_LOG {a b : Byte} {i j : Nat} (ha : LOG a = some i) (hb : LOG b = some j) :
    gmul a b = EXP ((i + j) % 255) := by
  unfold gmul
  rw [ha, hb]

theorem ginv_of_LOG {a : Byte} {l : Nat} (h : LOG a = some l) : ginv a = .ok (EXP (255 - l)) := by
  unfold ginv
  rw [h]

theorem glog_of_LOG {a : Byte} {l : Nat} (h : LOG a = some l) : glog a = .ok l :=
  have ⟨hlt, hexp⟩ := LOG_eq_some h
  glog_eq_ok.mpr ⟨hlt, hexp.symm⟩

theorem exists_LOG {a : Byte} (h : a ≠ 0) : ∃ l, LOG a = some l :=
  have ⟨l, _, _, hlog⟩ := exists_EXP h
  ⟨l, hlog⟩

/-- The degree is tested before the coefficient (R137). -/
theorem mono_of_neg {degree : Int} (h : degree < 0) (coefficient : Byte) :
    mono degree coefficient = .error .negDegree := if_pos h

theorem mono_of_nonneg {degree : Int} (h : 0 ≤ degree) (coefficient : Byte) :
    mono degree coefficient = .ok (monomial degree.toNat coefficient) := if_neg (Int.not_lt.mpr h)

theorem monomial_zero (degree : Nat) : monomial degree 0 = [0] := if_pos rfl

theorem monomial_of_ne_zero {coefficient : Byte} (h : coefficient ≠ 0) (degree : Nat) :
    monomial degree coefficient = coefficient :: List.replicate degree 0 := if_neg h

/-! ## The commands between commands -/

section
variable {s : State} (hi : s.activity = .idle)
include hi

theorem exec_gfMul (a b : Byte) : exec (.gfMul a b) s = .next (ended 0x00 0x00 [gmul a b] s.bb s) :=
  answer_ok_ended hi

theorem exec_gfInv_ok {a r : Byte} (h : ginv a = .ok r) : exec (.gfInv a) s = .next (ended 0x00 0x00 [r] s.bb s) := by
  show answer s ((ginv a).map _) = _
  rw [h]
  exact answer_ok_ended hi

theorem exec_gfLog_ok {a : Byte} {l : Nat} (h : glog a = .ok l) :
    exec (.gfLog a) s = .next (ended 0x00 0x00 [BitVec.ofNat 8 l] s.bb s) := by
  show answer s ((glog a).map _) = _
  rw [h]
  exact answer_ok_ended hi

theorem exec_gfMono_of_neg {degree : Word16} (h : degree.toInt < 0) (coefficient : Byte) :
    exec (.gfMono degree coefficient) s = .next (ended 0x01 0x04 [] s.bb s) := by
  show answer s ((mono degree.toInt coefficient).map _) = _
  rw [mono_of_neg h]
  exact answer_error_ended hi

theorem exec_gfMono_of_nonneg {degree : Word16} (h : 0 ≤ degree.toInt) (coefficient : Byte) :
    exec (.gfMono degree coefficient) s =
      .next (ended 0x00 0x00 (vecField (monomial degree.toInt.toNat coefficient)) s.bb s) := by
  show answer s ((mono degree.toInt coefficient).map _) = _
  rw [mono_of_nonneg h]
  exact answer_ok_ended hi

end

/-- Settles O23: the sum by definition; the product is 0 with a zero operand, and read from the tables otherwise. -/
theorem gfSumAndProduct : Obligations.GfSumAndProduct := by
  intro a b s hi
  refine ⟨rfl, answer_ok_ended hi, rfl, ?_, ?_, ?_⟩
  · intro hzero
    rw [exec_gfMul hi, gmul_eq_zero.mpr hzero]
  · intro i j ha hb
    rw [exec_gfMul hi, gmul_of_LOG ha hb]
  · intro ha hb
    obtain ⟨i, hlogA⟩ := exists_LOG ha
    obtain ⟨j, hlogB⟩ := exists_LOG hb
    exact ⟨i, j, hlogA, hlogB⟩

/-- Settles O24: GF.INV and GF.LOG fault at 0, where LOG has no value, and read the tables elsewhere. -/
theorem gfInverseExpAndLog : Obligations.GfInverseExpAndLog := by
  refine ⟨fun a s hi => ⟨rfl, ?_, ?_, rfl, ?_, ?_, exists_LOG⟩, fun i s hi => ⟨rfl, answer_ok_ended hi⟩⟩
  · rintro rfl
    exact answer_error_ended (c := .gfInvZero) hi
  · exact fun l hlog => exec_gfInv_ok hi (ginv_of_LOG hlog)
  · rintro rfl
    exact answer_error_ended (c := .gfLogZero) hi
  · exact fun l hlog => ⟨Nat.le_of_lt_succ (LOG_eq_some hlog).1, exec_gfLog_ok hi (glog_of_LOG hlog)⟩

/-- Settles O25: a negative degree faults whatever the coefficient, and a zero coefficient gives the zero
polynomial. -/
theorem gfMonomials : Obligations.GfMonomials := by
  intro degree coefficient s hi
  refine ⟨rfl, fun hneg => exec_gfMono_of_neg hi hneg coefficient, ?_, ?_⟩
  · rintro hdeg rfl
    rw [exec_gfMono_of_nonneg hi hdeg, monomial_zero]
  · intro hdeg hcoef
    rw [exec_gfMono_of_nonneg hi hdeg, monomial_of_ne_zero hcoef]

end Sys2Proof.Machine
end

section
/-! CLAIMS. Family 40_gf256: the tables and the loops that fill them (spec/40_gf256.md R130). -/

namespace Sys2Proof.Machine

/-- A pass of the loop that fills EXP doubles, and reduces by 0x011D what has left the byte: multiplication by α. -/
theorem timesAlpha_toNat (b : Byte) : (timesAlpha b).toNat =
    (if 0x100 ≤ 2 * b.toNat then 2 * b.toNat ^^^ 0x011D else 2 * b.toNat) % 0x100 := by
  have hshift : (b <<< 1).toNat = 2 * b.toNat % 0x100 := by
    rw [BitVec.toNat_shiftLeft, Nat.shiftLeft_eq, pow_one, Nat.mul_comm]
  have hmsb : b.msb = decide (0x100 ≤ 2 * b.toNat) := by
    rw [BitVec.msb_eq_decide, decide_eq_decide]
    omega
  unfold timesAlpha
  rw [BitVec.toNat_xor, hshift, hmsb]
  by_cases h : 0x100 ≤ 2 * b.toNat
  · rw [if_pos (decide_eq_true h), if_pos h]
    exact (Nat.xor_mod_two_pow (a := 2 * b.toNat) (b := 0x011D) (n := 8)).symm
  · rw [if_neg (by simpa using h), if_neg h]
    exact Nat.xor_zero _

/-- The next power of α; from the last one of the cycle, EXP[254], it is EXP[255] = 1 again. -/
theorem EXP_succ {i : Nat} (h : i < 255) : EXP (i + 1) = timesAlpha (EXP i) := by
  have hcycle : EXP (i + 1) = EXP ((1 + i) % 255) := by
    rcases Nat.lt_or_eq_of_le (Nat.le_of_lt_succ h) with hlt | rfl
    · rw [Nat.add_comm, Nat.mod_eq_of_lt (by omega)]
    · exact EXP_255.trans EXP_zero.symm
  calc EXP (i + 1) = EXP ((1 + i) % 255) := hcycle
    _ = gmul (EXP 1) (EXP i) := (gmul_EXP (by decide) h).symm
    _ = timesAlpha (EXP i) := gmul_two (EXP i)

/-- Settles O26: EXP by the recurrence of its loop, LOG as its inverse. -/
theorem tablesFollowTheAlgorithm : Obligations.TablesFollowTheAlgorithm := by
  refine ⟨EXP_zero, fun i h => ?_, fun i => LOG_EXP, LOG_zero⟩
  rw [EXP_succ h, timesAlpha_toNat]

end Sys2Proof.Machine
end

section
/-! SUPPORT. Polynomial operands (spec/30_encoding.md R96): what a command answers once its operands are canonical. -/

namespace Sys2Proof.Machine

open Sys2Proof.Config

/-- An operand that a packet can carry and that is not empty reaches the command's body stripped (R96). -/
theorem withPoly_of_fits {p : Poly} (hp : p ≠ []) (hfit : FitsField p) (f : Poly → Except Cause (List Byte)) :
    withPoly p f = f (strip p) := by
  rw [withPoly, polyOperand_eq hfit, if_neg hp]

theorem withPolys_of_fits {p q : Poly} (hp : p ≠ []) (hq : q ≠ []) (hpfit : FitsField p) (hqfit : FitsField q)
    (f : Poly → Poly → Except Cause (List Byte)) : withPolys p q f = f (strip p) (strip q) := by
  rw [withPolys, withPoly_of_fits hp hpfit, withPoly_of_fits hq hqfit]

/-- Only the zero polynomial is stripped to [0] (R151). -/
theorem strip_eq_zero {c : List Byte} : strip c = [0] ↔ ∀ b ∈ c, b = 0 := by
  obtain ⟨n, rfl | ⟨a, rest, ha, rfl⟩⟩ := leading_zeros c
  · have hzero := strip_replicate n []
    rw [List.append_nil] at hzero
    exact iff_of_true hzero fun b hb => List.eq_of_mem_replicate hb
  · rw [strip_replicate, strip_cons ha]
    refine iff_of_false (fun h => ha (List.cons.inj h).1) fun h => ha (h a ?_)
    exact List.mem_append_right _ List.mem_cons_self

theorem pzero_eq_false {p : Poly} (h : Canonical p) : pzero p = false ↔ p ≠ [0] := by
  rw [← Bool.not_eq_true, pzero_eq_true h]

/-! ## Each command on its canonical operands -/

section
variable {p q : Poly} (s : State) (hp : p ≠ []) (hpfit : FitsField p)
include hp hpfit

theorem exec_polyDeg : exec (.polyDeg p) s = answer s (.ok (u16Field (pdeg (strip p)))) :=
  congrArg (answer s) (withPoly_of_fits hp hpfit _)

theorem exec_polyCoef (deg : Word16) : exec (.polyCoef p deg) s = answer s (.ok [pcoef (strip p) deg.toInt]) :=
  congrArg (answer s) (withPoly_of_fits hp hpfit _)

theorem exec_polyIsZero : exec (.polyIsZero p) s = answer s (.ok [if pzero (strip p) then 1 else 0]) :=
  congrArg (answer s) (withPoly_of_fits hp hpfit _)

theorem exec_polyEval (x : Byte) : exec (.polyEval p x) s = answer s (.ok [peval (strip p) x]) :=
  congrArg (answer s) (withPoly_of_fits hp hpfit _)

theorem exec_polyMulI (scalar : Byte) :
    exec (.polyMulI p scalar) s = answer s (.ok (vecField (pmuli (strip p) scalar))) :=
  congrArg (answer s) (withPoly_of_fits hp hpfit _)

theorem exec_polyMulM (degree : Word16) (scalar : Byte) :
    exec (.polyMulM p degree scalar) s = answer s ((pmulmChecked (strip p) degree.toInt scalar).map vecField) :=
  congrArg (answer s) (withPoly_of_fits hp hpfit _)

variable (hq : q ≠ []) (hqfit : FitsField q)
include hq hqfit

theorem exec_polyAdd : exec (.polyAdd p q) s = answer s (.ok (vecField (padd (strip p) (strip q)))) :=
  congrArg (answer s) (withPolys_of_fits hp hq hpfit hqfit _)

theorem exec_polyMul : exec (.polyMul p q) s = answer s ((pmulChecked (strip p) (strip q)).map vecField) :=
  congrArg (answer s) (withPolys_of_fits hp hq hpfit hqfit _)

theorem exec_polyDiv :
    exec (.polyDiv p q) s = answer s ((pdiv (strip p) (strip q)).map fun r => vecField r.1 ++ vecField r.2) :=
  congrArg (answer s) (withPolys_of_fits hp hq hpfit hqfit _)

theorem exec_polyMod :
    exec (.polyMod p q) s = answer s (((pdiv (strip p) (strip q)).map Prod.snd).map vecField) :=
  congrArg (answer s) (withPolys_of_fits hp hq hpfit hqfit _)

end

end Sys2Proof.Machine
end

section
/-! SUPPORT. The laws of sums and products of canonical polynomials (spec/41_gfpoly.md R156, R157, R159), each read off
the coefficients (R164). -/

namespace Sys2Proof.Machine

/-- A sum of bytes in the opposite order. -/
theorem xorSum_reflect (n : Nat) (v : Nat → Byte) : xorSum n v = xorSum n fun i => v (n - 1 - i) := by
  induction n generalizing v with
  | zero => rfl
  | succ n ih =>
    have hrest : ∀ i < n, v (n - 1 - i + 1) = v (n + 1 - 1 - i) := fun i hlt => by
      rw [show n - 1 - i + 1 = n + 1 - 1 - i by omega]
    rw [xorSum_succ', ih, xorSum_succ, xorSum_congr hrest, Nat.add_sub_cancel, Nat.sub_self, BitVec.xor_comm]

/-! ## Sums (R156) -/

section
variable {p q r : Poly} (hp : Canonical p) (hq : Canonical q)
include hp

include hq

/-- A term added to both operands of a sum cancels: sum and difference are one (R156). -/
theorem padd_padd_cancel (hr : Canonical r) : padd (padd p r) (padd q r) = padd p q :=
  have hpr := padd_canonical hp hr
  have hqr := padd_canonical hq hr
  canonical_ext (padd_canonical hpr hqr) (padd_canonical hp hq) fun k => by
    rw [coef_padd hpr hqr, coef_padd hp hr, coef_padd hq hr, coef_padd hp hq, BitVec.xor_comm (coef q k),
      ← BitVec.xor_assoc, BitVec.xor_assoc (coef p k), BitVec.xor_self, BitVec.xor_zero]

/-! ## Products (R157, R159) -/

theorem pmul_comm : pmul p q = pmul q p :=
  canonical_ext (pmul_canonical p q) (pmul_canonical q p) fun k => by
    rw [coef_pmul hp hq, coef_pmul hq hp, xorSum_reflect]
    refine xorSum_congr fun i hlt => ?_
    rw [Nat.add_sub_cancel, Nat.sub_sub_self (Nat.le_of_lt_succ hlt), gmul_comm]

/-- Products distribute over sums. -/
theorem padd_pmul (hr : Canonical r) : pmul (padd p q) r = padd (pmul p r) (pmul q r) :=
  have hpr := pmul_canonical p r
  have hqr := pmul_canonical q r
  canonical_ext (pmul_canonical _ r) (padd_canonical hpr hqr) fun k => by
    rw [coef_padd hpr hqr, coef_pmul (padd_canonical hp hq) hr, coef_pmul hp hr, coef_pmul hq hr, ← xorSum_xor]
    refine xorSum_congr fun i _ => ?_
    rw [coef_padd hp hq, xor_gmul]

end

/-- The product with a monomial is the product with the polynomial that GF.MONO answers (R159). -/
theorem pmulm_eq_pmul {p : Poly} (hp : Canonical p) (d : Nat) (c : Byte) : pmulm p d c = pmul p (monomial d c) := by
  have hm := monomial_canonical d c
  refine canonical_ext (pmulm_canonical p d c) (pmul_canonical _ _) fun k => ?_
  rw [coef_pmulm hp, coef_pmul hp hm]
  have hterm (i : Nat) : gmul (coef p i) (coef (monomial d c) (k - i)) =
      if k - i = d then gmul (coef p i) c else 0 := by
    rw [coef_monomial]
    split
    · rfl
    · exact gmul_zero_right _
  rw [xorSum_congr fun i _ => hterm i]
  split
  next hlow => exact (xorSum_eq_zero fun i _ => if_neg (by omega)).symm
  next hhigh =>
    rw [xorSum_single (j := k - d) (by omega) fun i _ hne => if_neg (by omega), if_pos (by omega)]

end Sys2Proof.Machine
end

section
/-! CLAIMS. Family 41_gfpoly: division with remainder (spec/41_gfpoly.md R160, R161). -/

namespace Sys2Proof.Machine

/-- The postcondition of R160: `quo` and `rem` are the quotient and the remainder of `p` by `q`. -/
structure DividesInto (p q quo rem : Poly) : Prop where
  quoCanonical : Canonical quo
  remCanonical : Canonical rem
  recomposes : p = padd (pmul quo q) rem
  reduced : pdeg rem < pdeg q ∨ rem = [0]

section
variable {q : Poly} (hq : Canonical q) {dinv : Byte}
include hq

/-- The divisor, scaled and shifted to the leading term of the remainder, cancels it and reaches no higher. -/
theorem pass_cancels_leading_term (hlead : gmul (q.headD 0) dinv = 1) (hq0 : q ≠ [0]) {rem : Poly}
    (hrem : Canonical rem) (hrem0 : rem ≠ [0]) (hdeg : pdeg q ≤ pdeg rem) {k : Nat} (hk : pdeg rem ≤ k) :
    coef (padd rem (pmulm q (pdeg rem - pdeg q) (gmul (rem.headD 0) dinv))) k = 0 := by
  rw [coef_padd hrem (pmulm_canonical _ _ _), coef_pmulm hq, if_neg (by omega)]
  rcases Nat.eq_or_lt_of_le hk with rfl | hlt
  · have hscaled : gmul (q.headD 0) (gmul (rem.headD 0) dinv) = rem.headD 0 := by
      rw [gmul_comm, gmul_assoc, gmul_comm dinv, hlead]
      exact gmul_one _
    rw [Nat.sub_sub_self hdeg, (coef_pdeg hq hq0).1, (coef_pdeg hrem hrem0).1, hscaled]
    exact BitVec.xor_self
  · rw [coef_of_pdeg_lt hrem hlt, coef_of_pdeg_lt hq (by omega)]
    exact BitVec.zero_xor.trans (gmul_zero_left _)

/-- A pass adds a term to the quotient and its multiple of the divisor to the remainder, so the two still make up the
dividend. -/
theorem pass_recomposes {quo rem : Poly} (hquo : Canonical quo) (hrem : Canonical rem) (d : Nat) (c : Byte) :
    padd (pmul (padd quo (monomial d c)) q) (padd rem (pmulm q d c)) = padd (pmul quo q) rem := by
  have hm := monomial_canonical d c
  rw [padd_pmul hquo hm hq, pmul_comm hm hq, ← pmulm_eq_pmul hq]
  exact padd_padd_cancel (pmul_canonical quo q) hrem (pmulm_canonical q d c)

/-- The loop of R160 with a pass left for each degree of the remainder: it keeps the dividend and ends at a remainder
that is zero or of lower degree than the divisor. -/
theorem divLoop_dividesInto (hlead : gmul (q.headD 0) dinv = 1) (hq0 : q ≠ [0]) (fuel : Nat) {quo rem : Poly}
    (hquo : Canonical quo) (hrem : Canonical rem) (hfuel : rem = [0] ∨ pdeg rem < fuel) :
    DividesInto (padd (pmul quo q) rem) q (divLoop q dinv fuel quo rem).1 (divLoop q dinv fuel quo rem).2 := by
  induction fuel generalizing quo rem with
  | zero => exact ⟨hquo, hrem, rfl, .inr (hfuel.resolve_right (Nat.not_lt_zero _))⟩
  | succ fuel ih =>
    obtain ⟨hdeg, hz, hpass⟩ | ⟨hexit, hstop⟩ := divLoop_succ q dinv fuel quo rem
    · have hrem0 := (pzero_eq_false hrem).mp hz
      have hbound : pdeg rem ≤ fuel := Nat.le_of_lt_succ (hfuel.resolve_left hrem0)
      have hquo' := padd_canonical hquo (monomial_canonical (pdeg rem - pdeg q) (gmul (rem.headD 0) dinv))
      have hrem' := padd_canonical hrem (pmulm_canonical q (pdeg rem - pdeg q) (gmul (rem.headD 0) dinv))
      have hlower := pdeg_lt_of_coef hrem' fun k => pass_cancels_leading_term hq hlead hq0 hrem hrem0 hdeg
      rw [hpass, ← pass_recomposes hq hquo hrem]
      exact ih hquo' hrem' (hlower.imp_right fun hlt => hlt.trans_le hbound)
    · rw [hstop]
      refine ⟨hquo, hrem, rfl, ?_⟩
      rcases Nat.lt_or_ge (pdeg rem) (pdeg q) with hlt | hge
      · exact .inl hlt
      · exact .inr (by_contra fun hrem0 => hexit ⟨hge, (pzero_eq_false hrem).mpr hrem0⟩)

end

theorem pdiv_zero (p : Poly) : pdiv p [0] = .error .divByZeroPoly := rfl

/-- Division by a polynomial that is not zero answers its quotient and remainder (R160). -/
theorem exists_pdiv {p q : Poly} (hp : Canonical p) (hq : Canonical q) (hq0 : q ≠ [0]) :
    ∃ quo rem, pdiv p q = .ok (quo, rem) ∧ DividesInto p q quo rem := by
  have hz := (pzero_eq_false hq).mpr hq0
  obtain ⟨dinv, hinv⟩ := exists_ginv (a := q.headD 0) (by simpa [pzero] using hz)
  obtain ⟨-, -, hlead⟩ := ginv_eq_ok hinv
  have hfuel : p = [0] ∨ pdeg p < p.length := .inr (by rw [length_of_canonical hp]; omega)
  exact ⟨_, _, pdiv_eq_ok.mpr ⟨hz, dinv, hinv, rfl⟩,
    divLoop_dividesInto hq hlead hq0 p.length canonical_zero hp hfuel⟩

/-- Settles O34: the fault of a zero divisor, and the loop's postcondition otherwise. -/
theorem polyDivisionWithRemainder : Obligations.PolyDivisionWithRemainder := by
  intro p q s hi hp hq hpfit hqfit
  refine ⟨rfl, rfl, fun hzero => ?_, fun hne => ?_⟩
  · rw [exec_polyDiv s hp hpfit hq hqfit, exec_polyMod s hp hpfit hq hqfit, hzero, pdiv_zero]
    exact ⟨answer_error_ended hi, answer_error_ended hi⟩
  · obtain ⟨quo, rem, hdiv, hquo, hrem, hsum, hreduced⟩ := exists_pdiv (strip_canonical p) (strip_canonical q) hne
    rw [exec_polyDiv s hp hpfit hq hqfit, exec_polyMod s hp hpfit hq hqfit, hdiv]
    exact ⟨quo, rem, answer_ok_ended hi, answer_ok_ended hi, hquo, hrem, hsum, hreduced⟩

end Sys2Proof.Machine
end

section
/-! CLAIMS. Family 41_gfpoly: construction, the reads of a polynomial, and its arithmetic by coefficients
(spec/41_gfpoly.md R151 to R154, R156 to R159). -/

namespace Sys2Proof.Machine

open Sys2Proof.Config

/-! ## Construction (R151) -/

theorem dropWhile_leading_zeros (k : Nat) {a : Byte} (ha : a ≠ 0) (rest : List Byte) :
    (List.replicate k 0 ++ a :: rest).dropWhile (· == 0) = a :: rest := by
  rw [List.dropWhile_append_of_pos fun b hb => beq_iff_eq.mpr (List.eq_of_mem_replicate hb),
    List.dropWhile_cons_of_neg (by simpa using ha)]

theorem norm_of_neg {c : List Byte} (hc : c ≠ []) {degree : Int} (h : degree < 0) :
    norm c degree = .error .negDegree := by
  rw [norm, if_neg hc, if_pos h]

/-- An all-zero vector gives [0] whatever the degree is (R151). -/
theorem norm_zeros (k : Nat) {degree : Int} (h : 0 ≤ degree) : norm (List.replicate (k + 1) 0) degree = .ok [0] := by
  have hdrop : (List.replicate (k + 1) (0 : Byte)).dropWhile (· == 0) = [] :=
    List.dropWhile_eq_nil_iff.mpr fun b hb => beq_iff_eq.mpr (List.eq_of_mem_replicate hb)
  rw [norm, if_neg (by simp), if_neg (Int.not_lt.mpr h), hdrop]

/-- A vector with a coefficient that is not zero: the limit is on what follows the leading zeros (R151). -/
theorem norm_leading_zeros (k : Nat) {a : Byte} (ha : a ≠ 0) (rest : List Byte) {degree : Int} (h : 0 ≤ degree) :
    norm (List.replicate k 0 ++ a :: rest) degree =
      if rest.length + 1 + degree.toNat > lmax then .error .lenOverflow
      else .ok (a :: rest ++ List.replicate degree.toNat 0) := by
  rw [norm, if_neg (by simp), if_neg (Int.not_lt.mpr h), dropWhile_leading_zeros k ha rest]
  rfl

theorem exec_polyNew (c : List Byte) (degree : Word16) (s : State) :
    exec (.polyNew c degree) s = answer s ((norm c degree.toInt).map vecField) := rfl

/-- Settles O28: the constructor on an empty vector, at a negative degree, on zeros, and behind leading zeros. -/
theorem polyNewNormalises : Obligations.PolyNewNormalises := by
  intro c degree s hi
  refine ⟨rfl, ?_, fun hc hneg => ?_, ?_, ?_⟩
  · rintro rfl
    exact answer_error_ended hi
  · rw [exec_polyNew, norm_of_neg hc hneg]
    exact answer_error_ended hi
  · rintro k hdeg rfl
    rw [exec_polyNew, norm_zeros k hdeg]
    exact answer_ok_ended hi
  · rintro k a rest hdeg ha rfl
    rw [exec_polyNew, norm_leading_zeros k ha rest hdeg]
    constructor
    · intro hlong
      rw [if_pos (by unfold lmax; omega)]
      exact answer_error_ended hi
    · intro hfits
      rw [if_neg (by unfold lmax; omega)]
      exact answer_ok_ended hi

/-! ## Degree, coefficients, zero test (R152 to R154) -/

theorem pcoef_of_neg (p : Poly) {deg : Int} (h : deg < 0) : pcoef p deg = 0 := if_pos (.inl h)

theorem pcoef_of_nonneg (p : Poly) {deg : Int} (h : 0 ≤ deg) : pcoef p deg = coef p deg.toNat := by
  rw [← pcoef_eq_coef, Int.toNat_of_nonneg h]

theorem pzero_strip {p : Poly} : pzero (strip p) = true ↔ ∀ c ∈ p, c = 0 :=
  (pzero_eq_true (strip_canonical p)).trans strip_eq_zero

/-- Settles O29: stripping leading zeros keeps the coefficients, and leaves a zero only of zeros. -/
theorem polyReadsCoefficients : Obligations.PolyReadsCoefficients := by
  intro p deg s hi hp hfit
  refine ⟨rfl, ?_, rfl, fun hneg => ?_, fun hdeg => ?_, rfl, fun hzero => ?_, fun ⟨c, hc, hc0⟩ => ?_⟩
  · rw [exec_polyDeg s hp hfit]
    exact answer_ok_ended hi
  · rw [exec_polyCoef s hp hfit, pcoef_of_neg _ hneg]
    exact answer_ok_ended hi
  · rw [exec_polyCoef s hp hfit, pcoef_of_nonneg _ hdeg, coef_strip]
    exact answer_ok_ended hi
  · rw [exec_polyIsZero s hp hfit, if_pos (pzero_strip.mpr hzero)]
    exact answer_ok_ended hi
  · rw [exec_polyIsZero s hp hfit, if_neg fun h => hc0 (pzero_strip.mp h c hc)]
    exact answer_ok_ended hi

/-! ## Sums and products (R156 to R159) -/

/-- Settles O31: the coefficients of a sum. -/
theorem polyAddXorsCoefficients : Obligations.PolyAddXorsCoefficients := by
  intro p q s hi hp hq hpfit hqfit
  have hcp := strip_canonical p
  have hcq := strip_canonical q
  refine ⟨rfl, padd (strip p) (strip q), ?_, padd_canonical hcp hcq, fun k => ?_⟩
  · rw [exec_polyAdd s hp hpfit hq hqfit, answer_ok_ended hi]
  · rw [coef_padd hcp hcq, coef_strip, coef_strip]

/-- The length test of a product is for operands that are not zero (R157). -/
theorem pmulChecked_too_long {p q : Poly} (hp : Canonical p) (hq : Canonical q) (hp0 : p ≠ [0]) (hq0 : q ≠ [0])
    (h : lmax < p.length + q.length - 1) : pmulChecked p q = .error .lenOverflow := by
  rw [pmulChecked, (pzero_eq_false hp).mpr hp0, (pzero_eq_false hq).mpr hq0, Bool.or_false, if_neg Bool.false_ne_true]
  exact if_pos h

theorem pmulChecked_fits {p q : Poly} (hp : Canonical p) (hq : Canonical q)
    (h : p = [0] ∨ q = [0] ∨ p.length + q.length - 1 ≤ lmax) : pmulChecked p q = .ok (pmul p q) := by
  unfold pmulChecked
  split
  next hz => rw [pmul, if_pos hz]
  next hz =>
    rw [Bool.or_eq_true, pzero_eq_true hp, pzero_eq_true hq, not_or] at hz
    obtain ⟨hp0, hq0⟩ := hz
    exact if_neg (Nat.not_lt.mpr ((h.resolve_left hp0).resolve_left hq0))

/-- Settles O32: the length test, and the coefficients of a product. -/
theorem polyMulConvolves : Obligations.PolyMulConvolves := by
  intro p q s hi hp hq hpfit hqfit
  have hcp := strip_canonical p
  have hcq := strip_canonical q
  rw [exec_polyMul s hp hpfit hq hqfit]
  refine ⟨rfl, fun hp0 hq0 hlong => ?_,
    fun hfits => ⟨pmul (strip p) (strip q), ?_, pmul_canonical _ _, fun k => ?_⟩⟩
  · rw [pmulChecked_too_long hcp hcq hp0 hq0 hlong]
    exact answer_error_ended hi
  · rw [pmulChecked_fits hcp hcq hfits]
    exact answer_ok_ended hi
  · simp only [coef_pmul hcp hcq, coef_strip]

theorem pmulmChecked_of_neg (p : Poly) {degree : Int} (h : degree < 0) (c : Byte) :
    pmulmChecked p degree c = .error .negDegree := if_pos h

/-- The length test of R159 comes after the degree test and is for a product that is not zero. -/
theorem pmulmChecked_too_long {p : Poly} (hp : Canonical p) (hp0 : p ≠ [0]) {degree : Int} (hdeg : 0 ≤ degree)
    {c : Byte} (hc : c ≠ 0) (h : (lmax : Int) < p.length + degree) :
    pmulmChecked p degree c = .error .lenOverflow := by
  rw [pmulmChecked, if_neg (Int.not_lt.mpr hdeg), (pzero_eq_false hp).mpr hp0, decide_eq_false hc, Bool.or_false,
    if_neg Bool.false_ne_true]
  exact if_pos (by omega)

theorem pmulmChecked_fits {p : Poly} (hp : Canonical p) {degree : Int} (hdeg : 0 ≤ degree) {c : Byte}
    (h : c = 0 ∨ p = [0] ∨ (p.length : Int) + degree ≤ lmax) :
    pmulmChecked p degree c = .ok (pmulm p degree.toNat c) := by
  rw [pmulmChecked, if_neg (Int.not_lt.mpr hdeg)]
  split
  next hz => rw [pmulm, if_pos hz]
  next hz =>
    rw [Bool.or_eq_true, decide_eq_true_eq, pzero_eq_true hp, not_or] at hz
    obtain ⟨hc, hp0⟩ := hz
    have hfits := (h.resolve_left hc).resolve_left hp0
    exact if_neg (by omega)

/-- Settles O33: the coefficients of a multiple and of a product with a monomial, and the faults of the latter. -/
theorem polyScalesAndShifts : Obligations.PolyScalesAndShifts := by
  intro p degree scalar s hi hp hfit
  have hcp := strip_canonical p
  rw [exec_polyMulI s hp hfit, exec_polyMulM s hp hfit]
  refine ⟨rfl, ⟨pmuli (strip p) scalar, answer_ok_ended hi, pmuli_canonical hcp scalar, fun k => ?_⟩, rfl,
    fun hneg => ?_, fun hdeg hc hp0 hlong => ?_,
    fun hdeg hfits => ⟨pmulm (strip p) degree.toInt.toNat scalar, ?_, pmulm_canonical _ _ _, fun k => ?_⟩⟩
  · rw [coef_pmuli, coef_strip]
  · rw [pmulmChecked_of_neg _ hneg]
    exact answer_error_ended hi
  · rw [pmulmChecked_too_long hcp hp0 hdeg hc hlong]
    exact answer_error_ended hi
  · rw [pmulmChecked_fits hcp hdeg hfits]
    exact answer_ok_ended hi
  · rw [coef_pmulm hcp, coef_strip]

end Sys2Proof.Machine
end

section
/-! CLAIMS. Family 41_gfpoly: evaluation (spec/41_gfpoly.md R155), and what it makes of sums and products. A Horner
pass over n zeros, `horner x r (List.replicate n 0)`, stands for r·x^n. -/

namespace Sys2Proof.Machine

/-- Settles O30: the fast paths answer what the loop does, and stripped zeros are nothing to it. -/
theorem polyEvalIsHorner : Obligations.PolyEvalIsHorner := by
  intro p x s hi hp hfit
  refine ⟨rfl, ?_, ?_, ?_⟩
  · rw [exec_polyEval s hp hfit, peval_eq_valueAt (strip_ne_nil p), valueAt_strip, answer_ok_ended hi]
  · rw [← peval_eq_valueAt hp, peval, if_pos rfl]
  · rw [← peval_eq_valueAt hp, peval, if_neg (by decide), if_pos rfl]

/-! ## Horner's rule is linear -/

theorem zero_xor_byte (b : Byte) : 0 ^^^ b = b := BitVec.zero_xor

theorem xor_zero_byte (b : Byte) : b ^^^ 0 = b := BitVec.xor_zero

@[simp] theorem horner_nil (x r : Byte) : horner x r [] = r := rfl

@[simp] theorem horner_cons (x r c : Byte) (p : List Byte) : horner x r (c :: p) = horner x (gmul x r ^^^ c) p := rfl

theorem horner_append (x r : Byte) (p q : List Byte) : horner x r (p ++ q) = horner x (horner x r p) q :=
  List.foldl_append

theorem valueAt_append_eq_horner (p q : List Byte) (x : Byte) : valueAt (p ++ q) x = horner x (valueAt p x) q :=
  horner_append x 0 p q

theorem horner_zipWith_xor (x : Byte) {p q : List Byte} (h : p.length = q.length) (r t : Byte) :
    horner x (r ^^^ t) (List.zipWith (· ^^^ ·) p q) = horner x r p ^^^ horner x t q := by
  induction p generalizing q r t with
  | nil => obtain rfl : q = [] := List.length_eq_zero_iff.mp h.symm
           rfl
  | cons a p ih =>
    cases q with
    | nil => cases h
    | cons b q =>
      have hstep : gmul x (r ^^^ t) ^^^ (a ^^^ b) = (gmul x r ^^^ a) ^^^ (gmul x t ^^^ b) := by
        rw [gmul_xor]
        ac_rfl
      rw [List.zipWith_cons_cons, horner_cons, horner_cons, horner_cons, hstep, ih (Nat.succ.inj h)]

theorem valueAt_zipWith_xor {p q : List Byte} (h : p.length = q.length) (x : Byte) :
    valueAt (List.zipWith (· ^^^ ·) p q) x = valueAt p x ^^^ valueAt q x := horner_zipWith_xor x h 0 0

theorem horner_map_gmul (x k r : Byte) (p : List Byte) :
    horner x (gmul k r) (p.map (gmul k)) = gmul k (horner x r p) := by
  induction p generalizing r with
  | nil => rfl
  | cons a p ih =>
    have hstep : gmul x (gmul k r) ^^^ gmul k a = gmul k (gmul x r ^^^ a) := by
      rw [gmul_xor, ← gmul_assoc, gmul_comm x k, gmul_assoc]
    rw [List.map_cons, horner_cons, horner_cons, hstep, ih]

theorem valueAt_map_gmul (k : Byte) (p : List Byte) (x : Byte) : valueAt (p.map (gmul k)) x = gmul k (valueAt p x) := by
  have h := horner_map_gmul x k 0 p
  rwa [gmul_eq_zero.mpr (.inr rfl)] at h

theorem zipWith_xor_zeros (p : List Byte) : List.zipWith (· ^^^ ·) (List.replicate p.length 0) p = p := by
  induction p with
  | nil => rfl
  | cons a p ih => rw [List.length_cons, List.replicate_succ, List.zipWith_cons_cons, ih, zero_xor_byte]

/-- The accumulator and the coefficients add up. -/
theorem horner_eq_xor (x r : Byte) (p : List Byte) :
    horner x r p = horner x r (List.replicate p.length 0) ^^^ valueAt p x := by
  have h := horner_zipWith_xor x (p := List.replicate p.length 0) (q := p) List.length_replicate r 0
  rwa [zipWith_xor_zeros, xor_zero_byte] at h

/-! ## A pass over zeros -/

theorem horner_zeros (x r : Byte) (n : Nat) : horner x r (List.replicate n 0) = (List.replicate n x).foldl gmul r := by
  induction n generalizing r with
  | zero => rfl
  | succ n ih =>
    rw [List.replicate_succ, List.replicate_succ, horner_cons, List.foldl_cons, ih, xor_zero_byte,
      gmul_comm]

theorem horner_gmul_zeros (x k r : Byte) (n : Nat) :
    horner x (gmul k r) (List.replicate n 0) = gmul k (horner x r (List.replicate n 0)) := by
  have h := horner_map_gmul x k r (List.replicate n 0)
  rwa [List.map_replicate, gmul_eq_zero.mpr (.inr rfl)] at h

theorem valueAt_zeros (n : Nat) (x : Byte) : valueAt (List.replicate n 0) x = 0 :=
  (horner_gmul_zeros x 0 0 n).trans (gmul_zero_left _)

theorem monomial_eq_strip (d : Nat) (c : Byte) : monomial d c = strip (c :: List.replicate d 0) := by
  by_cases hc : c = 0
  · subst hc
    rw [monomial_zero, ← List.replicate_succ]
    exact (strip_eq_zero.mpr fun b hb => List.eq_of_mem_replicate hb).symm
  · rw [monomial_of_ne_zero hc, strip_cons hc]

theorem valueAt_monomial (d : Nat) (c x : Byte) : valueAt (monomial d c) x = (List.replicate d x).foldl gmul c := by
  rw [monomial_eq_strip, valueAt_strip, valueAt_cons, horner_zeros]

/-! ## Sums and products -/

theorem valueAt_xorAligned {l s : List Byte} (h : s.length ≤ l.length) (x : Byte) :
    valueAt (xorAligned l s) x = valueAt l x ^^^ valueAt s x := by
  have hlength : (l.drop (l.length - s.length)).length = s.length := by
    rw [List.length_drop]
    omega
  have hsum := horner_zipWith_xor x hlength (valueAt (l.take (l.length - s.length)) x) 0
  rwa [xor_zero_byte, ← valueAt_append_eq_horner, ← valueAt_append_eq_horner, List.take_append_drop] at hsum

theorem valueAt_zero (x : Byte) : valueAt [0] x = 0 := valueAt_zeros 1 x

theorem valueAt_padd {p q : Poly} (hp : Canonical p) (hq : Canonical q) (x : Byte) :
    valueAt (padd p q) x = valueAt p x ^^^ valueAt q x := by
  unfold padd
  split
  next hz => rw [(pzero_eq_true hp).mp hz, valueAt_zero, zero_xor_byte]
  split
  next hz => rw [(pzero_eq_true hq).mp hz, valueAt_zero, xor_zero_byte]
  split
  next hlt => rw [valueAt_strip, valueAt_xorAligned (Nat.le_of_lt hlt)]
  next hle => rw [valueAt_strip, valueAt_xorAligned (Nat.not_lt.mp hle), BitVec.xor_comm]

/-- The rows of the convolution are the values of the coefficients of `p`, each at its place, times that of `q`. -/
theorem valueAt_convolve (p : Poly) {q : Poly} (hq : q ≠ []) (x : Byte) :
    valueAt (convolve p q) x = gmul (valueAt p x) (valueAt q x) := by
  induction p with
  | nil =>
    rw [convolve, valueAt_zeros]
    exact (gmul_zero_left _).symm
  | cons a p ih =>
    have hlength : (q.map (gmul a) ++ List.replicate p.length 0).length = (0 :: convolve p q).length := by
      have hpos := List.length_pos_of_ne_nil hq
      rw [List.length_append, List.length_map, List.length_replicate, List.length_cons, convolve_length p hq]
      omega
    have hrow : valueAt (q.map (gmul a) ++ List.replicate p.length 0) x =
        gmul (horner x a (List.replicate p.length 0)) (valueAt q x) := by
      rw [valueAt_append_eq_horner, valueAt_map_gmul, gmul_comm a, horner_gmul_zeros, gmul_comm]
    calc valueAt (convolve (a :: p) q) x
        = valueAt (q.map (gmul a) ++ List.replicate p.length 0) x ^^^ valueAt (0 :: convolve p q) x :=
          valueAt_zipWith_xor hlength x
      _ = gmul (horner x a (List.replicate p.length 0)) (valueAt q x) ^^^ gmul (valueAt p x) (valueAt q x) := by
          rw [hrow, ← ih]
          exact congrArg _ (valueAt_zero_cons _ x)
      _ = gmul (valueAt (a :: p) x) (valueAt q x) := by rw [← xor_gmul, valueAt_cons, ← horner_eq_xor]

theorem valueAt_pmul {p q : Poly} (hp : Canonical p) (hq : Canonical q) (x : Byte) :
    valueAt (pmul p q) x = gmul (valueAt p x) (valueAt q x) := by
  unfold pmul
  split
  next hz =>
    rw [Bool.or_eq_true, pzero_eq_true hp, pzero_eq_true hq] at hz
    have hzero : valueAt p x = 0 ∨ valueAt q x = 0 := by
      rcases hz with rfl | rfl
      · exact .inl (valueAt_zero x)
      · exact .inr (valueAt_zero x)
    rw [valueAt_zero, gmul_eq_zero.mpr hzero]
  next => rw [valueAt_strip, valueAt_convolve p hq.1]

theorem valueAt_pmuli (p : Poly) (k x : Byte) : valueAt (pmuli p k) x = gmul (valueAt p x) k := by
  unfold pmuli
  split
  next hk => rw [hk, valueAt_zero, gmul_eq_zero.mpr (.inr rfl)]
  split
  next hk =>
    rw [hk]
    exact (gmul_one _).symm
  next =>
    have hcomm : (gmul · k) = gmul k := funext fun c => gmul_comm c k
    rw [valueAt_strip, hcomm, valueAt_map_gmul, gmul_comm]

/-- Settles O35: Horner's rule is linear, so it takes the convolution to the product. -/
theorem evaluationIsAHomomorphism : Obligations.EvaluationIsAHomomorphism := by
  intro p q x hp hq
  rw [peval_eq_valueAt hp.1, peval_eq_valueAt hq.1]
  refine ⟨?_, ?_, fun k => ?_, fun d k => ⟨pmulm_eq_pmul hp d k, ?_⟩⟩
  · rw [peval_eq_valueAt (padd_canonical hp hq).1, valueAt_padd hp hq]
  · rw [peval_eq_valueAt (pmul_canonical p q).1, valueAt_pmul hp hq]
  · rw [peval_eq_valueAt (pmuli_canonical hp k).1, valueAt_pmuli]
  · rw [peval_eq_valueAt (monomial_canonical d k).1, valueAt_monomial]

end Sys2Proof.Machine
end

section
/-! SUPPORT. Inverses and powers of α (spec/40_gf256.md R134, R135), and the polynomials of the Reed–Solomon stages by
their coefficients: the syndrome polynomial, the formal derivative, and what makes two polynomials take the same
values. -/

namespace Sys2Proof.Machine

/-! ## Inverses and powers -/

/-- An element has one inverse, and `ginv` answers it (R134). -/
theorem ginv_of_gmul_eq_one {a b : Byte} (h : gmul a b = 1) : ginv a = .ok b := by
  have ha : a ≠ 0 := by
    rintro rfl
    exact absurd (h.symm.trans (gmul_zero_left b)) (by decide)
  obtain ⟨r, hr⟩ := exists_ginv ha
  obtain ⟨-, -, hinv⟩ := ginv_eq_ok hr
  have hunique : r = b := calc
    r = gmul r (gmul a b) := by rw [h]; exact (gmul_one r).symm
    _ = gmul (gmul a r) b := by rw [← gmul_assoc, gmul_comm r a]
    _ = b := by rw [hinv]; exact one_gmul b
  rw [hr, hunique]

theorem ginv_eq_ok_iff {a b : Byte} : ginv a = .ok b ↔ gmul a b = 1 :=
  ⟨fun h => have ⟨_, _, hinv⟩ := ginv_eq_ok h; hinv, ginv_of_gmul_eq_one⟩

theorem LOG_gexp (i : Nat) : LOG (gexp i) = some (i % 255) := LOG_EXP (Nat.mod_lt _ (by decide))

theorem gexp_eq_iff {i j : Nat} : gexp i = gexp j ↔ i % 255 = j % 255 := by
  refine ⟨fun h => ?_, congrArg EXP⟩
  have hlog := congrArg LOG h
  rw [LOG_gexp, LOG_gexp] at hlog
  exact Option.some.inj hlog

/-- The powers α^i and α^(-i), i in 0..255 (R185). -/
theorem gmul_gexp_inverse {i : Nat} (h : i ≤ 255) : gmul (gexp i) (gexp (255 - i)) = 1 := by
  rw [← gexp_add, show i + (255 - i) = 0 + 255 by omega, gexp, Nat.add_mod_right]
  exact EXP_zero

/-- The elements but 0 are told apart by their logarithms. -/
theorem eq_of_LOG_eq {x y : Byte} {l : Nat} (hx : LOG x = some l) (hy : LOG y = some l) : x = y :=
  have ⟨_, hxl⟩ := LOG_eq_some hx
  have ⟨_, hyl⟩ := LOG_eq_some hy
  hxl.symm.trans hyl

/-! ## Coefficients and values -/

/-- The coefficients of a vector are its entries read from the last one. -/
theorem coef_map_reverse_range (n : Nat) (v : Nat → Byte) (k : Nat) :
    coef ((List.range n).reverse.map v) k = if k < n then v k else 0 := by
  unfold coef
  rw [← List.map_reverse, List.reverse_reverse, List.getD_eq_getElem?_getD, List.getElem?_map]
  by_cases h : k < n
  · rw [List.getElem?_range h, if_pos h]
    rfl
  · rw [List.getElem?_eq_none (by simpa using h), if_neg h]
    rfl

theorem valueAt_congr {p q : List Byte} (h : ∀ k, coef p k = coef q k) (x : Byte) : valueAt p x = valueAt q x := by
  have hstrip : strip p = strip q :=
    canonical_ext (strip_canonical p) (strip_canonical q) fun k => by rw [coef_strip, coef_strip, h k]
  rw [← valueAt_strip p, hstrip, valueAt_strip]

/-- The syndromes are values of the received vector, the empty one the zero polynomial (R181). -/
theorem rsSyn_fst (received : List Byte) (twoS : Nat) :
    (rsSyn received twoS).1 = (List.range twoS).map fun i => valueAt received (gexp i) := by
  refine List.map_congr_left fun i _ => ?_
  split
  next h =>
    rw [h]
    exact (peval_eq_valueAt canonical_zero.1 _).trans (valueAt_zero _)
  next => rw [peval_eq_valueAt (strip_canonical _).1, valueAt_strip]

theorem rsSyn_snd (received : List Byte) (twoS : Nat) :
    (rsSyn received twoS).2 = if twoS = 0 then [0] else strip (rsSyn received twoS).1.reverse := rfl

theorem rsSyn_snd_canonical (received : List Byte) (twoS : Nat) : Canonical (rsSyn received twoS).2 := by
  rw [rsSyn_snd]
  split
  · exact canonical_zero
  · exact strip_canonical _

/-- S_i is the coefficient of x^i (R182). -/
theorem coef_rsSyn_snd (received : List Byte) (twoS k : Nat) :
    coef (rsSyn received twoS).2 k = if k < twoS then valueAt received (gexp k) else 0 := by
  rw [rsSyn_snd]
  split
  next h => rw [h]; simp
  next => rw [coef_strip, rsSyn_fst, ← List.map_reverse, coef_map_reverse_range]

theorem pderiv_canonical (sigma : Poly) : Canonical (pderiv sigma) := by
  unfold pderiv
  split
  · exact canonical_zero
  · exact strip_canonical _

/-- The derivative's vector before the constructor, indexed from its last entry (R186). -/
theorem pderiv_of_pdeg_ne_zero {sigma : Poly} (h : pdeg sigma ≠ 0) : pderiv sigma =
    strip ((List.range (pdeg sigma)).reverse.map fun k : Nat => if k % 2 = 0 then coef sigma (k + 1) else 0) := by
  have hentry (k : Nat) : (if (k : Int) % 2 = 0 then pcoef sigma ((k : Int) + 1) else 0) =
      if k % 2 = 0 then coef sigma (k + 1) else 0 := by
    rw [← pcoef_eq_coef]
    exact if_congr (by omega) rfl rfl
  have hcast (l : List Nat) : (do let k ← l; pure (k : Int) : List Int) = l.map fun k : Nat => (k : Int) :=
    List.flatMap_pure_eq_map _ l
  rw [pderiv, if_neg h, hcast, List.map_map]
  exact congrArg strip (List.map_congr_left fun k _ => hentry k)

/-- The formal derivative by coefficients: k·σ_k is σ_k for odd k and 0 for even k (R186). -/
theorem coef_pderiv (sigma : Poly) (k : Nat) :
    coef (pderiv sigma) k = if k % 2 = 0 then coef sigma (k + 1) else 0 := by
  have hhigh : pdeg sigma ≤ k → coef sigma (k + 1) = 0 := fun h => coef_of_le (by unfold pdeg at h; omega)
  by_cases h : pdeg sigma = 0
  · rw [pderiv, if_pos h, hhigh (by omega), ite_self]
    exact coef_replicate_zero 1 k
  · rw [pderiv_of_pdeg_ne_zero h, coef_strip, coef_map_reverse_range]
    split
    · rfl
    next hle => rw [hhigh (Nat.le_of_not_lt hle), ite_self]

end Sys2Proof.Machine
end

section
/-! SUPPORT. Roots: a polynomial divided by a linear factor, how many roots it can have, and why the derivative is not
zero at a root if there are as many roots as the degree (spec/42_reed_solomon.md R186, R193). -/

namespace Sys2Proof.Machine

theorem coef_concat_zero (p : List Byte) (c : Byte) : coef (p ++ [c]) 0 = c := by
  rw [coef_append, if_pos (by simp)]
  rfl

theorem coef_concat_succ (p : List Byte) (c : Byte) (k : Nat) : coef (p ++ [c]) (k + 1) = coef p k := by
  rw [coef_append, if_neg (by simp)]
  rfl

/-- The product rule along Horner's rule: (x·P + c)' = x·P' + P. -/
theorem valueAt_pderiv_concat (p : List Byte) (c x : Byte) :
    valueAt (pderiv (p ++ [c])) x = gmul x (valueAt (pderiv p) x) ^^^ valueAt p x := by
  have hcoef (k : Nat) : coef (pderiv (p ++ [c])) k = coef (padd (strip (pderiv p ++ [0])) (strip p)) k := by
    rw [coef_padd (strip_canonical _) (strip_canonical _), coef_strip, coef_strip, coef_pderiv, coef_concat_succ]
    cases k with
    | zero => rw [coef_concat_zero, if_pos (Nat.zero_mod 2), zero_xor_byte]
    | succ k =>
      rw [coef_concat_succ, coef_pderiv]
      rcases Nat.mod_two_eq_zero_or_one k with heven | hodd
      · have hodd : ¬(k + 1) % 2 = 0 := by omega
        rw [if_neg hodd, if_pos heven, BitVec.xor_self]
        rfl
      · have heven : (k + 1) % 2 = 0 := by omega
        rw [if_pos heven, if_neg (by omega), zero_xor_byte]
  rw [valueAt_congr hcoef, valueAt_padd (strip_canonical _) (strip_canonical _), valueAt_strip, valueAt_strip,
    valueAt_append, xor_zero_byte]

/-- `q` is the polynomial `p` divided by y + x: p(y) = (y + x)·q(y) + p(x), and q(x) = p'(x). -/
structure DividedByRoot (x : Byte) (p q : List Byte) : Prop where
  recomposes : ∀ y, valueAt p y = gmul (y ^^^ x) (valueAt q y) ^^^ valueAt p x
  derivative : valueAt q x = valueAt (pderiv p) x

theorem DividedByRoot.constant (x a : Byte) : DividedByRoot x [a] [] where
  recomposes y := ((valueAt_cons a [] y).trans (valueAt_cons a [] x).symm).trans (by
    rw [show valueAt [] y = 0#8 from rfl, gmul_zero_right, BitVec.zero_xor])
  derivative := (valueAt_zero x).symm

/-- One more coefficient below: yP(y) + c divided by y + x is yQ(y) + P(x). -/
theorem DividedByRoot.append {x : Byte} {p q : List Byte} (h : DividedByRoot x p q) (c : Byte) :
    DividedByRoot x (p ++ [c]) (q ++ [valueAt p x]) where
  recomposes y := by
    have hp : valueAt p y ^^^ valueAt p x = gmul (y ^^^ x) (valueAt q y) := by
      rw [h.recomposes y, BitVec.xor_assoc, BitVec.xor_self, BitVec.xor_zero]
    rw [valueAt_append, valueAt_append, valueAt_append, gmul_xor, gmul_comm y (valueAt q y), ← gmul_assoc, ← hp,
      gmul_comm _ y, gmul_xor, xor_gmul]
    have hcancel (u v : Byte) : u ^^^ v ^^^ v = u := by rw [BitVec.xor_assoc, BitVec.xor_self, BitVec.xor_zero]
    calc gmul y (valueAt p y) ^^^ c
        = gmul y (valueAt p y) ^^^ gmul y (valueAt p x) ^^^ gmul y (valueAt p x) ^^^ gmul x (valueAt p x) ^^^
            gmul x (valueAt p x) ^^^ c := by rw [hcancel, hcancel]
      _ = gmul y (valueAt p y) ^^^ gmul y (valueAt p x) ^^^ (gmul y (valueAt p x) ^^^ gmul x (valueAt p x)) ^^^
            (gmul x (valueAt p x) ^^^ c) := by ac_rfl
  derivative := by rw [valueAt_append, valueAt_pderiv_concat, h.derivative]

/-- The quotient by a linear factor is one shorter and has the same leading coefficient. -/
theorem exists_dividedByRoot (x a : Byte) (rest : List Byte) :
    ∃ q, q.length = rest.length ∧ q.headD a = a ∧ DividedByRoot x (a :: rest) q := by
  induction rest using List.reverseRecOn with
  | nil => exact ⟨[], rfl, rfl, .constant x a⟩
  | append_singleton rest c ih =>
    obtain ⟨q, hlength, hhead, hdiv⟩ := ih
    refine ⟨q ++ [valueAt (a :: rest) x], by simp [hlength], ?_, hdiv.append c⟩
    cases q with
    | nil =>
      obtain rfl : rest = [] := List.length_eq_zero_iff.mp hlength.symm
      exact valueAt_cons a [] x
    | cons b q => exact hhead

/-- Another root of the polynomial is a root of the quotient: the field has no zero divisors. -/
theorem DividedByRoot.root {x y : Byte} {p q : List Byte} (h : DividedByRoot x p q) (hx : valueAt p x = 0)
    (hy : valueAt p y = 0) (hne : y ≠ x) : valueAt q y = 0 := by
  have hproduct := h.recomposes y
  rw [hy, hx, xor_zero_byte] at hproduct
  exact (gmul_eq_zero.mp hproduct.symm).resolve_left fun hzero => hne (BitVec.xor_eq_zero_iff.mp hzero)

/-- A polynomial with a leading coefficient has no more roots than its degree. -/
theorem roots_length_le {a : Byte} (ha : a ≠ 0) {rest roots : List Byte} (hnodup : roots.Nodup)
    (hroots : ∀ x ∈ roots, valueAt (a :: rest) x = 0) : roots.length ≤ rest.length := by
  induction roots generalizing rest with
  | nil => exact Nat.zero_le _
  | cons x roots ih =>
    obtain ⟨hfresh, hnodup⟩ := List.nodup_cons.mp hnodup
    have hx := hroots x List.mem_cons_self
    obtain ⟨q, hlength, hhead, hdiv⟩ := exists_dividedByRoot x a rest
    cases q with
    | nil =>
      obtain rfl : rest = [] := List.length_eq_zero_iff.mp hlength.symm
      exact absurd ((valueAt_cons a [] x).symm.trans hx) ha
    | cons b q =>
      obtain rfl : b = a := hhead
      rw [← hlength]
      refine Nat.succ_le_succ (ih hnodup fun y hy => ?_)
      exact hdiv.root hx (hroots y (List.mem_cons_of_mem x hy)) fun heq => hfresh (heq ▸ hy)

/-- With as many roots as its degree a polynomial has no root twice, so its derivative is zero at none of them (R193).
-/
theorem pderiv_ne_zero_of_root {sigma : Poly} (hcanonical : Canonical sigma) (hne : sigma ≠ [0]) {roots : List Byte}
    (hnodup : roots.Nodup) (hroots : ∀ x ∈ roots, valueAt sigma x = 0) (hcount : roots.length = pdeg sigma) {x : Byte}
    (hx : x ∈ roots) : valueAt (pderiv sigma) x ≠ 0 := by
  obtain ⟨a, rest, ha, rfl⟩ := (canonical_cases hcanonical).resolve_left hne
  obtain ⟨q, hlength, hhead, hdiv⟩ := exists_dividedByRoot x a rest
  rw [← hdiv.derivative]
  intro hzero
  have hquotient (y : Byte) (hy : y ∈ roots) : valueAt q y = 0 := by
    by_cases heq : y = x
    · rw [heq, hzero]
    · exact hdiv.root (hroots x hx) (hroots y hy) heq
  have hdegree : roots.length = q.length := hcount.trans hlength.symm
  cases q with
  | nil => exact absurd hdegree (List.length_pos_of_mem hx).ne'
  | cons b q =>
    obtain rfl : b = a := hhead
    exact absurd (roots_length_le ha hnodup hquotient) (by rw [hdegree]; exact Nat.not_succ_le_self _)

end Sys2Proof.Machine
end

section
/-! SUPPORT. What each Reed–Solomon stage answers on canonical polynomials (spec/42_reed_solomon.md R183 to R188). -/

namespace Sys2Proof.Machine

/-! ## The Euclid stage (R183, R184) -/

/-- The loop exits within its passes: the remainder falls at each one, a zero remainder ends it before it can become a
divisor (R184), and where it ends the loop without a bound ends too. -/
theorem euclidLoop_exits {twoS : Nat} (hpos : 0 < twoS) (fuel : Nat) {e : EuclidRegs} (hlast : Canonical e.rLast)
    (hr : Canonical e.r) (hfuel : e.r = [0] ∨ pdeg e.r < fuel) :
    ∃ e', euclidLoop twoS fuel e = .ok e' ∧ EuclidExit twoS e e' := by
  induction fuel generalizing e with
  | zero =>
    have hzero : e.r = [0] := hfuel.resolve_right (Nat.not_lt_zero _)
    exact ⟨e, rfl, .stop e (by rw [hzero]; exact hpos)⟩
  | succ fuel ih =>
    rcases Nat.lt_or_ge (2 * pdeg e.r) twoS with hstop | hgo
    · exact ⟨e, euclidLoop_succ.mpr (.inl ⟨hstop, rfl⟩), .stop e hstop⟩
    · have hne : e.r ≠ [0] := fun hzero => absurd (hpos.trans_le hgo) (by rw [hzero]; exact Nat.lt_irrefl 0)
      have hbound : pdeg e.r ≤ fuel := Nat.le_of_lt_succ (hfuel.resolve_left hne)
      obtain ⟨q, rem, hdiv, hq⟩ := exists_pdiv hlast hr hne
      have hfuel' : rem = [0] ∨ pdeg rem < fuel := hq.reduced.symm.imp_right fun hlt => hlt.trans_le hbound
      obtain ⟨e', hloop, hexit⟩ := ih (e := ⟨e.r, rem, e.t, padd (pmul q e.t) e.tLast, q⟩) hr hq.remCanonical hfuel'
      exact ⟨e', euclidLoop_succ.mpr (.inr ⟨hgo, _, euclidPass_eq_ok.mpr ⟨q, rem, hdiv, rfl⟩, hloop⟩),
        .pass e e' q rem hgo hdiv hexit⟩

/-- The co-factors stay canonical. -/
theorem EuclidExit.t_canonical {twoS : Nat} {e e' : EuclidRegs} (h : EuclidExit twoS e e') (ht : Canonical e.t)
    (htLast : Canonical e.tLast) : Canonical e'.t := by
  induction h with
  | stop => exact ht
  | pass e e' q r _ _ _ ih => exact ih (padd_canonical (pmul_canonical q e.t) htLast) ht

/-- No pass reads q. -/
theorem EuclidExit.with_q {twoS : Nat} {e e' : EuclidRegs} (h : EuclidExit twoS e e') (q : Poly) :
    ∃ e'', EuclidExit twoS { e with q := q } e'' ∧ e''.t = e'.t ∧ e''.r = e'.r := by
  cases h with
  | stop _ hstop => exact ⟨_, .stop { e with q := q } hstop, rfl, rfl⟩
  | pass _ _ q' r hgo hdiv hrest => exact ⟨e', .pass { e with q := q } e' q' r hgo hdiv hrest, rfl, rfl⟩

theorem rsEuclid_of_bad_degree {spoly : Poly} {twoS : Nat} (h : twoS = 0 ∨ twoS ≤ pdeg spoly) :
    rsEuclid spoly twoS = .error .euclidArg := if_pos h

/-- On a legal argument the stage divides the last co-factor and the last remainder by σ(0), or faults if it is zero
(R183). -/
theorem exists_euclidExit {spoly : Poly} (hs : Canonical spoly) {twoS : Nat} (hdeg : pdeg spoly < twoS) :
    ∃ e, EuclidExit twoS (euclidStart spoly twoS) e ∧
      (coef e.t 0 = 0 → rsEuclid spoly twoS = .error .sigma0Zero) ∧
      ∀ inv, gmul (coef e.t 0) inv = 1 → rsEuclid spoly twoS = .ok (e, pmuli e.t inv, pmuli e.r inv) := by
  have hlegal : ¬(twoS = 0 ∨ twoS ≤ pdeg spoly) := by omega
  have hfuel : pdeg spoly < spoly.length := by rw [length_of_canonical hs]; exact Nat.lt_succ_self _
  obtain ⟨e, hloop, hexit⟩ := euclidLoop_exits (e := euclidStart spoly twoS) (Nat.zero_lt_of_lt hdeg) spoly.length
    (monomial_canonical twoS 1) hs (.inr hfuel)
  have hcoef : pcoef e.t 0 = coef e.t 0 := pcoef_eq_coef e.t 0
  refine ⟨e, hexit, fun hzero => ?_, fun inv hinv => ?_⟩
  · rw [rsEuclid, if_neg hlegal, hloop]
    exact if_pos (hcoef.trans hzero)
  · exact rsEuclid_eq_ok.mpr ⟨hdeg, hloop, inv, ginv_of_gmul_eq_one (by rw [hcoef, hinv]), rfl, rfl⟩

/-- With the high half of the coefficients zero the loop does not run (R190). -/
theorem rsEuclid_of_low_degree {spoly : Poly} (hs : Canonical spoly) {twoS : Nat} (h : 2 * pdeg spoly < twoS) :
    rsEuclid spoly twoS = .ok (euclidStart spoly twoS, [1], spoly) := by
  obtain ⟨e, hexit, -, hok⟩ := exists_euclidExit hs (twoS := twoS) (by omega)
  cases hexit with
  | stop => exact hok 1 (gmul_one 1)
  | pass _ _ _ _ hgo => exact absurd h (Nat.not_lt.mpr hgo)

/-- Of a syndrome polynomial the stage finds σ(0) = 0, or a locator polynomial whose constant term is 1 (R184). -/
theorem rsEuclid_cases {spoly : Poly} (hs : Canonical spoly) {twoS : Nat} (hdeg : pdeg spoly < twoS) :
    rsEuclid spoly twoS = .error .sigma0Zero ∨
      ∃ e sigma omega, rsEuclid spoly twoS = .ok (e, sigma, omega) ∧ Canonical sigma ∧ coef sigma 0 = 1 := by
  obtain ⟨e, hexit, hfault, hok⟩ := exists_euclidExit hs hdeg
  by_cases hzero : coef e.t 0 = 0
  · exact .inl (hfault hzero)
  · obtain ⟨inv, hinv⟩ := exists_ginv hzero
    have hunit := ginv_eq_ok_iff.mp hinv
    have ht := hexit.t_canonical canonical_one canonical_zero
    exact .inr ⟨e, _, _, hok inv hunit, pmuli_canonical ht inv, (coef_pmuli e.t inv 0).trans hunit⟩

/-! ## The Chien stage (R185) -/

/-- The i in 1..255 with σ(α^(-i)) = 0, in the order of the loop of R185. -/
def chienPowers (sigma : Poly) : List Nat :=
  (List.range' 1 255).filter fun i => peval sigma (gexp (255 - i)) == 0

theorem chienLocators_eq_map (sigma : Poly) : chienLocators sigma = (chienPowers sigma).map gexp := rfl

theorem mem_chienPowers {sigma : Poly} (hs : sigma ≠ []) {i : Nat} :
    i ∈ chienPowers sigma ↔ 1 ≤ i ∧ i ≤ 255 ∧ valueAt sigma (gexp (255 - i)) = 0 := by
  rw [chienPowers, List.mem_filter, List.mem_range'_1, beq_iff_eq, peval_eq_valueAt hs, and_assoc]
  exact and_congr_right fun _ => and_congr_left fun _ => Nat.lt_succ_iff

theorem chienPowers_pairwise (sigma : Poly) : (chienPowers sigma).Pairwise (· < ·) :=
  List.Pairwise.filter _ List.pairwise_lt_range'

theorem chienPowers_nodup (sigma : Poly) : (chienPowers sigma).Nodup :=
  (chienPowers_pairwise sigma).imp Nat.ne_of_lt

theorem chienPowers_range {sigma : Poly} {i : Nat} (h : i ∈ chienPowers sigma) : 1 ≤ i ∧ i ≤ 255 := by
  have hrange := List.mem_range'_1.mp (List.mem_of_mem_filter h)
  omega

theorem mem_chienLocators {sigma : Poly} {x : Byte} : x ∈ chienLocators sigma ↔ ∃ i ∈ chienPowers sigma, gexp i = x :=
  List.mem_map

/-- The locators are told apart by their powers of α. -/
theorem chienLocators_nodup (sigma : Poly) : (chienLocators sigma).Nodup := by
  refine (chienPowers_nodup sigma).map_on fun i hi j hj heq => ?_
  have hpower := gexp_eq_iff.mp heq
  have hiRange := chienPowers_range hi
  have hjRange := chienPowers_range hj
  omega

/-- The roots of `sigma`, the inverses of the locators. -/
def chienRoots (sigma : Poly) : List Byte := (chienPowers sigma).map fun i => gexp (255 - i)

theorem chienRoots_nodup (sigma : Poly) : (chienRoots sigma).Nodup := by
  refine (chienPowers_nodup sigma).map_on fun i hi j hj heq => ?_
  have hpower := gexp_eq_iff.mp heq
  have hiRange := chienPowers_range hi
  have hjRange := chienPowers_range hj
  omega

theorem valueAt_of_mem_chienRoots {sigma : Poly} (hs : sigma ≠ []) {x : Byte} (h : x ∈ chienRoots sigma) :
    valueAt sigma x = 0 := by
  obtain ⟨i, hi, rfl⟩ := List.mem_map.mp h
  obtain ⟨-, -, hroot⟩ := (mem_chienPowers hs).mp hi
  exact hroot

/-- A locator is the inverse of a root (R185). -/
theorem exists_root_of_mem_chienLocators {sigma : Poly} {x : Byte} (h : x ∈ chienLocators sigma) :
    ∃ xi ∈ chienRoots sigma, gmul x xi = 1 := by
  obtain ⟨i, hi, rfl⟩ := mem_chienLocators.mp h
  obtain ⟨-, hle⟩ := chienPowers_range hi
  exact ⟨gexp (255 - i), List.mem_map_of_mem hi, gmul_gexp_inverse hle⟩

theorem rsChien_of_count {sigma : Poly} (h : (chienPowers sigma).length = pdeg sigma) :
    rsChien sigma = .ok ((chienPowers sigma).map gexp) :=
  rsChien_eq_ok.mpr ⟨by rw [chienLocators_eq_map, List.length_map, h], rfl⟩

theorem rsChien_of_wrong_count {sigma : Poly} (h : (chienPowers sigma).length ≠ pdeg sigma) :
    rsChien sigma = .error .rootCount :=
  if_pos (by rwa [chienLocators_eq_map, List.length_map])

/-- The locator polynomial 1 of the low-degree corner has no roots (R190). -/
theorem rsChien_one : rsChien [1] = .ok [] := by
  have hnone : chienPowers [1] = [] := by
    refine List.eq_nil_iff_forall_not_mem.mpr fun i hi => ?_
    obtain ⟨-, -, hroot⟩ := (mem_chienPowers canonical_one.1).mp hi
    have hone : valueAt [1] (gexp (255 - i)) = 1 := valueAt_cons 1 [] _
    exact absurd (hone.symm.trans hroot) (by decide)
  have hcount : (chienPowers [1]).length = pdeg [1] := by rw [hnone]; rfl
  rw [rsChien_of_count hcount, hnone, List.map_nil]

/-! ## The Forney stage (R187) -/

section
variable {d omega : Poly} {x xi : Byte}

theorem forneyFrom_cons {dinv : Byte} (hx : gmul x xi = 1) (hd : gmul (peval d xi) dinv = 1) (xs : List Byte) :
    forneyFrom d omega (x :: xs) =
      (forneyFrom d omega xs).map fun es => gmul x (gmul (peval omega xi) dinv) :: es := by
  have hden : peval d xi ≠ 0 := (ginv_eq_ok (ginv_of_gmul_eq_one hd)).1
  rw [forneyFrom, ginv_of_gmul_eq_one hx]
  dsimp only
  rw [if_neg hden, ginv_of_gmul_eq_one hd]
  dsimp only
  cases forneyFrom d omega xs <;> rfl

theorem forneyFrom_zero_cons (xs : List Byte) : forneyFrom d omega (0 :: xs) = .error .gfInvZero := rfl

theorem forneyFrom_zero_denominator (hx : gmul x xi = 1) (hd : peval d xi = 0) (xs : List Byte) :
    forneyFrom d omega (x :: xs) = .error .zeroDenom := by
  rw [forneyFrom, ginv_of_gmul_eq_one hx]
  exact if_pos hd

end

/-- The locators before the first bad one go through. -/
theorem rsForney_append {sigma omega : Poly} {good emag : List Byte}
    (h : List.Forall₂ (ForneyMagnitude sigma omega) good emag) (rest : List Byte) :
    rsForney sigma omega (good ++ rest) = (rsForney sigma omega rest).map (emag ++ ·) := by
  unfold rsForney
  induction h with
  | nil =>
    rw [List.nil_append]
    cases forneyFrom (pderiv sigma) omega rest <;> rfl
  | cons hmagnitude _ ih =>
    obtain ⟨xi, dinv, hx, hd, rfl⟩ := hmagnitude
    rw [List.cons_append, forneyFrom_cons hx hd, ih]
    cases forneyFrom (pderiv sigma) omega rest <;> rfl

theorem rsForney_of_magnitudes {sigma omega : Poly} {xloc emag : List Byte}
    (h : List.Forall₂ (ForneyMagnitude sigma omega) xloc emag) : rsForney sigma omega xloc = .ok emag := by
  have happend := rsForney_append h []
  rw [List.append_nil] at happend
  exact happend.trans (congrArg Except.ok (List.append_nil emag))

/-- The magnitudes exist where no locator and no denominator is zero. -/
theorem exists_magnitudes {sigma omega : Poly} {xloc : List Byte}
    (h : ∀ x ∈ xloc, ∃ xi, gmul x xi = 1 ∧ valueAt (pderiv sigma) xi ≠ 0) :
    ∃ emag, List.Forall₂ (ForneyMagnitude sigma omega) xloc emag := by
  induction xloc with
  | nil => exact ⟨[], .nil⟩
  | cons x xs ih =>
    obtain ⟨xi, hx, hden⟩ := h x List.mem_cons_self
    rw [← peval_eq_valueAt (pderiv_canonical sigma).1] at hden
    obtain ⟨dinv, hinv⟩ := exists_ginv hden
    obtain ⟨emag, htail⟩ := ih fun y hy => h y (List.mem_cons_of_mem x hy)
    exact ⟨_, .cons ⟨xi, dinv, hx, ginv_eq_ok_iff.mp hinv, rfl⟩ htail⟩

/-- After the Chien stage the Forney stage has no fault left: the locators are not zero, and no root is repeated
(R193). -/
theorem exists_magnitudes_of_rsChien {sigma : Poly} (hs : Canonical sigma) (hne : sigma ≠ [0]) {xloc : List Byte}
    (h : rsChien sigma = .ok xloc) (omega : Poly) :
    ∃ emag, List.Forall₂ (ForneyMagnitude sigma omega) xloc emag := by
  obtain ⟨hcount, rfl⟩ := rsChien_eq_ok.mp h
  have hroots : (chienRoots sigma).length = pdeg sigma := by
    rw [← hcount, chienRoots, chienLocators_eq_map, List.length_map, List.length_map]
  refine exists_magnitudes fun x hx => ?_
  obtain ⟨xi, hxi, hinv⟩ := exists_root_of_mem_chienLocators hx
  exact ⟨xi, hinv, pderiv_ne_zero_of_root hs hne (chienRoots_nodup sigma)
    (fun y hy => valueAt_of_mem_chienRoots hs.1 hy) hroots hxi⟩

end Sys2Proof.Machine
end

section
/-! CLAIMS. Family 42_reed_solomon: the stage commands (spec/42_reed_solomon.md R181 to R187). -/

namespace Sys2Proof.Machine

section
variable (s : State)

theorem exec_rsSyn (received : List Byte) (twoS : Word16) : exec (.rsSyn received twoS) s =
    answer s (.ok (vecField (rsSyn received twoS.toNat).1 ++ vecField (rsSyn received twoS.toNat).2)) :=
  execRsSyn_eq_answer received twoS s

theorem exec_rsEuclid {p : Poly} (hp : p ≠ []) (hfit : FitsField p) (twoS : Word16) : exec (.rsEuclid p twoS) s =
    answer s ((rsEuclid (strip p) twoS.toNat).map fun r => vecField r.2.1 ++ vecField r.2.2) :=
  (execRsEuclid_eq_answer p twoS s).trans (congrArg (answer s) (withPoly_of_fits hp hfit _))

theorem exec_rsChien {p : Poly} (hp : p ≠ []) (hfit : FitsField p) :
    exec (.rsChien p) s = answer s ((rsChien (strip p)).map vecField) :=
  (execRsChien_eq_answer p s).trans (congrArg (answer s) (withPoly_of_fits hp hfit _))

theorem exec_rsForney {p q : Poly} (hp : p ≠ []) (hq : q ≠ []) (hpfit : FitsField p) (hqfit : FitsField q)
    (xloc : List Byte) :
    exec (.rsForney p q xloc) s = answer s ((rsForney (strip p) (strip q) xloc).map vecField) :=
  (execRsForney_eq_answer p q xloc s).trans (congrArg (answer s) (withPolys_of_fits hp hq hpfit hqfit _))

end

/-- Settles O37: the syndromes are values of the received vector, and the coefficients of the syndrome polynomial. -/
theorem syndromesAreValues : Obligations.SyndromesAreValues := by
  intro received twoS s hi
  refine ⟨rfl, (rsSyn received twoS.toNat).2, ?_, rsSyn_snd_canonical received twoS.toNat,
    coef_rsSyn_snd received twoS.toNat⟩
  rw [exec_rsSyn, rsSyn_fst]
  exact answer_ok_ended hi

/-- Settles O38: the bounded loop of the stage exits, so the loop of R183 does, and no pass reads q. -/
theorem euclidRunsTheLoop : Obligations.EuclidRunsTheLoop := by
  intro spoly twoS s hi hp hfit
  rw [exec_rsEuclid s hp hfit]
  refine ⟨rfl, fun hbad => ?_, fun _ hdeg q => ?_⟩
  · rw [rsEuclid_of_bad_degree (hbad.imp_left fun hzero => by rw [hzero]; rfl)]
    exact answer_error_ended hi
  · obtain ⟨e, hexit, hfault, hok⟩ := exists_euclidExit (strip_canonical spoly) hdeg
    obtain ⟨e', hexit', ht, hr⟩ := hexit.with_q q
    refine ⟨e', hexit', ?_, ?_⟩ <;> rw [ht]
    · intro hzero
      rw [hfault hzero]
      exact answer_error_ended hi
    · intro inv hinv
      rw [hok inv hinv, hr]
      exact answer_ok_ended hi

/-- Settles O40: the powers whose locators the search finds. -/
theorem chienFindsEveryRoot : Obligations.ChienFindsEveryRoot := by
  intro sigma s hi hp hfit
  rw [exec_rsChien s hp hfit]
  refine ⟨rfl, chienPowers (strip sigma), chienPowers_pairwise _, fun i => ?_, fun hcount => ?_, fun hcount => ?_⟩
  · rw [mem_chienPowers (strip_canonical sigma).1, valueAt_strip]
  · rw [rsChien_of_count hcount]
    exact answer_ok_ended hi
  · rw [rsChien_of_wrong_count hcount]
    exact answer_error_ended hi

/-- Settles O41: the magnitudes before the first bad locator, and the fault there. -/
theorem forneyComputesMagnitudes : Obligations.ForneyComputesMagnitudes := by
  refine ⟨?_, fun sigma k => ⟨pderiv_canonical sigma, coef_pderiv sigma k⟩⟩
  intro sigma omega xloc s hi hp hq hpfit hqfit
  rw [exec_rsForney s hp hq hpfit hqfit]
  refine ⟨rfl, fun emag hmagnitudes => ?_, ?_⟩
  · rw [rsForney_of_magnitudes hmagnitudes]
    exact answer_ok_ended hi
  · rintro good emag x rest rfl hgood
    rw [rsForney_append hgood]
    constructor
    · rintro rfl
      exact answer_error_ended hi
    · intro xi hx hden
      rw [← peval_eq_valueAt (pderiv_canonical _).1] at hden
      rw [rsForney, forneyFrom_zero_denominator hx hden]
      exact answer_error_ended hi

end Sys2Proof.Machine
end

section
/-! SUPPORT. The whole decoder as a function of its operands (spec/42_reed_solomon.md R188 to R190): the positions, the
corrections, and the steps after the Euclid stage. -/

namespace Sys2Proof.Machine

/-! ## The positions (R188) -/

/-- p = N - 1 - LOG[X]. LOG has a value at every locator that the Chien stage finds. -/
def errorPosition (n : Nat) (x : Byte) : Int := (n : Int) - 1 - (LOG x).getD 0

theorem errorPosition_toNat {n l : Nat} {x : Byte} (h : LOG x = some l) :
    (errorPosition n x).toNat = n - 1 - l := by
  rw [errorPosition, h, Option.getD_some]
  omega

theorem rsPositions_cons {x : Byte} {l : Nat} (h : LOG x = some l) (n : Nat) (xs : List Byte) :
    rsPositions n (x :: xs) =
      if l < n then (rsPositions n xs).map (errorPosition n x :: ·) else .error .posRange := by
  rw [rsPositions, glog_of_LOG h, errorPosition, h]
  dsimp only [Option.getD_some]
  by_cases hl : l < n
  · rw [if_pos hl, if_neg (by omega)]
    cases rsPositions n xs <;> rfl
  · rw [if_neg hl, if_pos (by omega)]

/-- Every position inside the vector: all are answered, in the order of the locators. -/
theorem rsPositions_of_inside {n : Nat} {xs : List Byte} (h : ∀ x ∈ xs, ∃ l, LOG x = some l ∧ l < n) :
    rsPositions n xs = .ok (xs.map (errorPosition n)) := by
  induction xs with
  | nil => rfl
  | cons x xs ih =>
    obtain ⟨l, hlog, hl⟩ := h x List.mem_cons_self
    rw [rsPositions_cons hlog, if_pos hl, ih fun y hy => h y (List.mem_cons_of_mem x hy)]
    rfl

/-- A position outside the vector faults, whatever the positions before it are. -/
theorem rsPositions_of_outside {n : Nat} {xs : List Byte} (hne : ∀ x ∈ xs, x ≠ 0)
    (h : ∃ x ∈ xs, ∃ l, LOG x = some l ∧ n ≤ l) : rsPositions n xs = .error .posRange := by
  induction xs with
  | nil =>
    obtain ⟨x, hx, -⟩ := h
    cases hx
  | cons x xs ih =>
    obtain ⟨l, hlog⟩ := exists_LOG (hne x List.mem_cons_self)
    rw [rsPositions_cons hlog]
    by_cases hl : l < n
    · obtain ⟨y, hy, l', hlog', hle⟩ := h
      have hother : y ≠ x := by
        rintro rfl
        rw [hlog] at hlog'
        cases hlog'
        omega
      have htail := (List.mem_cons.mp hy).resolve_left hother
      rw [if_pos hl, ih (fun z hz => hne z (List.mem_cons_of_mem x hz)) ⟨y, htail, l', hlog', hle⟩]
      rfl
    · exact if_neg hl

/-- Either every position is inside the vector, or the stage faults. -/
theorem inside_or_outside (n : Nat) {xs : List Byte} (hne : ∀ x ∈ xs, x ≠ 0) :
    (∀ x ∈ xs, ∃ l, LOG x = some l ∧ l < n) ∨ ∃ x ∈ xs, ∃ l, LOG x = some l ∧ n ≤ l := by
  by_cases hout : ∃ x ∈ xs, ∃ l, LOG x = some l ∧ n ≤ l
  · exact .inr hout
  · refine .inl fun x hx => ?_
    obtain ⟨l, hlog⟩ := exists_LOG (hne x hx)
    exact ⟨l, hlog, Nat.lt_of_not_le fun hle => hout ⟨x, hx, l, hlog, hle⟩⟩

theorem ne_zero_of_mem_chienLocators {sigma : Poly} {x : Byte} (h : x ∈ chienLocators sigma) : x ≠ 0 := by
  obtain ⟨i, -, rfl⟩ := mem_chienLocators.mp h
  exact gexp_ne_zero i

/-! ## The corrections (R189) -/

theorem applyErrors_cons (out : List Byte) (e : Int × Byte) (es : List (Int × Byte)) :
    applyErrors out (e :: es) = applyErrors (out.modify e.1.toNat (· ^^^ e.2)) es := rfl

theorem getD_modify_of_ne {out : List Byte} {i p : Nat} (h : i ≠ p) (f : Byte → Byte) :
    (out.modify i f).getD p 0 = out.getD p 0 := by
  rw [List.getD_eq_getElem?_getD, List.getElem?_modify_ne f out h, ← List.getD_eq_getElem?_getD]

theorem getD_modify_self {out : List Byte} {p : Nat} (h : p < out.length) (f : Byte → Byte) :
    (out.modify p f).getD p 0 = f (out.getD p 0) := by
  rw [List.getD_eq_getElem?_getD, List.getElem?_modify_eq, List.getD_eq_getElem?_getD, List.getElem?_eq_getElem h]
  rfl

/-- An index that no error names keeps its byte. -/
theorem applyErrors_getD_of_untouched {errors : List (Int × Byte)} {p : Nat} (h : ∀ e ∈ errors, e.1.toNat ≠ p)
    (out : List Byte) : (applyErrors out errors).getD p 0 = out.getD p 0 := by
  induction errors generalizing out with
  | nil => rfl
  | cons e es ih =>
    rw [applyErrors_cons, ih fun e' he' => h e' (List.mem_cons_of_mem e he'),
      getD_modify_of_ne (h e List.mem_cons_self)]

/-- An index that one error names is XORed once. -/
theorem applyErrors_getD_of_mem {errors : List (Int × Byte)}
    (hdistinct : errors.Pairwise fun e e' => e.1.toNat ≠ e'.1.toNat) {e : Int × Byte} (he : e ∈ errors)
    {out : List Byte} (hp : e.1.toNat < out.length) :
    (applyErrors out errors).getD e.1.toNat 0 = out.getD e.1.toNat 0 ^^^ e.2 := by
  induction errors generalizing out with
  | nil => cases he
  | cons e' es ih =>
    obtain ⟨hhead, htail⟩ := List.pairwise_cons.mp hdistinct
    rw [applyErrors_cons]
    rcases List.mem_cons.mp he with rfl | hmem
    · rw [applyErrors_getD_of_untouched fun e' he' => (hhead e' he').symm, getD_modify_self hp]
    · rw [ih htail hmem (by rwa [List.length_modify]), getD_modify_of_ne (hhead e hmem)]

section
variable {received xloc emag : List Byte}

/-- The errors that the last loop of R189 applies: each magnitude at the position of its locator. -/
def errorsAt (n : Nat) (xloc emag : List Byte) : List (Int × Byte) := (xloc.map (errorPosition n)).zip emag

theorem errorsAt_eq_map (n : Nat) (xloc emag : List Byte) :
    errorsAt n xloc emag = (xloc.zip emag).map (Prod.map (errorPosition n) id) := List.zip_map_left ..

theorem pairwise_zip_left {R : Byte → Byte → Prop} (h : xloc.Pairwise R) (ms : List Byte) :
    (xloc.zip ms).Pairwise fun a b => R a.1 b.1 := by
  induction h generalizing ms with
  | nil => exact .nil
  | cons hhead _ ih =>
    cases ms with
    | nil => exact .nil
    | cons m ms => exact .cons (fun b hb => hhead b.1 (List.of_mem_zip hb).1) (ih ms)

/-- Distinct locators inside the vector have distinct positions. -/
theorem errorsAt_distinct {n : Nat} (hnodup : xloc.Nodup) (hinside : ∀ x ∈ xloc, ∃ l, LOG x = some l ∧ l < n)
    (emag : List Byte) : (errorsAt n xloc emag).Pairwise fun e e' => e.1.toNat ≠ e'.1.toNat := by
  rw [errorsAt_eq_map, List.pairwise_map]
  refine (pairwise_zip_left hnodup emag).imp_of_mem fun ha hb hne heq => hne ?_
  obtain ⟨l, hlog, hl⟩ := hinside _ (List.of_mem_zip ha).1
  obtain ⟨l', hlog', hl'⟩ := hinside _ (List.of_mem_zip hb).1
  dsimp only [Prod.map] at heq
  rw [errorPosition_toNat hlog, errorPosition_toNat hlog'] at heq
  obtain rfl : l = l' := by omega
  exact eq_of_LOG_eq hlog hlog'

theorem applyErrors_at_locator (hnodup : xloc.Nodup)
    (hinside : ∀ x ∈ xloc, ∃ l, LOG x = some l ∧ l < received.length) {x m : Byte} {l : Nat}
    (hmem : (x, m) ∈ xloc.zip emag) (hlog : LOG x = some l) :
    (applyErrors received (errorsAt received.length xloc emag)).getD (received.length - 1 - l) 0 =
      received.getD (received.length - 1 - l) 0 ^^^ m := by
  obtain ⟨l', hlog', hl'⟩ := hinside x (List.of_mem_zip hmem).1
  have herror : (errorPosition received.length x, m) ∈ errorsAt received.length xloc emag := by
    rw [errorsAt_eq_map]
    exact List.mem_map.mpr ⟨(x, m), hmem, rfl⟩
  have hlength : (errorPosition received.length x).toNat < received.length := by
    rw [errorPosition_toNat hlog']
    omega
  have hbyte := applyErrors_getD_of_mem (errorsAt_distinct hnodup hinside emag) herror hlength
  rwa [errorPosition_toNat hlog] at hbyte

theorem applyErrors_elsewhere (hinside : ∀ x ∈ xloc, ∃ l, LOG x = some l ∧ l < received.length) {p : Nat}
    (h : ∀ x ∈ xloc, ∀ l, LOG x = some l → p ≠ received.length - 1 - l) :
    (applyErrors received (errorsAt received.length xloc emag)).getD p 0 = received.getD p 0 := by
  refine applyErrors_getD_of_untouched (fun e he => ?_) received
  rw [errorsAt_eq_map] at he
  obtain ⟨a, ha, rfl⟩ := List.mem_map.mp he
  have hx := (List.of_mem_zip ha).1
  obtain ⟨l, hlog, -⟩ := hinside a.1 hx
  exact (errorPosition_toNat hlog).trans_ne (h a.1 hx l hlog).symm

end

/-! ## The sequence of the stages (R189) -/

/-- Steps 3 to 5 of R189 as a function of what step 2 finds. -/
def correctWith (received : List Byte) (sigma omega : Poly) : Except Cause (List Byte) :=
  (rsChien sigma).bind fun xloc =>
    (rsForney sigma omega xloc).bind fun emag =>
      (rsPositions received.length xloc).map fun epos => applyErrors received (epos.zip emag)

theorem all_syndromes_zero {received : List Byte} {twoS : Nat} :
    (rsSyn received twoS).1.all (· == 0) = true ↔ IsCodeword twoS received := by
  rw [rsSyn_fst, List.all_map, List.all_eq_true]
  exact forall_congr' fun i => by rw [List.mem_range, Function.comp_apply, beq_iff_eq]

/-- With all syndromes zero the vector comes back unchanged. -/
theorem corrected_of_codeword {received : List Byte} {twoS : Nat} (h : IsCodeword twoS received) :
    corrected received twoS = .ok received := by
  have hzero : (stageSyn received twoS Work.reset).syn.all (· == 0) = true := all_syndromes_zero.mpr h
  unfold corrected rsDecode
  dsimp only
  rw [if_pos hzero]
  rfl

/-- Otherwise the stages run in order, and the first fault of one is the command's. -/
theorem corrected_of_not_codeword {received : List Byte} {twoS : Nat} (h : ¬IsCodeword twoS received) :
    corrected received twoS =
      (rsEuclid (rsSyn received twoS).2 twoS).bind fun r => correctWith received r.2.1 r.2.2 := by
  have hstages : corrected received twoS =
      (correctStages (stageSyn received twoS Work.reset)).map correctedOf := by
    have hne : ¬(stageSyn received twoS Work.reset).syn.all (· == 0) = true := fun hall =>
      h (all_syndromes_zero.mp hall)
    unfold corrected rsDecode
    dsimp only
    rw [if_neg hne]
    cases correctStages (stageSyn received twoS Work.reset) <;> rfl
  rw [hstages]
  unfold correctStages stageEuclid correctWith
  dsimp only [stageSyn_work]
  rcases rsEuclid (rsSyn received twoS).2 twoS with c | ⟨e, sigma, omega⟩
  · rfl
  dsimp only [Except.bind, stageChien]
  rcases rsChien sigma with c | xloc
  · rfl
  dsimp only [stageForney]
  rcases rsForney sigma omega xloc with c | emag
  · rfl
  dsimp only [stagePositions]
  rcases rsPositions received.length xloc with c | epos <;> rfl

theorem corrected_of_euclid_error {received : List Byte} {twoS : Nat} (h : ¬IsCodeword twoS received) {c : Cause}
    (heuclid : rsEuclid (rsSyn received twoS).2 twoS = .error c) : corrected received twoS = .error c := by
  rw [corrected_of_not_codeword h, heuclid]
  dsimp only [Except.bind]

theorem corrected_of_euclid {received : List Byte} {twoS : Nat} (h : ¬IsCodeword twoS received) {e : EuclidRegs}
    {sigma omega : Poly} (heuclid : rsEuclid (rsSyn received twoS).2 twoS = .ok (e, sigma, omega)) :
    corrected received twoS = correctWith received sigma omega := by
  rw [corrected_of_not_codeword h, heuclid]
  dsimp only [Except.bind]

theorem correctWith_of_chien_error {sigma : Poly} {c : Cause} (h : rsChien sigma = .error c) (received : List Byte)
    (omega : Poly) : correctWith received sigma omega = .error c := by
  rw [correctWith, h]
  rfl

section
variable {received xloc emag : List Byte} {sigma omega : Poly} (hchien : rsChien sigma = .ok xloc)
  (hforney : rsForney sigma omega xloc = .ok emag)
include hchien hforney

theorem correctWith_of_outside (h : ∃ x ∈ xloc, ∃ l, LOG x = some l ∧ received.length ≤ l) :
    correctWith received sigma omega = .error .posRange := by
  obtain ⟨-, rfl⟩ := rsChien_eq_ok.mp hchien
  have hpositions := rsPositions_of_outside (fun x => ne_zero_of_mem_chienLocators) h
  simp only [correctWith, hchien, Except.bind, hforney, hpositions, Except.map]

theorem correctWith_of_inside (h : ∀ x ∈ xloc, ∃ l, LOG x = some l ∧ l < received.length) :
    correctWith received sigma omega = .ok (applyErrors received (errorsAt received.length xloc emag)) := by
  simp only [correctWith, hchien, Except.bind, hforney, rsPositions_of_inside h, Except.map, errorsAt]

end

/-- The syndrome polynomial is a legal argument of the Euclid stage: EUCLID_ARG cannot fire (R189). -/
theorem pdeg_rsSyn_lt {received : List Byte} {twoS : Nat} (h : ¬IsCodeword twoS received) :
    pdeg (rsSyn received twoS).2 < twoS := by
  have hpos : 0 < twoS := Nat.pos_of_ne_zero fun hzero =>
    h fun i hi => absurd hi (by rw [hzero]; exact Nat.not_lt_zero i)
  have hcoef (k : Nat) (hk : twoS ≤ k) : coef (rsSyn received twoS).2 k = 0 := by
    rw [coef_rsSyn_snd, if_neg (Nat.not_lt.mpr hk)]
  rcases pdeg_lt_of_coef (rsSyn_snd_canonical received twoS) hcoef with hzero | hlt
  · rw [hzero]
    exact hpos
  · exact hlt

/-- With the high syndromes zero the locator polynomial is 1, nothing is found and nothing corrected (R190). -/
theorem corrected_of_high_syndromes_zero {received : List Byte} {twoS : Nat}
    (h : ∀ i, i < twoS → twoS ≤ 2 * i → valueAt received (gexp i) = 0) : corrected received twoS = .ok received := by
  by_cases hcodeword : IsCodeword twoS received
  · exact corrected_of_codeword hcodeword
  · have hs := rsSyn_snd_canonical received twoS
    have hcoef (k : Nat) (hk : (twoS + 1) / 2 ≤ k) : coef (rsSyn received twoS).2 k = 0 := by
      rw [coef_rsSyn_snd]
      split
      next hlt => exact h k hlt (by omega)
      next => rfl
    have hlow : 2 * pdeg (rsSyn received twoS).2 < twoS := by
      have hlegal := pdeg_rsSyn_lt hcodeword
      rcases pdeg_lt_of_coef hs hcoef with hzero | hlt
      · rw [hzero] at hlegal ⊢
        exact hlegal
      · omega
    have hforney : rsForney [1] (rsSyn received twoS).2 [] = .ok [] := rfl
    have hnothing : applyErrors received (errorsAt received.length [] []) = received := rfl
    rw [corrected_of_euclid hcodeword (rsEuclid_of_low_degree hs hlow),
      correctWith_of_inside rsChien_one hforney (fun x hx => nomatch hx), hnothing]

end Sys2Proof.Machine
end

section
/-! CLAIMS. Family 42_reed_solomon: the whole decoder (spec/42_reed_solomon.md R188 to R190, R193) and the faults of
RS.DECODE and DECODE (spec/60_exceptions.md R304). -/

namespace Sys2Proof.Machine

theorem exec_rsDecode (received : List Byte) (twoS : Word16) (s : State) :
    exec (.rsDecode received twoS) s = answer s ((corrected received twoS.toNat).map vecField) :=
  execRsDecode_eq_answer received twoS s

section
variable {received : List Byte} {twoS : Word16} {s : State} (hi : s.activity = .idle)
include hi

theorem exec_rsDecode_ok {out : List Byte} (h : corrected received twoS.toNat = .ok out) :
    exec (.rsDecode received twoS) s = .next (ended 0x00 0x00 (vecField out) s.bb s) := by
  rw [exec_rsDecode, h]
  exact answer_ok_ended hi

theorem exec_rsDecode_error {c : Cause} (h : corrected received twoS.toNat = .error c) :
    exec (.rsDecode received twoS) s = .next (ended (causeKind c) (causeCode c) [] s.bb s) := by
  rw [exec_rsDecode, h]
  exact answer_error_ended hi

end

/-- Settles O42: the command answers what its stages make of its operands; the locators that the Chien stage finds
are distinct and not zero, so their positions are distinct. -/
theorem rsDecodeAppliesTheStages : Obligations.RsDecodeAppliesTheStages := by
  intro received twoS s hi
  refine ⟨rfl, fun hcodeword => exec_rsDecode_ok hi (corrected_of_codeword hcodeword),
    fun hhigh => exec_rsDecode_ok hi (corrected_of_high_syndromes_zero hhigh), ?_⟩
  rintro ⟨i, hlt, hsyndrome⟩
  have hne : ¬IsCodeword twoS.toNat received := fun hcodeword => hsyndrome (hcodeword i hlt)
  refine ⟨fun c heuclid => exec_rsDecode_error hi (corrected_of_euclid_error hne heuclid), ?_⟩
  intro e sigma omega heuclid
  have hstages := corrected_of_euclid hne heuclid
  refine ⟨fun c hchien => exec_rsDecode_error hi (hstages.trans (correctWith_of_chien_error hchien _ _)), ?_⟩
  intro xloc emag hchien hforney
  refine ⟨fun hout => exec_rsDecode_error hi (hstages.trans (correctWith_of_outside hchien hforney hout)), ?_⟩
  intro hlogs
  obtain ⟨-, hxloc⟩ := rsChien_eq_ok.mp hchien
  have hnodup : xloc.Nodup := hxloc ▸ chienLocators_nodup sigma
  have hinside (x : Byte) (hx : x ∈ xloc) : ∃ l, LOG x = some l ∧ l < received.length := by
    obtain ⟨l, hlog⟩ := exists_LOG (ne_zero_of_mem_chienLocators (hxloc ▸ hx))
    exact ⟨l, hlog, hlogs x hx l hlog⟩
  refine ⟨_, exec_rsDecode_ok hi (hstages.trans (correctWith_of_inside hchien hforney hinside)),
    applyErrors_length _ _, fun p _ => ⟨?_, applyErrors_elsewhere hinside⟩⟩
  rintro x m l hmem hlog rfl
  exact applyErrors_at_locator hnodup hinside hmem hlog

/-! ## The faults -/

/-- The faults of the decoder. EUCLID_ARG needs a longer syndrome polynomial, DIV_BY_ZERO_POLY a zero remainder inside
the loop, GF_INV_ZERO and GF_LOG_ZERO a locator 0, ZERO_DENOM a repeated root; none of them can be (R184, R189, R193).
-/
theorem corrected_error {received : List Byte} {twoS : Nat} {c : Cause} (h : corrected received twoS = .error c) :
    c ∈ [Cause.sigma0Zero, .rootCount, .posRange] := by
  by_cases hcodeword : IsCodeword twoS received
  · rw [corrected_of_codeword hcodeword] at h
    cases h
  · rcases rsEuclid_cases (rsSyn_snd_canonical received twoS) (pdeg_rsSyn_lt hcodeword) with
      heuclid | ⟨e, sigma, omega, heuclid, hsigma, hone⟩
    · rw [corrected_of_euclid_error hcodeword heuclid] at h
      cases h
      simp
    · rw [corrected_of_euclid hcodeword heuclid] at h
      cases hchien : rsChien sigma with
      | error c' =>
        obtain ⟨rfl, -⟩ := rsChien_error hchien
        rw [correctWith_of_chien_error hchien] at h
        cases h
        simp
      | ok xloc =>
        have hnonzero : sigma ≠ [0] := by
          rintro rfl
          exact absurd hone (by decide)
        obtain ⟨emag, hmagnitudes⟩ := exists_magnitudes_of_rsChien hsigma hnonzero hchien omega
        have hforney := rsForney_of_magnitudes hmagnitudes
        obtain ⟨-, hxloc⟩ := rsChien_eq_ok.mp hchien
        rcases inside_or_outside received.length (xs := xloc)
          (fun x hx => ne_zero_of_mem_chienLocators (hxloc ▸ hx)) with hinside | houtside
        · rw [correctWith_of_inside hchien hforney hinside] at h
          cases h
        · rw [correctWith_of_outside hchien hforney houtside] at h
          cases h
          simp

theorem rsDecode_error {received : List Byte} {twoS : Nat} {w : Work} {c : Cause}
    (h : rsDecode received twoS w = .error c) : c ∈ [Cause.sigma0Zero, .rootCount, .posRange] := by
  refine corrected_error (received := received) (twoS := twoS) ?_
  rw [← rsDecode_map_snd received twoS w, h]
  rfl

/-- The correction loop of DECODE raises the decoder's faults (R283). -/
theorem correctBlocks_error {blk : List Block} {w : Work} {c : Cause} (h : correctBlocks blk w = .error c) :
    c ∈ [Cause.sigma0Zero, .rootCount, .posRange] := by
  induction blk generalizing w with
  | nil => cases h
  | cons b rest ih =>
    rcases correctBlocks_cons_error.mp h with hblock | ⟨u, buf, -, hrest⟩
    · exact rsDecode_error hblock
    · exact ih hrest

theorem pipelineStages_raises {version ecl : Byte} {raw : List Byte} {cfg : Config.Params} {w : Work} {c : Cause}
    (h : pipelineStages cfg version ecl raw w = .error c) : c ∈ listedFaults (.decode version ecl raw) := by
  have hlisted : listedFaults (.decode version ecl raw) =
      [.badVersion, .badEcl, .rawLen, .cursor] ++ [Cause.sigma0Zero, .rootCount, .posRange] := rfl
  rw [hlisted, List.mem_append]
  rcases pipelineStages_error.mp h with hdeint | ⟨u, -, hblocks⟩
  · exact .inl (by simpa using deinterleave_error hdeint)
  · exact .inr (correctBlocks_error hblocks)

/-- If RS.DECODE does not end with OK, it took one of its faults. -/
theorem exec_rsDecode_fault {received : List Byte} {twoS : Word16} {s t : State}
    (h : exec (.rsDecode received twoS) s = .next t) (hfault : t.status.kind ≠ 0x00) :
    ∃ c ∈ listedFaults (.rsDecode received twoS), t.status = ⟨causeKind c, causeCode c⟩ := by
  rw [exec_rsDecode] at h
  obtain ⟨-, ⟨f, -, rfl⟩ | ⟨c, hc, rfl⟩⟩ := answer_next h
  · exact absurd rfl hfault
  · cases hcorrected : corrected received twoS.toNat with
    | ok out =>
      rw [hcorrected] at hc
      cases hc
    | error c' =>
      rw [hcorrected] at hc
      cases hc
      exact ⟨c, corrected_error hcorrected, rfl⟩

/-- If DECODE ends before its stream starts, it took one of its faults. -/
theorem exec_decode_fault {version ecl : Byte} {raw : List Byte} {s t : State}
    (h : exec (.decode version ecl raw) s = .next t) (hidle : t.activity = .idle) :
    ∃ c ∈ listedFaults (.decode version ecl raw), t.status = ⟨causeKind c, causeCode c⟩ := by
  have hdecode : execDecode version ecl raw s = .next t := h
  obtain ⟨-, hstarts | ⟨c, hraises, rfl⟩⟩ := command_next hdecode
  · obtain ⟨w, -, rfl⟩ := except_map_eq_ok hstarts
    cases hidle
  · refine ⟨c, ?_, rfl⟩
    cases hstages : pipelineStages (clearBitBuffer s).cfg version ecl raw (clearBitBuffer s).work with
    | ok w =>
      rw [hstages] at hraises
      cases hraises
    | error c' =>
      rw [hstages] at hraises
      cases hraises
      exact pipelineStages_raises hstages

/-! ## The words of R189 that do not correct -/

/-- The three words in one kernel evaluation, because a compile's memory limit bounds its threads. -/
theorem corrected_uncorrectable_words :
    corrected [0x12, 0x34, 0x56, 0x83, 0xE6, 0xE2, 0xEC] 4 = .error .sigma0Zero ∧
    corrected [0x12, 0x34, 0x64, 0x0B, 0xE6, 0x78, 0x57] 4 = .error .rootCount ∧
    corrected [0x12, 0x16, 0x56, 0x37, 0xB9, 0x93, 0xD9] 4 = .error .posRange := by decide +kernel

/-- Settles O21: by the faults of the stages, and by the words of R189. -/
theorem uncorrectableWordsRaiseListedFaults : Obligations.UncorrectableWordsRaiseListedFaults := by
  refine ⟨?_, ?_⟩
  · rintro i s t (⟨received, twoS, rfl⟩ | ⟨version, ecl, raw, rfl⟩) hexec hidle hfault
    · exact exec_rsDecode_fault hexec hfault
    · exact exec_decode_fault hexec hidle
  · obtain ⟨hsigma0, hroots, hposition⟩ := corrected_uncorrectable_words
    rintro s hi cause (rfl | rfl | rfl)
    · exact ⟨_, 4, exec_rsDecode_error (twoS := 4) (c := .sigma0Zero) hi hsigma0⟩
    · exact ⟨_, 4, exec_rsDecode_error (twoS := 4) (c := .rootCount) hi hroots⟩
    · exact ⟨_, 4, exec_rsDecode_error (twoS := 4) (c := .posRange) hi hposition⟩

end Sys2Proof.Machine
end

section
/-! SUPPORT. Well-formed layouts as the engine tests them, and the tests of the de-interleaver one by one
(spec/43_deinterleave.md R211, R212). -/

namespace Sys2Proof.Machine

open Sys2Proof.Config

/-! ## Well-formed layouts (R211) -/

/-- The test of neighbours in pairs is the test by places. -/
theorem forall_mem_zip_tail_le_iff (d : List Int) :
    (∀ p ∈ d.zip d.tail, p.1 ≤ p.2) ↔ ∀ j, j + 1 < d.length → d.getD j 0 ≤ d.getD (j + 1) 0 := by
  rw [List.forall_mem_iff_forall_getElem]
  refine forall_congr' fun j => ?_
  constructor
  · intro h hj
    have hle := h (by simp; omega)
    simp only [List.getElem_zip, List.getElem_tail] at hle
    rwa [List.getD_eq_getElem _ _ (by omega), List.getD_eq_getElem _ _ hj]
  · intro h hj
    simp only [List.length_zip, List.length_tail] at hj
    have hle := h (by omega)
    rw [List.getD_eq_getElem _ _ (by omega), List.getD_eq_getElem _ _ (by omega)] at hle
    simpa only [List.getElem_zip, List.getElem_tail] using hle

/-- Groups that each have a block: a property of every block is one of every group. -/
theorem forall_mem_blockSizes_iff {groups : List Group} (hcount : ∀ g ∈ groups, 1 ≤ g.blockCount) (P : Int → Prop) :
    (∀ d ∈ blockSizes groups, P d) ↔ ∀ g ∈ groups, P g.dataCodewords := by
  constructor
  · intro h g hg
    have hblocks : g.blockCount.toNat ≠ 0 := by have := hcount g hg; omega
    exact h _ (List.mem_flatMap.mpr ⟨g, hg, List.mem_replicate.mpr ⟨hblocks, rfl⟩⟩)
  · intro h d hd
    obtain ⟨g, hg, hmem⟩ := List.mem_flatMap.mp hd
    obtain ⟨-, rfl⟩ := List.mem_replicate.mp hmem
    exact h g hg

/-- The engine's test of a layout decides WF. -/
theorem wellFormedLayout_iff (layout : Layout) : wellFormedLayout layout = true ↔ LayoutWf layout := by
  have htest : wellFormedLayout layout = true ↔
      layout.groups ≠ [] ∧ (∀ g ∈ layout.groups, 1 ≤ g.blockCount) ∧ 0 ≤ layout.ec ∧
        (∀ g ∈ layout.groups, 0 ≤ g.dataCodewords) ∧
        (∀ p ∈ (blockSizes layout.groups).zip (blockSizes layout.groups).tail, p.1 ≤ p.2) ∧
        ∀ d ∈ blockSizes layout.groups,
          d = (blockSizes layout.groups).headD 0 ∨ d = (blockSizes layout.groups).headD 0 + 1 := by
    simp only [wellFormedLayout, Bool.and_eq_true, Bool.not_eq_true', List.isEmpty_eq_false_iff, List.all_eq_true,
      decide_eq_true_eq, Bool.or_eq_true, and_assoc, ne_eq]
  rw [htest, forall_mem_zip_tail_le_iff, LayoutWf]
  refine and_congr_right fun _ => and_congr_right fun hcount => ?_
  rw [forall_mem_blockSizes_iff hcount (0 ≤ ·)]

/-- The buffers of a well-formed layout have the lengths d_j + ec, none of them negative (R212, step 2). -/
theorem allocateBlocks_lengths {layout : Layout} (hwf : LayoutWf layout) :
    ((allocateBlocks layout).map fun b => b.buf.length).map Nat.cast =
      (blockSizes layout.groups).map (· + layout.ec) := by
  obtain ⟨-, -, hec, hdata, -⟩ := hwf
  rw [allocateBlocks, List.map_map, List.map_map]
  refine List.map_congr_left fun d hd => ?_
  have hlength : 0 ≤ d + layout.ec := Int.add_nonneg (hdata d hd) hec
  simp only [Function.comp_apply, List.length_replicate, Int.toNat_of_nonneg hlength]

theorem allocateBlocks_sum {layout : Layout} (hwf : LayoutWf layout) :
    ((((allocateBlocks layout).map fun b => b.buf.length).sum : Nat) : Int) =
      ((blockSizes layout.groups).map (· + layout.ec)).sum := by
  rw [Nat.cast_list_sum, allocateBlocks_lengths hwf]

/-! ## The tests of the de-interleaver, in their order (R212) -/

section
variable {cfg : Params} {ver ecl : Byte} {raw : List Byte} {w : Work}

theorem deinterleave_badVersion (hver : ver.toNat < 1 ∨ 40 < ver.toNat) :
    deinterleave cfg ver ecl raw w = .error .badVersion := by
  have hoperand : versionOperand ver = .error .badVersion := if_pos hver
  rw [deinterleave, hoperand]

theorem deinterleave_badEcl (hlow : 1 ≤ ver.toNat) (hhigh : ver.toNat ≤ 40) (hecl : 3 < ecl.toNat) :
    deinterleave cfg ver ecl raw w = .error .badEcl := by
  have hoperand : eclOperand ecl = .error .badEcl := if_pos hecl
  rw [deinterleave, versionOperand_eq_ok.mpr ⟨hlow, hhigh, rfl⟩, hoperand]

theorem deinterleave_rawLen (hlow : 1 ≤ ver.toNat) (hhigh : ver.toNat ≤ 40) (hecl : ecl.toNat ≤ 3)
    (hlen : (raw.length : Int) ≠ totalOf cfg ver.toNat) : deinterleave cfg ver ecl raw w = .error .rawLen := by
  rw [deinterleave, versionOperand_eq_ok.mpr ⟨hlow, hhigh, rfl⟩, eclOperand_eq_ok.mpr ⟨hecl, rfl⟩]
  exact if_pos hlen

/-- CURSOR stands for the two last tests: the layout's form, then its sum. -/
theorem deinterleave_cursor (hlow : 1 ≤ ver.toNat) (hhigh : ver.toNat ≤ 40) (hecl : ecl.toNat ≤ 3)
    (hlen : (raw.length : Int) = totalOf cfg ver.toNat)
    (hlayout : ¬ LayoutWf (layoutOf cfg ver.toNat ecl.toNat) ∨
      ((blockSizes (layoutOf cfg ver.toNat ecl.toNat).groups).map
        (· + (layoutOf cfg ver.toNat ecl.toNat).ec)).sum ≠ raw.length) :
    deinterleave cfg ver ecl raw w = .error .cursor := by
  rw [deinterleave, versionOperand_eq_ok.mpr ⟨hlow, hhigh, rfl⟩, eclOperand_eq_ok.mpr ⟨hecl, rfl⟩]
  refine (if_neg (not_not_intro hlen)).trans ?_
  by_cases hwf : LayoutWf (layoutOf cfg ver.toNat ecl.toNat)
  · have hform : wellFormedLayout (layoutOf cfg ver.toNat ecl.toNat) = true := (wellFormedLayout_iff _).mpr hwf
    have hsum : ((allocateBlocks (layoutOf cfg ver.toNat ecl.toNat)).map fun b => b.buf.length).sum ≠ raw.length := by
      intro heq
      refine (hlayout.resolve_left (not_not_intro hwf)) ?_
      rw [← allocateBlocks_sum hwf, heq]
    rw [if_neg (by simp [hform]), if_pos hsum]
  · have hform : wellFormedLayout (layoutOf cfg ver.toNat ecl.toNat) = false :=
      Bool.eq_false_iff.mpr fun h => hwf ((wellFormedLayout_iff _).mp h)
    rw [if_pos hform]

end

end Sys2Proof.Machine
end

section
/-! CLAIMS. Family 43_deinterleave: the faults of DEINT in their order (spec/43_deinterleave.md R211 to R213). -/

namespace Sys2Proof.Machine

/-- A fault of the de-interleaver is the answer of DEINT. -/
theorem exec_deint_error {ver ecl : Byte} {raw : List Byte} {s : State} {c : Cause} (hi : s.activity = .idle)
    (h : deinterleave s.cfg ver ecl raw Work.reset = .error c) :
    exec (.deint ver ecl raw) s = .next (ended (causeKind c) (causeCode c) [] s.bb s) := by
  refine (execDeint_eq_answer ver ecl raw s).trans ?_
  rw [h]
  exact answer_error_ended hi

/-- Settles O45: each test of R212 by its lemma, the command by `exec_deint_error`. -/
theorem deintFaultsInOrder : Obligations.DeintFaultsInOrder := by
  intro ver ecl raw s hi
  refine ⟨rfl, fun hver => exec_deint_error hi (deinterleave_badVersion hver), fun hlow hhigh => ⟨?_, ?_⟩⟩
  · intro hecl
    exact exec_deint_error hi (deinterleave_badEcl hlow hhigh hecl)
  · intro hecl
    refine ⟨fun hlen => ?_, fun hlen hlayout => ?_⟩
    · exact exec_deint_error hi (deinterleave_rawLen hlow hhigh hecl hlen)
    · exact exec_deint_error hi (deinterleave_cursor hlow hhigh hecl hlen hlayout)

end Sys2Proof.Machine
end

section
/-! SUPPORT. The invariant of the engine (spec/10_state.md R30, R33, R35, R40; spec/44_bitbuffer.md R231) by the ways a
step can end: a command answers, a run starts, a run goes on. Each says once what it needs for `Inv`. -/

namespace Sys2Proof.Machine

open Sys2Proof.Config

/-- A cursor that R231 allows, over a buffer that R30 allows. -/
def BitBuffer.Good (b : BitBuffer) : Prop := b.Wf ∧ b.bbuf.length ≤ lmax

theorem good_loaded {data : List Byte} (h : FitsField data) : BitBuffer.Good ⟨data, 0, 0⟩ :=
  ⟨⟨Nat.zero_le _, Nat.zero_le _, fun _ => rfl⟩, h⟩

theorem good_reset : BitBuffer.Good BitBuffer.reset := good_loaded (Nat.zero_le _)

theorem Inv.good {s : State} (h : Inv s) : s.bb.Good := ⟨h.cursor, h.fits⟩

/-- Moving the cursor on writes no byte of the buffer. -/
theorem BitBuffer.Good.advances {b b' : BitBuffer} (h : b.Good) (hadv : Advances b b') : b'.Good := by
  obtain ⟨hwf, hbbuf, -, -⟩ := hadv.cursor h.1
  exact ⟨hwf, hbbuf ▸ h.2⟩

/-- The ECI record, if there is one, has an id in 0..999999 (R35). -/
def EciInRange (r : SegRegs) : Prop := ∀ e, r.eci = some e → e.id ≤ 999999

theorem eciInRange_of_none {r : SegRegs} (h : r.eci = none) : EciInRange r := by
  intro e he
  rw [h] at he
  cases he

/-- VER between commands (log entry 3). -/
theorem version_reset : 1 ≤ SegRegs.reset.ver ∧ SegRegs.reset.ver ≤ 40 := ⟨Nat.le_refl 1, by decide⟩

/-- The end of a command drops every register, so only the bit buffer is left to ask about (R40, R312). -/
theorem inv_ended (kind cause : Byte) (fields : List Byte) {b : BitBuffer} (hb : b.Good) (s : State) :
    Inv (ended kind cause fields b s) where
  cursor := hb.1
  fits := hb.2
  version := version_reset
  eciId := eciInRange_of_none rfl
  dropped _ := ⟨rfl, rfl⟩

/-- A fault leaves the bit buffer or resets it (R312). -/
theorem inv_takeFault (c : Cause) {s : State} (hb : s.bb.Good) : Inv (takeFault c s) := by
  by_cases hi : s.activity = .idle
  · rw [takeFault_of_idle hi]
    exact inv_ended _ _ _ hb s
  · rw [takeFault_of_run hi]
    exact inv_ended _ _ _ good_reset s

theorem inv_endRun (s : State) : Inv (endRun s) := by
  rw [endRun_eq_ended]
  exact inv_ended _ _ _ good_reset s

theorem inv_resetEngine (s : State) : Inv (resetEngine s) where
  cursor := good_reset.1
  fits := good_reset.2
  version := version_reset
  eciId := eciInRange_of_none rfl
  dropped _ := ⟨rfl, rfl⟩

/-- A run starts at the first bit of its data, under a legal version (R240). -/
theorem inv_startRun {a : Activity} (ha : a ≠ .idle) {ver : Nat} (h1 : 1 ≤ ver) (h40 : ver ≤ 40) {data : List Byte}
    (hfits : FitsField data) (s : State) : Inv (startRun a ver data s) where
  cursor := (good_loaded hfits).1
  fits := hfits
  version := ⟨h1, h40⟩
  eciId := eciInRange_of_none rfl
  dropped h := absurd h ha

/-- A run that goes on has another cursor and other segment registers. -/
theorem Inv.goesOn {s : State} (h : Inv s) (hi : s.activity ≠ .idle) {b : BitBuffer} (hb : b.Good) {r : SegRegs}
    (hver : r.ver = s.seg.ver) (heci : EciInRange r) : Inv { s with bb := b, seg := r } where
  cursor := hb.1
  fits := hb.2
  version := by
    obtain ⟨h1, h40⟩ := h.version
    exact ⟨hver ▸ h1, hver ▸ h40⟩
  eciId := heci
  dropped h := absurd h hi

/-- What the host sends next is no register of the engine. -/
theorem Inv.withScript {s : State} (h : Inv s) (rest : List HostAction) : Inv { s with script := rest } where
  cursor := h.cursor
  fits := h.fits
  version := h.version
  eciId := h.eciId
  dropped := h.dropped

end Sys2Proof.Machine
end

section
/-! SUPPORT. How long AGG can be: the blocks hold as many bytes as the vector that was de-interleaved, correction
changes the length of none, and each gives AGG some of its bytes (spec/43_deinterleave.md R212,
spec/46_decode_pipeline.md R281). -/

namespace Sys2Proof.Machine

open Sys2Proof.Config

/-- How many bytes the buffers of the blocks hold. -/
def bufferBytes (blk : List Block) : Nat := (blk.map fun b => b.buf.length).sum

/-- A write changes a byte of a buffer, and the length of none. -/
theorem writeNext_lengths (raw : List Byte) (at' : List Block × Nat) (target : Nat × Nat) :
    (writeNext raw at' target).1.map (fun b => b.buf.length) = at'.1.map fun b => b.buf.length := by
  refine List.ext_getElem (by simp [writeNext]) fun j hj hj' => ?_
  simp only [writeNext, List.getElem_map, List.getElem_modify]
  split <;> simp

theorem foldl_writeNext_lengths (raw : List Byte) (targets : List (Nat × Nat)) (at' : List Block × Nat) :
    (targets.foldl (writeNext raw) at').1.map (fun b => b.buf.length) = at'.1.map fun b => b.buf.length := by
  induction targets generalizing at' with
  | nil => rfl
  | cons target targets ih => exact (ih _).trans (writeNext_lengths raw at' target)

theorem fillBlocks_bufferBytes (ec : Nat) (raw : List Byte) (blk : List Block) :
    bufferBytes (fillBlocks ec raw blk).1 = bufferBytes blk :=
  congrArg List.sum (foldl_writeNext_lengths raw _ (blk, 0))

/-- The last test of R212: the blocks hold RAW and no more. -/
theorem deinterleave_bufferBytes {cfg : Params} {version ecl : Byte} {raw : List Byte} {w v : Work}
    (h : deinterleave cfg version ecl raw w = .ok v) : bufferBytes v.blk = raw.length := by
  obtain ⟨-, -, -, -, -, hsum, rfl⟩ := deinterleave_eq_ok.mp h
  exact (fillBlocks_bufferBytes _ raw _).trans hsum

/-- The stages leave RX alone. -/
theorem correctStages_rx {w v : Work} (h : correctStages w = .ok v) : v.rx = w.rx := by
  obtain ⟨w3, h, hpos⟩ := bind_ok h
  obtain ⟨w2, h, hforney⟩ := bind_ok h
  obtain ⟨w1, heuclid, hchien⟩ := bind_ok h
  obtain ⟨e, sigma, omega, -, rfl⟩ := stageEuclid_eq_ok.mp heuclid
  obtain ⟨xloc, -, rfl⟩ := stageChien_eq_ok.mp hchien
  obtain ⟨emag, -, rfl⟩ := stageForney_eq_ok.mp hforney
  obtain ⟨epos, -, rfl⟩ := stagePositions_eq_ok.mp hpos
  rfl

/-- A corrected vector is as long as the received one (R189). -/
theorem rsDecode_length {received out : List Byte} {twoS : Nat} {w v : Work}
    (h : rsDecode received twoS w = .ok (v, out)) : out.length = received.length := by
  obtain ⟨-, -, rfl⟩ | ⟨-, hv, rfl⟩ := rsDecode_eq_ok.mp h
  · rfl
  · rw [correctedOf, applyErrors_length, correctStages_rx hv]
    rfl

/-- Each block adds at most its bytes to AGG (R281). -/
theorem correctBlocks_agg_length {blk : List Block} {w v : Work} (h : correctBlocks blk w = .ok v) :
    v.agg.length ≤ w.agg.length + bufferBytes blk := by
  induction blk generalizing w with
  | nil => cases h; exact Nat.le_add_right _ _
  | cons b rest ih =>
    obtain ⟨u, buf, hdecode, hrest⟩ := correctBlocks_cons_eq_ok.mp h
    have hagg := rsDecode_agg hdecode
    have hlength := rsDecode_length hdecode
    have hadded : (buf.take b.ndata).length ≤ buf.length := List.length_take_le' _ _
    have hsum : bufferBytes (b :: rest) = b.buf.length + bufferBytes rest := rfl
    have hle := ih hrest
    rw [List.length_append, hagg] at hle
    omega

/-- AGG is no longer than the vector of DECODE. -/
theorem pipelineStages_agg_length {cfg : Params} {version ecl : Byte} {raw : List Byte} {w v : Work}
    (h : pipelineStages cfg version ecl raw w = .ok v) : v.agg.length ≤ raw.length := by
  obtain ⟨u, hdeint, hblocks⟩ := pipelineStages_eq_ok.mp h
  have hle := correctBlocks_agg_length hblocks
  rw [deinterleave_bufferBytes hdeint] at hle
  simpa using hle

/-- The stages answer for a legal version only (R98). -/
theorem pipelineStages_version {cfg : Params} {version ecl : Byte} {raw : List Byte} {w v : Work}
    (h : pipelineStages cfg version ecl raw w = .ok v) : 1 ≤ version.toNat ∧ version.toNat ≤ 40 := by
  obtain ⟨u, hdeint, -⟩ := pipelineStages_eq_ok.mp h
  obtain ⟨h1, h40, -⟩ := deinterleave_eq_ok.mp hdeint
  exact ⟨h1, h40⟩

end Sys2Proof.Machine
end

section
/-! CLAIMS. Family 44_bitbuffer: the invariant of every step (spec/44_bitbuffer.md R231). -/

namespace Sys2Proof.Machine

open Sys2Proof.Config

/-! ## The commands -/

theorem execSegDecode_keeps_inv {version : Byte} {data : List Byte} {s t : State} (hfits : FitsField data)
    (h : execSegDecode version data s = .next t) : Inv t := by
  obtain ⟨-, hbody | ⟨c, -, rfl⟩⟩ := command_next h
  · obtain ⟨ver, hver, rfl⟩ := except_map_eq_ok hbody
    obtain ⟨h1, h40, rfl⟩ := versionOperand_eq_ok.mp hver
    exact inv_startRun (by simp) h1 h40 hfits _
  · exact inv_takeFault c good_reset

/-- The stream of DECODE is AGG, which fits BBUF because the packet carried the vector it came from. -/
theorem execDecode_keeps_inv {version ecl : Byte} {raw : List Byte} {s t : State} (hfits : FitsField raw)
    (h : execDecode version ecl raw s = .next t) : Inv t := by
  obtain ⟨-, hbody | ⟨c, -, rfl⟩⟩ := command_next h
  · obtain ⟨w, hw, rfl⟩ := except_map_eq_ok hbody
    obtain ⟨h1, h40⟩ := pipelineStages_version hw
    exact inv_startRun (by simp) h1 h40 ((pipelineStages_agg_length hw).trans hfits) _
  · exact inv_takeFault c good_reset

/-- The commands that do not touch the bit buffer leave it; the four others leave a cursor that is allowed. -/
theorem exec_command_keeps_inv {i : Instr} {s t : State} (hs : Inv s) (hw : WellFormed i)
    (hcmd : isSegment i = false) (h : exec i s = .next t) : Inv t := by
  cases ht : touchesBitBuffer i with
  | false =>
    obtain ⟨fields, hfields⟩ := exec_answersFromBits hcmd ht
    obtain ⟨kind, cause, f, rfl, -⟩ := answer_next_ended ((hfields s).symm.trans h)
    exact inv_ended kind cause f hs.good s
  | true =>
    cases i
    case bbLoad bytes =>
      obtain rfl := execBbLoad_next h
      exact inv_ended _ _ _ (good_loaded hw) s
    case bbRead n =>
      obtain ⟨r, hread, rfl⟩ | ⟨c, rfl⟩ := execBbRead_next h
      · exact inv_ended _ _ _ (hs.good.advances (read_advances hread)) s
      · exact inv_ended _ _ _ hs.good s
    case segDecode version data => exact execSegDecode_keeps_inv hw h
    case decode version ecl raw => exact execDecode_keeps_inv hw h
    all_goals cases ht

/-! ## The segments -/

/-- A segment writes no ECI id that R249 refuses. -/
theorem segmentEffect_eciInRange {cfg : Params} {b : BitBuffer} {r : SegRegs} {i : Instr} {x : BitBuffer × SegRegs}
    (hr : EciInRange r) (h : segmentEffect cfg b r i = .ok x) : EciInRange x.2 := by
  have record {id : Nat} {e : EciRecord} (he : eciRecord cfg id = .ok e) : EciInRange { r with eci := some e } := by
    obtain ⟨hid, rfl⟩ := eciRecord_ok he
    rintro _ ⟨⟩
    exact hid
  unfold segmentEffect at h
  cases i
  case numeric | alphanumeric | structuredAppend | kanji => obtain ⟨a, -, rfl⟩ := except_map_eq_ok h; exact hr
  case byte => obtain ⟨a, -, rfl⟩ := except_map_eq_ok h; exact eciInRange_of_none rfl
  case fnc1First | fnc1Second => cases h; exact hr
  case eci =>
    obtain ⟨a, -, h⟩ := bind_ok h
    obtain ⟨e, he, rfl⟩ := except_map_eq_ok h
    exact record he
  case eci1 | eci2 | eci3 => obtain ⟨e, he, rfl⟩ := except_map_eq_ok h; exact record he
  all_goals cases h

theorem exec_segment_keeps_inv {i : Instr} {s t : State} (hs : Inv s) (hi : s.activity ≠ .idle)
    (hseg : isSegment i = true) (h : exec i s = .next t) : Inv t := by
  by_cases hterm : i = .terminator
  · subst hterm
    rw [exec_terminator hi] at h
    cases h
    exact inv_endRun s
  · rw [exec_eq_segmentBody hseg hterm] at h
    obtain ⟨-, hbody | ⟨c, -, rfl⟩⟩ := segment_next h
    · obtain ⟨x, hx, rfl⟩ := except_map_eq_ok hbody
      obtain ⟨hadv, hver⟩ := segmentEffect_advances hs.cursor hx
      exact hs.goesOn hi (hs.good.advances hadv) hver (segmentEffect_eciInRange hs.eciId hx)
    · exact inv_takeFault c hs.good

/-! ## The steps -/

theorem step_idle_keeps_inv {s t : State} (hs : Inv s) (hi : s.activity = .idle) (h : step s = .next t) : Inv t := by
  cases hscript : s.script with
  | nil =>
    rw [step_of_over (fetch_idle_nil hi hscript)] at h
    cases h
    exact hs
  | cons action rest =>
    cases action with
    | reset =>
      rw [step_of_over (fetch_idle_reset hi hscript)] at h
      cases h
      exact inv_resetEngine _
    | packet bytes =>
      cases hdecode : decodePacket bytes with
      | error r =>
        rw [step_of_rejected hi hscript hdecode] at h
        cases h
        exact inv_ended _ _ _ hs.good _
      | ok i =>
        rw [step_of_packet hi hscript hdecode] at h
        obtain ⟨hw, -⟩ := (eachPacketHasOneEncoding bytes i).mp hdecode
        exact exec_command_keeps_inv (hs.withScript rest) hw (isSegment_of_decodePacket hdecode) h

/-- The row that a step inside a run fetches is made of bits that are there. -/
theorem advances_of_decodeSegment {b : BitBuffer} {i : Instr} {width : Nat} (hb : b.Wf)
    (h : decodeSegment (b.window longestRow) = .ok (i, width)) : Advances b (b.skip width) := by
  obtain ⟨hwidth, -⟩ := encode_of_decodeSegment h
  rw [BitBuffer.window_length hb] at hwidth
  exact ⟨width, hwidth.trans (Nat.min_le_right _ _), rfl⟩

theorem step_run_keeps_inv {s t : State} (hs : Inv s) (hi : s.activity ≠ .idle) (h : step s = .next t) : Inv t := by
  cases hdecode : decodeSegment (s.bb.window longestRow) with
  | error r =>
    rw [step_of_streamEnd hi hdecode] at h
    cases h
    exact inv_endRun s
  | ok row =>
    rw [step_of_row hi hdecode] at h
    have hfetched : Inv { s with bb := s.bb.skip row.2 } :=
      hs.goesOn hi (hs.good.advances (advances_of_decodeSegment hs.cursor hdecode)) rfl hs.eciId
    exact exec_segment_keeps_inv hfetched hi (isSegment_of_decodeSegment hdecode) h

/-- Settles O10: between commands by what the host sends, inside a run by what stands at the cursor. -/
theorem everyStepKeepsInv : Obligations.EveryStepKeepsInv := by
  intro s t hs h
  by_cases hi : s.activity = .idle
  · exact step_idle_keeps_inv hs hi h
  · exact step_run_keeps_inv hs hi h

end Sys2Proof.Machine
end

section
/-! CLAIMS. Family 44_bitbuffer: the bits of a read as those of BBUF, and the BB.* commands (spec/44_bitbuffer.md R232
to R234). -/

namespace Sys2Proof.Machine

/-! ## The window in the bits of BBUF -/

/-- The bit address and the bytes are the whole bit buffer (spec/10_state.md R31). -/
theorem BitBuffer.eq_of_pos {b c : BitBuffer} (hb : b.Wf) (hc : c.Wf) (hbbuf : b.bbuf = c.bbuf)
    (hpos : b.pos = c.pos) : b = c := by
  obtain ⟨-, hb7, -⟩ := hb
  obtain ⟨-, hc7, -⟩ := hc
  unfold BitBuffer.pos at hpos
  cases b
  cases c
  rw [BitBuffer.mk.injEq]
  exact ⟨hbbuf, by dsimp only at *; omega, by dsimp only at *; omega⟩

/-- A cursor stands where reading its bit address in bits from the start of its bytes leaves off. -/
theorem skip_pos_loaded {b : BitBuffer} (hb : b.Wf) :
    b.pos ≤ BitBuffer.avail ⟨b.bbuf, 0, 0⟩ ∧ BitBuffer.skip b.pos ⟨b.bbuf, 0, 0⟩ = b := by
  have hloaded := remains_loaded b.bbuf
  have havail := hloaded.avail
  rw [byteBits_length, ← BitBuffer.avail_eq hb] at havail
  have hle : b.pos ≤ BitBuffer.avail ⟨b.bbuf, 0, 0⟩ := by omega
  obtain ⟨hwf, hpos, -⟩ := BitBuffer.take_cursor 0 hloaded.wf hle
  exact ⟨hle, BitBuffer.eq_of_pos hwf hb (BitBuffer.skip_bbuf _ _) (hpos.trans (Nat.zero_add _))⟩

/-- The bits that are left are those of BBUF from the bit address on. -/
theorem window_avail {b : BitBuffer} (hb : b.Wf) : b.window b.avail = (byteBits b.bbuf).drop b.pos := by
  have hloaded := remains_loaded b.bbuf
  obtain ⟨hle, hskip⟩ := skip_pos_loaded hb
  have hall : BitBuffer.window (b.pos + b.avail) ⟨b.bbuf, 0, 0⟩ = byteBits b.bbuf := by
    rw [Nat.add_comm, BitBuffer.avail_eq hb, ← byteBits_length]
    exact hloaded.stream
  rw [BitBuffer.window_add hloaded.wf hle, hskip] at hall
  rw [← hall, List.drop_left']
  rw [BitBuffer.window_length hloaded.wf, Nat.min_eq_left hle]

/-- The next n bits are the n bits of BBUF at the bit address (R234). -/
theorem window_eq_take_drop {b : BitBuffer} (hb : b.Wf) {n : Nat} (hn : n ≤ b.avail) :
    b.window n = ((byteBits b.bbuf).drop b.pos).take n := by
  have hsplit := BitBuffer.window_add (n := b.avail - n) hb hn
  rw [Nat.add_sub_cancel' hn, window_avail hb] at hsplit
  rw [hsplit, List.take_left']
  rw [BitBuffer.window_length hb, Nat.min_eq_left hn]

/-! ## The faults of a read, in their order (R234) -/

theorem read_of_neg {n : Int} (h : n < 0) (b : BitBuffer) : b.read n = .error .bbNeg := if_pos h

theorem read_of_bad_width {n : Int} (h : n = 0 ∨ 32 < n) (b : BitBuffer) : b.read n = .error .bbWidth := by
  unfold BitBuffer.read
  rw [if_neg (by omega), if_pos h]

/-- A signed byte from 1 to 32 is its own number. -/
theorem toNat_of_width {n : Byte} (h1 : 1 ≤ n.toInt) (h32 : n.toInt ≤ 32) : 1 ≤ n.toNat ∧ n.toNat ≤ 32 := by
  have hn := n.isLt
  rw [BitVec.toInt_eq_toNat_cond] at h1 h32
  by_cases hsign : 2 * n.toNat < 2 ^ 8
  · rw [if_pos hsign] at h1 h32
    omega
  · rw [if_neg hsign] at h1 h32
    omega

/-! ## The commands -/

section
variable {s : State} (hi : s.activity = .idle)
include hi

theorem exec_bbLoad (bytes : List Byte) : exec (.bbLoad bytes) s = .next (ended 0x00 0x00 [] ⟨bytes, 0, 0⟩ s) :=
  execBbLoad_of_idle hi bytes

theorem exec_bbAvail : exec .bbAvail s = .next (ended 0x00 0x00 (u32Field s.bb.avail) s.bb s) := answer_ok_ended hi

theorem exec_bbRead_error {n : Byte} {c : Cause} (h : s.bb.read n.toInt = .error c) :
    exec (.bbRead n) s = .next (ended (causeKind c) (causeCode c) [] s.bb s) := by
  show execBbRead n s = _
  refine command_error_ended hi ?_
  rw [s8Operand, h]
  rfl

theorem exec_bbRead_ok {n : Byte} {v : Nat} {b : BitBuffer} (h : s.bb.read n.toInt = .ok (v, b)) :
    exec (.bbRead n) s = .next (ended 0x00 0x00 (u32Field v) b s) := by
  show execBbRead n s = _
  refine command_ok hi ?_
  rw [s8Operand, h]
  rfl

end

/-- Settles O50: each test of R234 by its lemma, and a read that passes them by the bits of the window. -/
theorem bitBufferCommands : Obligations.BitBufferCommands := by
  refine ⟨fun bytes s hi => ⟨rfl, exec_bbLoad hi bytes⟩, fun s hi => ⟨rfl, exec_bbAvail hi⟩,
    fun n s hi => ⟨rfl, ?_, ?_, ?_⟩⟩
  · intro hneg
    exact exec_bbRead_error hi (read_of_neg hneg s.bb)
  · intro hwidth
    exact exec_bbRead_error hi (read_of_bad_width hwidth s.bb)
  · intro hlow hhigh hb
    obtain ⟨h1, h32⟩ := toNat_of_width hlow hhigh
    have hn : n.toInt = n.toNat := s8Operand_of_le h32
    refine ⟨fun hshort => ?_, fun havail => ⟨s.bb.skip n.toNat, BitBuffer.skip_bbuf _ _, BitBuffer.skip_wf hb havail,
      (BitBuffer.take_cursor 0 hb havail).2.1, ?_⟩⟩
    · have hread : s.bb.read n.toInt = .error .bbUnderrun := by
        rw [hn]
        exact read_of_avail_lt h1 h32 hshort
      exact exec_bbRead_error hi hread
    · have hread := BitBuffer.read_ok hb h1 h32 havail
      rw [← hn, window_eq_take_drop hb havail] at hread
      exact exec_bbRead_ok hi hread

end Sys2Proof.Machine
end

section
/-! SUPPORT. The readers of the segments on a stream that ends too soon (spec/44_bitbuffer.md R236,
spec/70_reset_and_hazards.md R359): what is whole of the stream is read, and the first bits that are missing are an
underrun. -/

namespace Sys2Proof.Machine

open Sys2Proof.Config

/-- On any stream that begins with `bits` and ends fewer than `size` bits behind them the reader underruns. -/
def Underruns {α : Type} (f : BitBuffer → Except Cause (α × BitBuffer)) (bits : List Bool) (size : Nat) : Prop :=
  ∀ b : BitBuffer, b.Wf → StreamAt b bits → b.avail < bits.length + size → f b = .error .bbUnderrun

theorem read_underruns {n : Nat} (h1 : 1 ≤ n) (h32 : n ≤ 32) : Underruns (BitBuffer.read n) [] n := by
  intro b _ _ h
  refine read_of_avail_lt h1 h32 ?_
  simpa using h

theorem readBelow_underruns {n : Nat} (h1 : 1 ≤ n) (h32 : n ≤ 32) (bound : Nat) (cause : Cause) :
    Underruns (readBelow n bound cause) [] n := by
  intro b hb hs h
  rw [readBelow, read_underruns h1 h32 b hb hs h]

namespace Underruns

variable {α β : Type} {f : BitBuffer → Except Cause (α × BitBuffer)} {bits more : List Bool} {a : α} {size : Nat}

/-- The stream ends in the first of two readers. -/
theorem first (hf : Underruns f bits size) (g : α × BitBuffer → Except Cause (β × BitBuffer)) :
    Underruns (fun b => f b >>= g) bits size := by
  intro b hb hs h
  show (f b >>= g) = _
  rw [hf b hb hs h]
  rfl

/-- The stream holds what the first of two readers reads, and ends in the second. -/
theorem second {g : α → BitBuffer → Except Cause (β × BitBuffer)} (hf : Reads f bits a)
    (hg : Underruns (g a) more size) : Underruns (fun b => f b >>= fun x => g x.1 x.2) (bits ++ more) size := by
  intro b hb hs h
  have hall := StreamAt.avail hb hs
  obtain ⟨hbits, hmore, hwf⟩ := StreamAt.split hb hs
  rw [List.length_append] at h hall
  have havail := BitBuffer.skip_avail (n := bits.length) hb (by omega)
  show (f b >>= fun x => g x.1 x.2) = _
  rw [hf b hb hbits]
  exact hg (b.skip bits.length) hwf hmore (by omega)

/-- The stream ends in a read of n bits or, whatever was read, within `size` bits behind it. -/
theorem within {n : Nat} {g : Nat → BitBuffer → Except Cause (β × BitBuffer)} (h1 : 1 ≤ n) (h32 : n ≤ 32)
    (hg : ∀ v, Underruns (g v) [] size) :
    Underruns (fun b => b.read n >>= fun x => g x.1 x.2) [] (n + size) := by
  intro b hb hs h
  rw [List.length_nil, Nat.zero_add] at h
  by_cases hn : n ≤ b.avail
  · have havail := BitBuffer.skip_avail hb hn
    show (b.read n >>= fun x => g x.1 x.2) = _
    rw [BitBuffer.read_ok hb h1 h32 hn]
    exact hg _ (b.skip n) (BitBuffer.skip_wf hb hn) rfl (by rw [List.length_nil]; omega)
  · exact (read_underruns h1 h32).first _ b hb hs (by rw [List.length_nil]; omega)

end Underruns

/-- Bits from which a reader takes nothing leave the cursor where it is. -/
theorem Reads.append_nothing {α β : Type} {f : BitBuffer → Except Cause (α × BitBuffer)} {bits more : List Bool}
    {a : α} {c d : β} (hf : Reads f bits a) (hg : Reads (fun b => .ok (d, b)) more c) : Reads f (bits ++ more) a := by
  intro b hb hs
  obtain ⟨hfirst, hlast, hwf⟩ := StreamAt.split hb hs
  have hnothing := hg _ hwf hlast
  have hstay : b.skip bits.length = (b.skip bits.length).skip more.length :=
    (Prod.mk.inj (Except.ok.inj hnothing)).2
  rw [hf b hb hfirst, List.length_append, BitBuffer.skip_add, ← hstay]

/-! ## Digits (R103, R243) -/

/-- Whole groups of three are read whole. -/
theorem readTriples_reads {ds : List Nat} (h : ∀ d ∈ ds, d < 10) (h3 : ds.length % 3 = 0) :
    ∃ s, Reads (readTriples (ds.length / 3)) (digitGroups ds) s := by
  obtain ⟨bits, more, s, t, hbits, -, hs, ht⟩ := digitGroups_reads ds h
  rw [h3] at ht
  exact ⟨s, hbits ▸ hs.append_nothing ht⟩

/-- More groups than the stream has. -/
theorem readTriples_underruns {ds : List Nat} (h : ∀ d ∈ ds, d < 10) (h3 : ds.length % 3 = 0) {n : Nat}
    (hn : ds.length / 3 < n) : Underruns (readTriples n) (digitGroups ds) 10 := by
  induction ds using digitGroups.induct generalizing n with
  | case1 x y z rest ih =>
    obtain ⟨m, rfl⟩ := Nat.exists_eq_succ_of_ne_zero (Nat.ne_zero_of_lt hn)
    have hx : x < 10 := h x (by simp)
    have hy : y < 10 := h y (by simp)
    have hz : z < 10 := h z (by simp)
    simp only [List.length_cons] at h3 hn
    have hgroup : Reads (readBelow 10 1000 .numValue) (bitsOfNat 10 (100 * x + 10 * y + z)) (100 * x + 10 * y + z) :=
      readBelow_reads (by decide) (by decide) (by omega) (by omega)
    have hrest := ih (fun d hd => h d (by simp [hd])) (by omega) (n := m) (by omega)
    exact Underruns.second (g := fun v b => readTriples m b >>= fun x =>
      .ok ([digit (v / 100), digit (v / 10 % 10), digit (v % 10)] ++ x.1, x.2)) hgroup (hrest.first _)
  | case2 x y => simp at h3
  | case3 x => simp at h3
  | case4 =>
    obtain ⟨m, rfl⟩ := Nat.exists_eq_succ_of_ne_zero (Nat.ne_zero_of_lt hn)
    exact (readBelow_underruns (by decide) (by decide) 1000 .numValue).first _

/-- The group that comes after k digits, k a multiple of three, of `count` has `size` bits. -/
def DigitGroup (k count size : Nat) : Prop :=
  k + 3 ≤ count ∧ size = 10 ∨ k + 2 = count ∧ size = 7 ∨ k + 1 = count ∧ size = 4

/-- The groups of a count underrun in the one that is cut. -/
theorem digits_underrun {ds : List Nat} (h : ∀ d ∈ ds, d < 10) (h3 : ds.length % 3 = 0) {count size : Nat}
    (hgroup : DigitGroup ds.length count size) :
    Underruns (fun b => readTriples (count / 3) b >>= fun x =>
      readDigitTail (count % 3) x.2 >>= fun y => .ok (x.1 ++ y.1, y.2)) (digitGroups ds) size := by
  obtain ⟨s, hs⟩ := readTriples_reads h h3
  rw [← List.append_nil (digitGroups ds)]
  obtain ⟨hcount, rfl⟩ | ⟨hcount, rfl⟩ | ⟨hcount, rfl⟩ := hgroup
  · rw [List.append_nil]
    exact (readTriples_underruns h h3 (by omega)).first _
  · rw [show count / 3 = ds.length / 3 by omega, show count % 3 = 2 by omega]
    have htail : Underruns (readDigitTail 2) [] 7 :=
      (readBelow_underruns (by decide) (by decide) 100 .numValue).first _
    exact Underruns.second (g := fun s b => readDigitTail 2 b >>= fun y => .ok (s ++ y.1, y.2)) hs (htail.first _)
  · rw [show count / 3 = ds.length / 3 by omega, show count % 3 = 1 by omega]
    have htail : Underruns (readDigitTail 1) [] 4 :=
      (readBelow_underruns (by decide) (by decide) 10 .numValue).first _
    exact Underruns.second (g := fun s b => readDigitTail 1 b >>= fun y => .ok (s ++ y.1, y.2)) hs (htail.first _)

theorem readNumeric_underruns_in_count (ver : Nat) : Underruns (readNumeric ver) [] (numericWidth ver) := by
  obtain ⟨h1, h32⟩ := numericWidth_range ver
  exact (read_underruns h1 h32).first _

theorem readNumeric_underruns {ver : Nat} {ds : List Nat} (h : ∀ d ∈ ds, d < 10) (h3 : ds.length % 3 = 0)
    {count size : Nat} (hgroup : DigitGroup ds.length count size) (hcount : count < 2 ^ numericWidth ver) :
    Underruns (readNumeric ver) (bitsOfNat (numericWidth ver) count ++ digitGroups ds) size := by
  obtain ⟨h1, h32⟩ := numericWidth_range ver
  exact Underruns.second (g := fun count b => readTriples (count / 3) b >>= fun x =>
    readDigitTail (count % 3) x.2 >>= fun y => .ok (x.1 ++ y.1, y.2)) (read_reads h1 h32 hcount)
    (digits_underrun h h3 hgroup)

/-! ## Characters (R104, R244) -/

/-- Whole pairs are read whole. -/
theorem readPairs_reads {cs : List Nat} (h : ∀ i ∈ cs, i < 45) (h2 : cs.length % 2 = 0) :
    ∃ s, Reads (readPairs (cs.length / 2)) (charGroups cs) s := by
  obtain ⟨bits, more, s, t, hbits, -, hs, ht⟩ := charGroups_reads cs h
  rw [h2] at ht
  exact ⟨s, hbits ▸ hs.append_nothing ht⟩

/-- More pairs than the stream has. -/
theorem readPairs_underruns {cs : List Nat} (h : ∀ i ∈ cs, i < 45) (h2 : cs.length % 2 = 0) {n : Nat}
    (hn : cs.length / 2 < n) : Underruns (readPairs n) (charGroups cs) 11 := by
  induction cs using charGroups.induct generalizing n with
  | case1 x y rest ih =>
    obtain ⟨m, rfl⟩ := Nat.exists_eq_succ_of_ne_zero (Nat.ne_zero_of_lt hn)
    have hx : x < 45 := h x (by simp)
    have hy : y < 45 := h y (by simp)
    simp only [List.length_cons] at h2 hn
    have hgroup : Reads (readBelow 11 2025 .alnumValue) (bitsOfNat 11 (45 * x + y)) (45 * x + y) :=
      readBelow_reads (by decide) (by decide) (by omega) (by omega)
    have hrest := ih (fun i hi => h i (by simp [hi])) (by omega) (n := m) (by omega)
    exact Underruns.second (g := fun v b => readPairs m b >>= fun x =>
      .ok ([alnumChar (v / 45), alnumChar (v % 45)] ++ x.1, x.2)) hgroup (hrest.first _)
  | case2 x => simp at h2
  | case3 =>
    obtain ⟨m, rfl⟩ := Nat.exists_eq_succ_of_ne_zero (Nat.ne_zero_of_lt hn)
    exact (readBelow_underruns (by decide) (by decide) 2025 .alnumValue).first _

/-- The group that comes after k characters, k even, of `count` has `size` bits. -/
def CharGroup (k count size : Nat) : Prop := k + 2 ≤ count ∧ size = 11 ∨ k + 1 = count ∧ size = 6

/-- The groups of a count underrun in the one that is cut. -/
theorem chars_underrun {cs : List Nat} (h : ∀ i ∈ cs, i < 45) (h2 : cs.length % 2 = 0) {count size : Nat}
    (hgroup : CharGroup cs.length count size) :
    Underruns (fun b => readPairs (count / 2) b >>= fun x =>
      readCharTail (count % 2) x.2 >>= fun y => .ok (x.1 ++ y.1, y.2)) (charGroups cs) size := by
  obtain ⟨s, hs⟩ := readPairs_reads h h2
  obtain ⟨hcount, rfl⟩ | ⟨hcount, rfl⟩ := hgroup
  · exact (readPairs_underruns h h2 (by omega)).first _
  · rw [← List.append_nil (charGroups cs), show count / 2 = cs.length / 2 by omega, show count % 2 = 1 by omega]
    have htail : Underruns (readCharTail 1) [] 6 :=
      (readBelow_underruns (by decide) (by decide) 45 .alnumValue).first _
    exact Underruns.second (g := fun s b => readCharTail 1 b >>= fun y => .ok (s ++ y.1, y.2)) hs (htail.first _)

theorem readAlphanumeric_underruns_in_count (ver : Nat) :
    Underruns (readAlphanumeric ver) [] (alphanumericWidth ver) := by
  obtain ⟨h1, h32⟩ := alphanumericWidth_range ver
  exact (read_underruns h1 h32).first _

theorem readAlphanumeric_underruns {ver : Nat} {cs : List Nat} (h : ∀ i ∈ cs, i < 45) (h2 : cs.length % 2 = 0)
    {count size : Nat} (hgroup : CharGroup cs.length count size) (hcount : count < 2 ^ alphanumericWidth ver) :
    Underruns (readAlphanumeric ver) (bitsOfNat (alphanumericWidth ver) count ++ charGroups cs) size := by
  obtain ⟨h1, h32⟩ := alphanumericWidth_range ver
  exact Underruns.second (g := fun count b => readPairs (count / 2) b >>= fun x =>
    readCharTail (count % 2) x.2 >>= fun y => .ok (x.1 ++ y.1, y.2)) (read_reads h1 h32 hcount)
    (chars_underrun h h2 hgroup)

/-! ## Bytes and units (R105, R106, R247, R250): no value of theirs faults -/

/-- Fewer bits than the bytes need, wherever they end. -/
theorem readBytes_underruns (n : Nat) : Underruns (readBytes n) [] (8 * n) := by
  induction n with
  | zero => intro b _ _ h; simp at h
  | succ n ih =>
    rw [Nat.mul_succ, Nat.add_comm (_ * n)]
    exact Underruns.within (n := 8) (g := fun v b => readBytes n b >>= fun x => .ok (BitVec.ofNat 8 v :: x.1, x.2))
      (by decide) (by decide) fun v => ih.first _

theorem readByteSegment_underruns_in_count (ver : Nat) : Underruns (readByteSegment ver) [] (byteWidth ver) := by
  obtain ⟨h1, h32⟩ := byteWidth_range ver
  exact (read_underruns h1 h32).first _

theorem readByteSegment_underruns {ver count : Nat} (hcount : count < 2 ^ byteWidth ver) :
    Underruns (readByteSegment ver) (bitsOfNat (byteWidth ver) count) (8 * count) := by
  obtain ⟨h1, h32⟩ := byteWidth_range ver
  rw [← List.append_nil (bitsOfNat _ _)]
  exact Underruns.second (g := readBytes) (read_reads h1 h32 hcount) (readBytes_underruns count)

/-- Fewer bits than the units need, wherever they end. -/
theorem readUnits_underruns (cfg : Params) (n : Nat) : Underruns (readUnits cfg n) [] (13 * n) := by
  induction n with
  | zero => intro b _ _ h; simp at h
  | succ n ih =>
    rw [Nat.mul_succ, Nat.add_comm (_ * n)]
    exact Underruns.within (n := 13) (g := fun u b => readUnits cfg n b >>= fun x =>
      .ok ([(kanjiMap cfg u).1, (kanjiMap cfg u).2] ++ x.1, x.2)) (by decide) (by decide) fun v => ih.first _

theorem readKanji_underruns_in_count (cfg : Params) (ver : Nat) :
    Underruns (readKanji cfg ver) [] (kanjiWidth ver) := by
  obtain ⟨h1, h32⟩ := kanjiWidth_range ver
  exact (read_underruns h1 h32).first _

theorem readKanji_underruns (cfg : Params) {ver count : Nat} (hcount : count < 2 ^ kanjiWidth ver) :
    Underruns (readKanji cfg ver) (bitsOfNat (kanjiWidth ver) count) (13 * count) := by
  obtain ⟨h1, h32⟩ := kanjiWidth_range ver
  rw [← List.append_nil (bitsOfNat _ _)]
  exact Underruns.second (g := readUnits cfg) (read_reads h1 h32 hcount) (readUnits_underruns cfg count)

/-! ## The designator (R107, R249) -/

theorem twoByteForm_masks : ∀ low < 2 ^ 6, (2 * 2 ^ 6 + low) &&& 0x80 ≠ 0x00 ∧ (2 * 2 ^ 6 + low) &&& 0xC0 = 0x80 := by
  decide

theorem threeByteForm_masks : ∀ low < 2 ^ 5, (6 * 2 ^ 5 + low) &&& 0x80 ≠ 0x00 ∧
    (6 * 2 ^ 5 + low) &&& 0xC0 ≠ 0x80 ∧ (6 * 2 ^ 5 + low) &&& 0xE0 = 0xC0 := by
  decide

/-- With a first byte there, the designator is read by what that byte spells. -/
theorem read_firstByte {b : BitBuffer} (hb : b.Wf) (h8 : 8 ≤ b.avail) :
    b.read 8 = .ok (natOfBits ((b.window 24).take 8), b.skip 8) := by
  have hwindow := BitBuffer.window_add (m := 8) (n := 16) hb h8
  have htake : (b.window 24).take 8 = b.window 8 := by
    rw [hwindow, List.take_left']
    rw [BitBuffer.window_length hb, Nat.min_eq_left h8]
  rw [htake]
  exact BitBuffer.read_ok (n := 8) hb (by decide) (by decide) h8

/-- A designator underruns in its first byte, or in the bytes that its first byte asks for. -/
theorem readDesignator_of_cut {b : BitBuffer} (hb : b.Wf) (h : CutDesignator (b.window 24)) :
    readDesignator b = .error .bbUnderrun := by
  have hlength := BitBuffer.window_length (n := 24) hb
  by_cases h8 : b.avail < 8
  · exact (read_underruns (n := 8) (by decide) (by decide)).first _ b hb rfl (by simpa using h8)
  have hfirst := read_firstByte hb (by omega)
  have havail := BitBuffer.skip_avail (n := 8) hb (by omega)
  have hwf := BitBuffer.skip_wf (n := 8) hb (by omega)
  obtain h | ⟨h16, more, hmore⟩ | ⟨h24, more, hmore⟩ := h
  · omega
  · have hk : 6 ≤ more.length := by rw [hmore] at hlength; simp at hlength; omega
    obtain ⟨low, hlow, hvalue⟩ := designator_firstByte (pre := [true, false]) (k := 6) (v := 2) more rfl rfl hk
    obtain ⟨hnotOne, htwo⟩ := twoByteForm_masks low hlow
    rw [hmore, show true :: false :: more = [true, false] ++ more from rfl, hvalue] at hfirst
    have hrest : (b.skip 8).read 8 = .error .bbUnderrun :=
      read_of_avail_lt (n := 8) (by decide) (by decide) (by omega)
    unfold readDesignator
    rw [hfirst]
    show (if _ then _ else _) = _
    rw [if_neg hnotOne, if_pos htwo, hrest]
    rfl
  · have hk : 5 ≤ more.length := by rw [hmore] at hlength; simp at hlength; omega
    obtain ⟨low, hlow, hvalue⟩ := designator_firstByte (pre := [true, true, false]) (k := 5) (v := 6) more rfl rfl hk
    obtain ⟨hnotOne, hnotTwo, hthree⟩ := threeByteForm_masks low hlow
    rw [hmore, show true :: true :: false :: more = [true, true, false] ++ more from rfl, hvalue] at hfirst
    have hrest : (b.skip 8).read 16 = .error .bbUnderrun :=
      read_of_avail_lt (n := 16) (by decide) (by decide) (by omega)
    unfold readDesignator
    rw [hfirst]
    show (if _ then _ else _) = _
    rw [if_neg hnotOne, if_neg hnotTwo, if_pos hthree, hrest]
    rfl

end Sys2Proof.Machine
end

section
/-! CLAIMS. Family 44_bitbuffer: segments that the stream cuts short (spec/44_bitbuffer.md R236). -/

namespace Sys2Proof.Machine

/-- A segment whose effect is an underrun ends the run with it (R312). -/
theorem exec_of_underrun {i : Instr} {s : State} (hi : s.activity ≠ .idle) (hseg : isSegment i = true)
    (hterm : i ≠ .terminator) (h : segmentEffect s.cfg s.bb s.seg i = .error .bbUnderrun) :
    exec i s = .next (ended 0x02 0x20 [] ⟨[], 0, 0⟩ s) := by
  rw [exec_eq_segmentBody hseg hterm]
  refine segment_error_ended (c := .bbUnderrun) hi ?_
  rw [segmentBody, h]
  rfl

/-- The effect of a segment that only reads is an underrun where its reader underruns. -/
theorem exec_of_underruns {α : Type} {f : BitBuffer → Except Cause (α × BitBuffer)} {bits : List Bool} {size : Nat}
    (hf : Underruns f bits size) {i : Instr} {s : State} {k : α × BitBuffer → BitBuffer × SegRegs}
    (heffect : segmentEffect s.cfg s.bb s.seg i = (f s.bb).map k) (hi : s.activity ≠ .idle)
    (hseg : isSegment i = true) (hterm : i ≠ .terminator) (hb : s.bb.Wf) (hs : StreamAt s.bb bits)
    (h : s.bb.avail < bits.length + size) : exec i s = .next (ended 0x02 0x20 [] ⟨[], 0, 0⟩ s) := by
  refine exec_of_underrun hi hseg hterm ?_
  rw [heffect, hf s.bb hb hs h]
  rfl

/-- Settles O58: each segment by where its reader underruns, in the count or in a group. -/
theorem truncatedSegmentsUnderrun : Obligations.TruncatedSegmentsUnderrun := by
  rintro s hi hb _ rfl
  refine ⟨fun h => ?_, fun count size ds hcount hds h3 hgroup hs h => ?_, fun h => ?_,
    fun count size cs hcount hcs h2 hgroup hs h => ?_, fun h => ?_, fun count hcount hs h => ?_, fun h => ?_,
    fun count hcount hs h => ?_, fun hcut => ?_⟩
  · exact exec_of_underruns (readNumeric_underruns_in_count _) rfl hi rfl (by simp) hb rfl (by simpa using h)
  · exact exec_of_underruns (readNumeric_underruns hds h3 hgroup hcount) rfl hi rfl (by simp) hb hs (by simpa using h)
  · exact exec_of_underruns (readAlphanumeric_underruns_in_count _) rfl hi rfl (by simp) hb rfl (by simpa using h)
  · exact exec_of_underruns (readAlphanumeric_underruns hcs h2 hgroup hcount) rfl hi rfl (by simp) hb hs
      (by simpa using h)
  · exact exec_of_underruns (readByteSegment_underruns_in_count _) rfl hi rfl (by simp) hb rfl (by simpa using h)
  · exact exec_of_underruns (readByteSegment_underruns hcount) rfl hi rfl (by simp) hb hs (by simpa using h)
  · exact exec_of_underruns (readKanji_underruns_in_count _ _) rfl hi rfl (by simp) hb rfl (by simpa using h)
  · exact exec_of_underruns (readKanji_underruns _ hcount) rfl hi rfl (by simp) hb hs (by simpa using h)
  · refine exec_of_underrun hi rfl (by simp) ?_
    show (readDesignator s.bb).bind _ = _
    rw [readDesignator_of_cut hb hcut]
    rfl

end Sys2Proof.Machine
end

section
/-! CLAIMS. Family 45_segment_decoder: every run ends (spec/45_segment_decoder.md R241, spec/70_reset_and_hazards.md
R361). A step that does not end the run takes at least the four bits of an indicator. -/

namespace Sys2Proof.Machine

/-- Every row of the segment table begins with an indicator. -/
theorem rowLength_ge {i : Instr} {bits : List Bool} (he : encode i = .bits bits) : 4 ≤ bits.length := by
  cases i <;> cases he <;> simp

theorem width_of_decodeSegment {bits : List Bool} {i : Instr} {width : Nat}
    (h : decodeSegment bits = .ok (i, width)) : 4 ≤ width := by
  obtain ⟨hwidth, he⟩ := encode_of_decodeSegment h
  have hrow := rowLength_ge he
  rwa [List.length_take_of_le hwidth] at hrow

/-- After a step that does not end the run, at least four bits fewer are left. -/
theorem step_run_avail {s t : State} (hi : s.activity ≠ .idle) (hb : s.bb.Wf) (h : step s = .next t)
    (ht : t.activity ≠ .idle) : t.bb.Wf ∧ t.bb.avail + 4 ≤ s.bb.avail := by
  cases hdecode : decodeSegment (s.bb.window longestRow) with
  | error r =>
    rw [step_of_streamEnd hi hdecode] at h
    cases h
    exact absurd (endRun_activity s) ht
  | ok row =>
    obtain ⟨i, width⟩ := row
    have hfour := width_of_decodeSegment hdecode
    obtain ⟨hwidth, -⟩ := encode_of_decodeSegment hdecode
    rw [BitBuffer.window_length hb] at hwidth
    have hle : width ≤ s.bb.avail := hwidth.trans (Nat.min_le_right _ _)
    have hleft := BitBuffer.skip_avail hb hle
    rw [step_of_row hi hdecode] at h
    obtain ⟨x, heffect, rfl⟩ := exec_segment_goesOn (isSegment_of_decodeSegment hdecode) h ht
    have hwf := BitBuffer.skip_wf hb hle
    obtain ⟨hadvances, -⟩ := segmentEffect_advances hwf heffect
    obtain ⟨hxwf, -, -, hxavail⟩ := hadvances.cursor hwf
    exact ⟨hxwf, by dsimp only at hxavail ⊢; omega⟩

/-- Settles O12, by induction on the bits that are left: a step answers, or leaves at least four bits fewer. -/
theorem everyRunEnds : Obligations.EveryRunEnds := by
  intro s hb hi
  induction hleft : s.bb.avail using Nat.strong_induction_on generalizing s with
  | h left ih =>
    obtain ⟨t, hstep, hanswers | ⟨b, r, rfl⟩⟩ := step_run_cases hi
    · obtain ⟨-, -, hidle, r, hresponse⟩ := hanswers.frame
      exact ⟨1, t, r, by omega, run_succ (M := core) hstep 0, hidle, hresponse⟩
    · obtain ⟨hwf, hfewer⟩ := step_run_avail hi hb hstep hi
      obtain ⟨k, u, r, hk, hrun, hidle, hresponse⟩ := ih _ (by omega) _ hwf hi rfl
      exact ⟨k + 1, u, r, by omega, (run_succ (M := core) hstep k).trans hrun, hidle, hresponse⟩

end Sys2Proof.Machine
end

section
/-! CLAIMS. Family 45_segment_decoder: the lifetimes of the segment registers (spec/10_state.md R34, R36;
spec/45_segment_decoder.md R258). -/

namespace Sys2Proof.Machine

/-- What a segment that goes on can write to the segment registers, by the instruction. -/
inductive Writes (r : SegRegs) : Instr → SegRegs → Prop
  | characters {i : Instr} (more : List Byte) (h : i = .numeric ∨ i = .alphanumeric ∨ i = .kanji) :
      Writes r i { r with text := r.text ++ more }
  | bytes (more : List Byte) : Writes r .byte { r with text := r.text ++ more, eci := none }
  | append (a b : Byte) : Writes r .structuredAppend { r with saseq := some a, sapar := some b }
  | record {i : Instr} (e : EciRecord) (h : isEci i = true) : Writes r i { r with eci := some e }
  | nothing {i : Instr} (h : i = .fnc1First ∨ i = .fnc1Second) : Writes r i r

theorem segmentEffect_writes {cfg : Config.Params} {b : BitBuffer} {r : SegRegs} {i : Instr} {x : BitBuffer × SegRegs}
    (h : segmentEffect cfg b r i = .ok x) : Writes r i x.2 := by
  unfold segmentEffect at h
  cases i
  case numeric | alphanumeric | kanji => obtain ⟨a, -, rfl⟩ := except_map_eq_ok h; exact .characters _ (by simp)
  case byte => obtain ⟨a, -, rfl⟩ := except_map_eq_ok h; exact .bytes _
  case structuredAppend => obtain ⟨a, -, rfl⟩ := except_map_eq_ok h; exact .append _ _
  case fnc1First | fnc1Second => cases h; exact .nothing (by simp)
  case eci =>
    obtain ⟨a, -, h⟩ := bind_ok h
    obtain ⟨e, -, rfl⟩ := except_map_eq_ok h
    exact .record e rfl
  case eci1 | eci2 | eci3 => obtain ⟨e, -, rfl⟩ := except_map_eq_ok h; exact .record e rfl
  all_goals cases h

namespace Writes

variable {r r' : SegRegs} {i : Instr}

/-- TEXT (R34). -/
theorem text (h : Writes r i r') : ∃ more, r'.text = r.text ++ more ∧ (writesText i = false → more = []) := by
  cases h with
  | characters more h => exact ⟨more, rfl, by obtain rfl | rfl | rfl := h <;> simp [writesText]⟩
  | bytes more => exact ⟨more, rfl, by simp [writesText]⟩
  | append a b => exact ⟨[], by simp, fun _ => rfl⟩
  | record e h => exact ⟨[], by simp, fun _ => rfl⟩
  | nothing h => exact ⟨[], by simp, fun _ => rfl⟩

/-- The ECI register (R258). -/
theorem eci (h : Writes r i r') : (i = .byte → r'.eci = none) ∧ (isEci i = true → ∃ e, r'.eci = some e) ∧
    (i ≠ .byte → isEci i = false → r'.eci = r.eci) := by
  cases h with
  | characters more h => obtain rfl | rfl | rfl := h <;> simp [isEci]
  | bytes more => simp [isEci]
  | append a b => simp [isEci]
  | record e h =>
    exact ⟨fun hi => absurd h (by simp [hi, isEci]), fun _ => ⟨e, rfl⟩, fun _ hn => absurd h (by simp [hn])⟩
  | nothing h => obtain rfl | rfl := h <;> simp [isEci]

/-- SASEQ and SAPAR (R36). -/
theorem append_pair (h : Writes r i r') :
    (i ≠ .structuredAppend → r'.saseq = r.saseq ∧ r'.sapar = r.sapar) ∧
    (i = .structuredAppend → r'.saseq ≠ none ∧ r'.sapar ≠ none) := by
  cases h with
  | characters more h => obtain rfl | rfl | rfl := h <;> simp
  | bytes more => simp
  | append a b => simp
  | record e h => exact ⟨fun _ => ⟨rfl, rfl⟩, fun hi => absurd h (by simp [hi, isEci])⟩
  | nothing h => obtain rfl | rfl := h <;> simp

end Writes

/-- Settles O18: a segment that goes on is its effect, and that effect is one of the writes. -/
theorem segmentRegisterLifetimes : Obligations.SegmentRegisterLifetimes := by
  intro i s t hseg h ht
  obtain ⟨x, heffect, rfl⟩ := exec_segment_goesOn hseg h ht
  have hwrites := segmentEffect_writes heffect
  obtain ⟨hbyte, heci, hother⟩ := hwrites.eci
  obtain ⟨hkept, hset⟩ := hwrites.append_pair
  exact ⟨hwrites.text, hbyte, heci, hother, hkept, hset⟩

end Sys2Proof.Machine
end

section
/-! CLAIMS. Family 45_segment_decoder: how a run starts and ends (spec/45_segment_decoder.md R240 to R242, R256). -/

namespace Sys2Proof.Machine

/-- SEG.DECODE of an illegal version faults, the bit buffer reset (R98, R312; log entry 20). -/
theorem execSegDecode_of_badVersion {s : State} {ver : Byte} (data : List Byte) (hi : s.activity = .idle)
    (hver : ver.toNat < 1 ∨ 40 < ver.toNat) :
    exec (.segDecode ver data) s = .next (ended 0x01 0x08 [] ⟨[], 0, 0⟩ s) := by
  have hoperand : versionOperand ver = .error .badVersion := if_pos hver
  show execSegDecode ver data s = _
  refine (command_error_ended (s := clearBitBuffer s) (c := .badVersion) hi ?_).trans
    (congrArg Host.Outcome.next (ended_congr rfl rfl rfl))
  rw [hoperand]
  rfl

/-- Both ends of a run answer the fields of its command: TERMINATOR, and fewer than four bits left (R241, R242). -/
theorem run_ends {s : State} (hi : s.activity ≠ .idle) {fields : List Byte} (hfields : runFields s = fields) :
    exec .terminator s = .next (ended 0x00 0x00 fields ⟨[], 0, 0⟩ s) ∧
      (s.bb.avail < 4 → s.bb.Wf → step s = .next (ended 0x00 0x00 fields ⟨[], 0, 0⟩ s)) := by
  rw [← hfields, ← endRun_eq_ended]
  refine ⟨exec_terminator hi, fun havail hb => step_of_streamEnd hi ((decodeSegment_eq_error _).mpr ?_)⟩
  rw [BitBuffer.window_length hb]
  omega

theorem runFields_of_segRun {s : State} (h : s.activity = .segRun) :
    runFields s = sentinelField s.seg.saseq ++ sentinelField s.seg.sapar ++ vec32Field s.seg.text := by
  rw [runFields, h]

theorem runFields_of_decodeRun {s : State} {ecl : Byte} (h : s.activity = .decodeRun ecl) :
    runFields s = [BitVec.ofNat 8 s.seg.ver, ecl] ++ sentinelField s.seg.saseq ++ sentinelField s.seg.sapar ++
      vecField s.work.agg ++ vec32Field s.seg.text := by
  rw [runFields, h]

/-- Settles O52: the start by the test of the version, the ends by the fields of the command that runs. -/
theorem segmentRunsStartAndEnd : Obligations.SegmentRunsStartAndEnd := by
  refine ⟨fun ver data s hi => ⟨rfl, execSegDecode_of_badVersion data hi, execSegDecode_of_version data hi⟩, ?_, ?_⟩
  · rintro s ha _ rfl
    exact run_ends (by simp [ha]) (runFields_of_segRun ha)
  · rintro s ecl ha _ rfl
    exact run_ends (by simp [ha]) (runFields_of_decodeRun ha)

end Sys2Proof.Machine
end

section
/-! SUPPORT. A segment by its effect: what it answers inside a run, and where its bits end. -/

namespace Sys2Proof.Machine

/-- A segment whose effect goes on leaves the cursor and the segment registers where the effect puts them. -/
theorem exec_of_effect {i : Instr} {s : State} {x : BitBuffer × SegRegs} (hi : s.activity ≠ .idle)
    (hseg : isSegment i = true) (hterm : i ≠ .terminator) (h : segmentEffect s.cfg s.bb s.seg i = .ok x) :
    exec i s = .next { s with bb := x.1, seg := x.2 } := by
  rw [exec_eq_segmentBody hseg hterm]
  refine segment_ok hi ?_
  rw [segmentBody, h]
  rfl

/-- A segment whose effect faults ends the run with that fault (R312). -/
theorem exec_of_effect_error {i : Instr} {s : State} {c : Cause} (hi : s.activity ≠ .idle)
    (hseg : isSegment i = true) (hterm : i ≠ .terminator) (h : segmentEffect s.cfg s.bb s.seg i = .error c) :
    exec i s = .next (ended (causeKind c) (causeCode c) [] ⟨[], 0, 0⟩ s) := by
  rw [exec_eq_segmentBody hseg hterm]
  refine segment_error_ended hi ?_
  rw [segmentBody, h]
  rfl

/-- A segment that an encoder wrote, from behind its row. -/
theorem exec_of_valid {s : State} {g : Seg} (hi : s.activity ≠ .idle) (hb : s.bb.Wf) (hg : g.Valid s.seg.ver)
    (h : StreamAt s.bb (g.body s.seg.ver)) :
    exec g.instr s = .next { s with
      bb := s.bb.skip (g.body s.seg.ver).length
      seg := g.effect s.cfg s.seg } := by
  obtain ⟨hseg, hterm, -⟩ := segInstr_facts g
  exact exec_of_effect hi hseg hterm (segmentEffect_of_valid hg hb h)

theorem unitBits_length (units : List Nat) : (unitBits units).length = 13 * units.length := by
  induction units with
  | nil => rfl
  | cons u rest ih =>
    rw [show unitBits (u :: rest) = bitsOfNat 13 u ++ unitBits rest from rfl, List.length_append, ih,
      bitsOfNat_length, List.length_cons]
    omega

/-! ## Readers that fault -/

/-- On any stream that begins with `bits` the reader faults with `c`. -/
def Raises {α : Type} (f : BitBuffer → Except Cause (α × BitBuffer)) (bits : List Bool) (c : Cause) : Prop :=
  ∀ b : BitBuffer, b.Wf → StreamAt b bits → f b = .error c

/-- A group whose value is too large. -/
theorem readBelow_raises {n bound v : Nat} {cause : Cause} (h1 : 1 ≤ n) (h32 : n ≤ 32) (hv : v < 2 ^ n)
    (hbound : bound ≤ v) : Raises (readBelow n bound cause) (bitsOfNat n v) cause := by
  intro b hb h
  rw [readBelow, read_reads h1 h32 hv b hb h]
  exact if_pos hbound

namespace Raises

variable {α β : Type} {f : BitBuffer → Except Cause (α × BitBuffer)} {bits more : List Bool} {a : α} {c : Cause}

/-- The first of two readers faults. -/
theorem first (hf : Raises f bits c) (g : α × BitBuffer → Except Cause (β × BitBuffer)) :
    Raises (fun b => f b >>= g) bits c := by
  intro b hb h
  show (f b >>= g) = _
  rw [hf b hb h]
  rfl

/-- The second of two readers faults, behind what the first reads. -/
theorem second {g : α → BitBuffer → Except Cause (β × BitBuffer)} (hf : Reads f bits a) (hg : Raises (g a) more c) :
    Raises (fun b => f b >>= fun x => g x.1 x.2) (bits ++ more) c := by
  intro b hb h
  obtain ⟨hbits, hmore, hwf⟩ := StreamAt.split hb h
  show (f b >>= fun x => g x.1 x.2) = _
  rw [hf b hb hbits]
  exact hg (b.skip bits.length) hwf hmore

end Raises

/-! ## Readers of characters, one after another -/

/-- Two readers of characters: what the second reads comes after what the first reads. -/
def readAppended (f g : BitBuffer → Except Cause (List Byte × BitBuffer)) (b : BitBuffer) :
    Except Cause (List Byte × BitBuffer) :=
  f b >>= fun x => g x.2 >>= fun y => .ok (x.1 ++ y.1, y.2)

section
variable {f g : BitBuffer → Except Cause (List Byte × BitBuffer)} {bits more : List Bool} {t : List Byte} {c : Cause}

theorem readAppended_nothing : readAppended (fun b => .ok ([], b)) g = g := by
  funext b
  show (g b >>= fun y => .ok (y.1, y.2)) = g b
  cases g b <;> rfl

theorem readAppended_assoc (h : BitBuffer → Except Cause (List Byte × BitBuffer)) :
    readAppended (readAppended f g) h = readAppended f (readAppended g h) := by
  funext b
  simp only [readAppended, bind_assoc]
  show (f b >>= fun x => g x.2 >>= fun y => h y.2 >>= fun z => .ok (x.1 ++ y.1 ++ z.1, z.2)) = _
  simp only [List.append_assoc]
  rfl

theorem Raises.appended (hf : Raises f bits c) : Raises (readAppended f g) bits c := hf.first _

theorem Reads.appended_raises (hf : Reads f bits t) (hg : Raises g more c) :
    Raises (readAppended f g) (bits ++ more) c :=
  Raises.second (g := fun t b => g b >>= fun y => .ok (t ++ y.1, y.2)) hf (hg.first _)

end

/-- `f n` reads n groups, one after the other. -/
structure RepeatsGroup (group : BitBuffer → Except Cause (List Byte × BitBuffer))
    (f : Nat → BitBuffer → Except Cause (List Byte × BitBuffer)) : Prop where
  zero : f 0 = fun b => .ok ([], b)
  succ : ∀ n, f (n + 1) = readAppended group (f n)

namespace RepeatsGroup

variable {group : BitBuffer → Except Cause (List Byte × BitBuffer)}
  {f : Nat → BitBuffer → Except Cause (List Byte × BitBuffer)}

theorem add (h : RepeatsGroup group f) (m n : Nat) : f (m + n) = readAppended (f m) (f n) := by
  induction m with
  | zero => rw [Nat.zero_add, h.zero, readAppended_nothing]
  | succ m ih => rw [Nat.succ_add, h.succ, h.succ, ih, readAppended_assoc]

/-- A group that faults, behind the groups that are read and before the rest. -/
theorem raises (h : RepeatsGroup group f) {k n : Nat} {bits more : List Bool} {t : List Byte} {c : Cause}
    (hread : Reads (f k) bits t) (hgroup : Raises group more c) (hk : k < n) : Raises (f n) (bits ++ more) c := by
  obtain ⟨m, rfl⟩ := Nat.exists_eq_add_of_lt hk
  rw [Nat.add_assoc, h.add, h.succ]
  exact hread.appended_raises hgroup.appended

end RepeatsGroup

end Sys2Proof.Machine
end

section
/-! CLAIMS. Family 45_segment_decoder: NUMERIC and ALPHANUMERIC (spec/30_encoding.md R103, R104;
spec/45_segment_decoder.md R243, R244). The groups before the one that faults are read, and it is the first that
does. -/

namespace Sys2Proof.Machine

/-! ## Digits -/

/-- One group of three digits (R243). -/
def readTriple (b : BitBuffer) : Except Cause (List Byte × BitBuffer) :=
  readBelow 10 1000 .numValue b >>= fun x => .ok ([digit (x.1 / 100), digit (x.1 / 10 % 10), digit (x.1 % 10)], x.2)

theorem readTriples_repeats : RepeatsGroup readTriple readTriples where
  zero := rfl
  succ n := by
    funext b
    rw [readTriples, readAppended, readTriple]
    cases readBelow 10 1000 .numValue b <;> rfl

/-- The group after some whole groups has a value with no decimal reading. -/
theorem digits_raise {ds : List Nat} (h : ∀ d ∈ ds, d < 10) (h3 : ds.length % 3 = 0) {count size bound v : Nat}
    (hgroup : ds.length + 3 ≤ count ∧ size = 10 ∧ bound = 1000 ∨ ds.length + 2 = count ∧ size = 7 ∧ bound = 100 ∨
      ds.length + 1 = count ∧ size = 4 ∧ bound = 10) (hbound : bound ≤ v) (hv : v < 2 ^ size) :
    Raises (readAppended (readTriples (count / 3)) (readDigitTail (count % 3))) (digitGroups ds ++ bitsOfNat size v)
      .numValue := by
  obtain ⟨t, ht⟩ := readTriples_reads h h3
  obtain ⟨hcount, rfl, rfl⟩ | ⟨hcount, rfl, rfl⟩ | ⟨hcount, rfl, rfl⟩ := hgroup
  · have hlarge : Raises readTriple (bitsOfNat 10 v) .numValue :=
      (readBelow_raises (by decide) (by decide) hv hbound).first _
    exact (readTriples_repeats.raises ht hlarge (by omega)).appended
  · rw [show count / 3 = ds.length / 3 by omega, show count % 3 = 2 by omega]
    have hlarge : Raises (readDigitTail 2) (bitsOfNat 7 v) .numValue :=
      (readBelow_raises (by decide) (by decide) hv hbound).first _
    exact ht.appended_raises hlarge
  · rw [show count / 3 = ds.length / 3 by omega, show count % 3 = 1 by omega]
    have hlarge : Raises (readDigitTail 1) (bitsOfNat 4 v) .numValue :=
      (readBelow_raises (by decide) (by decide) hv hbound).first _
    exact ht.appended_raises hlarge

/-- A NUMERIC segment reads its count, and then faults where its groups do. -/
theorem readNumeric_raises {ver count : Nat} {bits : List Bool} {c : Cause} (hcount : count < 2 ^ numericWidth ver)
    (h : Raises (readAppended (readTriples (count / 3)) (readDigitTail (count % 3))) bits c) :
    Raises (readNumeric ver) (bitsOfNat (numericWidth ver) count ++ bits) c := by
  obtain ⟨h1, h32⟩ := numericWidth_range ver
  exact Raises.second (g := fun count => readAppended (readTriples (count / 3)) (readDigitTail (count % 3)))
    (read_reads h1 h32 hcount) h

/-- Settles O53: the digits as an encoder writes them, or the first group that has no decimal reading. -/
theorem numericAppendsDigits : Obligations.NumericAppendsDigits := by
  intro s ds hi hb hds hlen
  constructor
  · intro h
    have hexec := exec_of_valid (g := .num ds) hi hb ⟨hds, hlen⟩ h
    simp only [Seg.body, List.length_append, bitsOfNat_length] at hexec
    exact hexec
  · intro count size bound v hcount h3 hgroup hbound hv h
    refine exec_of_effect_error (i := .numeric) (c := .numValue) hi rfl (by simp) ?_
    rw [List.append_assoc] at h
    show (readNumeric s.seg.ver s.bb).map _ = _
    rw [readNumeric_raises hcount (digits_raise hds h3 hgroup hbound hv) s.bb hb h]
    rfl

/-! ## Characters -/

/-- One pair of characters (R244). -/
def readPair (b : BitBuffer) : Except Cause (List Byte × BitBuffer) :=
  readBelow 11 2025 .alnumValue b >>= fun x => .ok ([alnumChar (x.1 / 45), alnumChar (x.1 % 45)], x.2)

theorem readPairs_repeats : RepeatsGroup readPair readPairs where
  zero := rfl
  succ n := by
    funext b
    rw [readPairs, readAppended, readPair]
    cases readBelow 11 2025 .alnumValue b <;> rfl

/-- The group after some whole pairs has a value that no characters correspond to. -/
theorem chars_raise {cs : List Nat} (h : ∀ i ∈ cs, i < 45) (h2 : cs.length % 2 = 0) {count size bound v : Nat}
    (hgroup : cs.length + 2 ≤ count ∧ size = 11 ∧ bound = 2025 ∨ cs.length + 1 = count ∧ size = 6 ∧ bound = 45)
    (hbound : bound ≤ v) (hv : v < 2 ^ size) :
    Raises (readAppended (readPairs (count / 2)) (readCharTail (count % 2))) (charGroups cs ++ bitsOfNat size v)
      .alnumValue := by
  obtain ⟨t, ht⟩ := readPairs_reads h h2
  obtain ⟨hcount, rfl, rfl⟩ | ⟨hcount, rfl, rfl⟩ := hgroup
  · have hlarge : Raises readPair (bitsOfNat 11 v) .alnumValue :=
      (readBelow_raises (by decide) (by decide) hv hbound).first _
    exact (readPairs_repeats.raises ht hlarge (by omega)).appended
  · rw [show count / 2 = cs.length / 2 by omega, show count % 2 = 1 by omega]
    have hlarge : Raises (readCharTail 1) (bitsOfNat 6 v) .alnumValue :=
      (readBelow_raises (by decide) (by decide) hv hbound).first _
    exact ht.appended_raises hlarge

/-- An ALPHANUMERIC segment reads its count, and then faults where its groups do. -/
theorem readAlphanumeric_raises {ver count : Nat} {bits : List Bool} {c : Cause}
    (hcount : count < 2 ^ alphanumericWidth ver)
    (h : Raises (readAppended (readPairs (count / 2)) (readCharTail (count % 2))) bits c) :
    Raises (readAlphanumeric ver) (bitsOfNat (alphanumericWidth ver) count ++ bits) c := by
  obtain ⟨h1, h32⟩ := alphanumericWidth_range ver
  exact Raises.second (g := fun count => readAppended (readPairs (count / 2)) (readCharTail (count % 2)))
    (read_reads h1 h32 hcount) h

/-- Settles O54: the characters as an encoder writes them, or the first group that no characters correspond to. -/
theorem alphanumericAppendsCharacters : Obligations.AlphanumericAppendsCharacters := by
  intro s cs hi hb hcs hlen
  constructor
  · intro h
    have hexec := exec_of_valid (g := .alnum cs) hi hb ⟨hcs, hlen⟩ h
    simp only [Seg.body, List.length_append, bitsOfNat_length] at hexec
    exact hexec
  · intro count size bound v hcount h2 hgroup hbound hv h
    refine exec_of_effect_error (i := .alphanumeric) (c := .alnumValue) hi rfl (by simp) ?_
    rw [List.append_assoc] at h
    show (readAlphanumeric s.seg.ver s.bb).map _ = _
    rw [readAlphanumeric_raises hcount (chars_raise hcs h2 hgroup hbound hv) s.bb hb h]
    rfl

end Sys2Proof.Machine
end

section
/-! CLAIMS. Family 45_segment_decoder: BYTE and KANJI (spec/45_segment_decoder.md R247, R250, R259). -/

namespace Sys2Proof.Machine

/-- A record with a name gives the charset (R259). -/
theorem byteCharset_of_name (id : Nat) (name : Config.Charset) (bytes : List Byte) :
    byteCharset (some ⟨id, some name⟩) bytes = name := rfl

/-- With no record, or one without a name, DETECT gives the charset (R247). -/
theorem byteCharset_of_unnamed {eci : Option EciRecord} (h : ∀ id name, eci ≠ some ⟨id, some name⟩)
    (bytes : List Byte) : byteCharset eci bytes = detectedName (Config.detect bytes) := by
  match eci, h with
  | none, _ | some ⟨_, none⟩, _ => rfl
  | some ⟨id, some name⟩, h => exact absurd rfl (h id name)

/-- Settles O55: both segments as an encoder writes them; any bytes and any units are. -/
theorem byteAndKanjiAppendText : Obligations.ByteAndKanjiAppendText := by
  intro s hi hb
  constructor
  · intro bytes name hlen hname h
    have hcharset : byteCharset s.seg.eci bytes = name := by
      obtain ⟨id, heci⟩ | ⟨hunnamed, rfl⟩ := hname
      · rw [heci, byteCharset_of_name]
      · exact byteCharset_of_unnamed hunnamed bytes
    have hexec := exec_of_valid (g := .bytes bytes) hi hb hlen h
    simp only [Seg.body, List.length_append, bitsOfNat_length, byteBits_length, Seg.effect, hcharset] at hexec
    exact hexec
  · rintro us _ hus hlen rfl h
    have hexec := exec_of_valid (g := .kanji us) hi hb ⟨hus, hlen⟩ h
    simp only [Seg.body, List.length_append, bitsOfNat_length, unitBits_length] at hexec
    exact hexec

end Sys2Proof.Machine
end

section
/-! CLAIMS. Family 45_segment_decoder: STRUCTURED_APPEND, the FNC1 segments and the illegal indicators
(spec/45_segment_decoder.md R246, R248, R251, R252). -/

namespace Sys2Proof.Machine

/-- Fewer than 16 bits are no sequence and parity (R246). -/
theorem readAppendPair_of_short {b : BitBuffer} (h : b.avail < 16) : readAppendPair b = .error .saTruncated :=
  if_pos h

/-- Settles O57: STRUCTURED_APPEND and the FNC1 segments by their effects, the seven indicators by their fault. -/
theorem appendInertAndIllegalSegments : Obligations.AppendInertAndIllegalSegments := by
  intro s hi
  refine ⟨fun a b hb h => ?_, fun hshort => ?_, ?_, ?_, ?_⟩
  · have hexec := exec_of_valid (g := .append a b) hi hb trivial h
    simp only [Seg.body, List.length_append, bitsOfNat_length] at hexec
    exact hexec
  · refine exec_of_effect_error (i := .structuredAppend) (c := .saTruncated) hi rfl (by simp) ?_
    show (readAppendPair s.bb).map _ = _
    rw [readAppendPair_of_short hshort]
    rfl
  · exact exec_of_effect (i := .fnc1First) (x := (s.bb, s.seg)) hi rfl (by simp) rfl
  · exact exec_of_effect (i := .fnc1Second) (x := (s.bb, s.seg)) hi rfl (by simp) rfl
  · intro i hillegal
    have hfault : isSegment i = true ∧ i ≠ .terminator ∧ segmentEffect s.cfg s.bb s.seg i = .error .badMode := by
      simp only [List.mem_cons, List.not_mem_nil, or_false] at hillegal
      obtain rfl | rfl | rfl | rfl | rfl | rfl | rfl := hillegal <;> exact ⟨rfl, by simp, rfl⟩
    obtain ⟨hseg, hterm, heffect⟩ := hfault
    exact exec_of_effect_error hi hseg hterm heffect

end Sys2Proof.Machine
end

section
/-! CLAIMS. Family 45_segment_decoder: the ECI segment in each form of its designator (spec/30_encoding.md R107,
spec/45_segment_decoder.md R249). The row ECI reads from the stream what the fetch of the other rows read (log entry
10). -/

namespace Sys2Proof.Machine

open Sys2Proof.Config

/-! ## The rows that carry an id -/

/-- The instruction is a row of ECI that carries `id`: all it does is write its record, the cursor where it is. -/
structure CarriesId (i : Instr) (id : Nat) : Prop where
  segment : isSegment i = true
  goesOn : i ≠ .terminator
  effect : ∀ cfg b r, segmentEffect cfg b r i = (eciRecord cfg id).map fun e => (b, { r with eci := some e })

theorem carriesId_eci1 (id : BitVec 7) : CarriesId (.eci1 id) id.toNat := ⟨rfl, by simp, fun _ _ _ => rfl⟩

theorem carriesId_eci2 (id : BitVec 14) : CarriesId (.eci2 id) id.toNat := ⟨rfl, by simp, fun _ _ _ => rfl⟩

theorem carriesId_eci3 (id : BitVec 21) : CarriesId (.eci3 id) id.toNat := ⟨rfl, by simp, fun _ _ _ => rfl⟩

namespace CarriesId

variable {i : Instr} {id : Nat} {s : State}

theorem exec_of_le (h : CarriesId i id) (hi : s.activity ≠ .idle) (hid : id ≤ 999999) :
    exec i s = .next { s with seg := { s.seg with eci := some ⟨id, eciName s.cfg id⟩ } } := by
  refine exec_of_effect (x := (s.bb, { s.seg with eci := some ⟨id, eciName s.cfg id⟩ })) hi h.segment h.goesOn ?_
  rw [h.effect, eciRecord_of_le hid]
  rfl

theorem exec_of_gt (h : CarriesId i id) (hi : s.activity ≠ .idle) (hid : 999999 < id) :
    exec i s = .next (ended 0x03 0x35 [] ⟨[], 0, 0⟩ s) := by
  have hrecord : eciRecord s.cfg id = .error .eciRange := if_pos hid
  refine exec_of_effect_error (c := .eciRange) hi h.segment h.goesOn ?_
  rw [h.effect, hrecord]
  rfl

end CarriesId

/-! ## Reading a designator -/

/-- Two numbers in bits, one after the other, are one number. -/
theorem bitsOfNat_append {k n u v : Nat} (hu : u < 2 ^ k) (hv : v < 2 ^ n) :
    bitsOfNat k u ++ bitsOfNat n v = bitsOfNat (k + n) (u * 2 ^ n + v) := by
  have hbits := bitsOfNat_natOfBits (bitsOfNat k u ++ bitsOfNat n v)
  rw [natOfBits_append, natOfBits_bitsOfNat, natOfBits_bitsOfNat, List.length_append, bitsOfNat_length,
    bitsOfNat_length, Nat.mod_eq_of_lt hu, Nat.mod_eq_of_lt hv] at hbits
  exact hbits.symm

/-- A form and the number it carries, cut behind the first byte. -/
theorem designator_cut {p k n form id : Nat} (hform : form < 2 ^ p) (hid : id < 2 ^ (k + n)) :
    bitsOfNat p form ++ bitsOfNat (k + n) id =
      bitsOfNat (p + k) (form * 2 ^ k + id / 2 ^ n) ++ bitsOfNat n (id % 2 ^ n) := by
  have hhigh : id / 2 ^ n < 2 ^ k := Nat.div_lt_of_lt_mul (by rwa [Nat.mul_comm, ← Nat.pow_add])
  have hlow : id % 2 ^ n < 2 ^ n := Nat.mod_lt _ (Nat.two_pow_pos n)
  rw [← bitsOfNat_append hform hhigh, List.append_assoc, bitsOfNat_append hhigh hlow, Nat.div_add_mod']

/-- What is read behind the first byte `v` of a designator. -/
def designatorTail (v : Nat) (b : BitBuffer) : Except Cause (Nat × BitBuffer) :=
  if v &&& 0x80 = 0x00 then .ok (v, b)
  else if v &&& 0xC0 = 0x80 then b.read 8 >>= fun x => .ok ((v &&& 0x3F) <<< 8 ||| x.1, x.2)
  else if v &&& 0xE0 = 0xC0 then b.read 16 >>= fun x => .ok ((v &&& 0x1F) <<< 16 ||| x.1, x.2)
  else .error .badEciHeader

theorem readDesignator_eq (b : BitBuffer) : readDesignator b = b.read 8 >>= fun x => designatorTail x.1 x.2 := rfl

theorem oneByteForm_mask : ∀ v < 2 ^ 7, v &&& 0x80 = 0x00 := by decide

theorem illegalForm_masks : ∀ low < 2 ^ 5, (7 * 2 ^ 5 + low) &&& 0x80 ≠ 0x00 ∧ (7 * 2 ^ 5 + low) &&& 0xC0 ≠ 0x80 ∧
    (7 * 2 ^ 5 + low) &&& 0xE0 ≠ 0xC0 := by decide

theorem twoByteForm_number : ∀ high < 2 ^ 6, (2 * 2 ^ 6 + high) &&& 0x3F = high := by decide

theorem threeByteForm_number : ∀ high < 2 ^ 5, (6 * 2 ^ 5 + high) &&& 0x1F = high := by decide

/-- The two parts of an id, put together. -/
theorem shiftLeft_or_mod (id n : Nat) : (id / 2 ^ n) <<< n ||| id % 2 ^ n = id := by
  rw [← Nat.shiftLeft_add_eq_or_of_lt (Nat.mod_lt _ (Nat.two_pow_pos n)), Nat.shiftLeft_eq, Nat.div_add_mod']

theorem readDesignator_one (id : BitVec 7) :
    Reads readDesignator ([false] ++ bitsOfNat 7 id.toNat) id.toNat := by
  have htail : Reads (designatorTail id.toNat) [] id.toNat := by
    intro b _ _
    rw [designatorTail, if_pos (oneByteForm_mask _ id.isLt)]
    rfl
  have hbits : [false] ++ bitsOfNat 7 id.toNat = bitsOfNat 8 id.toNat ++ [] := by
    rw [List.append_nil, show [false] = bitsOfNat 1 0 from rfl, bitsOfNat_append (by decide) id.isLt, Nat.zero_mul,
      Nat.zero_add]
  rw [hbits]
  exact (read_reads (n := 8) (by decide) (by decide) (by omega)).bind htail

theorem readDesignator_two (id : BitVec 14) :
    Reads readDesignator ([true, false] ++ bitsOfNat 14 id.toNat) id.toNat := by
  have hhigh : id.toNat / 2 ^ 8 < 2 ^ 6 := by omega
  obtain ⟨hnotOne, htwo⟩ := twoByteForm_masks _ hhigh
  have htail : Reads (designatorTail (2 * 2 ^ 6 + id.toNat / 2 ^ 8)) (bitsOfNat 8 (id.toNat % 2 ^ 8)) id.toNat := by
    have hrest := (read_reads (n := 8) (v := id.toNat % 2 ^ 8) (by decide) (by decide) (by omega)).map
      fun w => (id.toNat / 2 ^ 8) <<< 8 ||| w
    rw [shiftLeft_or_mod] at hrest
    intro b hb h
    rw [designatorTail, if_neg hnotOne, if_pos htwo, twoByteForm_number _ hhigh]
    exact hrest b hb h
  rw [show [true, false] = bitsOfNat 2 2 from rfl, designator_cut (k := 6) (n := 8) (by decide) id.isLt]
  exact (read_reads (n := 8) (by decide) (by decide) (by omega)).bind htail

theorem readDesignator_three (id : BitVec 21) :
    Reads readDesignator ([true, true, false] ++ bitsOfNat 21 id.toNat) id.toNat := by
  have hhigh : id.toNat / 2 ^ 16 < 2 ^ 5 := by omega
  obtain ⟨hnotOne, hnotTwo, hthree⟩ := threeByteForm_masks _ hhigh
  have htail : Reads (designatorTail (6 * 2 ^ 5 + id.toNat / 2 ^ 16)) (bitsOfNat 16 (id.toNat % 2 ^ 16)) id.toNat := by
    have hrest := (read_reads (n := 16) (v := id.toNat % 2 ^ 16) (by decide) (by decide) (by omega)).map
      fun w => (id.toNat / 2 ^ 16) <<< 16 ||| w
    rw [shiftLeft_or_mod] at hrest
    intro b hb h
    rw [designatorTail, if_neg hnotOne, if_neg hnotTwo, if_pos hthree, threeByteForm_number _ hhigh]
    exact hrest b hb h
  rw [show [true, true, false] = bitsOfNat 3 6 from rfl, designator_cut (k := 5) (n := 16) (by decide) id.isLt]
  exact (read_reads (n := 8) (by decide) (by decide) (by omega)).bind htail

theorem readDesignator_bad (x : BitVec 5) :
    Raises readDesignator ([true, true, true] ++ bitsOfNat 5 x.toNat) .badEciHeader := by
  obtain ⟨hnotOne, hnotTwo, hnotThree⟩ := illegalForm_masks _ x.isLt
  have htail : Raises (designatorTail (7 * 2 ^ 5 + x.toNat)) [] .badEciHeader := by
    intro b _ _
    rw [designatorTail, if_neg hnotOne, if_neg hnotTwo, if_neg hnotThree]
  rw [show [true, true, true] = bitsOfNat 3 7 from rfl, bitsOfNat_append (by decide) x.isLt,
    ← List.append_nil (bitsOfNat _ _)]
  exact Raises.second (read_reads (n := 8) (by decide) (by decide) (by omega)) htail

/-! ## The row ECI -/

/-- The designator of a row is what stands behind the indicator. -/
theorem designator_of_row {head form number designator : List Bool} (hhead : head = bitsOfNat 4 0b0111 ++ form)
    (he : Words.bits (head ++ number) = .bits (bitsOfNat 4 0b0111 ++ designator)) : designator = form ++ number := by
  rw [hhead, List.append_assoc] at he
  exact (List.append_cancel_left (Words.bits.inj he)).symm

/-- Where the designator of an id stands, the row ECI has the effect of the row that carries the id. -/
theorem CarriesId.effect_eci {cfg : Params} {b : BitBuffer} {r : SegRegs} {i : Instr} {id : Nat}
    {designator : List Bool} (hi : CarriesId i id) (hread : Reads readDesignator designator id) (hb : b.Wf)
    (h : StreamAt b designator) :
    segmentEffect cfg b r .eci = segmentEffect cfg (b.skip designator.length) r i := by
  rw [hi.effect]
  show (readDesignator b).bind _ = _
  rw [hread b hb h]
  rfl

/-- Where the designator stands, the row ECI has the effect of the row of its form, behind the designator. -/
theorem segmentEffect_eci {cfg : Params} {b : BitBuffer} {r : SegRegs} {i : Instr} {designator : List Bool}
    (hb : b.Wf) (hisEci : isEci i = true) (hne : i ≠ .eci)
    (he : encode i = .bits (bitsOfNat 4 0b0111 ++ designator)) (h : StreamAt b designator) :
    segmentEffect cfg b r .eci = segmentEffect cfg (b.skip designator.length) r i := by
  cases i
  case eci => exact absurd rfl hne
  case eci1 id =>
    obtain rfl := designator_of_row (form := [false]) rfl he
    exact (carriesId_eci1 id).effect_eci (readDesignator_one id) hb h
  case eci2 id =>
    obtain rfl := designator_of_row (form := [true, false]) rfl he
    exact (carriesId_eci2 id).effect_eci (readDesignator_two id) hb h
  case eci3 id =>
    obtain rfl := designator_of_row (form := [true, true, false]) rfl he
    exact (carriesId_eci3 id).effect_eci (readDesignator_three id) hb h
  case eciBad x =>
    obtain rfl := designator_of_row (form := [true, true, true]) rfl he
    show (readDesignator b).bind _ = _
    rw [readDesignator_bad x b hb h]
    rfl
  all_goals cases hisEci

/-- A row of ECI is a segment that does not end the run by itself. -/
theorem isSegment_of_isEci {i : Instr} (h : isEci i = true) : isSegment i = true ∧ i ≠ .terminator := by
  cases i
  case eci | eci1 | eci2 | eci3 | eciBad => exact ⟨rfl, by simp⟩
  all_goals cases h

/-- Two segments of one effect, from two cursors, answer alike: a fault resets the bit buffer (R312). -/
theorem exec_of_same_effect {i j : Instr} {s : State} {b : BitBuffer} (hi : s.activity ≠ .idle)
    (hseg : isSegment i = true ∧ i ≠ .terminator) (hseg' : isSegment j = true ∧ j ≠ .terminator)
    (h : segmentEffect s.cfg s.bb s.seg j = segmentEffect s.cfg b s.seg i) :
    ∃ t, exec i { s with bb := b } = .next t ∧ exec j s = .next t := by
  obtain ⟨hi1, hi2⟩ := hseg
  obtain ⟨hj1, hj2⟩ := hseg'
  rcases heffect : segmentEffect s.cfg b s.seg i with c | x
  · refine ⟨_, ?_, exec_of_effect_error hi hj1 hj2 (h.trans heffect)⟩
    exact exec_of_effect_error (s := { s with bb := b }) hi hi1 hi2 heffect
  · refine ⟨_, ?_, exec_of_effect hi hj1 hj2 (h.trans heffect)⟩
    exact exec_of_effect (s := { s with bb := b }) hi hi1 hi2 heffect

/-- Settles O56: the rows that carry an id by their record, the illegal form by its fault, and the row ECI by the
effect of the row whose designator it reads. -/
theorem eciWritesTheRecord : Obligations.EciWritesTheRecord := by
  intro s hi
  refine ⟨fun id => ?_, fun id => ?_, fun id => ⟨?_, ?_⟩, fun x => ?_, ?_⟩
  · exact (carriesId_eci1 id).exec_of_le hi (by omega)
  · exact (carriesId_eci2 id).exec_of_le hi (by omega)
  · exact (carriesId_eci3 id).exec_of_le hi
  · exact (carriesId_eci3 id).exec_of_gt hi
  · exact exec_of_effect_error (i := .eciBad x) (c := .badEciHeader) hi rfl (by simp) rfl
  · intro i designator hb hisEci hne he h
    exact exec_of_same_effect hi (isSegment_of_isEci hisEci) (isSegment_of_isEci rfl)
      (segmentEffect_eci hb hisEci hne he h)

end Sys2Proof.Machine
end

section
/-! CLAIMS. Family 46_decode_pipeline: the stages of DECODE in order (spec/46_decode_pipeline.md R281, R283). -/

namespace Sys2Proof.Machine

/-- The data bytes of corrected blocks in block order, what AGG holds after the loop of R281. -/
def dataBytes (blk : List Block) (outs : List (List Byte)) : List Byte :=
  ((blk.zip outs).map fun p => p.2.take p.1.ndata).flatten

theorem dataBytes_cons (b : Block) (rest : List Block) (out : List Byte) (outs : List (List Byte)) :
    dataBytes (b :: rest) (out :: outs) = out.take b.ndata ++ dataBytes rest outs := rfl

/-! ## The correction loop -/

/-- A block is corrected the same whatever the registers hold, and AGG waits for its data bytes (R281). -/
theorem rsDecode_of_corrected {received out : List Byte} {twoS : Nat} (h : corrected received twoS = .ok out)
    (w : Work) : ∃ v, rsDecode received twoS w = .ok (v, out) ∧ v.agg = w.agg := by
  obtain ⟨⟨v, out'⟩, hdecode, rfl⟩ := except_map_eq_ok ((rsDecode_map_snd received twoS w).trans h)
  exact ⟨v, hdecode, rsDecode_agg hdecode⟩

theorem rsDecode_of_corrected_error {received : List Byte} {twoS : Nat} {c : Cause}
    (h : corrected received twoS = .error c) (w : Work) : rsDecode received twoS w = .error c := by
  have hsnd := (rsDecode_map_snd received twoS w).trans h
  cases hdecode : rsDecode received twoS w with
  | ok r =>
    rw [hdecode] at hsnd
    cases hsnd
  | error c' =>
    rw [hdecode] at hsnd
    cases hsnd
    rfl

/-- Blocks that all correct add their data bytes to AGG, in block order (R281). -/
theorem correctBlocks_of_corrected {blk : List Block} {outs : List (List Byte)}
    (h : List.Forall₂ (fun b out => corrected b.buf (b.buf.length - b.ndata) = .ok out) blk outs) (w : Work) :
    ∃ v, correctBlocks blk w = .ok v ∧ v.agg = w.agg ++ dataBytes blk outs := by
  induction h generalizing w with
  | nil => exact ⟨w, rfl, (List.append_nil _).symm⟩
  | cons hblock _ ih =>
    obtain ⟨u, hdecode, hagg⟩ := rsDecode_of_corrected hblock w
    obtain ⟨v, hrest, hv⟩ := ih _
    exact ⟨v, correctBlocks_cons_eq_ok.mpr ⟨u, _, hdecode, hrest⟩, by
      rw [hv, dataBytes_cons, hagg, List.append_assoc]⟩

/-- The first block that does not correct ends the loop with its fault (R283). -/
theorem correctBlocks_of_corrected_error {good : List Block} {b : Block} {c : Cause}
    (hgood : ∀ g ∈ good, ∃ out, corrected g.buf (g.buf.length - g.ndata) = .ok out)
    (hfault : corrected b.buf (b.buf.length - b.ndata) = .error c) (rest : List Block) (w : Work) :
    correctBlocks (good ++ b :: rest) w = .error c := by
  induction good generalizing w with
  | nil => exact correctBlocks_cons_error.mpr (.inl (rsDecode_of_corrected_error hfault w))
  | cons g good ih =>
    obtain ⟨out, hblock⟩ := hgood g List.mem_cons_self
    obtain ⟨u, hdecode, -⟩ := rsDecode_of_corrected hblock w
    exact correctBlocks_cons_error.mpr
      (.inr ⟨u, out, hdecode, ih (fun g' hg' => hgood g' (List.mem_cons_of_mem g hg')) _⟩)

/-! ## The command -/

section
variable {ver ecl : Byte} {raw : List Byte} {s : State} (hi : s.activity = .idle)
include hi

/-- A fault before the stream starts ends DECODE with the bit buffer reset (R281, R312). -/
theorem exec_decode_of_stages_error {c : Cause} (h : pipelineStages s.cfg ver ecl raw s.work = .error c) :
    exec (.decode ver ecl raw) s = .next (ended (causeKind c) (causeCode c) [] ⟨[], 0, 0⟩ s) := by
  show execDecode ver ecl raw s = _
  refine (command_error_ended (s := clearBitBuffer s) (c := c) hi ?_).trans
    (congrArg Host.Outcome.next (ended_congr rfl rfl rfl))
  dsimp only [clearBitBuffer_cfg, clearBitBuffer_work]
  rw [h]
  rfl

/-- With its blocks corrected DECODE starts the stream over AGG (R281). -/
theorem exec_decode_of_stages {w : Work} (h : pipelineStages s.cfg ver ecl raw s.work = .ok w) :
    exec (.decode ver ecl raw) s =
      .next (startRun (.decodeRun ecl) ver.toNat w.agg { clearBitBuffer s with work := w }) := by
  show execDecode ver ecl raw s = _
  refine command_ok hi ?_
  dsimp only [clearBitBuffer_cfg, clearBitBuffer_work]
  rw [h]
  rfl

end

/-- Settles O48: a fault of the stages ends the command, and their AGG is the data bytes of the blocks. -/
theorem decodeRunsThePipeline : Obligations.DecodeRunsThePipeline := by
  intro ver ecl raw s hi
  refine ⟨rfl, fun c hdeint => ?_, fun w hdeint => ⟨fun good b rest c hblk hgood hfault => ?_, fun outs hblocks => ?_⟩⟩
  · exact exec_decode_of_stages_error hi (pipelineStages_error.mpr (.inl hdeint))
  · refine exec_decode_of_stages_error hi (pipelineStages_error.mpr (.inr ⟨w, hdeint, ?_⟩))
    rw [hblk]
    exact correctBlocks_of_corrected_error hgood hfault rest _
  · obtain ⟨v, hv, hagg⟩ := correctBlocks_of_corrected hblocks { w with blk := [], agg := [] }
    exact ⟨_, exec_decode_of_stages hi (pipelineStages_eq_ok.mpr ⟨w, hdeint, hv⟩), rfl, hagg, rfl, rfl, rfl, rfl, rfl,
      rfl⟩

end Sys2Proof.Machine
end

section
/-! SUPPORT. The bytes as a field of characteristic 2 (spec/40_gf256.md R139), and a vector of coefficients as one of
Mathlib's polynomials over it, so that the theory of roots, divisibility and derivatives there speaks of the
polynomial unit of spec/41_gfpoly.md. -/

namespace Sys2Proof.Machine

open Polynomial

/-! ## The field -/

/-- A field element under a type of its own, because a byte has the arithmetic modulo 256 already. -/
structure FieldElement where
  byte : Byte

/-- `ginv`, with 0 for the element that has no inverse. -/
def inverseOrZero (a : Byte) : Byte :=
  match ginv a with
  | .ok r => r
  | .error _ => 0

theorem inverseOrZero_zero : inverseOrZero 0 = 0 := rfl

theorem gmul_inverseOrZero {a : Byte} (h : a ≠ 0) : gmul a (inverseOrZero a) = 1 := by
  obtain ⟨r, hr⟩ := exists_ginv h
  rw [inverseOrZero, hr]
  exact ginv_eq_ok_iff.mp hr

/-- The field laws of R139: XOR is the sum and `gmul` the product. -/
@[reducible] def fieldOfBytes : Field FieldElement :=
  @Field.ofMinimalAxioms FieldElement ⟨fun a b => ⟨a.byte ^^^ b.byte⟩⟩ ⟨fun a b => ⟨gmul a.byte b.byte⟩⟩ ⟨fun a => a⟩
    ⟨fun a => ⟨inverseOrZero a.byte⟩⟩ ⟨⟨0⟩⟩ ⟨⟨1⟩⟩
    (fun a b c => congrArg FieldElement.mk (BitVec.xor_assoc a.byte b.byte c.byte))
    (fun a => congrArg FieldElement.mk (zero_xor_byte a.byte))
    (fun a => congrArg FieldElement.mk (BitVec.xor_self (x := a.byte)))
    (fun a b c => congrArg FieldElement.mk (gmul_assoc a.byte b.byte c.byte))
    (fun a b => congrArg FieldElement.mk (gmul_comm a.byte b.byte))
    (fun a => congrArg FieldElement.mk (one_gmul a.byte))
    (fun _ h => congrArg FieldElement.mk (gmul_inverseOrZero fun hzero => h (congrArg FieldElement.mk hzero)))
    (congrArg FieldElement.mk inverseOrZero_zero)
    (fun a b c => congrArg FieldElement.mk (gmul_xor a.byte b.byte c.byte))
    ⟨⟨0⟩, ⟨1⟩, fun h => absurd (congrArg FieldElement.byte h) (by decide)⟩

/-- `φ` reads the bytes as elements of the field `F`, XOR as its sum and `gmul` as its product. -/
structure ReadsField {F : Type} [Field F] (φ : Byte → F) : Prop where
  zero : φ 0 = 0
  one : φ 1 = 1
  xor : ∀ a b, φ (a ^^^ b) = φ a + φ b
  gmul : ∀ a b, φ (gmul a b) = φ a * φ b

/-- There is such a field. -/
theorem exists_readsField : ∃ (F : Type) (_ : Field F) (φ : Byte → F), ReadsField φ :=
  ⟨FieldElement, fieldOfBytes, FieldElement.mk,
    @ReadsField.mk FieldElement fieldOfBytes FieldElement.mk rfl rfl (fun _ _ => rfl) fun _ _ => rfl⟩

section
variable {F : Type} [Field F] {φ : Byte → F} (hφ : ReadsField φ)
include hφ

namespace ReadsField

theorem charTwo : CharP F 2 := by
  refine CharTwo.of_one_ne_zero_of_two_eq_zero one_ne_zero ?_
  calc (2 : F) = φ 1 + φ 1 := by rw [hφ.one, one_add_one_eq_two]
    _ = φ 0 := (hφ.xor 1 1).symm
    _ = 0 := hφ.zero

theorem ne_zero {a : Byte} (h : a ≠ 0) : φ a ≠ 0 := by
  obtain ⟨r, hr⟩ := exists_ginv h
  refine left_ne_zero_of_mul_eq_one (b := φ r) ?_
  rw [← hφ.gmul, ginv_eq_ok_iff.mp hr, hφ.one]

theorem eq_zero_iff {a : Byte} : φ a = 0 ↔ a = 0 :=
  ⟨fun h => by_contra fun hne => hφ.ne_zero hne h, fun h => h ▸ hφ.zero⟩

theorem injective : Function.Injective φ := by
  have := hφ.charTwo
  intro a b h
  rw [← BitVec.xor_eq_zero_iff]
  refine hφ.eq_zero_iff.mp ?_
  rw [hφ.xor, h, CharTwo.add_self_eq_zero]

theorem xorSum (n : Nat) (v : Nat → Byte) : φ (xorSum n v) = ∑ i ∈ Finset.range n, φ (v i) := by
  induction n with
  | zero => exact hφ.zero
  | succ n ih => rw [xorSum_succ, hφ.xor, ih, Finset.sum_range_succ]

end ReadsField

end

/-! ## The polynomials -/

/-- The polynomial with the coefficients `p`, most significant first, read as elements of `F`. -/
noncomputable def toPolynomial {F : Type} [Field F] (φ : Byte → F) (p : List Byte) : F[X] :=
  ∑ k ∈ Finset.range p.length, C (φ (coef p k)) * X ^ k

section
variable {F : Type} [Field F] {φ : Byte → F} (hφ : ReadsField φ)
include hφ

theorem coeff_toPolynomial (p : List Byte) (k : Nat) : (toPolynomial φ p).coeff k = φ (coef p k) := by
  simp only [toPolynomial, finsetSum_coeff, coeff_C_mul_X_pow, Finset.sum_ite_eq, Finset.mem_range]
  split
  · rfl
  next h => rw [coef_of_le (Nat.le_of_not_lt h), hφ.zero]

theorem toPolynomial_zero : toPolynomial φ [0] = 0 := by
  ext k
  rw [coeff_toPolynomial hφ, coeff_zero]
  exact (congrArg φ (coef_replicate_zero 1 k)).trans hφ.zero

theorem toPolynomial_monomial (d : Nat) (c : Byte) : toPolynomial φ (monomial d c) = C (φ c) * X ^ d := by
  ext k
  rw [coeff_toPolynomial hφ, coef_monomial, coeff_C_mul_X_pow]
  split
  · rfl
  · exact hφ.zero

theorem toPolynomial_one : toPolynomial φ [1] = 1 := by
  have h := toPolynomial_monomial hφ 0 1
  rwa [hφ.one, pow_zero, mul_one, C_1] at h

theorem toPolynomial_padd {p q : Poly} (hp : Canonical p) (hq : Canonical q) :
    toPolynomial φ (padd p q) = toPolynomial φ p + toPolynomial φ q := by
  ext k
  rw [coeff_add, coeff_toPolynomial hφ, coeff_toPolynomial hφ, coeff_toPolynomial hφ, coef_padd hp hq, hφ.xor]

theorem toPolynomial_pmul {p q : Poly} (hp : Canonical p) (hq : Canonical q) :
    toPolynomial φ (pmul p q) = toPolynomial φ p * toPolynomial φ q := by
  ext k
  rw [coeff_mul, Finset.Nat.sum_antidiagonal_eq_sum_range_succ_mk, coeff_toPolynomial hφ, coef_pmul hp hq, hφ.xorSum]
  refine Finset.sum_congr rfl fun i _ => ?_
  rw [hφ.gmul, coeff_toPolynomial hφ, coeff_toPolynomial hφ]

theorem toPolynomial_pmuli (p : Poly) (c : Byte) : toPolynomial φ (pmuli p c) = toPolynomial φ p * C (φ c) := by
  ext k
  rw [coeff_mul_C, coeff_toPolynomial hφ, coeff_toPolynomial hφ, coef_pmuli, hφ.gmul]

/-- A factor k+1 is 1 or 0 in characteristic 2, as R186 has it. -/
theorem toPolynomial_pderiv (p : Poly) : toPolynomial φ (pderiv p) = derivative (toPolynomial φ p) := by
  have := hφ.charTwo
  ext k
  rw [coeff_derivative, coeff_toPolynomial hφ, coeff_toPolynomial hφ, coef_pderiv]
  split
  next h =>
    obtain ⟨m, rfl⟩ := Nat.dvd_of_mod_eq_zero h
    rw [Nat.cast_mul, Nat.cast_ofNat, CharTwo.two_eq_zero (R := F), zero_mul, zero_add, mul_one]
  next h =>
    obtain ⟨m, hm⟩ : 2 ∣ k + 1 := by omega
    rw [hφ.zero, ← Nat.cast_succ, Nat.succ_eq_add_one, hm, Nat.cast_mul, Nat.cast_ofNat,
      CharTwo.two_eq_zero (R := F), zero_mul, mul_zero]

theorem toPolynomial_concat (p : List Byte) (c : Byte) :
    toPolynomial φ (p ++ [c]) = toPolynomial φ p * X + C (φ c) := by
  ext k
  cases k with
  | zero => simp [coeff_toPolynomial hφ, coef_concat_zero]
  | succ k => simp [coeff_toPolynomial hφ, coef_concat_succ]

/-- The value by Horner's rule is the value of the polynomial (R155). -/
theorem eval_toPolynomial (p : List Byte) (x : Byte) : (toPolynomial φ p).eval (φ x) = φ (valueAt p x) := by
  induction p using List.reverseRecOn with
  | nil => exact (eval_zero (R := F)).trans hφ.zero.symm
  | append_singleton p c ih =>
    rw [toPolynomial_concat hφ, valueAt_append, hφ.xor, hφ.gmul, eval_add, eval_mul, eval_X, eval_C, ih, mul_comm]

theorem natDegree_toPolynomial {p : Poly} (hp : Canonical p) : (toPolynomial φ p).natDegree = pdeg p := by
  by_cases hzero : p = [0]
  · rw [hzero, toPolynomial_zero hφ, natDegree_zero]
    rfl
  · refine natDegree_eq_of_le_of_coeff_ne_zero (natDegree_le_iff_coeff_eq_zero.mpr fun k hk => ?_) ?_
    · rw [coeff_toPolynomial hφ, coef_of_pdeg_lt hp hk]
      exact hφ.zero
    · rw [coeff_toPolynomial hφ]
      exact hφ.ne_zero (coef_pdeg hp hzero).2

theorem toPolynomial_eq_zero_iff {p : Poly} (hp : Canonical p) : toPolynomial φ p = 0 ↔ p = [0] := by
  refine ⟨fun h => (eq_zero_iff_coef hp).mpr fun k => ?_, fun h => h ▸ toPolynomial_zero hφ⟩
  rw [← hφ.eq_zero_iff, ← coeff_toPolynomial hφ, h, coeff_zero]

end

end Sys2Proof.Machine
end

section
/-! SUPPORT. The polynomials of an error pattern, over any field of characteristic 2: which errors make which locator
polynomial Λ and evaluator polynomial Γ, that the syndromes satisfy the key equation with them, and that the loop of
spec/42_reed_solomon.md R183 can end at no other solution (R182, R184, R191). -/

namespace Sys2Proof.Machine

open Polynomial

/-! ## The error pattern -/

section
variable {F : Type} [Field F]

/-- Λ: the product of 1 + X_l·x over the errors l, X_l the locator of l. -/
noncomputable def locatorPoly (E : Finset Nat) (x : Nat → F) : F[X] := ∏ l ∈ E, (1 + C (x l) * X)

/-- Γ: over the errors l, the magnitude Y_l times the other factors of Λ. -/
noncomputable def evaluatorPoly (E : Finset Nat) (x y : Nat → F) : F[X] :=
  ∑ l ∈ E, C (y l) * locatorPoly (E.erase l) x

/-- The syndromes S_k = ∑ Y_l·X_l^k for k below N, as a polynomial. -/
noncomputable def syndromePoly (E : Finset Nat) (x y : Nat → F) (N : Nat) : F[X] :=
  ∑ l ∈ E, C (y l) * ∑ k ∈ Finset.range N, (C (x l) * X) ^ k

variable {E : Finset Nat} {x y : Nat → F}

theorem coeff_syndromePoly (N k : Nat) :
    (syndromePoly E x y N).coeff k = if k < N then ∑ l ∈ E, y l * x l ^ k else 0 := by
  have hterm (l : Nat) : (C (y l) * ∑ k ∈ Finset.range N, (C (x l) * X) ^ k).coeff k =
      if k < N then y l * x l ^ k else 0 := by
    simp only [mul_pow, ← C_pow, coeff_C_mul, finsetSum_coeff, coeff_X_pow, mul_ite, mul_one, mul_zero,
      Finset.sum_ite_eq, Finset.mem_range]
  rw [syndromePoly, finsetSum_coeff, Finset.sum_congr rfl fun l _ => hterm l]
  split
  · rfl
  · exact Finset.sum_const_zero

theorem locatorPoly_eq_mul_erase {l : Nat} (hl : l ∈ E) :
    locatorPoly E x = (1 + C (x l) * X) * locatorPoly (E.erase l) x :=
  (Finset.mul_prod_erase E _ hl).symm

theorem eval_locatorPoly (ξ : F) : (locatorPoly E x).eval ξ = ∏ l ∈ E, (1 + x l * ξ) := by
  rw [locatorPoly, eval_prod]
  exact Finset.prod_congr rfl fun l _ => by simp

theorem coeff_zero_locatorPoly : (locatorPoly E x).coeff 0 = 1 := by
  rw [coeff_zero_eq_eval_zero, eval_locatorPoly]
  exact Finset.prod_eq_one fun l _ => by simp

theorem natDegree_factor {a : F} (ha : a ≠ 0) : (1 + C a * X : F[X]).natDegree = 1 := by
  rw [add_comm, ← C_1]
  exact natDegree_linear ha

/-- The locators are distinct and not zero, and no error is zero. -/
structure IsErrorPattern (E : Finset Nat) (x y : Nat → F) : Prop where
  locator_ne_zero : ∀ l ∈ E, x l ≠ 0
  distinct : Set.InjOn x E
  magnitude_ne_zero : ∀ l ∈ E, y l ≠ 0

theorem natDegree_locatorPoly (hx : ∀ l ∈ E, x l ≠ 0) : (locatorPoly E x).natDegree = E.card := by
  have hfactor (l : Nat) (hl : l ∈ E) := natDegree_factor (hx l hl)
  have hne (l : Nat) (hl : l ∈ E) : (1 + C (x l) * X : F[X]) ≠ 0 :=
    ne_zero_of_natDegree_gt (n := 0) (by rw [hfactor l hl]; exact Nat.one_pos)
  rw [locatorPoly, natDegree_prod _ _ hne, Finset.sum_congr rfl hfactor, Finset.card_eq_sum_ones]

/-- Γ falls short of Λ in degree. -/
theorem natDegree_evaluatorPoly (hx : ∀ l ∈ E, x l ≠ 0) (hE : E.Nonempty) :
    (evaluatorPoly E x y).natDegree < E.card := by
  refine Nat.lt_of_le_pred hE.card_pos (natDegree_sum_le_of_forall_le E _ fun l hl => ?_)
  rw [Nat.pred_eq_sub_one, ← Finset.card_erase_of_mem hl,
    ← natDegree_locatorPoly fun i hi => hx i (Finset.mem_of_mem_erase hi)]
  exact natDegree_C_mul_le _ _

variable [CharP F 2]

/-- The roots of Λ are the inverses of the locators. -/
theorem eval_locatorPoly_eq_zero_iff (ξ : F) : (locatorPoly E x).eval ξ = 0 ↔ ∃ l ∈ E, x l * ξ = 1 := by
  rw [eval_locatorPoly, Finset.prod_eq_zero_iff]
  exact exists_congr fun l => and_congr_right fun _ => CharTwo.add_eq_zero.trans eq_comm

/-- The key equation: Λ·S and Γ agree below x^N (R182). -/
theorem keyEquation (E : Finset Nat) (x y : Nat → F) (N : Nat) :
    X ^ N ∣ locatorPoly E x * syndromePoly E x y N + evaluatorPoly E x y := by
  have hterm (l : Nat) (hl : l ∈ E) :
      locatorPoly E x * (C (y l) * ∑ k ∈ Finset.range N, (C (x l) * X) ^ k) + C (y l) * locatorPoly (E.erase l) x =
        C (y l) * locatorPoly (E.erase l) x * (C (x l) * X) ^ N := by
    have hgeometric : (1 + C (x l) * X) * ∑ k ∈ Finset.range N, (C (x l) * X) ^ k = 1 + (C (x l) * X) ^ N := by
      rw [← CharTwo.sub_eq_add, ← CharTwo.sub_eq_add, mul_neg_geom_sum]
    rw [locatorPoly_eq_mul_erase hl]
    linear_combination (C (y l) * locatorPoly (E.erase l) x) * hgeometric +
      (C (y l) * locatorPoly (E.erase l) x) * CharTwo.two_eq_zero (R := F[X])
  rw [syndromePoly, evaluatorPoly, Finset.mul_sum, ← Finset.sum_add_distrib]
  refine Finset.dvd_sum fun l hl => ?_
  rw [hterm l hl, mul_pow, ← mul_assoc]
  exact dvd_mul_left _ _

/-! ### At the inverse of a locator -/

section
variable {l : Nat} {ξ : F} (hl : l ∈ E) (hξ : x l * ξ = 1)
include hl hξ

/-- Only the term of l is left of Γ. -/
theorem eval_evaluatorPoly : (evaluatorPoly E x y).eval ξ = y l * (locatorPoly (E.erase l) x).eval ξ := by
  rw [evaluatorPoly, eval_finsetSum, Finset.sum_eq_single_of_mem l hl, eval_mul, eval_C]
  intro i _ hne
  have hroot : (locatorPoly (E.erase i) x).eval ξ = 0 :=
    (eval_locatorPoly_eq_zero_iff ξ).mpr ⟨l, Finset.mem_erase.mpr ⟨hne.symm, hl⟩, hξ⟩
  rw [eval_mul, hroot, mul_zero]

/-- Only the factor of l is differentiated. -/
theorem eval_derivative_locatorPoly :
    (derivative (locatorPoly E x)).eval ξ = x l * (locatorPoly (E.erase l) x).eval ξ := by
  rw [locatorPoly_eq_mul_erase hl, derivative_mul]
  simp [hξ, CharTwo.add_self_eq_zero]

/-- X·Γ(X⁻¹)/Λ'(X⁻¹) is the magnitude of the error at the locator X (R187). -/
theorem magnitude_of_forney {d : F} (hd : (derivative (locatorPoly E x)).eval ξ * d = 1) :
    x l * ((evaluatorPoly E x y).eval ξ * d) = y l := by
  rw [eval_derivative_locatorPoly hl hξ] at hd
  rw [eval_evaluatorPoly hl hξ]
  linear_combination y l * hd

end

namespace IsErrorPattern

/-- Γ is zero at no root of Λ: another locator has another inverse. -/
theorem eval_evaluatorPoly_ne_zero (h : IsErrorPattern E x y) {l : Nat} {ξ : F} (hl : l ∈ E) (hξ : x l * ξ = 1) :
    (evaluatorPoly E x y).eval ξ ≠ 0 := by
  rw [eval_evaluatorPoly hl hξ]
  refine mul_ne_zero (h.magnitude_ne_zero l hl) fun hroot => ?_
  obtain ⟨i, hi, hinverse⟩ := (eval_locatorPoly_eq_zero_iff ξ).mp hroot
  obtain ⟨hne, hiE⟩ := Finset.mem_erase.mp hi
  have hξ0 : ξ ≠ 0 := right_ne_zero_of_mul_eq_one hξ
  exact hne (h.distinct hiE hl (mul_right_cancel₀ hξ0 (hinverse.trans hξ.symm)))

/-- Λ and Γ have no factor in common, because Λ is made of its roots. -/
theorem isCoprime (h : IsErrorPattern E x y) : IsCoprime (locatorPoly E x) (evaluatorPoly E x y) := by
  refine IsCoprime.prod_left fun l hl => ?_
  have hξ : x l * (x l)⁻¹ = 1 := mul_inv_cancel₀ (h.locator_ne_zero l hl)
  have hdegree : (1 + C (x l) * X : F[X]).degree = 1 :=
    (degree_eq_iff_natDegree_eq_of_pos one_pos).mpr (natDegree_factor (h.locator_ne_zero l hl))
  refine (irreducible_of_degree_eq_one hdegree).coprime_iff_not_dvd.mpr fun hdvd => ?_
  refine h.eval_evaluatorPoly_ne_zero hl hξ (eval_eq_zero_of_dvd_of_eval_eq_zero hdvd ?_)
  simp [hξ, CharTwo.add_self_eq_zero]

/-- As long as there are no more errors than syndromes, some syndrome is not zero. -/
theorem syndromePoly_ne_zero (h : IsErrorPattern E x y) (hE : E.Nonempty) {N : Nat} (hN : E.card ≤ N) :
    syndromePoly E x y N ≠ 0 := by
  intro hzero
  have hdvd := keyEquation E x y N
  rw [hzero, mul_zero, zero_add] at hdvd
  have hevaluator : evaluatorPoly E x y = 0 := by
    refine eq_zero_of_dvd_of_natDegree_lt hdvd ?_
    rw [natDegree_X_pow]
    exact (natDegree_evaluatorPoly h.locator_ne_zero hE).trans_le hN
  obtain ⟨l, hl⟩ := hE
  refine h.eval_evaluatorPoly_ne_zero hl (mul_inv_cancel₀ (h.locator_ne_zero l hl)) ?_
  rw [hevaluator, eval_zero]

end IsErrorPattern

end

/-! ## The Euclid loop -/

section
variable {F : Type} [Field F] [CharP F 2]

/-- What the loop of R183 keeps, started on the syndrome polynomial `S`: both co-factors solve the key equation with
their remainders, together they make up x^N, and what one gains in degree the other loses (R184). -/
structure EuclidInvariant (S : F[X]) (N : Nat) (rLast r tLast t : F[X]) : Prop where
  solves : X ^ N ∣ t * S + r
  solvesLast : X ^ N ∣ tLast * S + rLast
  cross : t * rLast + tLast * r = X ^ N
  goesOn : N ≤ 2 * rLast.natDegree
  falls : r.natDegree ≤ rLast.natDegree
  size : t.natDegree + rLast.natDegree ≤ N
  sizeLast : tLast.natDegree + r.natDegree ≤ N

namespace EuclidInvariant
variable {S rLast r tLast t : F[X]} {N : Nat}

/-- The temporaries before the first pass. -/
theorem start (h : S.natDegree < N) : EuclidInvariant S N (X ^ N) S 0 1 where
  solves := by rw [one_mul, CharTwo.add_self_eq_zero]; exact dvd_zero _
  solvesLast := by rw [zero_mul, zero_add]
  cross := by rw [one_mul, zero_mul, add_zero]
  goesOn := by rw [natDegree_X_pow]; omega
  falls := by rw [natDegree_X_pow]; omega
  size := by rw [natDegree_X_pow, natDegree_one, zero_add]
  sizeLast := by rw [natDegree_zero]; omega

/-- A pass, its division by quotient and remainder. -/
theorem pass (h : EuclidInvariant S N rLast r tLast t) {q rem : F[X]} (hdiv : rLast = q * r + rem)
    (hr : r ≠ 0) (hrem : rem.natDegree ≤ r.natDegree) (hgo : N ≤ 2 * r.natDegree) :
    EuclidInvariant S N r rem t (q * t + tLast) := by
  obtain ⟨hsolves, hsolvesLast, hcross, -, hfalls, hsize, hsizeLast⟩ := h
  have htwo : (2 : F[X]) = 0 := CharTwo.two_eq_zero
  have hproduct : (q * r).natDegree ≤ rLast.natDegree := by
    rw [show q * r = rLast + rem by linear_combination (-1 : F[X]) * hdiv - rem * htwo]
    exact natDegree_add_le_of_degree_le le_rfl (hrem.trans hfalls)
  have hquotient : q.natDegree + r.natDegree ≤ rLast.natDegree := by
    by_cases hq : q = 0
    · rw [hq, natDegree_zero, zero_add]
      exact hfalls
    · rwa [← natDegree_mul hq hr]
  have hcofactor : (q * t + tLast).natDegree ≤ max (q.natDegree + t.natDegree) tLast.natDegree :=
    (natDegree_add_le _ _).trans (max_le_max_right _ natDegree_mul_le)
  have hsolves' : (q * t + tLast) * S + rem = q * (t * S + r) + (tLast * S + rLast) := by
    linear_combination (-1 : F[X]) * hdiv - q * r * htwo
  exact {
    solves := hsolves' ▸ (hsolves.mul_left q).add hsolvesLast
    solvesLast := hsolves
    cross := by linear_combination hcross - t * hdiv
    goesOn := hgo
    falls := hrem
    size := by omega
    sizeLast := by omega }

/-- Where the loop stops, it has found every solution of the key equation that is small enough and in lowest terms: up
to a constant factor (R191). -/
theorem solution (h : EuclidInvariant S N rLast r tLast t) (hstop : 2 * r.natDegree < N) {locator evaluator : F[X]}
    (hkey : X ^ N ∣ locator * S + evaluator) (hlocator : 2 * locator.natDegree ≤ N)
    (hevaluator : 2 * evaluator.natDegree < N) (hcoprime : IsCoprime locator evaluator) :
    ∃ a : F, locator = t * C a ∧ evaluator = r * C a := by
  obtain ⟨hsolves, hsolvesLast, hcross, hgoesOn, -, hsize, -⟩ := h
  have htwo : (2 : F[X]) = 0 := CharTwo.two_eq_zero
  have hcrossed {u v : F[X]} (huv : X ^ N ∣ u * S + v) : X ^ N ∣ u * evaluator + v * locator := by
    have hsum : u * evaluator + v * locator = u * (locator * S + evaluator) + locator * (u * S + v) := by
      linear_combination -(u * locator * S) * htwo
    exact hsum ▸ (hkey.mul_left u).add (huv.mul_left locator)
  have hzero : t * evaluator + r * locator = 0 := by
    refine eq_zero_of_dvd_of_natDegree_lt (hcrossed hsolves) ?_
    have h1 := natDegree_mul_le (p := t) (q := evaluator)
    have h2 := natDegree_mul_le (p := r) (q := locator)
    have h3 := natDegree_add_le (t * evaluator) (r * locator)
    rw [natDegree_X_pow]
    omega
  obtain ⟨a, ha⟩ := hcrossed hsolvesLast
  have hpow : (X ^ N : F[X]) ≠ 0 := pow_ne_zero N X_ne_zero
  have hlocator' : locator = t * a := mul_left_cancel₀ hpow (by
    linear_combination t * ha - locator * hcross + tLast * hzero - (t * tLast * evaluator) * htwo)
  have hevaluator' : evaluator = r * a := mul_left_cancel₀ hpow (by
    linear_combination r * ha - evaluator * hcross + rLast * hzero - (r * rLast * locator) * htwo)
  have hunit : IsUnit a := hcoprime.isUnit_of_dvd' (hlocator' ▸ dvd_mul_left a t) (hevaluator' ▸ dvd_mul_left a r)
  obtain ⟨k, -, rfl⟩ := isUnit_iff.mp hunit
  exact ⟨k, hlocator', hevaluator'⟩

end EuclidInvariant

end

end Sys2Proof.Machine
end

section
/-! SUPPORT. What the Euclid and the Chien stage find of an error pattern (spec/42_reed_solomon.md R183 to R185): the
temporaries of the model's loop are the polynomials of its invariant. -/

namespace Sys2Proof.Machine

open Polynomial

section
variable {F : Type} [Field F] {φ : Byte → F}

/-! ## The Euclid stage -/

/-- The temporaries are canonical, and as polynomials over `F` they keep the invariant of the loop. -/
structure KeepsInvariant (φ : Byte → F) (S : F[X]) (N : Nat) (e : EuclidRegs) : Prop where
  rLast : Canonical e.rLast
  r : Canonical e.r
  tLast : Canonical e.tLast
  t : Canonical e.t
  invariant : EuclidInvariant S N (toPolynomial φ e.rLast) (toPolynomial φ e.r) (toPolynomial φ e.tLast)
    (toPolynomial φ e.t)

variable (hφ : ReadsField φ)
include hφ

theorem keepsInvariant_start [CharP F 2] {spoly : Poly} (hs : Canonical spoly) {N : Nat} (hdeg : pdeg spoly < N) :
    KeepsInvariant φ (toPolynomial φ spoly) N (euclidStart spoly N) where
  rLast := monomial_canonical N 1
  r := hs
  tLast := canonical_zero
  t := canonical_one
  invariant := by
    have hstart := EuclidInvariant.start (S := toPolynomial φ spoly) (N := N)
      (by rwa [natDegree_toPolynomial hφ hs])
    have hlast : toPolynomial φ (monomial N 1) = X ^ N := by
      rw [toPolynomial_monomial hφ, hφ.one, C_1, one_mul]
    rw [← hlast, ← toPolynomial_zero hφ, ← toPolynomial_one hφ] at hstart
    exact hstart

/-- A pass of the model is a pass of the invariant's loop: `pdiv` divides with remainder (R160, R183). -/
theorem KeepsInvariant.pass [CharP F 2] {S : F[X]} {N : Nat} (hN : 0 < N) {e : EuclidRegs}
    (h : KeepsInvariant φ S N e) (hgo : N ≤ 2 * pdeg e.r) {q rem : Poly} (hdiv : pdiv e.rLast e.r = .ok (q, rem)) :
    KeepsInvariant φ S N ⟨e.r, rem, e.t, padd (pmul q e.t) e.tLast, q⟩ := by
  have hne : e.r ≠ [0] := fun hzero => absurd (hN.trans_le hgo) (by rw [hzero]; exact Nat.lt_irrefl 0)
  obtain ⟨q', rem', hdiv', hq, hrem, hrecompose, hreduced⟩ := exists_pdiv h.rLast h.r hne
  obtain ⟨rfl, rfl⟩ : q' = q ∧ rem' = rem := by simpa [hdiv] using hdiv'.symm
  have hproduct := pmul_canonical q' e.t
  refine ⟨h.r, hrem, h.t, padd_canonical hproduct h.tLast, ?_⟩
  rw [toPolynomial_padd hφ hproduct h.tLast, toPolynomial_pmul hφ hq h.t]
  refine h.invariant.pass ?_ (fun hzero => hne ((toPolynomial_eq_zero_iff hφ h.r).mp hzero)) ?_ ?_
  · rw [← toPolynomial_pmul hφ hq h.r, ← toPolynomial_padd hφ (pmul_canonical q' e.r) hrem, ← hrecompose]
  · rw [natDegree_toPolynomial hφ hrem, natDegree_toPolynomial hφ h.r]
    rcases hreduced with hlt | hzero
    · exact hlt.le
    · rw [hzero]
      exact Nat.zero_le _
  · rwa [natDegree_toPolynomial hφ h.r]

/-- Where the loop exits the invariant still holds, and the remainder is low enough (R184). -/
theorem KeepsInvariant.exit [CharP F 2] {S : F[X]} {N : Nat} (hN : 0 < N) {e e' : EuclidRegs}
    (hexit : EuclidExit N e e') (h : KeepsInvariant φ S N e) : KeepsInvariant φ S N e' ∧ 2 * pdeg e'.r < N := by
  induction hexit with
  | stop e hstop => exact ⟨h, hstop⟩
  | pass e e' q rem hgo hdiv _ ih => exact ih (h.pass hφ hN hgo hdiv)

/-- The stage finds the small solution in lowest terms whose constant term is 1 (R183, R191). -/
theorem rsEuclid_finds_solution {spoly : Poly} (hs : Canonical spoly) {N : Nat} (hdeg : pdeg spoly < N)
    {locator evaluator : F[X]} (hkey : X ^ N ∣ locator * toPolynomial φ spoly + evaluator)
    (hlocator : 2 * locator.natDegree ≤ N) (hevaluator : 2 * evaluator.natDegree < N)
    (hcoprime : IsCoprime locator evaluator) (hone : locator.coeff 0 = 1) :
    ∃ e sigma omega, rsEuclid spoly N = .ok (e, sigma, omega) ∧ Canonical sigma ∧ Canonical omega ∧
      toPolynomial φ sigma = locator ∧ toPolynomial φ omega = evaluator := by
  have := hφ.charTwo
  obtain ⟨e, hexit, -, hok⟩ := exists_euclidExit hs hdeg
  obtain ⟨hkeeps, hstop⟩ := (keepsInvariant_start hφ hs hdeg).exit hφ (Nat.zero_lt_of_lt hdeg) hexit
  rw [← natDegree_toPolynomial hφ hkeeps.r] at hstop
  obtain ⟨a, hsigma, homega⟩ := hkeeps.invariant.solution hstop hkey hlocator hevaluator hcoprime
  have hconstant : φ (coef e.t 0) * a = 1 := by rw [← coeff_toPolynomial hφ, ← coeff_mul_C, ← hsigma, hone]
  have hne : coef e.t 0 ≠ 0 := fun hzero => left_ne_zero_of_mul_eq_one hconstant (hφ.eq_zero_iff.mpr hzero)
  obtain ⟨inv, hinv⟩ := exists_ginv hne
  have hunit := ginv_eq_ok_iff.mp hinv
  have ha : φ inv = a := by
    refine mul_left_cancel₀ (hφ.ne_zero hne) ?_
    rw [← hφ.gmul, hunit, hφ.one, hconstant]
  refine ⟨e, _, _, hok inv hunit, pmuli_canonical hkeeps.t inv, pmuli_canonical hkeeps.r inv, ?_, ?_⟩
  · rw [toPolynomial_pmuli hφ, ha, hsigma]
  · rw [toPolynomial_pmuli hφ, ha, homega]

/-! ## The Chien and the Forney stage -/

section
variable {E : Finset Nat} {sigma : Poly} (hsigma : Canonical sigma)
  (hlocator : toPolynomial φ sigma = locatorPoly E fun l => φ (gexp l))
include hsigma hlocator

/-- The search finds the locators of the errors (R185). -/
theorem mem_chienLocators_iff {x : Byte} : x ∈ chienLocators sigma ↔ ∃ l ∈ E, gexp l = x := by
  have := hφ.charTwo
  have hroot {i : Nat} (hi : i ≤ 255) :
      valueAt sigma (gexp (255 - i)) = 0 ↔ ∃ l ∈ E, gexp l = gexp i := by
    have hinverse : φ (gexp i) * φ (gexp (255 - i)) = 1 := by rw [← hφ.gmul, gmul_gexp_inverse hi, hφ.one]
    rw [← hφ.eq_zero_iff, ← eval_toPolynomial hφ, hlocator, eval_locatorPoly_eq_zero_iff]
    refine exists_congr fun l => and_congr_right fun _ => ⟨fun h => hφ.injective ?_, fun h => h ▸ hinverse⟩
    exact mul_right_cancel₀ (right_ne_zero_of_mul_eq_one hinverse) (h.trans hinverse.symm)
  rw [mem_chienLocators]
  constructor
  · rintro ⟨i, hi, rfl⟩
    obtain ⟨-, hle, hvalue⟩ := (mem_chienPowers hsigma.1).mp hi
    exact (hroot hle).mp hvalue
  · rintro ⟨l, hl, rfl⟩
    obtain ⟨i, h1, h255, hpower⟩ : ∃ i, 1 ≤ i ∧ i ≤ 255 ∧ gexp l = gexp i := by
      by_cases hzero : l % 255 = 0
      · exact ⟨255, by omega, by omega, gexp_eq_iff.mpr (by omega)⟩
      · exact ⟨l % 255, by omega, by omega, gexp_eq_iff.mpr (by omega)⟩
    exact ⟨i, (mem_chienPowers hsigma.1).mpr ⟨h1, h255, (hroot h255).mpr ⟨l, hl, hpower⟩⟩, hpower.symm⟩

/-- There are as many locators as the degree, because the errors have distinct ones. -/
theorem rsChien_finds_locators (hdistinct : Set.InjOn gexp E) : rsChien sigma = .ok (chienLocators sigma) := by
  refine rsChien_eq_ok.mpr ⟨?_, rfl⟩
  have hlocators : (chienLocators sigma).toFinset = E.image gexp := by
    ext x
    rw [List.mem_toFinset, mem_chienLocators_iff hφ hsigma hlocator, Finset.mem_image]
  rw [← List.toFinset_card_of_nodup (chienLocators_nodup sigma), hlocators, Finset.card_image_of_injOn hdistinct,
    ← natDegree_toPolynomial hφ hsigma, hlocator, natDegree_locatorPoly fun l _ => hφ.ne_zero (gexp_ne_zero l)]

omit hsigma in
/-- The magnitude at a locator is the error (R187). -/
theorem forneyMagnitude_eq {omega : Poly} (homega : Canonical omega) {v : Nat → Byte}
    (hevaluator : toPolynomial φ omega = evaluatorPoly E (fun l => φ (gexp l)) fun l => φ (v l)) {l : Nat}
    (hl : l ∈ E) {m : Byte} (h : ForneyMagnitude sigma omega (gexp l) m) : m = v l := by
  have := hφ.charTwo
  obtain ⟨xi, dinv, hxi, hdinv, rfl⟩ := h
  rw [peval_eq_valueAt (pderiv_canonical sigma).1] at hdinv
  rw [peval_eq_valueAt homega.1]
  have hinverse : φ (gexp l) * φ xi = 1 := by rw [← hφ.gmul, hxi, hφ.one]
  have hdenominator : (derivative (locatorPoly E fun l => φ (gexp l))).eval (φ xi) * φ dinv = 1 := by
    rw [← hlocator, ← toPolynomial_pderiv hφ, eval_toPolynomial hφ, ← hφ.gmul, hdinv, hφ.one]
  have hmagnitude := magnitude_of_forney (y := fun l => φ (v l)) hl hinverse hdenominator
  rw [← hevaluator, eval_toPolynomial hφ, ← hφ.gmul, ← hφ.gmul] at hmagnitude
  exact hφ.injective hmagnitude

end

end

end Sys2Proof.Machine
end

section
/-! SUPPORT. The errors of a received vector (spec/42_reed_solomon.md R191): what differs from a vector of the code, how
many entries do, and what its syndromes are. -/

namespace Sys2Proof.Machine

open Polynomial

/-- What has to be XORed into one vector to make the other. -/
def errorVector (received c : List Byte) : List Byte := List.zipWith (· ^^^ ·) received c

/-- The powers of x whose coefficients are not zero. -/
def nonzeroPowers (p : List Byte) : Finset Nat := (Finset.range p.length).filter fun l => coef p l ≠ 0

theorem mem_nonzeroPowers {p : List Byte} {l : Nat} : l ∈ nonzeroPowers p ↔ coef p l ≠ 0 := by
  rw [nonzeroPowers, Finset.mem_filter, Finset.mem_range]
  exact ⟨And.right, fun h => ⟨Nat.lt_of_not_le fun hle => h (coef_of_le hle), h⟩⟩

theorem lt_length_of_mem_nonzeroPowers {p : List Byte} {l : Nat} (h : l ∈ nonzeroPowers p) : l < p.length :=
  Finset.mem_range.mp (Finset.mem_of_mem_filter l h)

theorem nonzeroPowers_cons (a : Byte) (p : List Byte) :
    nonzeroPowers (a :: p) = if a = 0 then nonzeroPowers p else insert p.length (nonzeroPowers p) := by
  ext l
  by_cases ha : a = 0
  · rw [if_pos ha, ha, mem_nonzeroPowers, mem_nonzeroPowers]
    exact not_congr (Eq.congr_left (coef_zero_cons p l))
  · rw [if_neg ha, mem_nonzeroPowers, coef_cons, Finset.mem_insert, mem_nonzeroPowers]
    by_cases hl : l = p.length
    · rw [if_pos hl]
      exact iff_of_true ha (.inl hl)
    · rw [if_neg hl]
      exact (or_iff_right hl).symm

theorem card_nonzeroPowers_cons (a : Byte) (p : List Byte) :
    (nonzeroPowers (a :: p)).card = (nonzeroPowers p).card + if a = 0 then 0 else 1 := by
  rw [nonzeroPowers_cons]
  split
  · rfl
  · exact Finset.card_insert_of_notMem fun h => (lt_length_of_mem_nonzeroPowers h).false

/-- As many entries of the error vector are not zero as the two vectors differ at. -/
theorem card_nonzeroPowers_errorVector (received c : List Byte) :
    (nonzeroPowers (errorVector received c)).card = differences received c := by
  induction received generalizing c with
  | nil => rfl
  | cons a received ih =>
    cases c with
    | nil => rfl
    | cons b c =>
      have hdiffer : differences (a :: received) (b :: c) = differences received c + if a = b then 0 else 1 := by
        by_cases hab : a = b <;> simp [differences, hab]
      have hvector : errorVector (a :: received) (b :: c) = (a ^^^ b) :: errorVector received c := rfl
      rw [hdiffer, hvector, card_nonzeroPowers_cons, ih]
      exact congrArg _ (if_congr BitVec.xor_eq_zero_iff rfl rfl)

/-- The entries of a vector, read from its front. -/
theorem coef_length_sub {p : List Byte} {i : Nat} (h : i < p.length) : coef p (p.length - 1 - i) = p.getD i 0 := by
  rw [coef_eq, if_pos (by omega), show p.length - 1 - (p.length - 1 - i) = i by omega]

theorem ext_getD {p q : List Byte} (hlength : p.length = q.length) (h : ∀ i < q.length, p.getD i 0 = q.getD i 0) :
    p = q := by
  refine List.ext_getElem hlength fun i hp hq => ?_
  have hi := h i hq
  rwa [List.getD_eq_getElem _ _ hp, List.getD_eq_getElem _ _ hq] at hi

/-- In a vector of at most 255 codewords no two places share a power of α (R191). -/
theorem gexp_injOn_nonzeroPowers {p : List Byte} (h : p.length ≤ 255) : Set.InjOn gexp (nonzeroPowers p) := by
  intro l hl l' hl' heq
  have hlt := lt_length_of_mem_nonzeroPowers hl
  have hlt' := lt_length_of_mem_nonzeroPowers hl'
  have hpower := gexp_eq_iff.mp heq
  omega

section
variable {received c : List Byte} (hlength : received.length = c.length)
include hlength

theorem errorVector_length : (errorVector received c).length = c.length := by
  rw [errorVector, List.length_zipWith, hlength, Nat.min_self]

theorem getD_xor_errorVector {i : Nat} (hi : i < c.length) :
    received.getD i 0 ^^^ coef (errorVector received c) (c.length - 1 - i) = c.getD i 0 := by
  have hreceived := coef_length_sub (p := received) (i := i) (by omega)
  rw [hlength] at hreceived
  rw [errorVector, coef_zipWith_xor hlength, hreceived, coef_length_sub hi, ← BitVec.xor_assoc, BitVec.xor_self,
    BitVec.zero_xor]

/-- The syndromes are those of the errors alone (R191). -/
theorem valueAt_errorVector {twoS : Nat} (hcode : IsCodeword twoS c) {k : Nat} (hk : k < twoS) :
    valueAt (errorVector received c) (gexp k) = valueAt received (gexp k) := by
  rw [errorVector, valueAt_zipWith_xor hlength, hcode k hk, xor_zero_byte]

end

/-! ## Over the field -/

section
variable {F : Type} [Field F] {φ : Byte → F} (hφ : ReadsField φ)
include hφ

theorem ReadsField.gexp_pow (i n : Nat) : φ (gexp i) ^ n = φ (gexp (i * n)) := by
  induction n with
  | zero =>
    rw [pow_zero, Nat.mul_zero]
    exact hφ.one.symm
  | succ n ih => rw [pow_succ, ih, ← hφ.gmul, ← gexp_add, Nat.mul_succ]

/-- The syndrome polynomial of a received vector is that of its errors, each at the power of α of its place. -/
theorem toPolynomial_rsSyn {received c : List Byte} (hlength : received.length = c.length) {twoS : Nat}
    (hcode : IsCodeword twoS c) :
    toPolynomial φ (rsSyn received twoS).2 = syndromePoly (nonzeroPowers (errorVector received c)) (fun l => φ (gexp l))
      (fun l => φ (coef (errorVector received c) l)) twoS := by
  ext k
  rw [coeff_toPolynomial hφ, coef_rsSyn_snd, coeff_syndromePoly]
  split
  next hk =>
    rw [← valueAt_errorVector hlength hcode hk, ← eval_toPolynomial hφ, toPolynomial, eval_finsetSum, nonzeroPowers,
      Finset.sum_filter]
    refine Finset.sum_congr rfl fun l _ => ?_
    rw [eval_mul, eval_C, eval_pow, eval_X, hφ.gexp_pow, hφ.gexp_pow, Nat.mul_comm k l]
    split
    · rfl
    next hzero => rw [not_not.mp hzero, hφ.zero, zero_mul]
  next => exact hφ.zero

theorem isErrorPattern_nonzeroPowers {p : List Byte} (h : p.length ≤ 255) :
    IsErrorPattern (nonzeroPowers p) (fun l => φ (gexp l)) fun l => φ (coef p l) where
  locator_ne_zero l _ := hφ.ne_zero (gexp_ne_zero l)
  distinct := fun _ hl _ hl' heq => gexp_injOn_nonzeroPowers h hl hl' (hφ.injective heq)
  magnitude_ne_zero _ hl := hφ.ne_zero (mem_nonzeroPowers.mp hl)

end

end Sys2Proof.Machine
end

section
/-! CLAIMS. Family 46_decode_pipeline: DECODE corrects every block that is close enough to its code
(spec/46_decode_pipeline.md R281, R284; spec/42_reed_solomon.md R191). -/

namespace Sys2Proof.Machine

open Polynomial

theorem exists_zip_of_forall₂ {R : Byte → Byte → Prop} {xs ms : List Byte} (h : List.Forall₂ R xs ms) {x : Byte}
    (hx : x ∈ xs) : ∃ m, (x, m) ∈ xs.zip ms ∧ R x m := by
  obtain ⟨i, hi, rfl⟩ := List.mem_iff_getElem.mp hx
  have him : i < ms.length := h.length_eq ▸ hi
  refine ⟨ms[i], List.mem_iff_getElem.mpr ⟨i, by simp [hi, him], List.getElem_zip⟩, h.get hi him⟩

section
variable {received c : List Byte} (hlength : received.length = c.length) (h255 : c.length ≤ 255)
include hlength h255

/-- Once the locator and the evaluator polynomial are those of the errors, the later stages undo them (R189). -/
theorem correctWith_of_errors {F : Type} [Field F] {φ : Byte → F} (hφ : ReadsField φ) {sigma omega : Poly}
    (hsigma : Canonical sigma) (homega : Canonical omega)
    (hlocator : toPolynomial φ sigma = locatorPoly (nonzeroPowers (errorVector received c)) fun l => φ (gexp l))
    (hevaluator : toPolynomial φ omega = evaluatorPoly (nonzeroPowers (errorVector received c)) (fun l => φ (gexp l))
      fun l => φ (coef (errorVector received c) l)) : correctWith received sigma omega = .ok c := by
  have herror := errorVector_length hlength
  have hdistinct := gexp_injOn_nonzeroPowers (herror.trans_le h255)
  have hchien := rsChien_finds_locators hφ hsigma hlocator hdistinct
  have hfound {x : Byte} := mem_chienLocators_iff hφ hsigma hlocator (x := x)
  have hlog {l : Nat} (hl : l < c.length) : LOG (gexp l) = some l := by
    rw [LOG_gexp, Nat.mod_eq_of_lt (by omega)]
  have hinside (x : Byte) (hx : x ∈ chienLocators sigma) : ∃ l, LOG x = some l ∧ l < received.length := by
    obtain ⟨l, hl, rfl⟩ := hfound.mp hx
    have hlt := lt_length_of_mem_nonzeroPowers hl
    exact ⟨l, hlog (by omega), by omega⟩
  have hne : sigma ≠ [0] := fun hzero => by
    rw [hzero, toPolynomial_zero hφ] at hlocator
    have hconstant := (congrArg (coeff · 0) hlocator).trans coeff_zero_locatorPoly
    exact zero_ne_one ((coeff_zero 0).symm.trans hconstant)
  obtain ⟨emag, hmagnitudes⟩ := exists_magnitudes_of_rsChien hsigma hne hchien omega
  rw [correctWith_of_inside hchien (rsForney_of_magnitudes hmagnitudes) hinside]
  refine congrArg Except.ok (ext_getD (by rw [applyErrors_length, hlength]) fun i hi => ?_)
  rw [← getD_xor_errorVector hlength hi]
  by_cases hl : c.length - 1 - i ∈ nonzeroPowers (errorVector received c)
  · obtain ⟨m, hmem, hmagnitude⟩ := exists_zip_of_forall₂ hmagnitudes (hfound.mpr ⟨_, hl, rfl⟩)
    have hbyte := applyErrors_at_locator (chienLocators_nodup sigma) hinside hmem (hlog (by omega))
    rw [forneyMagnitude_eq hφ hlocator homega hevaluator hl hmagnitude] at hbyte
    rwa [show received.length - 1 - (c.length - 1 - i) = i by omega] at hbyte
  · rw [not_not.mp (mt mem_nonzeroPowers.mpr hl), xor_zero_byte]
    refine applyErrors_elsewhere hinside fun x hx l hxl heq => hl ?_
    obtain ⟨l', hl', rfl⟩ := hfound.mp hx
    have hlt := lt_length_of_mem_nonzeroPowers hl'
    rw [hlog (by omega)] at hxl
    obtain rfl : l' = l := Option.some.inj hxl
    rwa [show c.length - 1 - i = l' by omega]

/-- Up to floor(twoS/2) wrong codewords are corrected (R191): their locator and evaluator polynomial solve the key
equation of the syndromes, and the Euclid stage finds no other solution. -/
theorem corrected_of_differences {twoS : Nat} (hcode : IsCodeword twoS c)
    (hfew : differences received c ≤ twoS / 2) : corrected received twoS = .ok c := by
  rw [← card_nonzeroPowers_errorVector] at hfew
  rcases (nonzeroPowers (errorVector received c)).eq_empty_or_nonempty with hnone | hsome
  · have hsame : received = c := ext_getD hlength fun i hi => by
      have hzero : coef (errorVector received c) (c.length - 1 - i) = 0 :=
        not_not.mp (mt mem_nonzeroPowers.mpr (by rw [hnone]; exact Finset.notMem_empty _))
      rw [← getD_xor_errorVector hlength hi, hzero, xor_zero_byte]
    rw [hsame]
    exact corrected_of_codeword hcode
  · obtain ⟨F, _, φ, hφ⟩ := exists_readsField
    have := hφ.charTwo
    have hpattern := isErrorPattern_nonzeroPowers hφ ((errorVector_length hlength).trans_le h255)
    have hsyndromes := toPolynomial_rsSyn hφ hlength hcode
    have hs := rsSyn_snd_canonical received twoS
    have hne : ¬IsCodeword twoS received := fun hreceived => by
      refine hpattern.syndromePoly_ne_zero hsome (N := twoS) (by omega) ?_
      rw [← hsyndromes, toPolynomial_eq_zero_iff hφ hs, eq_zero_iff_coef hs]
      intro k
      rw [coef_rsSyn_snd]
      split
      next hk => exact hreceived k hk
      next => rfl
    have hlocator := natDegree_locatorPoly hpattern.locator_ne_zero
    have hevaluator := natDegree_evaluatorPoly (y := fun l => φ (coef (errorVector received c) l))
      hpattern.locator_ne_zero hsome
    obtain ⟨e, sigma, omega, heuclid, hsigma, homega, hsigma', homega'⟩ :=
      rsEuclid_finds_solution hφ hs (pdeg_rsSyn_lt hne) (hsyndromes ▸ keyEquation _ _ _ twoS) (by omega) (by omega)
        hpattern.isCoprime coeff_zero_locatorPoly
    rw [corrected_of_euclid hne heuclid]
    exact correctWith_of_errors hlength h255 hφ hsigma homega hsigma' homega'

end

/-- Settles O49: every block corrects to its vector of the code, so the pipeline starts the stream of their data. -/
theorem decodeCorrectsEveryBlock : Obligations.DecodeCorrectsEveryBlock := by
  intro ver ecl raw s w codewords hi hdeint hblocks
  have hcorrected : List.Forall₂ (fun b out => corrected b.buf (b.buf.length - b.ndata) = .ok out) w.blk codewords := by
    refine hblocks.imp fun b c ⟨hlength, h255, hcode, hfew⟩ => ?_
    rw [hlength]
    exact corrected_of_differences hlength h255 hcode hfew
  obtain ⟨-, -, hpipeline⟩ := decodeRunsThePipeline ver ecl raw s hi
  obtain ⟨-, hstarts⟩ := hpipeline w hdeint
  obtain ⟨t, hexec, hactivity, hagg, hbb, -, -, -, -, hresponses⟩ := hstarts codewords hcorrected
  exact ⟨t, hexec, hactivity, by rw [hbb, hagg], hagg, hresponses⟩

end Sys2Proof.Machine
end

section
/-! SUPPORT. Which causes each function of the model can raise, in the order of the units: what a command or a segment
faults with is a cause of its body (spec/60_exceptions.md R302, R304). -/

namespace Sys2Proof.Machine

/-- Every cause that `x` can raise is in `causes`. -/
def RaisesOnly {α : Type} (causes : List Cause) (x : Except Cause α) : Prop := ∀ c, x = .error c → c ∈ causes

namespace RaisesOnly

variable {α β : Type} {causes : List Cause} {x : Except Cause α}

theorem ok (causes : List Cause) (a : α) : RaisesOnly causes (.ok a) := nofun

theorem error {c : Cause} (h : c ∈ causes) : RaisesOnly (α := α) causes (.error c) := by
  rintro _ ⟨⟩
  exact h

/-- What is made of a result raises nothing more. -/
theorem map (h : RaisesOnly causes x) (f : α → β) : RaisesOnly causes (x.map f) := by
  cases x with
  | ok a => exact ok causes (f a)
  | error c => exact error (h c rfl)

/-- A sequence raises what its parts raise. -/
theorem bind (h : RaisesOnly causes x) {f : α → Except Cause β} (hf : ∀ a, RaisesOnly causes (f a)) :
    RaisesOnly causes (x >>= f) := by
  cases x with
  | ok a => exact hf a
  | error c => exact error (h c rfl)

theorem mono {more : List Cause} (h : RaisesOnly causes x) (hsub : causes ⊆ more) : RaisesOnly more x :=
  fun c hc => hsub (h c hc)

end RaisesOnly

/-! ## The field (R134 to R137) -/

theorem ginv_raises (a : Byte) : RaisesOnly [.gfInvZero] (ginv a) := by
  unfold ginv
  split
  · exact .error List.mem_cons_self
  · exact .ok _ _

theorem glog_raises (a : Byte) : RaisesOnly [.gfLogZero] (glog a) := by
  unfold glog
  split
  · exact .error List.mem_cons_self
  · exact .ok _ _

theorem mono_raises (degree : Int) (coefficient : Byte) : RaisesOnly [.negDegree] (mono degree coefficient) := by
  unfold mono
  split
  · exact .error List.mem_cons_self
  · exact .ok _ _

/-! ## The polynomials (R151 to R161) -/

theorem norm_raises (c : List Byte) (degree : Int) :
    RaisesOnly [.polyEmpty, .negDegree, .lenOverflow] (norm c degree) := by
  unfold norm
  split
  · exact .error (by simp)
  split
  · exact .error (by simp)
  split
  · exact .ok _ _
  split
  · exact .error (by simp)
  · exact .ok _ _

theorem pmulChecked_raises (p q : Poly) : RaisesOnly [.lenOverflow] (pmulChecked p q) := by
  unfold pmulChecked
  split
  · exact .ok _ _
  split
  · exact .error List.mem_cons_self
  · exact .ok _ _

theorem pmulmChecked_raises (p : Poly) (degree : Int) (coefficient : Byte) :
    RaisesOnly [.negDegree, .lenOverflow] (pmulmChecked p degree coefficient) := by
  unfold pmulmChecked
  split
  · exact .error (by simp)
  split
  · exact .ok _ _
  split
  · exact .error (by simp)
  · exact .ok _ _

theorem pdiv_raises (p q : Poly) : RaisesOnly [.divByZeroPoly] (pdiv p q) := fun _ h =>
  List.mem_singleton.mpr (pdiv_error h).2

/-- The assembly of an operand raises POLY_EMPTY and nothing else, because a packet carries no longer vector than LMAX;
the body of the command has a canonical operand (R96, R97). -/
theorem withPoly_raises {p : Poly} (hfit : FitsField p) {f : Poly → Except Cause (List Byte)} {causes : List Cause}
    (h : RaisesOnly causes (f (strip p))) : RaisesOnly (.polyEmpty :: causes) (withPoly p f) := by
  by_cases hp : p = []
  · subst hp
    exact .error List.mem_cons_self
  · rw [withPoly_of_fits hp hfit]
    exact h.mono (List.subset_cons_self _ _)

theorem withPolys_raises {p q : Poly} (hpfit : FitsField p) (hqfit : FitsField q)
    {f : Poly → Poly → Except Cause (List Byte)} {causes : List Cause}
    (h : RaisesOnly causes (f (strip p) (strip q))) : RaisesOnly (.polyEmpty :: causes) (withPolys p q f) := by
  have hsecond : RaisesOnly (.polyEmpty :: causes) (withPoly q fun q => f (strip p) q) := withPoly_raises hqfit h
  exact (withPoly_raises hpfit hsecond).mono (by simp)

/-! ## The Reed–Solomon stages (R183 to R189) -/

/-- On a canonical operand no pass of the Euclid loop divides by zero, and σ(0) is inverted only if it is not zero
(R184). -/
theorem rsEuclid_raises {spoly : Poly} (hs : Canonical spoly) (twoS : Nat) :
    RaisesOnly [.euclidArg, .sigma0Zero] (rsEuclid spoly twoS) := by
  by_cases hdeg : pdeg spoly < twoS
  · rcases rsEuclid_cases hs hdeg with h | ⟨e, sigma, omega, h, -, -⟩
    · rw [h]
      exact .error (by simp)
    · rw [h]
      exact .ok _ _
  · rw [rsEuclid_of_bad_degree (.inr (Nat.not_lt.mp hdeg))]
    exact .error (by simp)

theorem rsChien_raises (sigma : Poly) : RaisesOnly [.rootCount] (rsChien sigma) := fun _ h =>
  List.mem_singleton.mpr (rsChien_error h).1

theorem rsForney_raises (sigma omega : Poly) (xloc : List Byte) :
    RaisesOnly [.gfInvZero, .zeroDenom] (rsForney sigma omega xloc) := fun _ h =>
  List.mem_pair.mpr (forneyFrom_error h)

theorem corrected_raises (received : List Byte) (twoS : Nat) :
    RaisesOnly [.sigma0Zero, .rootCount, .posRange] (corrected received twoS) := fun _ => corrected_error

/-! ## The de-interleaver and the bit buffer (R212, R234) -/

theorem deinterleave_raises (cfg : Config.Params) (version ecl : Byte) (raw : List Byte) (w : Work) :
    RaisesOnly [.badVersion, .badEcl, .rawLen, .cursor] (deinterleave cfg version ecl raw w) := fun c h => by
  simpa using deinterleave_error h

theorem versionOperand_raises (version : Byte) : RaisesOnly [.badVersion] (versionOperand version) := fun _ h =>
  List.mem_singleton.mpr (versionOperand_error h).1

theorem read_raises (n : Int) (b : BitBuffer) : RaisesOnly [.bbNeg, .bbWidth, .bbUnderrun] (b.read n) := fun c h => by
  rcases read_error h with ⟨rfl, -⟩ | ⟨rfl, -⟩ | ⟨rfl, -⟩ <;> simp

/-- One bit on, one bit fewer is left, also of a cursor that breaks R231. -/
theorem BitBuffer.avail_le_next (b : BitBuffer) : b.avail ≤ b.next.avail + 1 := by
  unfold BitBuffer.avail BitBuffer.next
  split <;> dsimp only <;> omega

theorem BitBuffer.avail_le_take (n v : Nat) (b : BitBuffer) : b.avail ≤ (BitBuffer.take n v b).2.avail + n := by
  induction n generalizing v b with
  | zero => exact Nat.le_refl _
  | succ n ih =>
    have hnext := b.avail_le_next
    have hrest := ih (2 * v + b.bit.toNat) b.next
    rw [BitBuffer.take]
    omega

/-! ## The segments (R243 to R252) -/

/-- The two reads of STRUCTURED_APPEND do not underrun, because 16 bits were required before them (R246). -/
theorem readAppendPair_raises (b : BitBuffer) : RaisesOnly [.saTruncated] (readAppendPair b) := by
  intro c h
  unfold readAppendPair at h
  split at h
  · cases h
    exact List.mem_cons_self
  next havail =>
    rcases bind_error h with h | ⟨⟨sequence, b1⟩, hread, h⟩
    · have := (read_underrun (n := 8) (by decide) (by decide) h).2
      omega
    rcases bind_error h with h | ⟨⟨parity, b2⟩, -, h⟩
    · have hshort := (read_underrun (n := 8) (by decide) (by decide) h).2
      obtain ⟨-, -, -, htake⟩ := BitBuffer.read_eq_ok.mp hread
      have hleft := BitBuffer.avail_le_take 8 0 b
      have hb1 : b1 = (BitBuffer.take 8 0 b).2 := congrArg Prod.snd htake
      rw [hb1] at hshort
      omega
    · cases h

theorem eciRecord_raises (cfg : Config.Params) (id : Nat) : RaisesOnly [.eciRange] (eciRecord cfg id) := fun _ h =>
  List.mem_singleton.mpr (eciRecord_error h).1

/-- The one-byte and two-byte forms carry no id that is out of range (R107, R249). -/
theorem eciRecord_raises_nothing (cfg : Config.Params) {id : Nat} (h : id < 2 ^ 14) :
    RaisesOnly [] (eciRecord cfg id) := by
  rw [eciRecord_of_le (by omega)]
  exact .ok _ _

/-- The effect of a segment raises what its rule names (R304). -/
theorem segmentEffect_raises (cfg : Config.Params) (b : BitBuffer) (r : SegRegs) {i : Instr}
    (hseg : isSegment i = true) (hterm : i ≠ .terminator) :
    RaisesOnly (listedFaults i) (segmentEffect cfg b r i) := by
  cases i
  case terminator => exact absurd rfl hterm
  case numeric => exact .map (fun _ h => List.mem_pair.mpr (readNumeric_error h)) _
  case alphanumeric => exact .map (fun _ h => List.mem_pair.mpr (readAlphanumeric_error h)) _
  case structuredAppend => exact (readAppendPair_raises b).map _
  case byte => exact .map (fun _ h => List.mem_singleton.mpr (readByteSegment_error h)) _
  case kanji => exact .map (fun _ h => List.mem_singleton.mpr (readKanji_error h)) _
  case fnc1First | fnc1Second => exact .ok _ _
  case eci =>
    have hdesignator : RaisesOnly [.bbUnderrun, .badEciHeader] (readDesignator b) := fun _ h =>
      List.mem_pair.mpr (readDesignator_error h)
    exact (hdesignator.mono (by simp [listedFaults])).bind fun x =>
      ((eciRecord_raises cfg x.1).mono (by simp [listedFaults])).map _
  case eci1 id => exact (eciRecord_raises_nothing cfg (by omega)).map _
  case eci2 id => exact (eciRecord_raises_nothing cfg id.isLt).map _
  case eci3 id => exact (eciRecord_raises cfg id.toNat).map _
  case eciBad | illegal0110 | illegal1010 | illegal1011 | illegal1100 | illegal1101 | illegal1110 | illegal1111 =>
    exact .error List.mem_cons_self
  all_goals cases hseg

end Sys2Proof.Machine
end

section
/-! SUPPORT. How a command or a segment ends with a fault: which state it leaves, and from which cause
(spec/60_exceptions.md R302, R312). -/

namespace Sys2Proof.Machine

/-- SEG.DECODE and DECODE take the bit buffer over before anything can fault, so their fault leaves it reset (R312). -/
theorem command_clearBitBuffer_fault {s t : State} {body : State → Except Cause State}
    (hruns : ∀ u, body (clearBitBuffer s) = .ok u → u.activity ≠ .idle)
    (h : command (clearBitBuffer s) body = .next t) (hidle : t.activity = .idle) :
    ∃ c, body (clearBitBuffer s) = .error c ∧ t = ended (causeKind c) (causeCode c) [] ⟨[], 0, 0⟩ s := by
  obtain ⟨hi, hok | ⟨c, hraises, rfl⟩⟩ := command_next h
  · exact absurd hidle (hruns t hok)
  · exact ⟨c, hraises, (takeFault_of_idle hi).trans (ended_congr rfl rfl rfl)⟩

theorem execSegDecode_fault {version : Byte} {data : List Byte} {s t : State}
    (h : execSegDecode version data s = .next t) (hidle : t.activity = .idle) :
    ∃ c ∈ listedFaults (.segDecode version data), t = ended (causeKind c) (causeCode c) [] ⟨[], 0, 0⟩ s := by
  have hruns (u : State) (hu : (versionOperand version).map
      (fun ver => startRun .segRun ver data (clearBitBuffer s)) = .ok u) : u.activity ≠ .idle := by
    obtain ⟨ver, -, rfl⟩ := except_map_eq_ok hu
    simp
  obtain ⟨c, hraises, ht⟩ := command_clearBitBuffer_fault hruns h hidle
  exact ⟨c, (versionOperand_raises version).map _ c hraises, ht⟩

theorem execDecode_fault {version ecl : Byte} {raw : List Byte} {s t : State}
    (h : execDecode version ecl raw s = .next t) (hidle : t.activity = .idle) :
    ∃ c ∈ listedFaults (.decode version ecl raw), t = ended (causeKind c) (causeCode c) [] ⟨[], 0, 0⟩ s := by
  have hstages : RaisesOnly (listedFaults (.decode version ecl raw))
      (pipelineStages s.cfg version ecl raw s.work) := fun _ => pipelineStages_raises
  have hruns (u : State) (hu : (pipelineStages s.cfg version ecl raw s.work).map
      (fun w => startRun (.decodeRun ecl) version.toNat w.agg { clearBitBuffer s with work := w }) = .ok u) :
      u.activity ≠ .idle := by
    obtain ⟨w, -, rfl⟩ := except_map_eq_ok hu
    simp
  obtain ⟨c, hraises, ht⟩ := command_clearBitBuffer_fault hruns h hidle
  exact ⟨c, hstages.map _ c hraises, ht⟩

theorem execBbRead_fault {n : Byte} {s t : State} (h : execBbRead n s = .next t) (hfault : t.status.kind ≠ 0x00) :
    ∃ c ∈ listedFaults (.bbRead n), t = ended (causeKind c) (causeCode c) [] s.bb s := by
  obtain ⟨hi, hok | ⟨c, hraises, rfl⟩⟩ := command_next h
  · obtain ⟨r, -, hcomplete⟩ := bind_ok hok
    cases hcomplete
    exact absurd rfl hfault
  · exact ⟨c, (read_raises (s8Operand n) s.bb).bind (fun r => .ok _ _) c hraises, takeFault_of_idle hi⟩

/-- A command that is one answer faults with a cause of its fields. -/
theorem answer_fault {s t : State} {fields : Except Cause (List Byte)} {causes : List Cause}
    (hfields : RaisesOnly causes fields) (h : answer s fields = .next t) (hfault : t.status.kind ≠ 0x00) :
    ∃ c ∈ causes, t = ended (causeKind c) (causeCode c) [] s.bb s := by
  obtain ⟨hi, ⟨f, -, rfl⟩ | ⟨c, hraises, rfl⟩⟩ := answer_next h
  · exact absurd rfl hfault
  · exact ⟨c, hfields c hraises, takeFault_of_idle hi⟩

/-- Every command but the four that touch the bit buffer answers fields that raise what R304 lists for it. -/
theorem exec_answers_listed {i : Instr} (hw : WellFormed i) (hcmd : isSegment i = false)
    (htouch : touchesBitBuffer i = false) (s : State) :
    ∃ fields, exec i s = answer s fields ∧ RaisesOnly (listedFaults i) fields := by
  cases i
  case gfAdd | gfMul | gfExp | rsSyn | bbAvail => exact ⟨.ok _, rfl, .ok _ _⟩
  case gfInv a => exact ⟨_, rfl, (ginv_raises a).map _⟩
  case gfLog a => exact ⟨_, rfl, (glog_raises a).map _⟩
  case gfMono degree coefficient => exact ⟨_, rfl, (mono_raises _ coefficient).map _⟩
  case polyNew c degree => exact ⟨_, rfl, (norm_raises c _).map _⟩
  case polyDeg | polyCoef | polyIsZero | polyEval | polyMulI => exact ⟨_, rfl, withPoly_raises hw (.ok _ _)⟩
  case polyMulM p degree coefficient =>
    exact ⟨_, rfl, withPoly_raises hw ((pmulmChecked_raises _ _ coefficient).map _)⟩
  case polyAdd p q => exact ⟨_, rfl, withPolys_raises hw.1 hw.2 (.ok _ _)⟩
  case polyMul p q => exact ⟨_, rfl, withPolys_raises hw.1 hw.2 ((pmulChecked_raises _ _).map _)⟩
  case polyDiv p q => exact ⟨_, rfl, withPolys_raises hw.1 hw.2 ((pdiv_raises _ _).map _)⟩
  case polyMod p q => exact ⟨_, rfl, withPolys_raises hw.1 hw.2 (((pdiv_raises _ _).map _).map _)⟩
  case rsEuclid p twoS =>
    exact ⟨_, execRsEuclid_eq_answer p twoS s, withPoly_raises hw ((rsEuclid_raises (strip_canonical p) _).map _)⟩
  case rsChien p => exact ⟨_, execRsChien_eq_answer p s, withPoly_raises hw ((rsChien_raises _).map _)⟩
  case rsForney p q xloc =>
    obtain ⟨hpfit, hqfit, -⟩ := hw
    exact ⟨_, execRsForney_eq_answer p q xloc s, withPolys_raises hpfit hqfit ((rsForney_raises _ _ xloc).map _)⟩
  case rsDecode received twoS =>
    exact ⟨_, execRsDecode_eq_answer received twoS s, (corrected_raises received _).map _⟩
  case deint version ecl raw =>
    exact ⟨_, execDeint_eq_answer version ecl raw s, ((deinterleave_raises _ version ecl raw _).map _).map _⟩
  case bbLoad | bbRead | segDecode | decode => cases htouch
  all_goals cases hcmd

/-- The commands whose whole packet hands the bit buffer over to a segment stream (R312). -/
def startsStream : Instr → Bool
  | .segDecode _ _ => true
  | .decode _ _ _ => true
  | _ => false

/-- The bit buffer after a fault of the command `i`. -/
def faultBuffer (i : Instr) (b : BitBuffer) : BitBuffer := if startsStream i then ⟨[], 0, 0⟩ else b

theorem faultBuffer_of_untouched {i : Instr} (h : touchesBitBuffer i = false) (b : BitBuffer) :
    faultBuffer i b = b := by
  cases i
  case segDecode | decode => cases h
  all_goals rfl

/-- The fault of a command: a cause that R304 lists for it, no field, and the bit buffer as R312 says. -/
theorem exec_command_fault {i : Instr} {s t : State} (hw : WellFormed i) (hcmd : isSegment i = false)
    (h : exec i s = .next t) (hidle : t.activity = .idle) (hfault : t.status.kind ≠ 0x00) :
    ∃ c ∈ listedFaults i, t = ended (causeKind c) (causeCode c) [] (faultBuffer i s.bb) s := by
  cases htouch : touchesBitBuffer i with
  | false =>
    obtain ⟨fields, hanswer, hfields⟩ := exec_answers_listed hw hcmd htouch s
    rw [faultBuffer_of_untouched htouch]
    exact answer_fault hfields (hanswer.symm.trans h) hfault
  | true =>
    cases i
    case bbLoad bytes =>
      obtain rfl := execBbLoad_next h
      exact absurd rfl hfault
    case bbRead n => exact execBbRead_fault h hfault
    case segDecode version data => exact execSegDecode_fault h hidle
    case decode version ecl raw => exact execDecode_fault h hidle
    all_goals cases htouch

/-- A segment that ends the run is TERMINATOR, or faults with a cause of its effect (R242, R312). -/
theorem exec_segment_ends {i : Instr} {s t : State} (hseg : isSegment i = true) (h : exec i s = .next t)
    (hidle : t.activity = .idle) :
    t = endRun s ∨ ∃ c ∈ listedFaults i, t = ended (causeKind c) (causeCode c) [] ⟨[], 0, 0⟩ s := by
  by_cases hterm : i = .terminator
  · subst hterm
    have hterminator : execTerminator s = .next t := h
    obtain ⟨-, hend | ⟨c, hraises, -⟩⟩ := segment_next hterminator
    · exact .inl (Except.ok.inj hend).symm
    · cases hraises
  · rw [exec_eq_segmentBody hseg hterm] at h
    obtain ⟨hi, hbody | ⟨c, hraises, rfl⟩⟩ := segment_next h
    · obtain ⟨x, -, rfl⟩ := except_map_eq_ok hbody
      exact absurd hidle hi
    · exact .inr ⟨c, (segmentEffect_raises _ _ _ hseg hterm).map _ c hraises, takeFault_of_run hi⟩

end Sys2Proof.Machine
end

section
/-! CLAIMS. Family 60_exceptions: the faults, their codes and the state after them (spec/60_exceptions.md R301 to R304,
R312). -/

namespace Sys2Proof.Machine

/-- Settles O20: the fault of a command or of a segment is a cause of its body, and each body raises what is listed.
-/
theorem onlyListedFaultsAreRaised : Obligations.OnlyListedFaultsAreRaised := by
  intro i s t hw _ _ h hidle hfault
  cases hlevel : isSegment i with
  | false =>
    obtain ⟨c, hlisted, rfl⟩ := exec_command_fault hw hlevel h hidle hfault
    exact ⟨c, hlisted, rfl⟩
  | true =>
    obtain rfl | ⟨c, hlisted, rfl⟩ := exec_segment_ends hlevel h hidle
    · exact absurd rfl hfault
    · exact ⟨c, hlisted, rfl⟩

/-- A whole SEG.DECODE or DECODE packet is one that decodes to such a command (R91, R312). -/
theorem takesBitBuffer_iff {bytes : List Byte} :
    TakesBitBuffer bytes ↔ ∃ i, decodePacket bytes = .ok i ∧ startsStream i = true := by
  constructor
  · rintro (⟨version, data, hfits, hencode⟩ | ⟨version, ecl, raw, hfits, hencode⟩)
    · exact ⟨.segDecode version data, (eachPacketHasOneEncoding bytes _).mpr ⟨hfits, hencode⟩, rfl⟩
    · exact ⟨.decode version ecl raw, (eachPacketHasOneEncoding bytes _).mpr ⟨hfits, hencode⟩, rfl⟩
  · rintro ⟨i, hdecode, hstream⟩
    obtain ⟨hfits, hencode⟩ := (eachPacketHasOneEncoding bytes i).mp hdecode
    cases i
    case segDecode version data => exact .inl ⟨version, data, hfits, hencode⟩
    case decode version ecl raw => exact .inr ⟨version, ecl, raw, hfits, hencode⟩
    all_goals cases hstream

/-- The fault of a step between commands: of the packet, with the bit buffer left alone, or of its command. -/
theorem step_packet_fault {s t : State} {bytes : List Byte} {rest : List HostAction} (hi : s.activity = .idle)
    (hscript : s.script = .packet bytes :: rest) (h : step s = .next t) (hidle : t.activity = .idle)
    (hfault : t.status.kind ≠ 0x00) :
    ∃ c b, t = ended (causeKind c) (causeCode c) [] b { s with script := rest } ∧
      (TakesBitBuffer bytes → b = ⟨[], 0, 0⟩) ∧ (¬ TakesBitBuffer bytes → b = s.bb) := by
  rw [takesBitBuffer_iff]
  cases hdecode : decodePacket bytes with
  | error r =>
    rw [step_of_rejected hi hscript hdecode] at h
    cases h
    exact ⟨rejectCause r, s.bb, rfl, by simp, fun _ => rfl⟩
  | ok i =>
    rw [step_of_packet hi hscript hdecode] at h
    obtain ⟨hw, -⟩ := (eachPacketHasOneEncoding bytes i).mp hdecode
    obtain ⟨c, -, rfl⟩ := exec_command_fault hw (isSegment_of_decodePacket hdecode) h hidle hfault
    refine ⟨c, _, rfl, ?_, fun hkeeps => if_neg fun hstream => hkeeps ⟨i, rfl, hstream⟩⟩
    rintro ⟨_, ⟨⟩, hstream⟩
    exact if_pos hstream

/-- The step that ends a run leaves the bit buffer reset, and a fault has no field (R240, R312). -/
theorem step_run_ends {s t : State} (hi : s.activity ≠ .idle) (h : step s = .next t) (hidle : t.activity = .idle) :
    (∃ fields, t = ended 0x00 0x00 fields ⟨[], 0, 0⟩ s) ∨
      ∃ c, t = ended (causeKind c) (causeCode c) [] ⟨[], 0, 0⟩ s := by
  cases hdecode : decodeSegment (s.bb.window longestRow) with
  | error r =>
    rw [step_of_streamEnd hi hdecode] at h
    cases h
    exact .inl ⟨_, endRun_eq_ended s⟩
  | ok row =>
    rw [step_of_row hi hdecode] at h
    obtain rfl | ⟨c, -, rfl⟩ := exec_segment_ends (isSegment_of_decodeSegment hdecode) h hidle
    · exact .inl ⟨_, endRun_eq_ended _⟩
    · exact .inr ⟨c, rfl⟩

/-- Settles O15: between commands by the fault of the packet or of its command, inside a run by its end. -/
theorem faultsLeaveTheStatedState : Obligations.FaultsLeaveTheStatedState := by
  refine ⟨fun s t bytes rest hi hscript h hidle hfault => ?_, fun s t hi h hidle => ?_⟩
  · obtain ⟨c, b, rfl, htakes, hkeeps⟩ := step_packet_fault hi hscript h hidle hfault
    exact ⟨fun hwhole => by rw [htakes hwhole]; rfl, fun hother => by rw [hkeeps hother]; rfl⟩
  · obtain ⟨fields, rfl⟩ | ⟨c, rfl⟩ := step_run_ends hi h hidle
    · exact ⟨fields, rfl, fun hfault => absurd rfl hfault⟩
    · exact ⟨[], rfl, fun _ => rfl⟩

/-- The rows of the table of R303, so that a fact about every cause is one evaluation. -/
def causeTable : List Cause :=
  [.gfInvZero, .gfLogZero, .polyEmpty, .negDegree, .divByZeroPoly, .rawLen, .cursor, .badVersion, .badEcl, .badOpcode,
   .badPacket, .lenOverflow, .euclidArg, .bbUnderrun, .bbNeg, .bbWidth, .badMode, .badEciHeader, .saTruncated, .numValue,
   .alnumValue, .eciRange, .sigma0Zero, .rootCount, .zeroDenom, .posRange]

theorem mem_causeTable (c : Cause) : c ∈ causeTable := by
  cases c <;> decide

theorem causeTable_codes_nodup : (causeTable.map causeCode).Nodup := by decide

theorem causeTable_ranges : ∀ c ∈ causeTable, causeCode c ≠ 0x00 ∧
    (causeKind c = 0x01 ↔ (causeCode c).toNat ≤ 0x0D) ∧
    (causeKind c = 0x02 ↔ 0x20 ≤ (causeCode c).toNat ∧ (causeCode c).toNat ≤ 0x22) ∧
    (causeKind c = 0x03 ↔ 0x30 ≤ (causeCode c).toNat ∧ (causeCode c).toNat ≤ 0x35) ∧
    (causeKind c = 0x04 ↔ 0x40 ≤ (causeCode c).toNat ∧ (causeCode c).toNat ≤ 0x43) := by decide

/-- Settles O19: the codes of the table are distinct, and each row stands in the range of its kind. -/
theorem causeCodesIdentifyFaults : Obligations.CauseCodesIdentifyFaults := by
  have hrow (c : Cause) := causeTable_ranges c (mem_causeTable c)
  refine ⟨fun c d hcode => ?_, fun c => ⟨causeKind_ne_zero c, ?_⟩, fun c => ?_, fun c => ?_, fun c => ?_, fun c => ?_⟩
  · exact List.inj_on_of_nodup_map causeTable_codes_nodup (mem_causeTable c) (mem_causeTable d) hcode
  all_goals obtain ⟨hcode, harg, hrange, hformat, hrs⟩ := hrow c
  · exact hcode
  · exact harg
  · exact hrange
  · exact hformat
  · exact hrs

end Sys2Proof.Machine
end

section
/-! CLAIMS. Family 42_reed_solomon: the key equation of the Euclid stage, and the errors that RS.DECODE corrects
(spec/42_reed_solomon.md R182, R184, R191). -/

namespace Sys2Proof.Machine

open Polynomial

/-! ## The key equation -/

section
variable {F : Type} [Field F] {φ : Byte → F} (hφ : ReadsField φ)
include hφ

/-- A constant factor raises no degree. -/
theorem pdeg_pmuli_le {p : Poly} (hp : Canonical p) (c : Byte) : pdeg (pmuli p c) ≤ pdeg p := by
  rw [← natDegree_toPolynomial hφ hp, ← natDegree_toPolynomial hφ (pmuli_canonical hp c), toPolynomial_pmuli hφ]
  exact natDegree_mul_C_le _ _

/-- Two polynomials whose sum x^n divides have the same coefficients below x^n. -/
theorem coef_eq_of_dvd_add {p q : Poly} {n : Nat} (h : X ^ n ∣ toPolynomial φ p + toPolynomial φ q) {k : Nat}
    (hk : k < n) : coef p k = coef q k := by
  have := hφ.charTwo
  have hzero := X_pow_dvd_iff.mp h k hk
  rw [coeff_add, coeff_toPolynomial hφ, coeff_toPolynomial hφ] at hzero
  exact hφ.injective (CharTwo.add_eq_zero.mp hzero)

/-- Scaling a solution of the key equation keeps it a solution. -/
theorem dvd_keyEquation_pmuli {t r spoly : Poly} (ht : Canonical t) (hs : Canonical spoly) {n : Nat}
    (h : X ^ n ∣ toPolynomial φ t * toPolynomial φ spoly + toPolynomial φ r) (c : Byte) :
    X ^ n ∣ toPolynomial φ (pmul (pmuli t c) spoly) + toPolynomial φ (pmuli r c) := by
  rw [toPolynomial_pmul hφ (pmuli_canonical ht c) hs, toPolynomial_pmuli hφ, toPolynomial_pmuli hφ,
    mul_right_comm, ← add_mul]
  exact h.mul_right _

end

/-- Settles O39: the invariant of the loop where it exits, scaled by the inverse of the constant term. -/
theorem euclidSolvesTheKeyEquation : Obligations.EuclidSolvesTheKeyEquation := by
  intro spoly twoS e sigma omega hs hok
  obtain ⟨hdeg, hloop, inv, hinv, rfl, rfl⟩ := rsEuclid_eq_ok.mp hok
  have hpos := Nat.zero_lt_of_lt hdeg
  obtain ⟨e', hloop', hexit⟩ := euclidLoop_exits (e := euclidStart spoly twoS) hpos spoly.length
    (monomial_canonical twoS 1) hs (.inr ((length_of_canonical hs).symm ▸ Nat.lt_succ_self _))
  obtain rfl : e' = e := by simpa [hloop] using hloop'.symm
  obtain ⟨F, _, φ, hφ⟩ := exists_readsField
  have := hφ.charTwo
  obtain ⟨hkeeps, hstop⟩ := (keepsInvariant_start hφ hs hdeg).exit hφ hpos hexit
  obtain ⟨hsolves, -, -, hgoesOn, -, hsize, -⟩ := hkeeps.invariant
  have hsigma := pdeg_pmuli_le hφ hkeeps.t inv
  have homega := pdeg_pmuli_le hφ hkeeps.r inv
  rw [natDegree_toPolynomial hφ hkeeps.rLast] at hgoesOn hsize
  rw [natDegree_toPolynomial hφ hkeeps.t] at hsize
  refine ⟨pmuli_canonical hkeeps.t inv, pmuli_canonical hkeeps.r inv, ?_, by omega, by omega, fun k hk => ?_⟩
  · rw [coef_pmuli, ← pcoef_eq_coef]
    exact ginv_eq_ok_iff.mp hinv
  · exact coef_eq_of_dvd_add hφ (dvd_keyEquation_pmuli hφ hkeeps.t hs hsolves inv) hk

/-! ## The errors within capacity -/

/-- Settles O44: `corrected_of_differences` is what the command answers. -/
theorem errorsWithinCapacityAreCorrected : Obligations.ErrorsWithinCapacityAreCorrected := by
  intro c received twoS s hi h255 hlength hcode hfew
  exact exec_rsDecode_ok hi (corrected_of_differences hlength h255 hcode hfew)

theorem differences_cons (a b : Byte) (as bs : List Byte) :
    differences (a :: as) (b :: bs) = differences as bs + if a = b then 0 else 1 := by
  by_cases hab : a = b <;> simp [differences, hab]

theorem differences_self (c : List Byte) : differences c c = 0 := by
  induction c with
  | nil => rfl
  | cons a c ih => rw [differences_cons, if_pos rfl, ih]

/-- A vector with one entry overwritten differs at no other place. -/
theorem differences_set_le_one (c : List Byte) (p : Nat) (wrong : Byte) : differences (c.set p wrong) c ≤ 1 := by
  induction c generalizing p with
  | nil => exact Nat.zero_le 1
  | cons a c ih =>
    cases p with
    | zero =>
      rw [List.set_cons_zero, differences_cons, differences_self]
      split <;> omega
    | succ p =>
      rw [List.set_cons_succ, differences_cons, if_pos rfl]
      exact ih p

/-- Settles O43: one wrong codeword is within the capacity of two check symbols or more. -/
theorem oneErrorIsCorrected : Obligations.OneErrorIsCorrected := by
  intro c p wrong twoS s hi h255 _ htwo hcode
  refine errorsWithinCapacityAreCorrected c (c.set p wrong) twoS s hi h255 List.length_set hcode ?_
  have hone := differences_set_le_one c p wrong
  omega

end Sys2Proof.Machine
end

section
/-! CLAIMS. Family 40_gf256: the bytes are a field, and the tables multiply modulo 0x011D (spec/40_gf256.md R138,
R139). -/

namespace Sys2Proof.Machine

/-! ## The product without tables -/

/-- One pass of shift and add, most significant bit of the multiplier first. -/
def shiftAdd (a b : Byte) (k : Nat) (r : Byte) : Byte :=
  (r <<< 1) ^^^ (if r.getLsbD 7 then 0x1D else 0) ^^^ (if a.getLsbD k then b else 0)

theorem reducedProduct_eq_foldr (a b : Byte) : reducedProduct a b = (List.range 8).foldr (shiftAdd a b) 0 := rfl

theorem shiftAdd_eq (a b : Byte) (k : Nat) (r : Byte) :
    shiftAdd a b k r = gmul 2 r ^^^ if a.getLsbD k then b else 0 := by
  rw [gmul_two, shiftAdd, timesAlpha, BitVec.msb_eq_getLsbD_last]
  rfl

/-- A byte shifted right leaves its most significant bit 0, so that doubling it in the field shifts it back. -/
theorem gmul_two_ushiftRight_succ (a : Byte) (k : Nat) : gmul 2 (a >>> (k + 1)) = (a >>> (k + 1)) <<< 1 := by
  have hmsb : (a >>> (k + 1)).msb = false := by
    rw [BitVec.msb_eq_getLsbD_last, BitVec.getLsbD_ushiftRight]
    exact BitVec.getLsbD_of_ge _ _ (by omega)
  rw [gmul_two, timesAlpha, hmsb]
  exact BitVec.xor_zero

/-- The bits of a byte from `k` on are those from `k + 1` on and bit `k`. -/
theorem ushiftRight_eq_double_xor_bit (a : Byte) (k : Nat) :
    a >>> k = gmul 2 (a >>> (k + 1)) ^^^ if a.getLsbD k then 1 else 0 := by
  rw [gmul_two_ushiftRight_succ]
  ext i hi
  cases i with
  | zero => cases h : a.getLsbD k <;> simp [h]
  | succ i =>
    have hplace : k + 1 + i = k + (i + 1) := by omega
    cases a.getLsbD k <;> simp [hplace]

/-- Shift and add over the low `n` bits takes the product with the bits above them to the product with the whole. -/
theorem foldr_shiftAdd (a b : Byte) (n : Nat) :
    (List.range n).foldr (shiftAdd a b) (gmul (a >>> n) b) = gmul a b := by
  induction n with
  | zero => rw [BitVec.ushiftRight_zero]; rfl
  | succ n ih =>
    have hbit : (if a.getLsbD n then b else 0) = gmul (if a.getLsbD n then 1 else 0) b := by
      split
      · exact (one_gmul b).symm
      · rfl
    rw [List.range_succ, List.foldr_append, List.foldr_cons, List.foldr_nil, shiftAdd_eq, hbit, ← gmul_assoc,
      ← xor_gmul, ← ushiftRight_eq_double_xor_bit, ih]

theorem gmul_eq_reducedProduct (a b : Byte) : gmul a b = reducedProduct a b := by
  have hnothing : a >>> 8 = 0 := BitVec.ushiftRight_eq_zero (le_refl 8)
  rw [reducedProduct_eq_foldr, ← foldr_shiftAdd a b 8, hnothing]
  rfl

/-! ## Inverses and logarithms -/

theorem glog_gexp (i : Nat) : glog (gexp i) = .ok (i % 255) := by
  rw [glog, LOG_gexp]

theorem ginv_gexp (i : Nat) : ginv (gexp i) = .ok (gexp (255 - i % 255)) := by
  have hlt : i % 255 < 255 := Nat.mod_lt i (by decide)
  rw [gexp_eq_iff.mpr (Nat.mod_mod i 255).symm]
  exact ginv_of_gmul_eq_one (gmul_gexp_inverse hlt.le)

/-- Settles O27: the laws of the tables, with the product by shift and add from bit 7 down. -/
theorem gfIsAField : Obligations.GfIsAField := by
  refine ⟨fun a b => ⟨gmul_comm a b, gmul_zero_right a, gmul_one a⟩, gmul_assoc, gmul_xor, gmul_eq_reducedProduct,
    fun a ha => ?_, fun i => ⟨gexp_ne_zero i, glog_gexp i, ginv_gexp i⟩, fun i j => gexp_eq_iff⟩
  obtain ⟨b, hb⟩ := exists_ginv ha
  obtain ⟨l, hl, rfl, -⟩ := exists_EXP ha
  have hinverse := ginv_eq_ok_iff.mp hb
  exact ⟨b, l, hb, hinverse, ginv_of_gmul_eq_one ((gmul_comm _ _).trans hinverse), glog_eq_ok.mpr ⟨hl, rfl⟩,
    Nat.le_of_lt_succ hl, gexp_of_lt hl⟩

end Sys2Proof.Machine
end

section
/-! CLAIMS. Family 44_bitbuffer: a read as arithmetic on BBUF, and two reads as one (spec/44_bitbuffer.md R235). -/

namespace Sys2Proof.Machine

/-- The number that `n` bits at `p` spell, as division and remainder of the number that all the bits spell. -/
theorem natOfBits_take_drop (bits : List Bool) {p n : Nat} (h : p + n ≤ bits.length) :
    natOfBits ((bits.drop p).take n) = natOfBits bits / 2 ^ (bits.length - p - n) % 2 ^ n := by
  have hlength : ((bits.drop p).drop n).length = bits.length - p - n := by rw [List.length_drop, List.length_drop]
  have htake : ((bits.drop p).take n).length = n := by
    rw [List.length_take, List.length_drop]
    omega
  have hlow := natOfBits_lt ((bits.drop p).drop n)
  have hmid := natOfBits_lt ((bits.drop p).take n)
  have hsplit : natOfBits bits = (natOfBits (bits.take p) * 2 ^ n + natOfBits ((bits.drop p).take n)) *
      2 ^ (bits.length - p - n) + natOfBits ((bits.drop p).drop n) := by
    conv_lhs => rw [← List.take_append_drop p bits, ← List.take_append_drop n (bits.drop p), ← List.append_assoc]
    rw [natOfBits_append, natOfBits_append, htake, hlength]
  rw [hlength] at hlow
  rw [htake] at hmid
  rw [hsplit, Nat.mul_comm, Nat.mul_add_div (Nat.two_pow_pos _), Nat.div_eq_of_lt hlow, Nat.add_zero,
    Nat.mul_add_mod', Nat.mod_eq_of_lt hmid]

namespace BitBuffer

/-- A read that answers has taken the bits of the window (R234). -/
theorem of_read_ok {b b' : BitBuffer} (hb : b.Wf) {n v : Nat} (h : b.read n = .ok (v, b')) :
    1 ≤ n ∧ n ≤ 32 ∧ n ≤ b.avail ∧ v = natOfBits (b.window n) ∧ b' = b.skip n := by
  obtain ⟨h1, h32, havail, hr⟩ := read_eq_ok.mp h
  have hn : n ≤ b.avail := by omega
  have hread := read_ok hb (by omega) (by omega) hn
  rw [h] at hread
  cases hread
  exact ⟨by omega, by omega, hn, rfl, rfl⟩

/-- Two windows in a row spell what one spells. -/
theorem natOfBits_window_add {b : BitBuffer} (hb : b.Wf) {m n : Nat} (hm : m ≤ b.avail)
    (hn : n ≤ (b.skip m).avail) : natOfBits (b.window (m + n)) =
      natOfBits (b.window m) * 2 ^ n + natOfBits ((b.skip m).window n) := by
  rw [window_add hb hm, natOfBits_append, window_length (skip_wf hb hm), Nat.min_eq_left hn]

end BitBuffer

/-- Settles O51: the window of a read as bits of BBUF, and as two windows in a row. -/
theorem readsInArithmetic : Obligations.ReadsInArithmetic := by
  refine fun b hb => ⟨fun n v b' h => ?_, fun n₁ n₂ v₁ v₂ b₁ b₂ h₁ h₂ h32 => ?_⟩
  · obtain ⟨-, -, hn, rfl, rfl⟩ := BitBuffer.of_read_ok hb h
    have hlength := byteBits_length b.bbuf
    have havail := BitBuffer.avail_eq hb
    obtain ⟨hwf, hpos, -⟩ := BitBuffer.take_cursor 0 hb hn
    refine ⟨?_, hpos, BitBuffer.skip_bbuf n b, hwf⟩
    rw [window_eq_take_drop hb hn, natOfBits_take_drop _ (by omega), hlength]
    rfl
  · obtain ⟨hpos₁, -, hn₁, rfl, rfl⟩ := BitBuffer.of_read_ok hb h₁
    obtain ⟨-, -, hn₂, rfl, rfl⟩ := BitBuffer.of_read_ok (BitBuffer.skip_wf hb hn₁) h₂
    have havail := BitBuffer.skip_avail hb hn₁
    rw [BitBuffer.read_ok hb (by omega) h32 (by omega), BitBuffer.natOfBits_window_add hb hn₁ hn₂, BitBuffer.skip_add]

end Sys2Proof.Machine
end

section
/-! CLAIMS. Family 43_deinterleave: the candidate layout (spec/43_deinterleave.md R216). -/

namespace Sys2Proof.Machine

/-- What a level of a version of the candidate table has to be, as a test: its layout well-formed and adding up to
TOTAL, and the next level with fewer data codewords. -/
def candidateAddsUp (ver ecl : Nat) : Bool :=
  wellFormedLayout (layoutOf State.reset.cfg ver ecl) &&
    decide (((blockSizes (layoutOf State.reset.cfg ver ecl).groups).map
      (· + (layoutOf State.reset.cfg ver ecl).ec)).sum = totalOf State.reset.cfg ver) &&
    decide (ecl < 3 → (blockSizes (layoutOf State.reset.cfg ver (ecl + 1)).groups).sum <
      (blockSizes (layoutOf State.reset.cfg ver ecl).groups).sum)

theorem candidateTable_addsUp : ∀ ver ∈ List.range' 1 40, ∀ ecl ∈ List.range 4, candidateAddsUp ver ecl = true := by
  decide +kernel

/-- Settles O47: the test of every row of the table. -/
theorem candidateLayoutsAddUp : Obligations.CandidateLayoutsAddUp := by
  intro ver hlow hhigh ecl hecl
  have htest := candidateTable_addsUp ver (List.mem_range'_1.mpr ⟨hlow, by omega⟩) ecl
    (List.mem_range.mpr (Nat.lt_succ_of_le hecl))
  rw [candidateAddsUp, Bool.and_eq_true, Bool.and_eq_true, decide_eq_true_eq, decide_eq_true_eq,
    wellFormedLayout_iff, and_assoc] at htest
  exact htest

end Sys2Proof.Machine
end

section
/-! SUPPORT. Where the loops of R212 put each raw codeword: the order in which they write, and which index of RAW each
byte of a block is read from (spec/43_deinterleave.md R212, R214). -/

namespace Sys2Proof.Machine

open Sys2Proof.Config

/-! ## One byte of the blocks -/

/-- The byte at (block, offset), if there is one. -/
def byteAt (blk : List Block) (place : Nat × Nat) : Option Byte :=
  blk[place.1]?.bind fun b => b.buf[place.2]?

/-- A write puts the next byte of RAW at its target, if that is inside a buffer, and changes no other byte. -/
theorem byteAt_writeNext (raw : List Byte) (blk : List Block) (cur : Nat) (target place : Nat × Nat) :
    byteAt (writeNext raw (blk, cur) target).1 place =
      if place = target then (byteAt blk place).map fun _ => raw.getD cur 0 else byteAt blk place := by
  obtain ⟨j, i⟩ := place
  obtain ⟨j', i'⟩ := target
  simp only [byteAt, writeNext, List.getElem?_modify, Prod.mk.injEq]
  cases hb : blk[j]? with
  | none => simp
  | some b =>
    by_cases hj : j' = j
    · by_cases hi : i' = i
      · subst hj hi
        by_cases hlt : i' < b.buf.length <;> simp [hlt]
      · have hi' : ¬i = i' := fun h => hi h.symm
        simp [hj, hi, hi']
    · have hj' : ¬j = j' := fun h => hj h.symm
      simp [hj, hj']

/-- Writes whose targets an index of RAW is known for, the cursor counting up from `cur`: each target reads the byte of
its index. -/
theorem byteAt_foldl_writeNext {raw : List Byte} {index : Nat × Nat → Nat} {targets : List (Nat × Nat)}
    {blk : List Block} {cur : Nat} (hindex : targets.map index = List.range' cur targets.length)
    (place : Nat × Nat) : byteAt (targets.foldl (writeNext raw) (blk, cur)).1 place =
      if place ∈ targets then (byteAt blk place).map fun _ => raw.getD (index place) 0 else byteAt blk place := by
  induction targets generalizing blk cur with
  | nil => rfl
  | cons target targets ih =>
    rw [List.map_cons, List.length_cons, List.range'_succ, List.cons.injEq] at hindex
    obtain ⟨hcur, htail⟩ := hindex
    have hrest := ih (blk := (writeNext raw (blk, cur) target).1) (cur := cur + 1) htail
    rw [List.foldl_cons]
    refine hrest.trans ?_
    rw [byteAt_writeNext]
    by_cases heq : place = target
    · subst heq
      by_cases hmem : place ∈ targets <;> simp [hmem, hcur, Function.comp_def]
    · simp [heq]

theorem writeNext_ndata (raw : List Byte) (at' : List Block × Nat) (target : Nat × Nat) :
    (writeNext raw at' target).1.map Block.ndata = at'.1.map Block.ndata := by
  refine List.ext_getElem (by simp [writeNext]) fun j hj hj' => ?_
  simp only [writeNext, List.getElem_map, List.getElem_modify]
  split <;> rfl

theorem foldl_writeNext_ndata (raw : List Byte) (targets : List (Nat × Nat)) (at' : List Block × Nat) :
    (targets.foldl (writeNext raw) at').1.map Block.ndata = at'.1.map Block.ndata := by
  induction targets generalizing at' with
  | nil => rfl
  | cons target targets ih => exact (ih _).trans (writeNext_ndata raw at' target)

/-! ## The order of the writes -/

/-- A loop over rows of `nb` blocks whose places have consecutive indices. -/
theorem map_rows_eq_range' {index : Nat × Nat → Nat} {target : Nat → Nat → Nat × Nat} {nb : Nat} (n s c : Nat)
    (h : ∀ e < n, ∀ j < nb, index (target (s + e) j) = c + e * nb + j) :
    ((List.range' s n).flatMap fun i => (List.range nb).map (target i)).map index = List.range' c (n * nb) := by
  induction n generalizing s c with
  | zero => rw [Nat.zero_mul]; rfl
  | succ n ih =>
    have hfirst : ((List.range nb).map (target s)).map index = List.range' c nb := by
      rw [List.range'_eq_map_range, List.map_map]
      refine List.map_congr_left fun j hj => ?_
      have hj' := h 0 (Nat.succ_pos n) j (List.mem_range.mp hj)
      rwa [Nat.zero_mul, Nat.add_zero, Nat.add_zero] at hj'
    have hrest := ih (s + 1) (c + nb) fun e he j hj => by
      rw [show s + 1 + e = s + (e + 1) by omega, h (e + 1) (Nat.succ_lt_succ he) j hj, Nat.succ_mul]
      omega
    rw [List.range'_succ, List.flatMap_cons, List.map_append, hfirst, hrest, List.range'_append_1, Nat.succ_mul,
      Nat.add_comm nb]

section
variable (nb a L : Nat)

/-- The index of RAW that the byte at (block, offset) is read from (R214): `nb` blocks, the first `L` of `a` data
codewords and the others of one more. -/
def rawIndex (place : Nat × Nat) : Nat :=
  if place.2 < a then place.2 * nb + place.1
  else if place.1 < L then a * nb + (nb - L) + (place.2 - a) * nb + place.1
  else if place.2 = a then a * nb + (place.1 - L)
  else a * nb + (nb - L) + (place.2 - (a + 1)) * nb + place.1

variable {nb a L}

/-- A data codeword that every block has. -/
theorem rawIndex_data {i : Nat} (hi : i < a) (j : Nat) : rawIndex nb a L (j, i) = i * nb + j := if_pos hi

/-- The data codeword that only the longer blocks have. -/
theorem rawIndex_extra {j : Nat} (hj : L ≤ j) : rawIndex nb a L (j, a) = a * nb + (j - L) := by
  rw [rawIndex, if_neg (Nat.lt_irrefl a), if_neg (Nat.not_lt.mpr hj), if_pos rfl]

/-- An error-correction codeword, after the data of its block. -/
theorem rawIndex_ecc (e j : Nat) :
    rawIndex nb a L (j, if j < L then a + e else a + e + 1) = a * nb + (nb - L) + e * nb + j := by
  unfold rawIndex
  dsimp only
  by_cases hj : j < L
  · rw [if_pos hj, if_neg (by omega), if_pos hj, Nat.add_sub_cancel_left]
  · rw [if_neg hj, if_neg (by omega), if_neg hj, if_neg (by omega), show a + e + 1 - (a + 1) = e by omega]

/-- The loops write their places in the order of the indices, so CUR is the index at each write (R214). -/
theorem map_rawIndex_writeOrder (ec : Nat) :
    (writeOrder nb a L ec).map (rawIndex nb a L) = List.range' 0 (writeOrder nb a L ec).length := by
  have hdata : ((List.range a).flatMap fun i => (List.range nb).map fun j => (j, i)).map (rawIndex nb a L) =
      List.range' 0 (a * nb) := by
    rw [List.range_eq_range' (n := a)]
    refine map_rows_eq_range' (index := rawIndex nb a L) (target := fun i j => (j, i)) a 0 0 fun e he j _ => ?_
    rw [Nat.zero_add, rawIndex_data he, Nat.zero_add]
  have hextra : ((List.range' L (nb - L)).map fun j => (j, a)).map (rawIndex nb a L) =
      List.range' (a * nb) (nb - L) := by
    rw [List.range'_eq_map_range, List.range'_eq_map_range, List.map_map, List.map_map]
    refine List.map_congr_left fun j _ => ?_
    exact (rawIndex_extra (Nat.le_add_right L j)).trans (by rw [Nat.add_sub_cancel_left])
  have hecc : ((List.range' a ec).flatMap fun i => (List.range nb).map fun j => (j, if j < L then i else i + 1)).map
      (rawIndex nb a L) = List.range' (a * nb + (nb - L)) (ec * nb) :=
    map_rows_eq_range' (target := fun i j => (j, if j < L then i else i + 1)) ec a _ fun e _ j _ => rawIndex_ecc e j
  have hall : (writeOrder nb a L ec).map (rawIndex nb a L) = List.range' 0 (a * nb + (nb - L) + ec * nb) := by
    rw [writeOrder, List.map_append, List.map_append, hdata, hextra, hecc]
    have hjoin := List.range'_append_1 (s := 0) (m := a * nb) (n := nb - L)
    have hjoin' := List.range'_append_1 (s := 0) (m := a * nb + (nb - L)) (n := ec * nb)
    rw [Nat.zero_add] at hjoin hjoin'
    rw [hjoin, hjoin']
  have hlength := congrArg List.length hall
  rw [List.length_map, List.length_range'] at hlength
  rw [hall, hlength]

section
variable {ec j : Nat} (hj : j < nb)
include hj

theorem mem_writeOrder_data {i : Nat} (hi : i < a) : (j, i) ∈ writeOrder nb a L ec := by
  rw [writeOrder, List.mem_append, List.mem_append]
  exact .inl (.inl (List.mem_flatMap.mpr ⟨i, List.mem_range.mpr hi, List.mem_map.mpr ⟨j, List.mem_range.mpr hj, rfl⟩⟩))

theorem mem_writeOrder_extra (hL : L ≤ j) : (j, a) ∈ writeOrder nb a L ec := by
  rw [writeOrder, List.mem_append, List.mem_append]
  exact .inl (.inr (List.mem_map.mpr ⟨j, List.mem_range'_1.mpr ⟨hL, by omega⟩, rfl⟩))

theorem mem_writeOrder_ecc {e : Nat} (he : e < ec) :
    (j, if j < L then a + e else a + e + 1) ∈ writeOrder nb a L ec := by
  rw [writeOrder, List.mem_append]
  exact .inr (List.mem_flatMap.mpr ⟨a + e, List.mem_range'_1.mpr ⟨by omega, by omega⟩,
    List.mem_map.mpr ⟨j, List.mem_range.mpr hj, rfl⟩⟩)

end

end

/-! ## The sizes of the blocks -/

/-- A sorted list of two neighbouring numbers has the smaller ones in front. -/
theorem eq_replicate_of_two_values {a : Nat} {d : List Nat} (hsorted : d.Pairwise (· ≤ ·))
    (hvalues : ∀ x ∈ d, x = a ∨ x = a + 1) :
    d = List.replicate (d.count a) a ++ List.replicate (d.length - d.count a) (a + 1) := by
  induction d with
  | nil => rfl
  | cons x d ih =>
    obtain ⟨hhead, htail⟩ := List.pairwise_cons.mp hsorted
    rcases hvalues x List.mem_cons_self with rfl | rfl
    · rw [List.count_cons_self, List.length_cons, Nat.add_sub_add_right, List.replicate_succ, List.cons_append,
        ← ih htail fun y hy => hvalues y (List.mem_cons_of_mem x hy)]
    · have hlong (y : Nat) (hy : y ∈ (a + 1) :: d) : y = a + 1 := by
        rcases List.mem_cons.mp hy with rfl | hmem
        · rfl
        · have hle := hhead y hmem
          exact (hvalues y hy).resolve_left (by omega)
      have hnone : ((a + 1) :: d).count a = 0 := List.count_eq_zero.mpr fun hmem => by
        have := hlong a hmem
        omega
      rw [hnone]
      exact List.eq_replicate_of_mem hlong

theorem LayoutWf.blockSizes_ne_nil {layout : Layout} (hwf : LayoutWf layout) : blockSizes layout.groups ≠ [] := by
  obtain ⟨hgroups, hcount, -⟩ := hwf
  intro hnil
  obtain ⟨g, hg⟩ := List.exists_mem_of_ne_nil _ hgroups
  refine (forall_mem_blockSizes_iff hcount fun _ => False).mp (fun x hx => ?_) g hg
  rw [hnil] at hx
  cases hx

/-- A well-formed layout has its short blocks first, and the others hold one data codeword more (R211). -/
theorem LayoutWf.sizes {layout : Layout} (hwf : LayoutWf layout) {d : List Nat}
    (hd : blockSizes layout.groups = d.map Nat.cast) :
    d = List.replicate (d.count (d.headD 0)) (d.headD 0) ++
      List.replicate (d.length - d.count (d.headD 0)) (d.headD 0 + 1) := by
  obtain ⟨-, -, -, -, hsorted, hvalues⟩ := hwf
  have hhead : (d.map (Nat.cast : Nat → Int)).headD 0 = (d.headD 0 : Nat) := by cases d <;> rfl
  rw [hd] at hsorted hvalues
  rw [hhead] at hvalues
  refine eq_replicate_of_two_values (List.isChain_iff_pairwise.mp (List.isChain_iff_getElem.mpr fun j hj => ?_))
    fun x hx => ?_
  · have hle := hsorted j (by rwa [List.length_map])
    rw [List.getD_eq_getElem _ _ (by rw [List.length_map]; omega), List.getD_eq_getElem _ _ (by rwa [List.length_map]),
      List.getElem_map, List.getElem_map] at hle
    exact Int.ofNat_le.mp hle
  · have hvalue := hvalues x (List.mem_map.mpr ⟨x, hx, rfl⟩)
    omega

/-- A block before it is filled (R212, step 2). -/
def emptyBlock (ec x : Nat) : Block := ⟨x, List.replicate (x + ec) 0⟩

theorem allocateBlocks_eq_map {layout : Layout} {ec : Nat} (hec : ec = layout.ec) {d : List Nat}
    (hd : blockSizes layout.groups = d.map Nat.cast) : allocateBlocks layout = d.map (emptyBlock ec) := by
  rw [allocateBlocks, hd, ← hec, List.map_map]
  refine List.map_congr_left fun x _ => ?_
  rw [Function.comp_apply, emptyBlock, Int.toNat_natCast, ← Int.natCast_add, Int.toNat_natCast]

/-- The first index whose element passes the test, where only the elements at the end do. -/
theorem findIdx_append_of_tail {α : Type} {p : α → Bool} {xs ys : List α} (hxs : ∀ x ∈ xs, p x = false)
    (hys : ∀ y ∈ ys, p y = true) : (xs ++ ys).findIdx p = xs.length := by
  induction xs with
  | nil =>
    cases ys with
    | nil => rfl
    | cons y ys => rw [List.nil_append, List.findIdx_cons, hys y List.mem_cons_self]; rfl
  | cons x xs ih =>
    rw [List.cons_append, List.findIdx_cons, hxs x List.mem_cons_self,
      ih fun y hy => hxs y (List.mem_cons_of_mem x hy)]
    rfl

section
variable {d : List Nat} {a L : Nat} (hsizes : d = List.replicate L a ++ List.replicate (d.length - L) (a + 1))
include hsizes

theorem getElem?_sizes {j x : Nat} (h : d[j]? = some x) : x = if j < L then a else a + 1 := by
  rw [hsizes, List.getElem?_append, List.length_replicate] at h
  split at h
  next hlt =>
    rw [if_pos hlt]
    exact List.eq_of_mem_replicate (List.mem_of_getElem? h)
  next hge =>
    rw [if_neg hge]
    exact List.eq_of_mem_replicate (List.mem_of_getElem? h)

/-- The first longer block stands after the short ones. -/
theorem findIdx_longer (ec : Nat) :
    (d.map (emptyBlock ec)).findIdx (fun b => a + ec < b.buf.length) = L := by
  rw [hsizes, List.map_append, List.map_replicate, List.map_replicate, findIdx_append_of_tail, List.length_replicate]
  · intro b hb
    rw [List.eq_of_mem_replicate hb, emptyBlock, List.length_replicate]
    exact decide_eq_false (Nat.lt_irrefl _)
  · intro b hb
    rw [List.eq_of_mem_replicate hb, emptyBlock, List.length_replicate]
    exact decide_eq_true (by omega)

/-- The filled blocks are those of the loops from cursor 0 (R212, steps 3 to 5). -/
theorem fillBlocks_emptyBlocks (hne : d ≠ []) (ha : a = d.headD 0) (ec : Nat) (raw : List Byte) :
    fillBlocks ec raw (d.map (emptyBlock ec)) =
      (writeOrder d.length a L ec).foldl (writeNext raw) (d.map (emptyBlock ec), 0) := by
  have hshort : ((d.map (emptyBlock ec)).map fun b => b.buf.length).headD 0 = a + ec := by
    cases d with
    | nil => exact absurd rfl hne
    | cons x d => rw [ha]; exact List.length_replicate
  unfold fillBlocks
  dsimp only
  rw [hshort, findIdx_longer hsizes, List.length_map, Nat.add_sub_cancel]

end

theorem byteAt_emptyBlocks {d : List Nat} {j x i : Nat} (hj : d[j]? = some x) {ec : Nat} (hi : i < x + ec) :
    byteAt (d.map (emptyBlock ec)) (j, i) = some 0 := by
  rw [byteAt, List.getElem?_map, hj]
  exact (List.getElem?_replicate).trans (if_pos hi)

end Sys2Proof.Machine
end

section
/-! CLAIMS. Family 43_deinterleave: DEINT in closed form (spec/43_deinterleave.md R214). -/

namespace Sys2Proof.Machine

open Sys2Proof.Config

/-- Blocks of the sizes `d`, the first `L` of them of `a` data codewords, filled from RAW. -/
def filledBlocks (d : List Nat) (a L ec : Nat) (raw : List Byte) : List Block :=
  ((writeOrder d.length a L ec).foldl (writeNext raw) (d.map (emptyBlock ec), 0)).1

section
variable (d : List Nat) (a L ec : Nat) (raw : List Byte)

theorem filledBlocks_ndata : (filledBlocks d a L ec raw).map Block.ndata = d := by
  refine (foldl_writeNext_ndata raw _ _).trans ?_
  rw [List.map_map]
  exact List.map_id d

theorem filledBlocks_lengths : (filledBlocks d a L ec raw).map (fun b => b.buf.length) = d.map (· + ec) := by
  refine (foldl_writeNext_lengths raw _ _).trans ?_
  rw [List.map_map]
  exact List.map_congr_left fun x _ => List.length_replicate

variable {d a L ec raw} {j : Nat} {b : Block} (hb : (filledBlocks d a L ec raw)[j]? = some b)
include hb

theorem getElem?_of_filledBlocks : d[j]? = some b.ndata := by
  have hndata := filledBlocks_ndata d a L ec raw
  rw [← hndata, List.getElem?_map, hb]
  rfl

/-- A byte that the loops write is the one of its index. -/
theorem filledBlocks_getD {i : Nat} (hi : i < b.ndata + ec) (hwritten : (j, i) ∈ writeOrder d.length a L ec) :
    b.buf.getD i 0 = raw.getD (rawIndex d.length a L (j, i)) 0 := by
  have hbyte := byteAt_foldl_writeNext (raw := raw) (blk := d.map (emptyBlock ec))
    (map_rawIndex_writeOrder (nb := d.length) (a := a) (L := L) ec) (j, i)
  rw [if_pos hwritten, byteAt_emptyBlocks (getElem?_of_filledBlocks hb) hi] at hbyte
  have hplace : b.buf[i]? = byteAt (filledBlocks d a L ec raw) (j, i) := by
    rw [byteAt, hb]
    rfl
  rw [List.getD_eq_getElem?_getD, hplace, filledBlocks, hbyte]
  rfl

variable (hsizes : d = List.replicate L a ++ List.replicate (d.length - L) (a + 1))
include hsizes

/-- The bytes of a filled block in closed form (R214). -/
theorem filledBlocks_closed_form :
    (∀ i, i < a → b.buf.getD i 0 = raw.getD (i * d.length + j) 0) ∧
      (L ≤ j → b.buf.getD a 0 = raw.getD (a * d.length + (j - L)) 0) ∧
      ∀ e, e < ec → b.buf.getD (b.ndata + e) 0 =
        raw.getD (a * d.length + (d.length - L) + e * d.length + j) 0 := by
  have hsize := getElem?_of_filledBlocks hb
  have hj : j < d.length := (List.getElem?_eq_some_iff.mp hsize).1
  have hndata := getElem?_sizes hsizes hsize
  refine ⟨fun i hi => ?_, fun hL => ?_, fun e he => ?_⟩
  · rw [← rawIndex_data hi]
    exact filledBlocks_getD hb (by split at hndata <;> omega) (mem_writeOrder_data hj hi)
  · rw [← rawIndex_extra hL]
    exact filledBlocks_getD hb (by rw [hndata, if_neg (by omega)]; omega) (mem_writeOrder_extra hj hL)
  · have hplace : b.ndata + e = if j < L then a + e else a + e + 1 := by
      rw [hndata]
      split <;> omega
    rw [hplace, ← rawIndex_ecc]
    exact filledBlocks_getD hb (by omega) (mem_writeOrder_ecc hj he)

end

/-- The de-interleaver on a layout that passes its tests answers the filled blocks. -/
theorem deinterleave_blk {cfg : Params} {ver ecl : Byte} {raw : List Byte} {w : Work} {ec : Nat} {d : List Nat}
    (hlow : 1 ≤ ver.toNat) (hhigh : ver.toNat ≤ 40) (hecl : ecl.toNat ≤ 3)
    (hlen : (raw.length : Int) = totalOf cfg ver.toNat) (hwf : LayoutWf (layoutOf cfg ver.toNat ecl.toNat))
    (hec : ec = (layoutOf cfg ver.toNat ecl.toNat).ec)
    (hd : blockSizes (layoutOf cfg ver.toNat ecl.toNat).groups = d.map Nat.cast)
    (hsum : (d.map (· + ec)).sum = raw.length) :
    (deinterleave cfg ver ecl raw w).map Work.blk =
      .ok (filledBlocks d (d.headD 0) (d.count (d.headD 0)) ec raw) := by
  have hblocks := allocateBlocks_eq_map hec hd
  have hne : d ≠ [] := fun hnil => hwf.blockSizes_ne_nil (by rw [hd, hnil]; rfl)
  have hlengths : ((allocateBlocks (layoutOf cfg ver.toNat ecl.toNat)).map fun b => b.buf.length).sum = raw.length := by
    rw [hblocks, List.map_map, ← hsum]
    exact congrArg List.sum (List.map_congr_left fun x _ => List.length_replicate)
  rw [deinterleave_eq_ok.mpr ⟨hlow, hhigh, hecl, hlen, (wellFormedLayout_iff _).mpr hwf, hlengths, rfl⟩, hblocks, ← hec,
    Int.toNat_natCast, fillBlocks_emptyBlocks (hwf.sizes hd) hne rfl]
  rfl

/-- Settles O46: the answer of DEINT is the blocks that the loops fill, and those in closed form. -/
theorem deintInClosedForm : Obligations.DeintInClosedForm := by
  intro ver ecl raw s ec d hi hlow hhigh hecl hlen hwf hec hd hsum
  have hcast : blockSizes (layoutOf s.cfg ver.toNat ecl.toNat).groups = d.map Nat.cast :=
    hd.trans ((List.map_id' _).trans (List.flatMap_pure_eq_map _ d))
  have hndata := filledBlocks_ndata d (d.headD 0) (d.count (d.headD 0)) ec raw
  refine ⟨_, ?_, hndata, filledBlocks_lengths d _ _ ec raw, fun j b hb => ?_⟩
  · have hlength := congrArg List.length hndata
    rw [List.length_map] at hlength
    refine (execDeint_eq_answer ver ecl raw s).trans ?_
    rw [deinterleave_blk hlow hhigh hecl hlen hwf hec hcast hsum, ← hlength]
    exact answer_ok_ended hi
  · obtain ⟨hdata, hextra, hecc⟩ := filledBlocks_closed_form hb (hwf.sizes hcast)
    refine ⟨hdata, ?_⟩
    rintro L rfl
    exact ⟨hextra, hecc⟩

end Sys2Proof.Machine
end
